-- ==== Sys2Proof/Word.lean ====
section
/-!
DEFINITION. The words of the RH-M4 (bytes, samples, sequence numbers, stamps, identities), the four slot
numbers, and the record of one value per slot.
-/
namespace Sys2Proof

/-- One byte of a control link frame or a radio frame (R179). -/
abbrev Byte := BitVec 8

/-- One audio sample, 16-bit two's complement (00_scope.md, Numbers and units). -/
abbrev Sample := BitVec 16

/-- A radio link handle; 0 is not a handle (R44). -/
abbrev Handle := BitVec 8

/-- A sequence number, compared modulo 65,536 (00_scope.md, Numbers and units). -/
abbrev SeqNum := BitVec 16

/-- A radio time stamp in ticks, compared modulo 2^32 (00_scope.md, Numbers and units). -/
abbrev Stamp := BitVec 32

/-- The 48-bit identity an earbud reports (00_scope.md, Terms). -/
abbrev Identity := BitVec 48

/-- The number of a mix period, modulo 2^32 (R79). -/
abbrev PeriodNumber := BitVec 32

/-- The slot numbers 0..3 (R1). -/
inductive SlotId where
  | s0 | s1 | s2 | s3
deriving DecidableEq, Repr

/-- The slots in slot order 0 to 3. -/
def SlotId.all : List SlotId := [.s0, .s1, .s2, .s3]

/-- The number of a slot. -/
def SlotId.num : SlotId → Nat
  | .s0 => 0
  | .s1 => 1
  | .s2 => 2
  | .s3 => 3

/-- One value for each of the four slots; number and order are fixed (R1). -/
structure PerSlot (α : Type) where
  s0 : α
  s1 : α
  s2 : α
  s3 : α
deriving DecidableEq, Repr

variable {α β : Type}

/-- The value of slot `i`. -/
def PerSlot.get (p : PerSlot α) : SlotId → α
  | .s0 => p.s0
  | .s1 => p.s1
  | .s2 => p.s2
  | .s3 => p.s3

/-- The record with slot `i`'s value replaced. -/
def PerSlot.set (p : PerSlot α) (i : SlotId) (a : α) : PerSlot α :=
  match i with
  | .s0 => { p with s0 := a }
  | .s1 => { p with s1 := a }
  | .s2 => { p with s2 := a }
  | .s3 => { p with s3 := a }

/-- The record whose slot `i` holds `f i`. -/
def PerSlot.tabulate (f : SlotId → α) : PerSlot α :=
  { s0 := f .s0, s1 := f .s1, s2 := f .s2, s3 := f .s3 }

/-- The record that holds `a` for every slot. -/
def PerSlot.const (a : α) : PerSlot α :=
  { s0 := a, s1 := a, s2 := a, s3 := a }

/-- Every slot's value changed by `f`. -/
def PerSlot.map (f : α → β) (p : PerSlot α) : PerSlot β :=
  { s0 := f p.s0, s1 := f p.s1, s2 := f p.s2, s3 := f p.s3 }

end Sys2Proof
end

