-- ==== Sys2Proof/Config.lean ====
section
/-!
DEFINITION. The numbers the manual fixes for the part, and the one value it leaves open.
-/
namespace Sys2Proof.Config

/-- Vendor code of IDENT (R167). -/
def vendorCode : BitVec 16 := 0x2F61

/-- Part code of IDENT (R167). -/
def partCode : BitVec 16 := 0x0D04

/-- Revision of IDENT and READY (R167, R176). -/
def revision : Byte := 0x03

/-- One mix period of 80 nominal samples, in ticks (R77). -/
abbrev mixPeriodTicks : Nat := 122880

/-- The strobe timeout, 2 ms in ticks (R71, R73). -/
abbrev strobeTimeoutTicks : Nat := 49152

/-- The inter-byte timeout, 10 ms in ticks (R161). -/
abbrev interByteTicks : Nat := 245760

/-- Samples in an audio block, strobes in a call period, outputs of a pass (R50, R71, R99). -/
abbrev blockSamples : Nat := 80

/-- Capacity of a sample ring (R50). -/
abbrev ringCapacity : Nat := 1024

/-- One whole sample of phase, 2^20 (R50, R99). -/
abbrev phaseOne : Nat := 1048576

/-- Strobes that a call window spans after its first (R87). -/
abbrev callWindowStrobes : Nat := 5120

/-- Nominal ticks of a complete call window (R87). -/
abbrev callWindowTicks : Nat := 7864320

/-- The stall threshold in mix periods (R6). -/
abbrev stallThreshold : Nat := 4

/-- The fill difference that a pair bears without resynchronisation (R40). -/
abbrev pairFillTolerance : Nat := 40

/-- Samples of prompt memory (R150). -/
abbrev promptSamples : Nat := 16384

/-- Entries of the pending link list (R13). -/
abbrev pendingCapacity : Nat := 4

/-- Records of the profile table (R18). -/
abbrev profileCapacity : Nat := 8

/-- Replies the reply stream holds (R164). -/
abbrev replyCapacity : Nat := 8

/-- The longest body of a control link frame (R161). -/
abbrev maxBody : Nat := 248

/-- FREE VALUE (DESIGN CHOICE, log 13). The measured value of a call window that closes at a tick `tick` not
later than its start `start`: R87 says strobes come at rising ticks, so the manual gives no value here. -/
opaque callMeasuredWithoutSpan : (start tick : Nat) → Int

end Sys2Proof.Config
end

