-- ==== Sys2Proof/Syntax.lean ====
section
/-!
DEFINITION. The commands of the RH-M4: one constructor for each row of spec/opcode_table.json, in the table's
order. A request's operands are the fields of its body at their widths on the wire (R180), after the tag its frame
carries; a radio message's operands are the fields of its frame (R182). `tick` is the REFCLK tick at which a command
is taken (log 1).
-/
namespace Sys2Proof

/-- A profile record as PROFILE.PUT carries it (R19, R180): the side is a byte not yet checked, the seed a signed
byte and the targets 16-bit numbers not yet clamped. -/
structure ProfileFields where
  identity : Identity
  side : Byte
  partnerIdentity : Option Identity
  autoAdmit : Bool
  seed : Byte
  inboundTarget : Option (BitVec 16)
  outboundTarget : Option (BitVec 16)
deriving DecidableEq, Repr

/-- One entry of GAIN.SET: output index, input index and gain code (R119, R180). -/
structure GainEntry where
  output : Byte
  input : Byte
  gain : BitVec 16
deriving DecidableEq, Repr

/-- The codes with which the part refuses a frame or a request (R165). -/
inductive RefusalCode where
  | check | format | unknown | range | busy | pending | noLink | conflict | full | notFound | idle
deriving DecidableEq, Repr

/-- The request kinds 0x01..0x16 (R180). -/
inductive RequestKind where
  | ident | status | statsRead | captureRead | collect | maskSet | reset | profilePut | profileDrop | profileGet
  | admitLink | decline | remove | gainSet | gainGet | talkSet | watchSet | limitSet | promptLoad | promptPlay
  | promptMore | promptStop
deriving DecidableEq, Repr

/-- A command: a request's completed frame, a radio message, a strobe, a timer expiry, a departure or a pin event. -/
inductive Instr where
  | powerOnReset (tick : Nat)
  | interByteTimeout
  | refusedFrame (kind tag : Byte) (body : List Byte) (check : Byte)
  | replySent
  | ident (tag : Byte)
  | status (tag subject : Byte)
  | statsRead (tag slot clear : Byte)
  | captureRead (tag : Byte)
  | collect (tag : Byte)
  | maskSet (tag : Byte) (mask : BitVec 16)
  | reset (tag : Byte)
  | softReset (tick : Nat)
  | profilePut (tag : Byte) (profile : ProfileFields)
  | profileDrop (tag : Byte) (identity : Identity)
  | profileGet (tag : Byte) (identity : Identity)
  | admitLink (tag : Byte) (handle : Handle) (slot side partner : Byte)
      (inboundTarget outboundTarget : Option (BitVec 16)) (seed : Option Byte)
  | decline (tag : Byte) (handle : Handle)
  | remove (tag slot : Byte)
  | gainSet (tag : Byte) (entries : List GainEntry)
  | gainGet (tag : Byte)
  | talkSet (tag : Byte) (gate hysteresis duckWeight gateWeight : Option (BitVec 16))
  | watchSet (tag slot condition : Byte) (threshold : BitVec 16) (count : Byte)
  | limitSet (tag : Byte) (slotLimit callLimit pairTolerance : Option (BitVec 16)) (lossTimeout : Option Byte)
      (ramp : Option (BitVec 16))
  | promptLoad (tag : Byte) (offset : BitVec 16) (samples : List Sample)
  | promptPlay (tag : Byte) (start length : BitVec 16) (repeats gap : Byte)
  | promptMore (tag : Byte) (n : BitVec 16)
  | promptStop (tag : Byte)
  | radioFrame (bytes : List Byte)
  | linkUp (handle : Handle) (identity : Identity) (mic : Bool)
  | linkDown (handle : Handle) (reason : Byte)
  | mic (handle : Handle) (seq : SeqNum) (stamp : Stamp) (bad : Bool) (samples : List Sample)
  | pull (handle : Handle) (seq : SeqNum) (stamp : Stamp)
  | portReset
  | strobe (tick : Nat) (downlink : Sample)
  | strobeTimeout
  | localTimerExpiry
  | controlLinkByte (tick : Nat) (byte : Byte)
  | resetAsserted
  | radioMessageSent
deriving DecidableEq, Repr

end Sys2Proof
end

