-- ==== Sys2Proof/WellFormed.lean ====
section
/-!
DEFINITION. Which commands the lines outside the part can carry: the counts and values that a frame of the
command's kind can hold (R119, R152, R161, R182). The meanings are total; an ill-formed command is answered as the
frame it would be (refused FORMAT, or a radio frame in error).
-/
namespace Sys2Proof

/-- A MIC carries exactly 80 samples (R45, R182). -/
def isBlock (samples : List Sample) : Bool := samples.length == Config.blockSamples

/-- Handle 0 is not a handle; a radio frame that carries it is malformed (R44, R45). -/
def isHandle (h : Handle) : Bool := h != 0

/-- A GAIN.SET body holds 1..30 entries (R119). -/
def gainCountOk (entries : List GainEntry) : Bool := 1 ≤ entries.length && entries.length ≤ 30

/-- A PROMPT.LOAD body holds 1..120 samples (R152). -/
def loadCountOk (samples : List Sample) : Bool := 1 ≤ samples.length && samples.length ≤ 120

/-- The checks of each kind of command. -/
def Instr.wellFormed : Instr → Bool
  | .powerOnReset _ => true
  | .interByteTimeout => true
  | .refusedFrame _ _ body _ => body.length ≤ Config.maxBody
  | .replySent => true
  | .ident _ => true
  | .status _ _ => true
  | .statsRead _ _ _ => true
  | .captureRead _ => true
  | .collect _ => true
  | .maskSet _ _ => true
  | .reset _ => true
  | .softReset _ => true
  | .profilePut _ _ => true
  | .profileDrop _ _ => true
  | .profileGet _ _ => true
  | .admitLink _ _ _ _ _ _ _ _ => true
  | .decline _ _ => true
  | .remove _ _ => true
  | .gainSet _ entries => gainCountOk entries
  | .gainGet _ => true
  | .talkSet _ _ _ _ _ => true
  | .watchSet _ _ _ _ _ => true
  | .limitSet _ _ _ _ _ _ => true
  | .promptLoad _ _ samples => loadCountOk samples
  | .promptPlay _ _ _ _ _ => true
  | .promptMore _ _ => true
  | .promptStop _ => true
  | .radioFrame _ => true
  | .linkUp h _ _ => isHandle h
  | .linkDown h _ => isHandle h
  | .mic h _ _ _ samples => isHandle h && isBlock samples
  | .pull h _ _ => isHandle h
  | .portReset => true
  | .strobe _ _ => true
  | .strobeTimeout => true
  | .localTimerExpiry => true
  | .controlLinkByte _ _ => true
  | .resetAsserted => true
  | .radioMessageSent => true

end Sys2Proof
end

