-- ==== Sys2Proof/Decode.lean ====
section
/-!
DEFINITION. Bytes to commands: the fields of R179, the control link frames and request bodies of R180, the radio
frames of R182, and the writers of the same layouts. Total on any bytes; what cannot be read is refused by name.
-/
namespace Sys2Proof

/-! ### Fields (R179): least significant byte first -/

/-- A two-byte field. -/
def le16 (b0 b1 : Byte) : BitVec 16 := b1 ++ b0

/-- A four-byte field. -/
def le32 (b0 b1 b2 b3 : Byte) : BitVec 32 := b3 ++ (b2 ++ (b1 ++ b0))

/-- A six-byte field. -/
def le48 (b0 b1 b2 b3 b4 b5 : Byte) : BitVec 48 := b5 ++ (b4 ++ (b3 ++ (b2 ++ (b1 ++ b0))))

/-- Byte number `k` of a field, byte 0 the least significant. -/
def byteAt {w : Nat} (x : BitVec w) (k : Nat) : Byte := x.extractLsb' (8 * k) 8

/-- The two bytes of a field. -/
def bytes16 (x : BitVec 16) : List Byte := [byteAt x 0, byteAt x 1]

/-- The four bytes of a field. -/
def bytes32 (x : BitVec 32) : List Byte := [byteAt x 0, byteAt x 1, byteAt x 2, byteAt x 3]

/-- The six bytes of a field. -/
def bytes48 (x : BitVec 48) : List Byte :=
  [byteAt x 0, byteAt x 1, byteAt x 2, byteAt x 3, byteAt x 4, byteAt x 5]

/-- A one-byte flag in a request: clear when 0, set when any other value. -/
def flagOf (b : Byte) : Bool := b != 0

/-- A flag as it is sent: 1 when set, 0 when clear. The manual says so of the replaced flag of PROFILE.PUT alone (11.3.1);
that every other set flag is sent as 1 is a DESIGN CHOICE (log 26). -/
def flagByte (f : Bool) : Byte := if f then 1 else 0

/-- An optional field: absent when its bit of the presence byte is clear, whatever its bytes hold. -/
def present {α : Type} (p : Byte) (bit : Nat) (x : α) : Option α := if p.getLsbD bit then some x else none

/-- A presence byte from the presence of its fields, bit 0 first. The bits that a body's table does not assign are sent as
0: a DESIGN CHOICE (log 27), since R179 says only that they are ignored on receipt. -/
def presenceByte (fields : List Bool) : Byte :=
  fields.foldr (fun f acc => (if f then 1 else 0) + acc + acc) 0

/-- A 16-bit optional field as it is sent: every byte 0 when absent. -/
def optBytes16 (x : Option (BitVec 16)) : List Byte := bytes16 (x.getD 0)

/-- Samples in time order, two bytes each; `none` when a byte is left over. -/
def samplesOfBytes : List Byte → Option (List Sample)
  | [] => some []
  | lo :: hi :: rest => (samplesOfBytes rest).map (le16 lo hi :: ·)
  | [_] => none

/-- The bytes of samples in time order. -/
def bytesOfSamples (samples : List Sample) : List Byte := samples.flatMap bytes16

/-! ### Control link frames (R161, R163, R180) -/

/-- The start byte of a control link frame (R180). -/
def startByte : Byte := 0xC3

/-- The sum, modulo 256, of bytes. -/
def byteSum (bytes : List Byte) : Byte := bytes.foldl (· + ·) 0

/-- The bytes of a frame after its start byte and before its check: length, kind, tag, body. -/
def frameHead (kind tag : Byte) (body : List Byte) : List Byte :=
  BitVec.ofNat 8 body.length :: kind :: tag :: body

/-- The check byte: it makes the bytes from the length byte through the check sum to 0 modulo 256. -/
def frameCheck (kind tag : Byte) (body : List Byte) : Byte := -(byteSum (frameHead kind tag body))

/-- A whole control link frame. -/
def controlFrame (kind tag : Byte) (body : List Byte) : List Byte :=
  startByte :: (frameHead kind tag body ++ [frameCheck kind tag body])

/-! ### Request kinds and bodies (R180, 11.3.1) -/

/-- The kind byte of a request. -/
def RequestKind.code : RequestKind → Byte
  | .ident => 0x01
  | .status => 0x02
  | .statsRead => 0x03
  | .captureRead => 0x04
  | .collect => 0x05
  | .maskSet => 0x06
  | .reset => 0x07
  | .profilePut => 0x08
  | .profileDrop => 0x09
  | .profileGet => 0x0A
  | .admitLink => 0x0B
  | .decline => 0x0C
  | .remove => 0x0D
  | .gainSet => 0x0E
  | .gainGet => 0x0F
  | .talkSet => 0x10
  | .watchSet => 0x11
  | .limitSet => 0x12
  | .promptLoad => 0x13
  | .promptPlay => 0x14
  | .promptMore => 0x15
  | .promptStop => 0x16

/-- Every request kind, in code order. -/
def RequestKind.all : List RequestKind :=
  [.ident, .status, .statsRead, .captureRead, .collect, .maskSet, .reset, .profilePut, .profileDrop, .profileGet,
    .admitLink, .decline, .remove, .gainSet, .gainGet, .talkSet, .watchSet, .limitSet, .promptLoad, .promptPlay,
    .promptMore, .promptStop]

/-- The request kind a kind byte names; any other byte names none (R180). -/
def RequestKind.ofCode (b : Byte) : Option RequestKind := RequestKind.all.find? (fun k => k.code == b)

/-- The entries of a GAIN.SET body, four bytes each; `none` when bytes are left over (R119). -/
def entriesOfBytes : List Byte → Option (List GainEntry)
  | [] => some []
  | o :: i :: g0 :: g1 :: rest =>
    (entriesOfBytes rest).map ({ output := o, input := i, gain := le16 g0 g1 } :: ·)
  | _ => none

/-- The bytes of one GAIN.SET entry. -/
def bytesOfEntry (e : GainEntry) : List Byte := e.output :: e.input :: bytes16 e.gain

/-- The profile record of a PROFILE.PUT body, 20 bytes. -/
def profileOfBytes : List Byte → Option ProfileFields
  | [p, a0, a1, a2, a3, a4, a5, side, b0, b1, b2, b3, b4, b5, auto, seed, i0, i1, o0, o1] =>
    some
      { identity := le48 a0 a1 a2 a3 a4 a5, side := side,
        partnerIdentity := present p 0 (le48 b0 b1 b2 b3 b4 b5),
        autoAdmit := flagOf auto, seed := seed,
        inboundTarget := present p 1 (le16 i0 i1), outboundTarget := present p 2 (le16 o0 o1) }
  | _ => none

/-- The identity of a PROFILE.DROP or PROFILE.GET body. -/
def identityOfBytes : List Byte → Option Identity
  | [a0, a1, a2, a3, a4, a5] => some (le48 a0 a1 a2 a3 a4 a5)
  | _ => none

/-- A two-byte body. -/
def wordOfBytes : List Byte → Option (BitVec 16)
  | [b0, b1] => some (le16 b0 b1)
  | _ => none

/-- A one-byte body. -/
def byteOfBytes : List Byte → Option Byte
  | [b] => some b
  | _ => none

/-- A request with no body. -/
def bareRequest (i : Instr) : List Byte → Option Instr
  | [] => some i
  | _ => none

/-- A STATS.READ body. -/
def statsReadOfBytes (tag : Byte) : List Byte → Option Instr
  | [slot, clear] => some (.statsRead tag slot clear)
  | _ => none

/-- An ADMIT body. -/
def admitOfBytes (tag : Byte) : List Byte → Option Instr
  | [handle, slot, side, partner, p, i0, i1, o0, o1, seed] =>
    some (.admitLink tag handle slot side partner (present p 0 (le16 i0 i1)) (present p 1 (le16 o0 o1))
      (present p 2 seed))
  | _ => none

/-- A GAIN.SET body: 1..30 entries. -/
def gainSetOfBytes (tag : Byte) (body : List Byte) : Option Instr :=
  match entriesOfBytes body with
  | some entries => if gainCountOk entries then some (.gainSet tag entries) else none
  | none => none

/-- A TALK.SET body. -/
def talkSetOfBytes (tag : Byte) : List Byte → Option Instr
  | [p, g0, g1, h0, h1, d0, d1, w0, w1] =>
    some (.talkSet tag (present p 0 (le16 g0 g1)) (present p 1 (le16 h0 h1)) (present p 2 (le16 d0 d1))
      (present p 3 (le16 w0 w1)))
  | _ => none

/-- A WATCH.SET body. -/
def watchSetOfBytes (tag : Byte) : List Byte → Option Instr
  | [slot, condition, t0, t1, count] => some (.watchSet tag slot condition (le16 t0 t1) count)
  | _ => none

/-- A LIMIT.SET body. -/
def limitSetOfBytes (tag : Byte) : List Byte → Option Instr
  | [p, s0, s1, c0, c1, t0, t1, loss, r0, r1] =>
    some (.limitSet tag (present p 0 (le16 s0 s1)) (present p 1 (le16 c0 c1)) (present p 2 (le16 t0 t1))
      (present p 3 loss) (present p 4 (le16 r0 r1)))
  | _ => none

/-- A PROMPT.LOAD body: an offset and 1..120 samples. -/
def promptLoadOfBytes (tag : Byte) : List Byte → Option Instr
  | o0 :: o1 :: rest =>
    match samplesOfBytes rest with
    | some samples => if loadCountOk samples then some (.promptLoad tag (le16 o0 o1) samples) else none
    | none => none
  | _ => none

/-- A PROMPT.PLAY body. -/
def promptPlayOfBytes (tag : Byte) : List Byte → Option Instr
  | [a0, a1, l0, l1, r, gap] => some (.promptPlay tag (le16 a0 a1) (le16 l0 l1) r gap)
  | _ => none

/-- A request body of kind `k`, read by the layout of 11.3.1. `none` when the kind does not take the body's length
(R163, third check). -/
def bodyRequest (tag : Byte) (k : RequestKind) (body : List Byte) : Option Instr :=
  match k with
  | .ident => bareRequest (.ident tag) body
  | .status => (byteOfBytes body).map (.status tag)
  | .statsRead => statsReadOfBytes tag body
  | .captureRead => bareRequest (.captureRead tag) body
  | .collect => bareRequest (.collect tag) body
  | .maskSet => (wordOfBytes body).map (.maskSet tag)
  | .reset => bareRequest (.reset tag) body
  | .profilePut => (profileOfBytes body).map (.profilePut tag)
  | .profileDrop => (identityOfBytes body).map (.profileDrop tag)
  | .profileGet => (identityOfBytes body).map (.profileGet tag)
  | .admitLink => admitOfBytes tag body
  | .decline => (byteOfBytes body).map (.decline tag)
  | .remove => (byteOfBytes body).map (.remove tag)
  | .gainSet => gainSetOfBytes tag body
  | .gainGet => bareRequest (.gainGet tag) body
  | .talkSet => talkSetOfBytes tag body
  | .watchSet => watchSetOfBytes tag body
  | .limitSet => limitSetOfBytes tag body
  | .promptLoad => promptLoadOfBytes tag body
  | .promptPlay => promptPlayOfBytes tag body
  | .promptMore => (wordOfBytes body).map (.promptMore tag)
  | .promptStop => bareRequest (.promptStop tag) body

/-- The second and third checks of R163 on a frame whose sum holds: the request it carries, or the code with which
it is refused. -/
def decodeRequest (kind tag : Byte) (body : List Byte) : Except RefusalCode Instr :=
  match RequestKind.ofCode kind with
  | none => .error .unknown
  | some k =>
    match bodyRequest tag k body with
    | none => .error .format
    | some i => .ok i

/-- All three checks of R163, in order, on the bytes of a completed frame. -/
def decodeFrame (kind tag : Byte) (body : List Byte) (check : Byte) : Except RefusalCode Instr :=
  if byteSum (frameHead kind tag body) + check = 0 then decodeRequest kind tag body else .error .check

/-- The kind, tag and body of the frame that carries a request (11.3.1); `none` for a command that is no request. -/
def Instr.requestFrame : Instr → Option (RequestKind × Byte × List Byte)
  | .ident tag => some (.ident, tag, [])
  | .status tag subject => some (.status, tag, [subject])
  | .statsRead tag slot clear => some (.statsRead, tag, [slot, clear])
  | .captureRead tag => some (.captureRead, tag, [])
  | .collect tag => some (.collect, tag, [])
  | .maskSet tag mask => some (.maskSet, tag, bytes16 mask)
  | .reset tag => some (.reset, tag, [])
  | .profilePut tag p =>
    some (.profilePut, tag,
      presenceByte [p.partnerIdentity.isSome, p.inboundTarget.isSome, p.outboundTarget.isSome] ::
        (bytes48 p.identity ++ p.side :: (bytes48 (p.partnerIdentity.getD 0) ++ flagByte p.autoAdmit :: p.seed ::
          (optBytes16 p.inboundTarget ++ optBytes16 p.outboundTarget))))
  | .profileDrop tag identity => some (.profileDrop, tag, bytes48 identity)
  | .profileGet tag identity => some (.profileGet, tag, bytes48 identity)
  | .admitLink tag handle slot side partner inT outT seed =>
    some (.admitLink, tag, handle :: slot :: side :: partner :: presenceByte [inT.isSome, outT.isSome, seed.isSome] ::
      (optBytes16 inT ++ optBytes16 outT ++ [seed.getD 0]))
  | .decline tag handle => some (.decline, tag, [handle])
  | .remove tag slot => some (.remove, tag, [slot])
  | .gainSet tag entries => some (.gainSet, tag, entries.flatMap bytesOfEntry)
  | .gainGet tag => some (.gainGet, tag, [])
  | .talkSet tag g h d w =>
    some (.talkSet, tag, presenceByte [g.isSome, h.isSome, d.isSome, w.isSome] ::
      (optBytes16 g ++ optBytes16 h ++ optBytes16 d ++ optBytes16 w))
  | .watchSet tag slot condition threshold count =>
    some (.watchSet, tag, slot :: condition :: (bytes16 threshold ++ [count]))
  | .limitSet tag s c t loss r =>
    some (.limitSet, tag, presenceByte [s.isSome, c.isSome, t.isSome, loss.isSome, r.isSome] ::
      (optBytes16 s ++ optBytes16 c ++ optBytes16 t ++ loss.getD 0 :: optBytes16 r))
  | .promptLoad tag offset samples => some (.promptLoad, tag, bytes16 offset ++ bytesOfSamples samples)
  | .promptPlay tag start length r gap => some (.promptPlay, tag, bytes16 start ++ bytes16 length ++ [r, gap])
  | .promptMore tag n => some (.promptMore, tag, bytes16 n)
  | .promptStop tag => some (.promptStop, tag, [])
  | .powerOnReset _ => none
  | .interByteTimeout => none
  | .refusedFrame _ _ _ _ => none
  | .replySent => none
  | .softReset _ => none
  | .radioFrame _ => none
  | .linkUp _ _ _ => none
  | .linkDown _ _ => none
  | .mic _ _ _ _ _ => none
  | .pull _ _ _ => none
  | .portReset => none
  | .strobe _ _ => none
  | .strobeTimeout => none
  | .localTimerExpiry => none
  | .controlLinkByte _ _ => none
  | .resetAsserted => none
  | .radioMessageSent => none

/-! ### Radio frames (R182) -/

/-- The sum, modulo 65,536, of bytes. -/
def radioSum (bytes : List Byte) : BitVec 16 := bytes.foldl (fun acc b => acc + b.setWidth 16) 0

/-- A radio frame: kind byte and body, then the 2-byte check that makes the sum 0. -/
def radioFrameBytes (message : List Byte) : List Byte := message ++ bytes16 (-(radioSum message))

/-- The message before the check, where the check of a whole frame holds. -/
def checkedMessage (bytes : List Byte) : Option (List Byte) :=
  match bytes.drop (bytes.length - 2) with
  | [lo, hi] =>
    if radioSum (bytes.take (bytes.length - 2)) + le16 lo hi = 0 then some (bytes.take (bytes.length - 2)) else none
  | _ => none

/-- A radio message by kind, length and handle (R182). `none` when the frame is to be discarded. -/
def messageCommand : List Byte → Option Instr
  | kind :: handle :: rest =>
    if handle = 0 then none
    else if kind = 0x11 then
      match rest with
      | [a0, a1, a2, a3, a4, a5, flag] => some (.linkUp handle (le48 a0 a1 a2 a3 a4 a5) (flagOf flag))
      | _ => none
    else if kind = 0x12 then
      match rest with
      | [reason] => some (.linkDown handle reason)
      | _ => none
    else if kind = 0x13 then
      match rest with
      | q0 :: q1 :: t0 :: t1 :: t2 :: t3 :: flags :: samples =>
        match samplesOfBytes samples with
        | some block =>
          if isBlock block then some (.mic handle (le16 q0 q1) (le32 t0 t1 t2 t3) (flags.getLsbD 0) block) else none
        | none => none
      | _ => none
    else if kind = 0x14 then
      match rest with
      | [q0, q1, t0, t1, t2, t3] => some (.pull handle (le16 q0 q1) (le32 t0 t1 t2 t3))
      | _ => none
    else none
  | [kind] => if kind = 0x1F then some .portReset else none
  | [] => none

/-- The command a radio frame carries; `none` when R45 discards the frame. -/
def decodeRadio (bytes : List Byte) : Option Instr := (checkedMessage bytes).bind messageCommand

/-- The message bytes of an inbound radio message (R182), before its check; `none` for any other command. -/
def Instr.radioMessage : Instr → Option (List Byte)
  | .linkUp handle identity present => some (0x11 :: handle :: (bytes48 identity ++ [flagByte present]))
  | .linkDown handle reason => some [0x12, handle, reason]
  | .mic handle seq stamp bad samples =>
    some (0x13 :: handle :: (bytes16 seq ++ bytes32 stamp ++ flagByte bad :: bytesOfSamples samples))
  | .pull handle seq stamp => some (0x14 :: handle :: (bytes16 seq ++ bytes32 stamp))
  | .portReset => some [0x1F]
  | .powerOnReset _ => none
  | .interByteTimeout => none
  | .refusedFrame _ _ _ _ => none
  | .replySent => none
  | .ident _ => none
  | .status _ _ => none
  | .statsRead _ _ _ => none
  | .captureRead _ => none
  | .collect _ => none
  | .maskSet _ _ => none
  | .reset _ => none
  | .softReset _ => none
  | .profilePut _ _ => none
  | .profileDrop _ _ => none
  | .profileGet _ _ => none
  | .admitLink _ _ _ _ _ _ _ _ => none
  | .decline _ _ => none
  | .remove _ _ => none
  | .gainSet _ _ => none
  | .gainGet _ => none
  | .talkSet _ _ _ _ _ => none
  | .watchSet _ _ _ _ _ => none
  | .limitSet _ _ _ _ _ _ => none
  | .promptLoad _ _ _ => none
  | .promptPlay _ _ _ _ _ => none
  | .promptMore _ _ => none
  | .promptStop _ => none
  | .radioFrame _ => none
  | .strobe _ _ => none
  | .strobeTimeout => none
  | .localTimerExpiry => none
  | .controlLinkByte _ _ => none
  | .resetAsserted => none
  | .radioMessageSent => none

/-- The command that a word spells by the opcode table's bits: the table gives no row any bits (log 16). -/
def decodeTableWord (_nbits _w : Nat) : Option Instr := none

end Sys2Proof
end

