-- ==== Sys2Proof/Machine/State.lean ====
section
/-!
DEFINITION. The state of the part, block by block (00_scope.md 1.3), as plain data; the reasons a step can stop; the
state after power-on reset. Ranges stand in the docstrings; Sys2Proof/Safety.lean states them.
-/
namespace Sys2Proof.Machine

/-! ### Names -/

/-- The six slot states (R3). -/
inductive SlotState where
  | empty | measuring | filling | active | stalled | lost
deriving DecidableEq, Repr

/-- The ear an earbud serves (R1). -/
inductive Side where
  | mono | left | right
deriving DecidableEq, Repr

/-- A slot's part in a pair (R1, R28). -/
inductive Role where
  | solo | leader | follower
deriving DecidableEq, Repr

/-- The call states (R69). -/
inductive CallState where
  | absent | locking | running
deriving DecidableEq, Repr

/-- What raises mix periods (R76). -/
inductive Pacing where
  | byCall | byLocal
deriving DecidableEq, Repr

/-- The level watch conditions (R145). -/
inductive WatchCondition where
  | off | above | below
deriving DecidableEq, Repr

/-- The states of the prompt player (R151). -/
inductive PromptState where
  | idle | playing | gap
deriving DecidableEq, Repr

/-- The anomaly kinds of the capture record (R66). -/
inductive AnomalyKind where
  | late | skip | bad | inOverrun | inStarve | outShort | unbound | window | radioFrame
deriving DecidableEq, Repr

/-- The reasons of a SLOT notice (R4). -/
inductive SlotReason where
  | admitted | active | stalled | resumed | lostTimeout | lostDown | portReset | recovering | relinked | role
  | failRate | failSilent | failDown
deriving DecidableEq, Repr

/-- The causes of a TALK notice (R143). -/
inductive TalkCause where
  | level | inactive
deriving DecidableEq, Repr

/-- The reasons of a SKEW notice (R42). -/
inductive SkewReason where
  | rate | fill
deriving DecidableEq, Repr

/-- The reasons of a READY notice (R176). -/
inductive ReadyReason where
  | power | soft
deriving DecidableEq, Repr

/-- The reasons of a CALL notice (R75). -/
inductive CallReason where
  | strobes | locked | rate | timeout
deriving DecidableEq, Repr

/-- The reasons of a PROMPT notice (R158). -/
inductive PromptReason where
  | done | stopped
deriving DecidableEq, Repr

/-! ### Notices (R172) -/

/-- What a notice is about (R172). -/
inductive Subject where
  | slot (i : SlotId)
  | device
deriving DecidableEq, Repr

/-- The eleven notice kinds (R172). -/
inductive NoticeKind where
  | slot | rate | level | talk | skew | ready | call | join | prompt | capture | mixsat
deriving DecidableEq, Repr

/-- Fields of a SLOT notice (R4). -/
structure SlotNotice where
  reason : SlotReason
  state : SlotState
  role : Role
  partner : Option SlotId
  handle : Option Handle
  identity : Option Identity
  linkReason : Option Byte
deriving DecidableEq, Repr

/-- Fields of a RATE notice (R93). -/
structure RateNotice where
  state : SlotState
  measured : Int
  estimate : Int
  slotLimit : Nat
  failCount : Nat
  blocks : Nat
  ticks : BitVec 32
deriving DecidableEq, Repr

/-- Fields of a LEVEL notice (R146). -/
structure LevelNotice where
  condition : WatchCondition
  threshold : Nat
  count : Nat
  level : Nat
  mixPeriod : PeriodNumber
deriving DecidableEq, Repr

/-- Fields of a TALK notice (R143). -/
structure TalkNotice where
  cause : TalkCause
  partner : SlotId
  level : Nat
  partnerLevel : Nat
  partnerState : SlotState
  mixPeriod : PeriodNumber
deriving DecidableEq, Repr

/-- Fields of a SKEW notice (R42). -/
structure SkewNotice where
  reason : SkewReason
  leader : SlotId
  followerValue : Int
  leaderValue : Int
  difference : Int
deriving DecidableEq, Repr

/-- Fields of a READY notice (R176). -/
structure ReadyNotice where
  reason : ReadyReason
  revision : Byte
  mixPeriod : PeriodNumber
deriving DecidableEq, Repr

/-- Fields of a CALL notice (R75). -/
structure CallNotice where
  reason : CallReason
  state : CallState
  estimate : Int
  measured : Option Int
  rateFailures : Nat
  mixPeriod : PeriodNumber
deriving DecidableEq, Repr

/-- Fields of a JOIN notice (R17). -/
structure JoinNotice where
  handle : Handle
  identity : Identity
  mic : Bool
  entries : Nat
  dropped : Option Handle
deriving DecidableEq, Repr

/-- Fields of a PROMPT notice (R158). -/
structure PromptNotice where
  reason : PromptReason
  start : Nat
  length : Nat
  stateLeft : PromptState
  remaining : Nat
  mixPeriod : PeriodNumber
deriving DecidableEq, Repr

/-- Fields of a CAPTURE notice (R66). -/
structure CaptureNotice where
  kind : AnomalyKind
  slot : Option SlotId
deriving DecidableEq, Repr

/-- Fields of a MIXSAT notice (R133): bit 0 of the mask stands for U, bits 1..4 for O0..O3. -/
structure MixsatNotice where
  mask : BitVec 5
  mixPeriod : PeriodNumber
  samples : Nat
  pacing : Pacing
deriving DecidableEq, Repr

/-- A notice's kind, subject and fields: five kinds are about a slot, six about the device (R172). -/
inductive NoticeBody where
  | slot (i : SlotId) (n : SlotNotice)
  | rate (i : SlotId) (n : RateNotice)
  | level (i : SlotId) (n : LevelNotice)
  | talk (i : SlotId) (n : TalkNotice)
  | skew (i : SlotId) (n : SkewNotice)
  | ready (n : ReadyNotice)
  | call (n : CallNotice)
  | join (n : JoinNotice)
  | prompt (n : PromptNotice)
  | capture (n : CaptureNotice)
  | mixsat (n : MixsatNotice)
deriving DecidableEq, Repr

/-- A queued notice; its occurrence count lies within 1..255 (R173). -/
structure Notice where
  count : Nat
  body : NoticeBody
deriving DecidableEq, Repr

/-- The notice queue: oldest first, and one mask flag per kind, bit n the kind with mask bit n (R172, R175). -/
structure NoticeQueue where
  queue : List Notice
  mask : BitVec 11
deriving DecidableEq, Repr

/-! ### Slots and their rings (R1, R50, R65, R83, R136) -/

/-- The inbound ring (R50): samples oldest first, 0..1024; phase fraction 0..1,048,575; run 0..255. -/
structure InRing where
  samples : List Sample
  phase : Nat
  expected : Option SeqNum
  history : Option (List Sample)
  run : Nat
deriving DecidableEq, Repr

/-- The outbound ring (R50): samples oldest first, 0..1024; phase fraction 0..1,048,575. -/
structure OutRing where
  samples : List Sample
  phase : Nat
  lastStep : Option Nat
  lastServed : Option SeqNum
deriving DecidableEq, Repr

/-- The eleven statistics counters, each 0..65535 (R65). -/
structure Stats where
  micIn : Nat
  concealed : Nat
  skipped : Nat
  late : Nat
  bad : Nat
  inOverrun : Nat
  inStarve : Nat
  pulls : Nat
  outShort : Nat
  outOverrun : Nat
  resync : Nat
deriving DecidableEq, Repr

/-- An OPEN rate window's start (R83); a WAITING window is no window. -/
structure RateWindow where
  startSeq : SeqNum
  startStamp : Stamp
deriving DecidableEq, Repr

/-- A slot's talker state (R136): S 0..32768, weight 0..4096. -/
structure Talker where
  level : Nat
  primary : Bool
  weight : Nat
deriving DecidableEq, Repr

/-- A slot's level watch (R136): threshold 0..32768, count 1..255, run 0..255. -/
structure LevelWatch where
  condition : WatchCondition
  threshold : Nat
  count : Nat
  run : Nat
deriving DecidableEq, Repr

/-- A slot record (R1) with what belongs to the slot: rings, rate window, counters, talker state, level watch. -/
structure Slot where
  state : SlotState
  handle : Option Handle
  identity : Option Identity
  side : Side
  role : Role
  partner : Option SlotId
  mic : Bool
  inTarget : Nat
  outTarget : Nat
  estimate : Int
  firstWindow : Bool
  failCount : Nat
  idle : Nat
  window : Option RateWindow
  inRing : InRing
  outRing : OutRing
  stats : Stats
  talker : Talker
  watch : LevelWatch
deriving DecidableEq, Repr

/-- A record of the profile table (R18). -/
structure Profile where
  identity : Identity
  side : Side
  partnerIdentity : Option Identity
  autoAdmit : Bool
  seed : Int
  inTarget : Option Nat
  outTarget : Option Nat
deriving DecidableEq, Repr

/-! ### Radio port, call port, rates and limits -/

/-- An entry of the pending link list (R13). -/
structure PendingLink where
  handle : Handle
  identity : Identity
  mic : Bool
deriving DecidableEq, Repr

/-- A message of the outgoing radio stream (R44, R63). -/
inductive RadioOut where
  | spk (handle : Handle) (seq : SeqNum) (silent short : Bool) (samples : List Sample)
  | release (handle : Handle)
deriving DecidableEq, Repr

/-- The radio port unit (R44): the pending link list and the outgoing stream, both oldest first, and the bytes of
the frame last sent (log 12). -/
structure RadioPort where
  pendingLinks : List PendingLink
  outgoing : List RadioOut
  line : List Byte
deriving DecidableEq, Repr

/-- The call port (R68). The pacing source follows the call state (R76) and is computed. `uplink` is the sample last
driven on the uplink data line (R71). -/
structure CallPort where
  state : CallState
  captureHalf : List Sample
  playHalf : List Sample
  strobeCount : Nat
  strobeTimer : Option Nat
  localTimer : Option Nat
  lastMixTick : Option Nat
  rateFailures : Nat
  uplink : Sample
deriving DecidableEq, Repr

/-- An OPEN call window (R87). -/
structure CallWindow where
  startTick : Nat
  counted : Nat
deriving DecidableEq, Repr

/-- The call's rate state: the estimate in eighth-ppm, and the window, none when CLOSED (R87). -/
structure CallRate where
  estimate : Int
  window : Option CallWindow
deriving DecidableEq, Repr

/-- The five values of LIMIT.SET (R94). -/
structure Limits where
  slotLimit : Nat
  callLimit : Nat
  pairTolerance : Nat
  lossTimeout : Nat
  ramp : Nat
deriving DecidableEq, Repr

/-! ### Mix engine, talker parameters, prompt player, capture record -/

/-- The six gains of one output: D, E0..E3, P, each 0..8191 (R117). -/
structure GainRow where
  d : Nat
  e : PerSlot Nat
  p : Nat
deriving DecidableEq, Repr

/-- Thirty gains: the uplink row and the row of each slot's output (R117). -/
structure GainMatrix where
  u : GainRow
  o : PerSlot GainRow
deriving DecidableEq, Repr

/-- The mix engine: target gains, applied gains, mix period count (R79, R117). -/
structure MixEngine where
  targets : GainMatrix
  applied : GainMatrix
  period : PeriodNumber
deriving DecidableEq, Repr

/-- The talker parameters (R136): G and H 0..32768, the weights 0..4096. -/
structure TalkParams where
  gate : Nat
  hysteresis : Nat
  duckWeight : Nat
  gateWeight : Nat
deriving DecidableEq, Repr

/-- A play in progress (R151): region start, region length, read position, plays still to follow, and the gap in
mix periods. -/
structure Play where
  start : Nat
  length : Nat
  position : Nat
  remaining : Nat
  gap : Nat
deriving DecidableEq, Repr

/-- The play record (R151). In IDLE no region is held, remaining and the gap count are 0; the gap count is held in
GAP only. -/
inductive Player where
  | idle
  | playing (play : Play)
  | gap (play : Play) (count : Nat)
deriving DecidableEq, Repr

/-- One listed sample of the prompt memory: its address and its value. -/
abbrev PromptCell := Nat × Sample

/-- The prompt player: its memory, listed in canonical form (Machine/PromptMemory.lean), and its play record. -/
structure PromptPlayer where
  memory : List PromptCell
  player : Player
deriving DecidableEq, Repr

/-- The anomaly held by a full capture record (R66); the sequence number and stamp are present together (R180). -/
structure Anomaly where
  kind : AnomalyKind
  slot : Option SlotId
  handle : Option Handle
  message : Option (SeqNum × Stamp)
  mixPeriod : PeriodNumber
deriving DecidableEq, Repr

/-- The capture record, empty or full, and the further-count 0..255 (R66). -/
structure Capture where
  record : Option Anomaly
  further : Nat
deriving DecidableEq, Repr

/-! ### Replies (R163, R180) -/

/-- The fields that STATUS of a slot reports (R168). -/
structure SlotStatus where
  slot : SlotId
  state : SlotState
  side : Side
  role : Role
  partner : Option SlotId
  handle : Option Handle
  identity : Option Identity
  mic : Bool
  inFill : Nat
  outFill : Nat
  inTarget : Nat
  outTarget : Nat
  estimate : Int
  firstWindow : Bool
  failCount : Nat
  inStep : Option Nat
  outStep : Option Nat
  lastServed : Option SeqNum
  level : Nat
  primary : Bool
  weight : Nat
  idle : Nat
deriving DecidableEq, Repr

/-- The fields that STATUS of the device reports (R169). -/
structure DeviceStatus where
  callState : CallState
  pacing : Pacing
  estimate : Int
  rateFailures : Nat
  period : PeriodNumber
  player : Player
  pendingLinks : List PendingLink
  queued : Nat
  attn : Bool
  captureFull : Bool
deriving DecidableEq, Repr

/-- The result of an accepted ADMIT (R25). -/
structure Admission where
  slot : SlotId
  handle : Handle
  identity : Identity
  side : Side
  role : Role
  partner : Option SlotId
  inTarget : Nat
  outTarget : Nat
  seed : Int
  estimate : Int
deriving DecidableEq, Repr

/-- The result of a DONE reply, one form for each request kind (R180, 11.3.1). -/
inductive Result where
  | ident (vendor part : BitVec 16) (revision : Byte)
  | statusSlot (status : SlotStatus)
  | statusDevice (status : DeviceStatus)
  | stats (slot : SlotId) (state : SlotState) (counters : Stats)
  | capture (record : Option (Anomaly × Nat))
  | collect (left : Nat) (notice : Option Notice)
  | maskSet (mask : BitVec 11) (attn : Bool)
  | reset
  | profilePut (record : Profile) (replaced : Bool)
  | profileDrop (identity : Identity)
  | profileGet (record : Profile)
  | admitLink (admission : Admission)
  | decline (handle : Handle) (identity : Identity)
  | remove (slot : SlotId) (stateLeft : SlotState) (identity : Option Identity) (handle : Option Handle)
  | gainSet (entries : List GainEntry)
  | gainGet (targets applied : GainMatrix)
  | talkSet (params : TalkParams)
  | watchSet (slot : SlotId) (condition : WatchCondition) (threshold count : Nat)
  | limitSet (limits : Limits)
  | promptLoad (offset written : Nat)
  | promptPlay (start length repeats gap : Nat)
  | promptMore (remaining : Nat)
  | promptStop (stateLeft : PromptState) (remaining : Nat)
deriving DecidableEq, Repr

/-- What a reply says: DONE with a request kind's result, or REFUSED with a code and the kind byte of the frame as
received (R163). -/
inductive ReplyBody where
  | done (kind : RequestKind) (result : Result)
  | refused (code : RefusalCode) (kind : Byte)
deriving DecidableEq, Repr

/-- A reply of the reply stream: it echoes the tag of the frame it answers (R163). -/
structure ReplyFrame where
  tag : Byte
  body : ReplyBody
deriving DecidableEq, Repr

/-! ### Control link unit (R160) -/

/-- Which byte of a frame the receiver expects next (R160). -/
inductive RxPhase where
  | hunting | length | kind | tag | body | check
deriving DecidableEq, Repr

/-- The receive assembly (R160): what has been received of the frame under way, and the inter-byte timer. -/
structure Receiver where
  phase : RxPhase
  length : Option Nat
  kind : Option Byte
  tag : Option Byte
  body : List Byte
  sum : Byte
  timer : Option Nat
deriving DecidableEq, Repr

/-- The mode of the control link unit (R160): OPEN or RESETTING. -/
inductive LinkMode where
  | normal | resetting
deriving DecidableEq, Repr

/-- The control link unit (R160): receiver, reply stream oldest first, mode, and the bytes of the frame last sent
(log 12). -/
structure ControlLink where
  receiver : Receiver
  replies : List ReplyFrame
  mode : LinkMode
  line : List Byte
deriving DecidableEq, Repr

/-! ### The whole part -/

/-- The state of the part, block by block, and the queue of waiting commands (oldest first). -/
structure State where
  link : ControlLink
  notices : NoticeQueue
  radio : RadioPort
  profiles : List Profile
  slots : PerSlot Slot
  call : CallPort
  rate : CallRate
  limits : Limits
  mix : MixEngine
  talk : TalkParams
  prompt : PromptPlayer
  capture : Capture
  resetHeld : Bool
  pending : List Instr
deriving DecidableEq, Repr

/-- Why a step faults: it never does, for the manual names no event that stops the part (log 20). No constructor:
nobody raises one. -/
inductive Fault : Type
deriving DecidableEq, Repr

/-- Why a step is refused. -/
inductive Refusal where
  /-- Raised by an arm of `exec` whose command has no meaning yet; no arm is left so. Safe: nothing is claimed. -/
  | notModelled (mnemonic : String)
deriving DecidableEq, Repr

/-! ### The values after power-on reset -/

/-- A receiver that is HUNTING with no partial frame and its timer absent (R160; the sum: log 18). -/
def Receiver.idle : Receiver :=
  { phase := .hunting, length := none, kind := none, tag := none, body := [], sum := 0, timer := none }

/-- An inbound ring as a flush leaves it (R52). -/
def InRing.flushed : InRing :=
  { samples := [], phase := 0, expected := none, history := none, run := 0 }

/-- An outbound ring as a flush leaves it (R52). -/
def OutRing.flushed : OutRing :=
  { samples := [], phase := 0, lastStep := none, lastServed := none }

/-- All counters 0 (R2, R65). -/
def Stats.zero : Stats :=
  { micIn := 0, concealed := 0, skipped := 0, late := 0, bad := 0, inOverrun := 0, inStarve := 0, pulls := 0,
    outShort := 0, outOverrun := 0, resync := 0 }

/-- A slot record after power-on reset (R2, R137). -/
def Slot.initial : Slot :=
  { state := .empty, handle := none, identity := none, side := .mono, role := .solo, partner := none, mic := false,
    inTarget := 320, outTarget := 240, estimate := 0, firstWindow := false, failCount := 0, idle := 0, window := none,
    inRing := .flushed, outRing := .flushed, stats := .zero,
    talker := { level := 0, primary := false, weight := 1024 },
    watch := { condition := .off, threshold := 0, count := 1, run := 0 } }

/-- Eighty zero samples. -/
def silence : List Sample := List.replicate Config.blockSamples 0

/-- A row of gains of 0. -/
def GainRow.zero : GainRow := { d := 0, e := .const 0, p := 0 }

/-- A matrix of gains of 0. -/
def GainMatrix.zero : GainMatrix := { u := .zero, o := .const .zero }

/-- The target gains after power-on reset (R118): sidetone 256, downlink and prompt at unity into each ear, the four
microphones at unity on the uplink. -/
def GainMatrix.powerOnTargets : GainMatrix :=
  { u := { d := 0, e := .const 4096, p := 0 },
    o := .tabulate fun i => { d := 4096, e := (PerSlot.const 0).set i 256, p := 4096 } }

/-- The limits after power-on reset (R94). -/
def Limits.powerOn : Limits :=
  { slotLimit := 2400, callLimit := 1600, pairTolerance := 400, lossTimeout := 40, ramp := 256 }

/-- The talker parameters after power-on reset (R137). -/
def TalkParams.powerOn : TalkParams :=
  { gate := 300, hysteresis := 600, duckWeight := 512, gateWeight := 1024 }

/-- The call port after either reset that completes at `tick` (R68, R77), with `uplink` on the uplink data line. -/
def CallPort.afterReset (tick : Nat) (uplink : Sample) : CallPort :=
  { state := .absent, captureHalf := silence, playHalf := silence, strobeCount := 0, strobeTimer := none,
    localTimer := some (tick + Config.mixPeriodTicks), lastMixTick := none, rateFailures := 0, uplink := uplink }

/-- The READY notice of a reset (R176). -/
def readyNotice (reason : ReadyReason) : Notice :=
  { count := 1, body := .ready { reason := reason, revision := Config.revision, mixPeriod := 0 } }

/-- The part right after a power-on reset that completes at tick 0 (R176, log 16): every block at its power-on
values, the notice queue holding READY reason POWER, no command waiting. -/
def State.reset : State :=
  { link := { receiver := .idle, replies := [], mode := .normal, line := [] },
    notices := { queue := [readyNotice .power], mask := 0 },
    radio := { pendingLinks := [], outgoing := [], line := [] },
    profiles := [],
    slots := .const .initial,
    call := .afterReset 0 0,
    rate := { estimate := 0, window := none },
    limits := .powerOn,
    mix := { targets := .powerOnTargets, applied := .zero, period := 0 },
    talk := .powerOn,
    prompt := { memory := [], player := .idle },
    capture := { record := none, further := 0 },
    resetHeld := false,
    pending := [] }

end Sys2Proof.Machine
end

