-- ==== Sys2Proof/Machine/Flags.lean ====
section
/-!
DEFINITION. The levels and tests that are computed from State: live and acquiring slots, notice kinds and subjects,
the ATTN output, the pacing source, whether the control link is listening.
-/
namespace Sys2Proof.Machine

/-- A slot is live in ACTIVE and STALLED (R3). -/
def SlotState.live (x : SlotState) : Bool := x == .active || x == .stalled

/-- A slot is acquiring in MEASURING and FILLING (R3). -/
def SlotState.acquiring (x : SlotState) : Bool := x == .measuring || x == .filling

/-- The side opposite to a side, LEFT against RIGHT; MONO has none (R16). -/
def Side.opposite : Side → Option Side
  | .mono => none
  | .left => some .right
  | .right => some .left

/-- The kind of a notice (R172). -/
def NoticeBody.kind : NoticeBody → NoticeKind
  | .slot _ _ => .slot
  | .rate _ _ => .rate
  | .level _ _ => .level
  | .talk _ _ => .talk
  | .skew _ _ => .skew
  | .ready _ => .ready
  | .call _ => .call
  | .join _ => .join
  | .prompt _ => .prompt
  | .capture _ => .capture
  | .mixsat _ => .mixsat

/-- The subject of a notice (R172). -/
def NoticeBody.subject : NoticeBody → Subject
  | .slot i _ => .slot i
  | .rate i _ => .slot i
  | .level i _ => .slot i
  | .talk i _ => .slot i
  | .skew i _ => .slot i
  | .ready _ => .device
  | .call _ => .device
  | .join _ => .device
  | .prompt _ => .device
  | .capture _ => .device
  | .mixsat _ => .device

/-- Kind and subject: the queue holds at most one notice for each (R172). -/
def NoticeBody.key (b : NoticeBody) : NoticeKind × Subject := (b.kind, b.subject)

/-- The mask bit of a notice kind (11.2). -/
def NoticeKind.maskBit : NoticeKind → Nat
  | .slot => 0
  | .rate => 1
  | .level => 2
  | .talk => 3
  | .skew => 4
  | .ready => 5
  | .call => 6
  | .join => 7
  | .prompt => 8
  | .capture => 9
  | .mixsat => 10

/-- Whether the mask holds back a notice kind from ATTN (R175). -/
def NoticeQueue.masked (q : NoticeQueue) (k : NoticeKind) : Bool := q.mask.getLsbD k.maskBit

/-- Whether the queue holds a notice of an unmasked kind (R175). -/
def NoticeQueue.unmaskedQueued (q : NoticeQueue) : Bool := q.queue.any fun n => !q.masked n.body.kind

/-- Whether the queue holds a notice, masked or not, about a slot (R16, R22). -/
def NoticeQueue.holdsAbout (q : NoticeQueue) (i : SlotId) : Bool :=
  q.queue.any fun n => n.body.subject == .slot i

/-- ATTN: high while the queue holds a notice of an unmasked kind, low while RESET is held (R175, log 17). -/
def State.attn (s : State) : Bool := !s.resetHeld && s.notices.unmaskedQueued

/-- The pacing source: CALL while LOCKING or RUNNING, LOCAL while ABSENT (R76, log 17). -/
def CallState.pacing : CallState → Pacing
  | .absent => .byLocal
  | .locking => .byCall
  | .running => .byCall

/-- The pacing source of the part. -/
def State.pacing (s : State) : Pacing := s.call.state.pacing

/-- The receiver discards every byte while RESET is held (R160) and while the mode is RESETTING (R177). -/
def State.deaf (s : State) : Bool := s.resetHeld || s.link.mode == .resetting

end Sys2Proof.Machine
end

