-- ==== Sys2Proof/Machine/Arith.lean ====
section
/-!
DEFINITION. The arithmetic words of the manual (00_scope.md, Arithmetic), exact over the integers.
-/
namespace Sys2Proof.Machine

/-- round_half_away_from_zero(p / q), for q above 0: the nearest integer, a half going to the greater magnitude. -/
def roundHalfAway (p : Int) (q : Nat) : Int :=
  if p < 0 then -(((2 * p.natAbs + q) / (2 * q) : Nat) : Int) else (((2 * p.natAbs + q) / (2 * q) : Nat) : Int)

/-- trunc(p / q): the quotient with its fraction dropped, toward zero. -/
def truncDiv (p : Int) (q : Nat) : Int := Int.tdiv p q

/-- clamp(x, a, b) over the integers. -/
def clampInt (x a b : Int) : Int := if x < a then a else if b < x then b else x

/-- clamp(x, a, b) over the natural numbers. -/
def clampNat (x a b : Nat) : Nat := if x < a then a else if b < x then b else x

/-- A value clamped to a limit of either sign. -/
def clampSym (x : Int) (limit : Nat) : Int := clampInt x (-(limit : Int)) limit

/-- A 16-bit saturating counter increased by `n` (R65). -/
def satAdd16 (c n : Nat) : Nat := min 65535 (c + n)

/-- An 8-bit saturating counter increased by 1 (R5, R57, R66, R68, R173). -/
def satSucc8 (c : Nat) : Nat := min 255 (c + 1)

/-- One quarter of the way from an estimate toward a value, truncated toward zero (R89, R90). -/
def quarterStep (estimate c : Int) : Int := estimate + truncDiv (c - estimate) 4

/-- The sample nearest to an integer: saturation to −32768..32767 (R132). -/
def saturateSample (y : Int) : Sample := BitVec.ofInt 16 (clampInt y (-32768) 32767)

end Sys2Proof.Machine
end

