-- ==== Sys2Proof/Machine/Operands.lean ====
section
/-!
DEFINITION. The operands of requests: which slot, side, condition, path or subject a byte names (R179, 11.2), and the
clamps of R166.
-/
namespace Sys2Proof.Machine

/-- The slot a number names, 0..3. -/
def slotOfNum (n : Nat) : Option SlotId :=
  match n with
  | 0 => some .s0
  | 1 => some .s1
  | 2 => some .s2
  | 3 => some .s3
  | _ => none

/-- The slot a byte names; any byte outside 0..3 names none. -/
def slotOfByte (b : Byte) : Option SlotId := slotOfNum b.toNat

/-- The side a byte names: MONO 0, LEFT 1, RIGHT 2. -/
def sideOfByte (b : Byte) : Option Side :=
  if b = 0 then some .mono else if b = 1 then some .left else if b = 2 then some .right else none

/-- The watch condition a byte names: OFF 0, ABOVE 1, BELOW 2. -/
def conditionOfByte (b : Byte) : Option WatchCondition :=
  if b = 0 then some .off else if b = 1 then some .above else if b = 2 then some .below else none

/-- The subject a byte names: a slot 0..3, or DEVICE 0x80 (R168). -/
def subjectOfByte (b : Byte) : Option Subject :=
  if b = 0x80 then some .device else (slotOfByte b).map .slot

/-- The clear flag of STATS.READ, confined to 0 and 1 (R170, R179). -/
def clearFlagOfByte (b : Byte) : Option Bool :=
  if b = 0 then some false else if b = 1 then some true else none

/-- The partner byte of ADMIT: 0xFF gives no partner; another byte must name a slot (R21, R180). `none` when the byte
is out of range. -/
def partnerOfByte (b : Byte) : Option (Option SlotId) :=
  if b = 0xFF then some none else (slotOfByte b).map some

/-- Outputs of the gain matrix (R117). -/
inductive Output where
  | u
  | o (i : SlotId)
deriving DecidableEq, Repr

/-- Inputs of the gain matrix (R117). -/
inductive Input where
  | d
  | e (i : SlotId)
  | p
deriving DecidableEq, Repr

/-- The output an index names: 0 U, 1..4 O0..O3. -/
def outputOfByte (b : Byte) : Option Output :=
  if b = 0 then some .u else (slotOfNum (b.toNat - 1)).map .o

/-- The input an index names: 0 D, 1..4 E0..E3, 5 P. -/
def inputOfByte (b : Byte) : Option Input :=
  if b = 0 then some .d else if b = 5 then some .p else (slotOfNum (b.toNat - 1)).map .e

/-- One path's gain in a row. -/
def GainRow.get (r : GainRow) : Input → Nat
  | .d => r.d
  | .e i => r.e.get i
  | .p => r.p

/-- A row with one input's gain replaced. -/
def GainRow.set (r : GainRow) (i : Input) (g : Nat) : GainRow :=
  match i with
  | .d => { r with d := g }
  | .e j => { r with e := r.e.set j g }
  | .p => { r with p := g }

/-- The row of an output. -/
def GainMatrix.row (m : GainMatrix) : Output → GainRow
  | .u => m.u
  | .o i => m.o.get i

/-- The gain of the path `o` ← `i`. -/
def GainMatrix.get (m : GainMatrix) (o : Output) (i : Input) : Nat := (m.row o).get i

/-- The matrix with the gain of the path `o` ← `i` replaced. -/
def GainMatrix.set (m : GainMatrix) (o : Output) (i : Input) (g : Nat) : GainMatrix :=
  match o with
  | .u => { m with u := m.u.set i g }
  | .o j => { m with o := m.o.set j ((m.o.get j).set i g) }

/-- The row whose input `i` holds `f i`. -/
def GainRow.tabulate (f : Input → Nat) : GainRow :=
  { d := f .d, e := .tabulate fun j => f (.e j), p := f .p }

/-- The matrix whose path `o` ← `i` holds `f o i`. -/
def GainMatrix.tabulate (f : Output → Input → Nat) : GainMatrix :=
  { u := .tabulate (f .u), o := .tabulate fun j => .tabulate (f (.o j)) }

/-- A gain code clamped to 0..8191 (R119). -/
def clampGain (g : BitVec 16) : Nat := min 8191 g.toNat

/-- A ring target clamped to 160..800 (R24). -/
def clampTarget (t : Nat) : Nat := clampNat t 160 800

/-- A seed clamped to −15..+15 (R24). -/
def clampSeed (s : Int) : Int := clampInt s (-15) 15

/-- An optional setting: the clamped new value where present, else the value held (R94, R144). -/
def settingOr {w : Nat} (x : Option (BitVec w)) (lo hi held : Nat) : Nat :=
  match x with
  | some v => clampNat v.toNat lo hi
  | none => held

end Sys2Proof.Machine
end

