-- ==== Sys2Proof/Machine/Ops.lean ====
section
/-!
DEFINITION. The named operations that the blocks share: slot records, the notice queue, the capture record, the
outgoing radio stream, the zeroing of gains, the ways into EMPTY, LOST and MEASURING, and the pair rules.
-/
namespace Sys2Proof.Machine

/-! ### Slot records -/

/-- The record of slot `i`. -/
def State.slot (s : State) (i : SlotId) : Slot := s.slots.get i

/-- The part with slot `i`'s record replaced. -/
def State.setSlot (s : State) (i : SlotId) (x : Slot) : State := { s with slots := s.slots.set i x }

/-- The part with slot `i`'s record changed by `f`. -/
def State.modSlot (s : State) (i : SlotId) (f : Slot → Slot) : State := s.setSlot i (f (s.slot i))

/-- The part with slot `i`'s counters changed by `f` (R65). -/
def State.count (s : State) (i : SlotId) (f : Stats → Stats) : State :=
  s.modSlot i fun x => { x with stats := f x.stats }

/-- The slot that holds a handle (R44): a handle is bound to at most one. -/
def State.boundSlot (s : State) (h : Handle) : Option SlotId :=
  SlotId.all.find? fun i => (s.slot i).handle == some h

/-- The non-EMPTY slot that holds an identity (R1): at most one does. -/
def State.slotOfIdentity (s : State) (identity : Identity) : Option SlotId :=
  SlotId.all.find? fun i => (s.slot i).state != .empty && (s.slot i).identity == some identity

/-- The lowest-numbered EMPTY slot (R16). -/
def State.lowestEmpty (s : State) : Option SlotId :=
  SlotId.all.find? fun i => (s.slot i).state == .empty

/-! ### The notice queue (R172, R173) -/

/-- The fields a queued notice takes when a new one of its kind and subject coalesces with it: the new ones, but for
the mask of a MIXSAT, which is ORed into the queued mask (R133, R173). -/
def NoticeBody.over (new old : NoticeBody) : NoticeBody :=
  match new, old with
  | .mixsat n, .mixsat o => .mixsat { n with mask := n.mask ||| o.mask }
  | _, _ => new

/-- A raised notice coalesces in place with the queued one of its kind and subject, else joins the tail (R173). -/
def coalesce (b : NoticeBody) : List Notice → List Notice
  | [] => [{ count := 1, body := b }]
  | n :: rest =>
    if n.body.key = b.key then { count := satSucc8 n.count, body := b.over n.body } :: rest
    else n :: coalesce b rest

/-- A block raises a notice (R173). -/
def State.raise (s : State) (b : NoticeBody) : State :=
  { s with notices := { s.notices with queue := coalesce b s.notices.queue } }

/-- The fields of a SLOT notice about a slot as it stands after the change (R4). -/
def slotNotice (x : Slot) (reason : SlotReason) (handle : Option Handle) (linkReason : Option Byte) : SlotNotice :=
  { reason := reason, state := x.state, role := x.role, partner := x.partner, handle := handle,
    identity := x.identity, linkReason := linkReason }

/-- The slot table raises a SLOT notice on slot `i` (R4). -/
def State.raiseSlot (s : State) (i : SlotId) (reason : SlotReason) (handle : Option Handle)
    (linkReason : Option Byte) : State :=
  s.raise (.slot i (slotNotice (s.slot i) reason handle linkReason))

/-! ### The capture record (R66) -/

/-- An anomaly fills an empty capture record and raises CAPTURE, or adds to the further-count (R66). -/
def State.anomaly (s : State) (kind : AnomalyKind) (slot : Option SlotId) (handle : Option Handle)
    (message : Option (SeqNum × Stamp)) : State :=
  match s.capture.record with
  | none =>
    { s with capture :=
        { record := some
            { kind := kind, slot := slot, handle := handle, message := message, mixPeriod := s.mix.period },
          further := 0 } }.raise (.capture { kind := kind, slot := slot })
  | some _ => { s with capture := { s.capture with further := satSucc8 s.capture.further } }

/-- A discarded radio frame records RADIO_FRAME, with no slot, handle, sequence number or stamp (R45). -/
def State.badRadioFrame (s : State) : State := s.anomaly .radioFrame none none none

/-! ### The outgoing radio stream (R44, R49) -/

/-- A message joins the tail of the outgoing stream (R44). -/
def State.send (s : State) (m : RadioOut) : State :=
  { s with radio := { s.radio with outgoing := s.radio.outgoing ++ [m] } }

/-- RELEASE for a handle, where there is one (R49). -/
def State.release (s : State) (h : Option Handle) : State :=
  match h with
  | some handle => s.send (.release handle)
  | none => s

/-- The part with its pending link list replaced (R13). -/
def State.setPendingLinks (s : State) (links : List PendingLink) : State :=
  { s with radio := { s.radio with pendingLinks := links } }

/-- Whether a handle is pending (R44). -/
def State.isPending (s : State) (h : Handle) : Bool := s.radio.pendingLinks.any fun e => e.handle == h

/-- The pending entry for a handle is removed; the rest keep their order (R13). -/
def State.dropPending (s : State) (h : Handle) : State :=
  s.setPendingLinks (s.radio.pendingLinks.filter fun e => e.handle != h)

/-! ### Applied gains (R126) -/

/-- The gains of the column and the row of slot `i` set to 0 (R117, R126). -/
def GainMatrix.zeroSlot (m : GainMatrix) (i : SlotId) : GainMatrix :=
  .tabulate fun o j => if o = .o i ∨ j = .e i then 0 else m.get o j

/-- The applied gains of the column and the row of slot `i` set to 0 (R126, R127). -/
def State.zeroGains (s : State) (i : SlotId) : State :=
  { s with mix := { s.mix with applied := s.mix.applied.zeroSlot i } }

/-- The zeroing of R126, made when slot `i` leaves ACTIVE or STALLED for another state. -/
def State.zeroIfLive (s : State) (i : SlotId) (was : SlotState) : State :=
  if was.live then s.zeroGains i else s

/-! ### Ways into EMPTY, LOST and MEASURING, on a slot record -/

/-- Both rings flushed (R52). -/
def Slot.flush (x : Slot) : Slot := { x with inRing := .flushed, outRing := .flushed }

/-- A record that enters EMPTY by a cause other than a reset: the values of R2, its counters kept, S and the run
counter 0, the primary flag clear, the weight and the watch settings kept (R2, R136, R137). -/
def Slot.emptied (x : Slot) : Slot :=
  { Slot.initial with
    stats := x.stats
    talker := { level := 0, primary := false, weight := x.talker.weight }
    watch := { x.watch with run := 0 } }

/-- A record that enters LOST, with the handle it keeps or none: rings flushed, rate window reset; idle count,
estimate, talker state and counters kept (R5, R6, R11, R137). -/
def Slot.lost (x : Slot) (handle : Option Handle) : Slot :=
  { x.flush with state := .lost, handle := handle, window := none }

/-- A record that enters MEASURING, whatever the cause: idle and fail count 0, first-window flag clear, window
WAITING, rings empty, S and run counter 0 (R8, R137). -/
def Slot.measuring (x : Slot) : Slot :=
  { x.flush with
    state := .measuring
    idle := 0
    failCount := 0
    firstWindow := false
    window := none
    talker := { x.talker with level := 0 }
    watch := { x.watch with run := 0 } }

/-- Slot `i` enters EMPTY: its record emptied, its gains zeroed where it was live (R2, R3, R126). -/
def State.vacate (s : State) (i : SlotId) : State :=
  (s.setSlot i (s.slot i).emptied).zeroIfLive i (s.slot i).state

/-- Slot `i` enters LOST with `handle` kept or none: its gains zeroed where it was live (R3, R126). -/
def State.lose (s : State) (i : SlotId) (handle : Option Handle) : State :=
  (s.setSlot i ((s.slot i).lost handle)).zeroIfLive i (s.slot i).state

/-! ### Pairs (R28 to R35) -/

/-- The LEADER of a FOLLOWER. -/
def Slot.leader? (x : Slot) : Option SlotId := if x.role = .follower then x.partner else none

/-- The slot `x` is a FOLLOWER whose LEADER has just entered LOST while `x` is live: the roles swap (R31). -/
def swapsUp (x : Slot) (lost : SlotId → Bool) : Bool :=
  match x.leader? with
  | some k => x.state.live && lost k
  | none => false

/-- The member of a non-EMPTY slot's pair has entered EMPTY: the pair ends (R33). -/
def pairEnded (slots : PerSlot Slot) (i : SlotId) : Bool :=
  match (slots.get i).partner with
  | some k => (slots.get i).state != .empty && (slots.get k).state == .empty
  | none => false

/-- Slot `i` is a LEADER that has just entered LOST, and its FOLLOWER takes the lead (R31). -/
def swapsDown (slots : PerSlot Slot) (lost : SlotId → Bool) (i : SlotId) : Bool :=
  match (slots.get i).partner with
  | some k => (slots.get i).role == .leader && lost i && (slots.get k).leader? == some i && swapsUp (slots.get k) lost
  | none => false

/-- Slot `i`'s record after the pair rules R31 and R33, applied once to the states the slots hold; `lost` tells the
slots that have entered LOST within the event. -/
def pairedAfter (slots : PerSlot Slot) (lost : SlotId → Bool) (i : SlotId) : Slot :=
  let x := slots.get i
  if pairEnded slots i then
    { x with role := .solo, partner := none, talker := { x.talker with primary := false } }
  else if swapsUp x lost then { x with role := .leader }
  else if swapsDown slots lost i then { x with role := .follower }
  else x

/-- The slots on which the pair rules raise a ROLE notice: the new LEADER of R31, the remaining member of R33. -/
def roleChanged (slots : PerSlot Slot) (lost : SlotId → Bool) (i : SlotId) : Bool :=
  pairEnded slots i || swapsUp (slots.get i) lost

/-- ROLE notices in the order of their subjects, each with the handle the slot holds and no link reason (R6, R31,
R33, log 11). R6 gives that order for a mix period; for a PORT.RESET that ends two pairs the manual gives none, and slot
order is a DESIGN CHOICE (log 24). -/
def State.raiseRoles (s : State) (who : SlotId → Bool) : State :=
  SlotId.all.foldl (fun s i => if who i then s.raiseSlot i .role (s.slot i).handle none else s) s

/-- The pair rules of one event: roles and partners change, the event's own SLOT notices are raised (`own`), then the
ROLE notices (R6, R31, R33, R35). -/
def State.settlePairs (s : State) (lost : SlotId → Bool) (own : State → State) : State :=
  (own { s with slots := .tabulate (pairedAfter s.slots lost) }).raiseRoles (roleChanged s.slots lost)

/-- Slot `i`, entering ACTIVE as a FOLLOWER whose LEADER is LOST, takes the lead with a ROLE notice (R32). -/
def State.takeLead (s : State) (i : SlotId) : State :=
  match (s.slot i).leader? with
  | some k =>
    if (s.slot k).state = .lost then
      let s' := (s.modSlot i fun x => { x with role := .leader }).modSlot k fun x => { x with role := .follower }
      s'.raiseSlot i .role (s'.slot i).handle none
    else s
  | none => s

/-- Slot `i` and its new partner become a pair: the admitted slot FOLLOWER and the partner LEADER, but the other way
round where the partner is LOST (R25, R29); the LEADER is the primary (R30). -/
def State.formPair (s : State) (i partner : SlotId) : State :=
  let leads := (s.slot partner).state = .lost
  let mine : Role := if leads then .leader else .follower
  let theirs : Role := if leads then .follower else .leader
  (s.modSlot i fun x =>
      { x with role := mine, partner := some partner, talker := { x.talker with primary := leads } }).modSlot partner
    fun x => { x with role := theirs, partner := some i, talker := { x.talker with primary := !leads } }

/-- An admission that fails, or an acquiring slot whose link goes down: slot `i` enters EMPTY, its SLOT notice carries
the handle that was bound, and a pair it belonged to ends (R6, R8, R11, R33). -/
def State.failSlot (s : State) (i : SlotId) (reason : SlotReason) (linkReason : Option Byte) : State :=
  (s.vacate i).settlePairs (fun _ => false) fun t => t.raiseSlot i reason (s.slot i).handle linkReason

/-- A change made to every slot within one event (R6, R12): `f` gives each record after the change and the reason of
its SLOT notice. The gains of the slots that leave the live states are zeroed (R126), the pair rules are applied once,
the SLOT notices are raised in slot order, the ROLE notices after them (R6, R35). R31 concerns the slots whose reason
is `lostBy`. -/
def State.changeSlots (s : State) (f : Slot → Slot × Option SlotReason) (lostBy : Option SlotReason) : State :=
  let reason := fun i => (f (s.slot i)).2
  let changed := { s with slots := s.slots.map fun x => (f x).1 }
  let zeroed := SlotId.all.foldl
    (fun t i => if (s.slot i).state.live && !(changed.slot i).state.live then t.zeroGains i else t) changed
  zeroed.settlePairs (fun i => (reason i).isSome && reason i == lostBy) fun t =>
    SlotId.all.foldl
      (fun t i =>
        match reason i with
        | some r => t.raiseSlot i r (s.slot i).handle none
        | none => t)
      t

/-! ### Entering ACTIVE, and activity (R5, R7, R9, R10) -/

/-- A FILLING slot enters ACTIVE: its gains start from 0, SLOT reason ACTIVE is raised, and R32 applies (R9, R127). -/
def State.activate (s : State) (i : SlotId) : State :=
  (((s.modSlot i fun x => { x with state := .active }).zeroGains i).raiseSlot i .active (s.slot i).handle
    none).takeLead i

/-- The fill test of R9: a FILLING slot enters ACTIVE when its mic present flag is clear or its inbound fill has
reached its inbound target. -/
def State.fillTest (s : State) (i : SlotId) : State :=
  if (s.slot i).state = .filling ∧ (!(s.slot i).mic ∨ (s.slot i).inTarget ≤ (s.slot i).inRing.samples.length) then
    s.activate i
  else s

/-- Activity on slot `i`'s bound handle: the idle count becomes 0 (R5); a STALLED slot returns to ACTIVE (R7, R32);
a LOST slot moves to MEASURING by recovery (R10). -/
def State.activity (s : State) (i : SlotId) : State :=
  let s := s.modSlot i fun x => { x with idle := 0 }
  match (s.slot i).state with
  | .stalled =>
    ((s.modSlot i fun x => { x with state := .active }).raiseSlot i .resumed (s.slot i).handle none).takeLead i
  | .lost => (s.modSlot i Slot.measuring).raiseSlot i .recovering (s.slot i).handle none
  | _ => s

/-! ### Requests and replies (R163, R164, R165, R177) -/

/-- The receiver returns to HUNTING and its timer is cleared (R161). -/
def State.hunt (s : State) : State := { s with link := { s.link with receiver := .idle } }

/-- A reply joins the tail of the reply stream (R164). -/
def State.reply (s : State) (tag : Byte) (b : ReplyBody) : State :=
  { s with link := { s.link with replies := s.link.replies ++ [{ tag := tag, body := b }] } }

/-- A frame that completes (R161, R164, R177): while RESET is held or the mode is RESETTING its bytes were discarded
and nothing happens; else the receiver hunts, and where the reply stream has room the frame is `taken`. -/
def State.completeFrame (s : State) (taken : State → State) : State :=
  if s.deaf then s
  else if Config.replyCapacity ≤ s.link.replies.length then s.hunt
  else taken s.hunt

/-- A request is performed by the block that owns it (R163): DONE with its result, or REFUSED with a code and no
change of state (R165). The reply echoes the tag. -/
def State.request (s : State) (tag : Byte) (kind : RequestKind)
    (perform : State → Except RefusalCode (State × Result)) : State :=
  s.completeFrame fun s =>
    match perform s with
    | .ok (s', r) => s'.reply tag (.done kind r)
    | .error c => s.reply tag (.refused c kind.code)

end Sys2Proof.Machine
end

