-- ==== Sys2Proof/Machine/Rings.lean ====
section
/-!
DEFINITION. What arrivals do to the sample rings: classification by sequence number, concealment blocks, appends
under the overrun rule, trimming and the pair resynchronisation (R41, R54 to R61).
-/
namespace Sys2Proof.Machine

/-- How a MIC stands to the expected sequence (R54): late, or ahead of it by a gap of `g` blocks, 0 when in order. -/
inductive MicClass where
  | late
  | ahead (g : Nat)
deriving DecidableEq, Repr

/-- The classification of R54: in order when no sequence number is expected. -/
def classifyMic (expected : Option SeqNum) (seq : SeqNum) : MicClass :=
  match expected with
  | none => .ahead 0
  | some e => if (seq - e).toNat < 32768 then .ahead (seq - e).toNat else .late

/-- The concealment cap: whole blocks by which a fill stands below its target (R55). -/
def concealCap (target fill : Nat) : Nat := (target - fill) / Config.blockSamples

/-- The sample of a concealment block made at run `k` from a history sample: divided by 2^k toward zero for k up to 4,
0 from 5 on (R57). -/
def fadeSample (k : Nat) (h : Sample) : Sample :=
  if k ≤ 4 then BitVec.ofInt 16 (truncDiv h.toInt (2 ^ k)) else 0

/-- The concealment block made at run `k`; all zeros when no history is held (R57). -/
def concealBlock (history : Option (List Sample)) (k : Nat) : List Sample :=
  match history with
  | some h => h.map (fadeSample k)
  | none => silence

/-- Samples discarded from a ring so that a block of 80 fits: down to 944 when the fill plus 80 would pass 1024
(R59, R61). -/
def overrunDiscard (fill : Nat) : Nat :=
  if Config.ringCapacity < fill + Config.blockSamples then fill - (Config.ringCapacity - Config.blockSamples) else 0

/-- A block appended to an inbound ring, under the overrun rule where the slot is live (R58, R59), with the number of
samples discarded. -/
def InRing.append (r : InRing) (live : Bool) (block : List Sample) : InRing × Nat :=
  let n := if live then overrunDiscard r.samples.length else 0
  ({ r with samples := r.samples.drop n ++ block, phase := if n = 0 then r.phase else 0 }, n)

/-- `c` concealment blocks inserted one after another; the run rises before each is made (R57). The total discarded
by overrun comes with the ring. -/
def InRing.conceal (live : Bool) : Nat → InRing → InRing × Nat
  | 0, r => (r, 0)
  | c + 1, r =>
    let run := satSucc8 r.run
    let one := InRing.append { r with run := run } live (concealBlock r.history run)
    let rest := InRing.conceal live c one.1
    (rest.1, one.2 + rest.2)

/-- The real append of a block that is not BAD: it becomes the history and ends the concealment run (R57). -/
def InRing.appendReal (r : InRing) (live : Bool) (block : List Sample) : InRing × Nat :=
  InRing.append { r with history := some block, run := 0 } live block

/-- The trim of an acquiring slot's ring to its inbound target, oldest samples first (R58). -/
def InRing.trim (r : InRing) (target : Nat) : InRing :=
  { r with samples := r.samples.drop (r.samples.length - target) }

/-- A block of an earbud output appended to an outbound ring under the overrun rule, with the number of samples
discarded (R61). -/
def OutRing.append (r : OutRing) (block : List Sample) : OutRing × Nat :=
  let n := overrunDiscard r.samples.length
  ({ r with samples := r.samples.drop n ++ block, phase := if n = 0 then r.phase else 0 }, n)

/-- The FOLLOWER's ring made equal in fill and phase to the LEADER's: excess discarded from the oldest end, a
shortfall made up by zero samples ahead of the oldest (R41). -/
def OutRing.resync (r leader : OutRing) : OutRing :=
  let want := leader.samples.length
  { r with
    samples := List.replicate (want - r.samples.length) 0 ++ r.samples.drop (r.samples.length - want)
    phase := leader.phase }

end Sys2Proof.Machine
end

