-- ==== Sys2Proof/Machine/Resample.lean ====
section
/-!
DEFINITION. The resampling arithmetic: relative rate, fill correction, step, interpolation and the pass of 80
outputs (R96, R99 to R113).
-/
namespace Sys2Proof.Machine

/-- The fill correction, in eighth-ppm (R101, R102). -/
def fillCorrection (fill target : Nat) : Int := clampInt (2 * ((fill : Int) - target)) (-400) 400

/-- The step of a target deviation (R104), after the clamp of R103. -/
def stepOf (deviation : Int) : Nat :=
  ((Config.phaseOne : Int) +
    roundHalfAway ((Config.phaseOne : Int) * clampInt deviation (-8000) 8000) 8000000).toNat

/-- The rate estimate a slot is resampled with, the members' states being `states`: a FOLLOWER uses its LEADER's
while the LEADER is ACTIVE or STALLED, every other slot its own (R36, R96). -/
def slotRate (slots : PerSlot Slot) (states : PerSlot SlotState) (i : SlotId) : Int :=
  match (slots.get i).leader? with
  | some k => if (states.get k).live then (slots.get k).estimate else (slots.get i).estimate
  | none => (slots.get i).estimate

/-- The estimate of the clock that paces the mix: the call estimate under CALL pacing, 0 under LOCAL (R96). -/
def paceRate (callEstimate : Int) : Pacing → Int
  | .byCall => callEstimate
  | .byLocal => 0

/-- The states of the slots as they stand. -/
def State.slotStates (s : State) : PerSlot SlotState := s.slots.map fun x => x.state

/-- The inbound step of slot `i` under a pacing source, the slot states being `states` (R101, R103, R104). -/
def State.inboundStep (s : State) (states : PerSlot SlotState) (pacing : Pacing) (i : SlotId) : Nat :=
  stepOf (slotRate s.slots states i - paceRate s.rate.estimate pacing +
    fillCorrection (s.slot i).inRing.samples.length (s.slot i).inTarget)

/-- The outbound step that slot `i` computes for itself (R102, R103, R104). -/
def State.ownOutboundStep (s : State) (i : SlotId) : Nat :=
  stepOf (-(slotRate s.slots s.slotStates i - paceRate s.rate.estimate s.pacing) +
    fillCorrection (s.slot i).outRing.samples.length (s.slot i).outTarget)

/-- The outbound step of slot `i`: a FOLLOWER takes its LEADER's last outbound step when the LEADER is ACTIVE and
holds one, every other slot computes its own (R38, R113). -/
def State.outboundStep (s : State) (i : SlotId) : Nat :=
  match (s.slot i).leader? with
  | some k =>
    match (s.slot k).outRing.lastStep with
    | some step => if (s.slot k).state = .active then step else s.ownOutboundStep i
    | none => s.ownOutboundStep i
  | none => s.ownOutboundStep i

/-- One interpolated output between the two oldest samples (R107). -/
def interpolate (s0 s1 : Sample) (f : Nat) : Sample :=
  BitVec.ofInt 16 (s0.toInt + roundHalfAway ((s1.toInt - s0.toInt) * f) Config.phaseOne)

/-- What a pass gives: its outputs in order, the samples left in the ring, the phase fraction, and how many outputs
were short. -/
structure PassResult where
  outputs : List Sample
  left : List Sample
  phase : Nat
  short : Nat
deriving DecidableEq, Repr

/-- `n` outputs of a pass with one step: each is interpolated and releases samples (R107, R108), or is short, 0, and
moves nothing, when the ring holds fewer than 2 samples (R109). -/
def runPass (step : Nat) : Nat → List Sample → Nat → PassResult
  | 0, ring, f => { outputs := [], left := ring, phase := f, short := 0 }
  | n + 1, s0 :: s1 :: rest, f =>
    let after := runPass step n ((s0 :: s1 :: rest).drop ((f + step) / Config.phaseOne)) ((f + step) % Config.phaseOne)
    { after with outputs := interpolate s0 s1 f :: after.outputs }
  | n + 1, ring, f =>
    let after := runPass step n ring f
    { after with outputs := 0 :: after.outputs, short := after.short + 1 }

/-- The pass of 80 outputs (R99). -/
def fullPass (step : Nat) (ring : List Sample) (f : Nat) : PassResult := runPass step Config.blockSamples ring f

end Sys2Proof.Machine
end

