-- ==== Sys2Proof/Machine/MixEngine.lean ====
section
/-!
DEFINITION. The mix engine: gain requests, effective targets, the ramp, accumulation, saturation and delivery (R117 to
R134), and the pair fill check made at delivery (R40, R41).
-/
namespace Sys2Proof.Machine

/-! ### GAIN.SET and GAIN.GET (R119, R121) -/

/-- The path that a GAIN.SET entry names, and its gain clamped to 0..8191; `none` when an index is out of range. -/
def entryPath (e : GainEntry) : Option (Output × Input × Nat) :=
  match outputOfByte e.output, inputOfByte e.input with
  | some o, some i => some (o, i, clampGain e.gain)
  | _, _ => none

/-- Every entry's path, or `none` when any entry is out of range (R119: the part checks every entry first). -/
def entryPaths : List GainEntry → Option (List (Output × Input × Nat))
  | [] => some []
  | e :: rest =>
    match entryPath e, entryPaths rest with
    | some p, some ps => some (p :: ps)
    | _, _ => none

/-- Target gains written in list order; a later entry for one path stands (R119). -/
def writeGains (m : GainMatrix) : List (Output × Input × Nat) → GainMatrix
  | [] => m
  | (o, i, g) :: rest => writeGains (m.set o i g) rest

/-- An entry as the DONE reply carries it, with the gain as written (R119). -/
def entryWritten (e : GainEntry) : GainEntry := { e with gain := BitVec.ofNat 16 (clampGain e.gain) }

/-- GAIN.SET's checks and its effect (R119). -/
def performGainSet (entries : List GainEntry) (s : State) : Except RefusalCode (State × Result) :=
  if gainCountOk entries then
    match entryPaths entries with
    | none => .error .range
    | some paths =>
      .ok ({ s with mix := { s.mix with targets := writeGains s.mix.targets paths } },
        .gainSet (entries.map entryWritten))
  else .error .format

/-- GAIN_SET (R119). -/
def execGainSet (tag : Byte) (entries : List GainEntry) (s : State) : Host.Outcome State Fault Refusal :=
  .next (s.request tag .gainSet (performGainSet entries))

/-- GAIN_GET (R121). -/
def execGainGet (tag : Byte) (s : State) : Host.Outcome State Fault Refusal :=
  .next <| s.request tag .gainGet fun s => .ok (s, .gainGet s.mix.targets s.mix.applied)

/-! ### Effective targets and the ramp (R122 to R125) -/

/-- The uplink target of a microphone weighted by its talker weight, half upward (R122). -/
def weightedTarget (g w : Nat) : Nat := (g * w + 2048) / 4096

/-- Whether a period steps a path, the slot states being as raised (R125): a row or column of a slot only while the
slot is live; U←D and U←P every period. -/
def steppedPath (states : PerSlot SlotState) (o : Output) (i : Input) : Bool :=
  (match o with
    | .u => true
    | .o j => (states.get j).live) &&
  (match i with
    | .e k => (states.get k).live
    | _ => true)

/-- The effective target of a stepped path with target `g`, the states and talker weights being as raised (R122): the
column of a STALLED slot 0, an uplink microphone weighted, every other path its target. -/
def effectiveTarget (states : PerSlot SlotState) (weight : SlotId → Nat) (o : Output) (i : Input) (g : Nat) : Nat :=
  match i with
  | .e k =>
    if states.get k = .stalled then 0
    else
      match o with
      | .u => weightedTarget g (weight k)
      | .o _ => g
  | _ => g

/-- One step of the ramp from `a` toward `e` (R124). -/
def rampStep (ramp a e : Nat) : Nat :=
  if ramp = 0 then e
  else if e ≤ a + ramp ∧ a ≤ e + ramp then e
  else if a + ramp < e then a + ramp
  else a - ramp

/-- Stage 1 of a mix period: every stepped path ramps, every other is held at 0 (R124, R125). -/
def State.rampGains (s : State) (states : PerSlot SlotState) : State :=
  { s with mix :=
    { s.mix with
      applied := .tabulate fun o i =>
        if steppedPath states o i then
          rampStep s.limits.ramp (s.mix.applied.get o i)
            (effectiveTarget states (fun k => (s.slot k).talker.weight) o i (s.mix.targets.get o i))
        else 0 } }

/-! ### Inputs (R111, R129) -/

/-- The inbound pass of slot `i` in a period: its 80 outputs, the ring read, short outputs counted and recorded where
the mic present flag is set (R111). -/
def State.inboundPass (s : State) (states : PerSlot SlotState) (pacing : Pacing) (i : SlotId) : State × List Sample :=
  let x := s.slot i
  let r := fullPass (s.inboundStep states pacing i) x.inRing.samples x.inRing.phase
  let starved := x.mic && decide (0 < r.short)
  let s := s.setSlot i
    { x with
      inRing := { x.inRing with samples := r.left, phase := r.phase }
      stats := if starved then { x.stats with inStarve := satAdd16 x.stats.inStarve r.short } else x.stats }
  (if starved then s.anomaly .inStarve (some i) x.handle none else s, r.outputs)

/-- Input E_i of a period: the inbound pass of a slot that was live when the period was raised, else 80 zeros (R129). -/
def State.micInput (s : State) (states : PerSlot SlotState) (pacing : Pacing) (i : SlotId) : State × List Sample :=
  if (states.get i).live then s.inboundPass states pacing i else (s, silence)

/-- The four microphone inputs, in slot order 0 to 3 (R111, R129). -/
def State.micInputs (s : State) (states : PerSlot SlotState) (pacing : Pacing) : State × PerSlot (List Sample) :=
  let e0 := s.micInput states pacing .s0
  let e1 := e0.1.micInput states pacing .s1
  let e2 := e1.1.micInput states pacing .s2
  let e3 := e2.1.micInput states pacing .s3
  (e3.1, { s0 := e0.2, s1 := e1.2, s2 := e2.2, s3 := e3.2 })

/-! ### Accumulation and saturation (R130 to R133) -/

/-- The six inputs of a period, 80 samples each. -/
structure MixInputs where
  d : List Sample
  e : PerSlot (List Sample)
  p : List Sample
deriving DecidableEq, Repr

/-- The sample of a block at position `n`. -/
def sampleAt (block : List Sample) (n : Nat) : Int := (block.getD n 0).toInt

/-- The sum over the six inputs at position `n`, exact (R131). -/
def accumulator (g : GainRow) (x : MixInputs) (n : Nat) : Int :=
  g.d * sampleAt x.d n + g.e.s0 * sampleAt x.e.s0 n + g.e.s1 * sampleAt x.e.s1 n + g.e.s2 * sampleAt x.e.s2 n +
    g.e.s3 * sampleAt x.e.s3 n + g.p * sampleAt x.p n

/-- The rounded, unsaturated value of an output at position `n` (R131). -/
def mixedValue (g : GainRow) (x : MixInputs) (n : Nat) : Int := roundHalfAway (accumulator g x n) 4096

/-- The positions 0..79 of a block. -/
def positions : List Nat := List.range Config.blockSamples

/-- The 80 samples of an output, saturated (R131, R132). -/
def mixedBlock (g : GainRow) (x : MixInputs) : List Sample := positions.map fun n => saturateSample (mixedValue g x n)

/-- How many samples of an output are saturated (R132). -/
def saturatedCount (g : GainRow) (x : MixInputs) : Nat :=
  positions.countP fun n => decide (mixedValue g x n < -32768 ∨ 32767 < mixedValue g x n)

/-- The saturated samples of the outputs that a period forms: U under CALL pacing, O_i for a slot that was ACTIVE when
the period was raised (R130, R132). -/
def saturations (m : GainMatrix) (states : PerSlot SlotState) (pacing : Pacing) (x : MixInputs) : Output → Nat
  | .u => if pacing = .byCall then saturatedCount m.u x else 0
  | .o i => if states.get i = .active then saturatedCount (m.o.get i) x else 0

/-- The mask bit of an output with saturated samples: bit 0 U, bits 1..4 O0..O3 (R133, R181). -/
def maskBit (n bit : Nat) : BitVec 5 := if n = 0 then 0 else BitVec.ofNat 5 (2 ^ bit)

/-- MIXSAT at the close of stage 3, when any output saturated (R132, R133). -/
def State.raiseMixsat (s : State) (n : Output → Nat) (pacing : Pacing) : State :=
  let total := n .u + n (.o .s0) + n (.o .s1) + n (.o .s2) + n (.o .s3)
  if total = 0 then s
  else s.raise (.mixsat
    { mask := maskBit (n .u) 0 ||| maskBit (n (.o .s0)) 1 ||| maskBit (n (.o .s1)) 2 ||| maskBit (n (.o .s2)) 3 |||
        maskBit (n (.o .s3)) 4,
      mixPeriod := s.mix.period, samples := total, pacing := pacing })

/-! ### Delivery and the pair fill check (R40, R41, R61, R134) -/

/-- O_i appended to the outbound ring of a slot record, with OUT_OVERRUN counted (R61). -/
def Slot.appendOut (x : Slot) (block : List Sample) : Slot :=
  let r := x.outRing.append block
  { x with outRing := r.1, stats := { x.stats with outOverrun := satAdd16 x.stats.outOverrun r.2 } }

/-- Stage 4 of a mix period: U into the play half under CALL pacing, each O_i formed into its slot's outbound ring
(R134). -/
def State.deliver (s : State) (states : PerSlot SlotState) (pacing : Pacing) (x : MixInputs) : State :=
  { s with
    call := if pacing = .byCall then { s.call with playHalf := mixedBlock s.mix.applied.u x } else s.call
    slots := .tabulate fun i =>
      if states.get i = .active then (s.slot i).appendOut (mixedBlock (s.mix.applied.o.get i) x) else s.slot i }

/-- The fill check of the pair whose FOLLOWER is slot `i`, both members ACTIVE when the period was raised and their
last served sequences equal: beyond 40 samples of difference the ring is resynchronised and SKEW reason FILL raised
(R40, R41, R42). -/
def State.fillCheck (s : State) (states : PerSlot SlotState) (i : SlotId) : State :=
  match (s.slot i).leader? with
  | none => s
  | some k =>
    let mine := (s.slot i).outRing
    let theirs := (s.slot k).outRing
    let diff := (mine.samples.length : Int) - theirs.samples.length
    if states.get i = .active ∧ states.get k = .active ∧ mine.lastServed.isSome ∧
        mine.lastServed = theirs.lastServed ∧ Config.pairFillTolerance < diff.natAbs then
      (s.modSlot i fun x =>
        { x with
          outRing := x.outRing.resync theirs
          stats := { x.stats with resync := satAdd16 x.stats.resync 1 } }).raise
        (.skew i
          { reason := .fill, leader := k, followerValue := mine.samples.length, leaderValue := theirs.samples.length,
            difference := diff })
    else s

/-- The fill checks of a period, in the order of the FOLLOWERs' slots (R40, R134, log 10). -/
def State.fillChecks (s : State) (states : PerSlot SlotState) : State :=
  SlotId.all.foldl (fun s i => s.fillCheck states i) s

end Sys2Proof.Machine
end

