-- ==== Sys2Proof/Machine/PromptMemory.lean ====
section
/-!
DEFINITION. The prompt memory (R150): 16,384 cells of one sample, listed by rising address, no listed sample 0. An
unlisted address reads 0, the value power-on reset writes everywhere (log 15).
-/
namespace Sys2Proof.Machine

/-- The sample at address `a`; an unlisted address reads 0 (R150). -/
def readPrompt : List PromptCell → Nat → Sample
  | [], _ => 0
  | (b, v) :: rest, a => if a = b then v else readPrompt rest a

/-- The memory with `v` written at address `a`; writing 0 unlists the address. -/
def writePrompt : List PromptCell → Nat → Sample → List PromptCell
  | [], a, v => if v = 0 then [] else [(a, v)]
  | (b, w) :: rest, a, v =>
    if a < b then (if v = 0 then (b, w) :: rest else (a, v) :: (b, w) :: rest)
    else if a = b then (if v = 0 then rest else (a, v) :: rest)
    else (b, w) :: writePrompt rest a v

/-- Samples written in order, the first at address `a` (R152). -/
def writeSpan : List PromptCell → Nat → List Sample → List PromptCell
  | m, _, [] => m
  | m, a, v :: rest => writeSpan (writePrompt m a v) (a + 1) rest

/-- The canonical form from address `lo` on: addresses strictly rising and within memory, no sample 0. -/
def Memory.wfFrom : Nat → List PromptCell → Bool
  | _, [] => true
  | lo, (a, v) :: rest =>
    decide (lo ≤ a) && decide (a < Config.promptSamples) && v != 0 && Memory.wfFrom (a + 1) rest

/-- The canonical form of the prompt memory: equal memories are equal lists. -/
def Memory.wf (m : List PromptCell) : Bool := Memory.wfFrom 0 m

end Sys2Proof.Machine
end

