-- ==== Sys2Proof/Machine/PromptUnit.lean ====
section
/-!
DEFINITION. The prompt player: forming P at a mix period, and the PROMPT requests (R150 to R158).
-/
namespace Sys2Proof.Machine

/-- The state of the player (R151). -/
def Player.state : Player → PromptState
  | .idle => .idle
  | .playing _ => .playing
  | .gap _ _ => .gap

/-- The region held, with its read position, remaining and gap; none in IDLE (R151). -/
def Player.play? : Player → Option Play
  | .idle => none
  | .playing p => some p
  | .gap p _ => some p

/-- Plays still to follow; 0 in IDLE (R151). -/
def Player.remaining (p : Player) : Nat :=
  match p.play? with
  | some q => q.remaining
  | none => 0

/-- The gap count, non-zero only in GAP (R151). -/
def Player.gapCount : Player → Nat
  | .gap _ n => n
  | _ => 0

/-- The player with another remaining count. -/
def Player.withRemaining (p : Player) (n : Nat) : Player :=
  match p with
  | .idle => .idle
  | .playing q => .playing { q with remaining := n }
  | .gap q c => .gap { q with remaining := n } c

/-! ### Forming P (R154) -/

/-- `n` positions of P while PLAYING, from the read position on: at the region's end the next play follows at once, or
GAP or IDLE is entered and the later positions are 0 (R154). -/
def playFrom (memory : List PromptCell) : Nat → Play → List Sample × Player
  | 0, p => ([], .playing p)
  | n + 1, p =>
    let v := readPrompt memory p.position
    if p.position + 1 = p.start + p.length then
      if p.remaining = 0 then (v :: List.replicate n 0, .idle)
      else
        let again := { p with position := p.start, remaining := p.remaining - 1 }
        if p.gap = 0 then
          let rest := playFrom memory n again
          (v :: rest.1, rest.2)
        else (v :: List.replicate n 0, .gap again p.gap)
    else
      let rest := playFrom memory n { p with position := p.position + 1 }
      (v :: rest.1, rest.2)

/-- P of a period and the player after it (R154). -/
def formP (memory : List PromptCell) : Player → List Sample × Player
  | .idle => (silence, .idle)
  | .gap p n => (silence, if n - 1 = 0 then .playing p else .gap p (n - 1))
  | .playing p => playFrom memory Config.blockSamples p

/-- The PROMPT notice of a play that ends (R158). -/
def State.raisePrompt (s : State) (reason : PromptReason) (p : Play) (left : PromptState) (remaining : Nat) : State :=
  s.raise (.prompt
    { reason := reason, start := p.start, length := p.length, stateLeft := left, remaining := remaining,
      mixPeriod := s.mix.period })

/-- The part with another play record. -/
def State.setPlayer (s : State) (p : Player) : State := { s with prompt := { s.prompt with player := p } }

/-- The player's part of a mix period: P, and PROMPT reason DONE where the play has ended by itself (R154, R155,
R158). -/
def State.promptInput (s : State) : State × List Sample :=
  let r := formP s.prompt.memory s.prompt.player
  let t := s.setPlayer r.2
  match s.prompt.player.play?, r.2 with
  | some p, .idle => (t.raisePrompt .done p .playing 0, r.1)
  | _, _ => (t, r.1)

/-! ### Requests (R152, R153, R156, R157) -/

/-- Samples of a PROMPT.LOAD that fall within memory: the span is clipped at address 16383 (R152). -/
def clipSpan (offset : Nat) (samples : List Sample) : List Sample := samples.take (Config.promptSamples - offset)

/-- Whether a span of `n` addresses from `offset` shares an address with the region of a play (R152). -/
def overlaps (p : Play) (offset n : Nat) : Bool :=
  decide (max p.start offset < min (p.start + p.length) (offset + n))

/-- Whether the region that the player holds, if any, shares an address with the span (R152). -/
def Player.holds (p : Player) (offset n : Nat) : Bool :=
  match p.play? with
  | some q => overlaps q offset n
  | none => false

/-- PROMPT.LOAD's checks and its effect (R152). -/
def performPromptLoad (offset : BitVec 16) (samples : List Sample) (s : State) :
    Except RefusalCode (State × Result) :=
  if loadCountOk samples then
    if Config.promptSamples ≤ offset.toNat then .error .range
    else
      let span := clipSpan offset.toNat samples
      if s.prompt.player.holds offset.toNat span.length then .error .busy
      else
        .ok ({ s with prompt := { s.prompt with memory := writeSpan s.prompt.memory offset.toNat span } },
          .promptLoad offset.toNat span.length)
  else .error .format

/-- PROMPT_LOAD (R152). -/
def execPromptLoad (tag : Byte) (offset : BitVec 16) (samples : List Sample) (s : State) :
    Host.Outcome State Fault Refusal :=
  .next (s.request tag .promptLoad (performPromptLoad offset samples))

/-- PROMPT.PLAY's checks, in order, and its effect (R153). -/
def performPromptPlay (start length : BitVec 16) (repeats gap : Byte) (s : State) :
    Except RefusalCode (State × Result) :=
  if length = 0 then .error .range
  else if Config.promptSamples ≤ start.toNat then .error .range
  else
    match s.prompt.player with
    | .idle =>
      let n := min length.toNat (Config.promptSamples - start.toNat)
      .ok (s.setPlayer (.playing
          { start := start.toNat, length := n, position := start.toNat, remaining := repeats.toNat,
            gap := gap.toNat }),
        .promptPlay start.toNat n repeats.toNat gap.toNat)
    | _ => .error .busy

/-- PROMPT_PLAY (R153). -/
def execPromptPlay (tag : Byte) (start length : BitVec 16) (repeats gap : Byte) (s : State) :
    Host.Outcome State Fault Refusal :=
  .next (s.request tag .promptPlay (performPromptPlay start length repeats gap))

/-- PROMPT.MORE's checks and its effect: remaining grows by n, saturating at 65535 (R156). R156 gives its two refusals no
order: that n = 0 is tested first, so that n = 0 in IDLE is RANGE, is a DESIGN CHOICE (log 25). -/
def performPromptMore (n : BitVec 16) (s : State) : Except RefusalCode (State × Result) :=
  if n = 0 then .error .range
  else
    match s.prompt.player with
    | .idle => .error .idle
    | p =>
      let r := satAdd16 p.remaining n.toNat
      .ok (s.setPlayer (p.withRemaining r), .promptMore r)

/-- PROMPT_MORE (R156). -/
def execPromptMore (tag : Byte) (n : BitVec 16) (s : State) : Host.Outcome State Fault Refusal :=
  .next (s.request tag .promptMore (performPromptMore n))

/-- PROMPT.STOP: a play in progress ends with PROMPT reason STOPPED; in IDLE nothing changes (R157). -/
def performPromptStop (s : State) : Except RefusalCode (State × Result) :=
  let p := s.prompt.player
  match p.play? with
  | none => .ok (s, .promptStop .idle 0)
  | some q =>
    .ok ((s.setPlayer .idle).raisePrompt .stopped q p.state q.remaining, .promptStop p.state q.remaining)

/-- PROMPT_STOP (R157). -/
def execPromptStop (tag : Byte) (s : State) : Host.Outcome State Fault Refusal :=
  .next (s.request tag .promptStop performPromptStop)

end Sys2Proof.Machine
end

