-- ==== Sys2Proof/Machine/TalkerSelector.lean ====
section
/-!
DEFINITION. The talker selector: levels, primaries, weights and level watches at the close of a mix period, and
TALK.SET and WATCH.SET (R136 to R148).
-/
namespace Sys2Proof.Machine

/-- The peak level of a block: the largest magnitude of its samples (R138). -/
def peakLevel (block : List Sample) : Nat := block.foldl (fun m x => max m x.toInt.natAbs) 0

/-- S after a level: an eighth of the way toward it, truncated toward zero (R139). -/
def smoothLevel (s l : Nat) : Nat := ((s : Int) + truncDiv ((l : Int) - s) 8).toNat

/-- S updated on a slot record by a period's samples (R139). -/
def Slot.hear (x : Slot) (block : List Sample) : Slot :=
  { x with talker := { x.talker with level := smoothLevel x.talker.level (peakLevel block) } }

/-- Why slot `i` receives the primary flag at the close of a period, if it does: its partner holds the flag and was
not ACTIVE when the period was raised while `i` was (R141), or both were and `i`'s S passes its partner's by the
hysteresis and reaches the gate (R142). -/
def receivesPrimary (slots : PerSlot Slot) (states : PerSlot SlotState) (p : TalkParams) (i : SlotId) :
    Option TalkCause :=
  match (slots.get i).partner with
  | none => none
  | some k =>
    if (slots.get k).talker.primary ∧ states.get i = .active then
      if states.get k ≠ .active then some .inactive
      else if (slots.get k).talker.level + p.hysteresis < (slots.get i).talker.level ∧
          p.gate ≤ (slots.get i).talker.level then some .level
      else none
    else none

/-- The primary flag of slot `i` after the moves of R141 and R142: set where it receives the flag, clear where its
partner does. -/
def primaryAfter (slots : PerSlot Slot) (states : PerSlot SlotState) (p : TalkParams) (i : SlotId) : Bool :=
  if (receivesPrimary slots states p i).isSome then true
  else
    match (slots.get i).partner with
    | some k => if (receivesPrimary slots states p k).isSome then false else (slots.get i).talker.primary
    | none => (slots.get i).talker.primary

/-- The weight of a slot from its role, its primary flag, its S and the parameters (R140). -/
def talkerWeight (role : Role) (primary : Bool) (level : Nat) (p : TalkParams) : Nat :=
  let ungated := if role = .solo ∨ primary then 4096 else p.duckWeight
  if level < p.gate then min ungated p.gateWeight else ungated

/-- Whether a level watch's condition holds for S (R145). -/
def watchHolds (w : LevelWatch) (level : Nat) : Bool :=
  match w.condition with
  | .off => false
  | .above => decide (w.threshold ≤ level)
  | .below => decide (level ≤ w.threshold)

/-- The run counter after a period that found the slot in `state` (R145). -/
def runAfter (w : LevelWatch) (state : SlotState) (level : Nat) : Nat :=
  if state = .active ∧ watchHolds w level then satSucc8 w.run else 0

/-- Whether a period raises LEVEL: it brings the run counter to the count (R146). -/
def levelReached (w : LevelWatch) (state : SlotState) (level : Nat) : Bool :=
  decide (state = .active) && watchHolds w level && w.run + 1 == w.count

/-- TALK on slot `i`, which has received the flag (R143). -/
def State.raiseTalk (s : State) (states : PerSlot SlotState) (i : SlotId) (cause : TalkCause) : State :=
  match (s.slot i).partner with
  | some k =>
    s.raise (.talk i
      { cause := cause, partner := k, level := (s.slot i).talker.level, partnerLevel := (s.slot k).talker.level,
        partnerState := states.get k, mixPeriod := s.mix.period })
  | none => s

/-- LEVEL on slot `i` (R146). -/
def State.raiseLevel (s : State) (i : SlotId) : State :=
  let x := s.slot i
  s.raise (.level i
    { condition := x.watch.condition, threshold := x.watch.threshold, count := x.watch.count,
      level := x.talker.level, mixPeriod := s.mix.period })

/-- The talker selector's part at the close of a period raised with the slot states `states` and the microphone inputs
`e`: S, primaries, weights, watches, then TALK and LEVEL notices in the order of their subjects (R148). -/
def State.talkerClose (s : State) (states : PerSlot SlotState) (e : PerSlot (List Sample)) : State :=
  let heard : PerSlot Slot := .tabulate fun i =>
    if (states.get i).live then (s.slot i).hear (e.get i) else s.slot i
  let closed : PerSlot Slot := .tabulate fun i =>
    let x := heard.get i
    let primary := primaryAfter heard states s.talk i
    { x with
      talker :=
        { x.talker with
          primary := primary
          weight := talkerWeight x.role primary x.talker.level s.talk }
      watch := { x.watch with run := runAfter x.watch (states.get i) x.talker.level } }
  let talked := SlotId.all.foldl
    (fun t i =>
      match receivesPrimary heard states s.talk i with
      | some cause => t.raiseTalk states i cause
      | none => t)
    { s with slots := closed }
  SlotId.all.foldl
    (fun t i =>
      let x := heard.get i
      if levelReached x.watch (states.get i) x.talker.level then t.raiseLevel i else t)
    talked

/-! ### Requests (R144, R147) -/

/-- The talker parameters after TALK.SET (R144). -/
def TalkParams.updated (p : TalkParams) (gate hysteresis duckWeight gateWeight : Option (BitVec 16)) : TalkParams :=
  { gate := settingOr gate 0 32768 p.gate
    hysteresis := settingOr hysteresis 0 32768 p.hysteresis
    duckWeight := settingOr duckWeight 0 4096 p.duckWeight
    gateWeight := settingOr gateWeight 0 4096 p.gateWeight }

/-- TALK_SET (R144). -/
def execTalkSet (tag : Byte) (gate hysteresis duckWeight gateWeight : Option (BitVec 16)) (s : State) :
    Host.Outcome State Fault Refusal :=
  .next <| s.request tag .talkSet fun s =>
    let p := s.talk.updated gate hysteresis duckWeight gateWeight
    .ok ({ s with talk := p }, .talkSet p)

/-- WATCH.SET's checks and its effect: settings clamped, the run restarted (R147). -/
def performWatchSet (slot condition : Byte) (threshold : BitVec 16) (count : Byte) (s : State) :
    Except RefusalCode (State × Result) :=
  match slotOfByte slot, conditionOfByte condition with
  | some i, some c =>
    let t := clampNat threshold.toNat 0 32768
    let n := clampNat count.toNat 1 255
    .ok (s.modSlot i fun x => { x with watch := { condition := c, threshold := t, count := n, run := 0 } },
      .watchSet i c t n)
  | _, _ => .error .range

/-- WATCH_SET (R147). -/
def execWatchSet (tag slot condition : Byte) (threshold : BitVec 16) (count : Byte) (s : State) :
    Host.Outcome State Fault Refusal :=
  .next (s.request tag .watchSet (performWatchSet slot condition threshold count))

end Sys2Proof.Machine
end

