-- ==== Sys2Proof/Machine/MixPeriod.lean ====
section
/-!
DEFINITION. One mix period, whole: the mix engine's four stages, the slot table's part, the talker selector's close
(R5, R6, R79, R80, R128, R148).
-/
namespace Sys2Proof.Machine

/-- The slot table's part of a period on one record, the loss timeout being `t`: the idle count of an acquiring or
live slot rises by 1 (R5) and is compared with the thresholds (R6). -/
def Slot.idlePeriod (t : Nat) (x : Slot) : Slot × Option SlotReason :=
  let n := satSucc8 x.idle
  let y := { x with idle := n }
  match x.state with
  | .empty => (x, none)
  | .lost => (x, none)
  | .active => if Config.stallThreshold ≤ n then ({ y with state := .stalled }, some .stalled) else (y, none)
  | .stalled => if t ≤ n then (y.lost y.handle, some .lostTimeout) else (y, none)
  | .measuring => if t ≤ n then (y.emptied, some .failSilent) else (y, none)
  | .filling => if t ≤ n then (y.emptied, some .failSilent) else (y, none)

/-- RELEASE for each slot that the period empties, in slot order (R6, R49). -/
def State.releaseSilent (s : State) : State :=
  SlotId.all.foldl
    (fun t i =>
      if ((s.slot i).idlePeriod s.limits.lossTimeout).2 = some .failSilent then t.release (s.slot i).handle else t)
    s

/-- The slot table's part of a period: RELEASEs, state changes, the pair rules once, SLOT then ROLE notices, flushes
and zeroing (R6). R31 concerns the slots that go LOST by silence. -/
def State.slotPeriod (s : State) : State :=
  s.releaseSilent.changeSlots (Slot.idlePeriod s.limits.lossTimeout) (some .lostTimeout)

/-- The mix period count advances (R79). -/
def State.countPeriod (s : State) : State := { s with mix := { s.mix with period := s.mix.period + 1 } }

/-- A mix period under a pacing source with input D: counted, then ramp, inputs, accumulation and delivery (R128),
the fill checks (R40), the slot table's part (R6) and the talker selector's close (R148). The slot states are those
with which it was raised (R80). Within stage 2 the prompt player forms P after the last inbound pass, so that a CAPTURE
of IN_STARVE is queued before PROMPT reason DONE (R129). -/
def State.mixPeriod (s : State) (pacing : Pacing) (d : List Sample) : State :=
  let states := s.slotStates
  let ramped := s.countPeriod.rampGains states
  let mics := ramped.micInputs states pacing
  let prompt := mics.1.promptInput
  let x : MixInputs := { d := d, e := mics.2, p := prompt.2 }
  let mixed := prompt.1.raiseMixsat (saturations prompt.1.mix.applied states pacing x) pacing
  let delivered := (mixed.deliver states pacing x).fillChecks states
  delivered.slotPeriod.talkerClose states mics.2

end Sys2Proof.Machine
end

