-- ==== Sys2Proof/Machine/RateMonitor.lean ====
section
/-!
DEFINITION. The rate monitor: measured values, slot windows, the call estimate's update, and LIMIT.SET (R83 to R98).
-/
namespace Sys2Proof.Machine

/-- The measured value of a window of `e` nominal ticks that spanned `n` ticks, `n` above 0 (R88). -/
def measuredValue (e n : Nat) : Int := roundHalfAway (((e : Int) - n) * 8000000) n

/-- A measured value lies within a limit when its magnitude does not exceed it (R88). -/
def withinLimit (m : Int) (limit : Nat) : Bool := m.natAbs ≤ limit

/-- The clamped form of a measured value (R88). -/
def clampedValue (m : Int) (limit : Nat) : Int := clampSym (clampInt m (-8000) 8000) limit

/-- The reported form of a measured value (R88). -/
def reportedValue (m : Int) : Int := clampInt m (-32767) 32767

/-- How a PULL stands to an OPEN window, by its sequence advance `d` (R84). -/
inductive PullClass where
  | inside | closing | overshot | behind
deriving DecidableEq, Repr

/-- The classification of R84. -/
def classifyPull (d : Nat) : PullClass :=
  if d ≤ 63 then .inside else if d ≤ 127 then .closing else if d ≤ 32767 then .overshot else .behind

/-- A new window opens on a PULL (R84, R85, R86). -/
def State.openWindow (s : State) (i : SlotId) (seq : SeqNum) (stamp : Stamp) : State :=
  s.modSlot i fun x => { x with window := some { startSeq := seq, startStamp := stamp } }

/-- A window is discarded with the anomaly WINDOW, and a new one opens on the PULL (R86). -/
def State.discardWindow (s : State) (i : SlotId) (seq : SeqNum) (stamp : Stamp) : State :=
  (s.anomaly .window (some i) (s.slot i).handle (some (seq, stamp))).openWindow i seq stamp

/-- Steps 2 and 3 of R92 on the slot's record: estimate and first-window flag (R89), fail count (R8). -/
def Slot.afterWindow (x : Slot) (measured : Int) (limit : Nat) : Slot :=
  let c := clampedValue measured limit
  { x with
    estimate := if x.state = .measuring ∨ !x.firstWindow then c else quarterStep x.estimate c
    firstWindow := true
    failCount :=
      if x.state = .measuring then (if withinLimit measured limit then 0 else x.failCount + 1) else x.failCount }

/-- The RATE notice of a window outside the slot limit (R93). -/
def State.raiseRate (s : State) (i : SlotId) (measured : Int) (blocks : Nat) (ticks : BitVec 32) : State :=
  if withinLimit measured s.limits.slotLimit then s
  else s.raise (.rate i
    { state := (s.slot i).state, measured := reportedValue measured, estimate := (s.slot i).estimate,
      slotLimit := s.limits.slotLimit, failCount := (s.slot i).failCount, blocks := blocks, ticks := ticks })

/-- The pair's rate comparison: a FOLLOWER's clamped value against the estimate of its LEADER, where the LEADER is
ACTIVE or STALLED (R39, R42). -/
def State.compareRates (s : State) (i : SlotId) (measured : Int) : State :=
  match (s.slot i).leader? with
  | some k =>
    let c := clampedValue measured s.limits.slotLimit
    if (s.slot k).state.live ∧ s.limits.pairTolerance < (c - (s.slot k).estimate).natAbs then
      s.raise (.skew i
        { reason := .rate, leader := k, followerValue := c, leaderValue := (s.slot k).estimate,
          difference := c - (s.slot k).estimate })
    else s
  | none => s

/-- Step 6 of R92: a MEASURING slot takes the window's result. Within the limit it enters FILLING and is tested by R9;
a third consecutive window outside empties it with RELEASE and FAIL_RATE (R8). -/
def State.measuringResult (s : State) (i : SlotId) (measured : Int) : State :=
  if (s.slot i).state = .measuring then
    if withinLimit measured s.limits.slotLimit then
      (s.modSlot i fun x => { x with state := .filling }).fillTest i
    else if 3 ≤ (s.slot i).failCount then (s.release (s.slot i).handle).failSlot i .failRate none
    else s
  else s

/-- The completion of a slot window by a closing PULL, in the order of R92: `d` blocks, `n` ticks. -/
def State.completeWindow (s : State) (i : SlotId) (d : Nat) (n : BitVec 32) (seq : SeqNum) (stamp : Stamp) : State :=
  let m := measuredValue (Config.mixPeriodTicks * d) n.toNat
  let s := s.modSlot i fun x => x.afterWindow m s.limits.slotLimit
  let s := ((s.raiseRate i m d n).compareRates i m).measuringResult i m
  if (s.slot i).state = .empty then s else s.openWindow i seq stamp

/-- A PULL on slot `i`'s bound handle is handed to the slot's window (R84, R85, R86). -/
def State.windowPull (s : State) (i : SlotId) (seq : SeqNum) (stamp : Stamp) : State :=
  match (s.slot i).window with
  | none => s.openWindow i seq stamp
  | some w =>
    match classifyPull (seq - w.startSeq).toNat with
    | .inside => s
    | .closing =>
      if stamp - w.startStamp = 0 then s.discardWindow i seq stamp
      else s.completeWindow i (seq - w.startSeq).toNat (stamp - w.startStamp) seq stamp
    | .overshot => s.discardWindow i seq stamp
    | .behind => s

/-- The measured value of a call window that opened at tick `start` and closes at tick `tick` (R87, R88). Where no
tick lies between, the manual gives no value and the free value stands (log 13). -/
def callMeasured (start tick : Nat) : Int :=
  if start < tick then measuredValue Config.callWindowTicks (tick - start)
  else Config.callMeasuredWithoutSpan start tick

/-! ### LIMIT.SET (R94, R95) -/

/-- The five limits after LIMIT.SET: present fields clamped to their ranges, absent fields as held (R94). -/
def Limits.updated (l : Limits) (slotLimit callLimit pairTolerance : Option (BitVec 16))
    (lossTimeout : Option Byte) (ramp : Option (BitVec 16)) : Limits :=
  { slotLimit := settingOr slotLimit 80 8000 l.slotLimit
    callLimit := settingOr callLimit 80 8000 l.callLimit
    pairTolerance := settingOr pairTolerance 0 8000 l.pairTolerance
    lossTimeout := settingOr lossTimeout 8 255 l.lossTimeout
    ramp := settingOr ramp 0 8191 l.ramp }

/-- The part with new limits: a new slot limit clamps every slot's estimate, a new call limit the call estimate
(R95). -/
def State.withLimits (s : State) (l : Limits) (newSlotLimit newCallLimit : Bool) : State :=
  { s with
    limits := l
    slots :=
      if newSlotLimit then s.slots.map fun x => { x with estimate := clampSym x.estimate l.slotLimit } else s.slots
    rate := if newCallLimit then { s.rate with estimate := clampSym s.rate.estimate l.callLimit } else s.rate }

/-- LIMIT_SET (R94, R95). -/
def execLimitSet (tag : Byte) (slotLimit callLimit pairTolerance : Option (BitVec 16)) (lossTimeout : Option Byte)
    (ramp : Option (BitVec 16)) (s : State) : Host.Outcome State Fault Refusal :=
  .next <| s.request tag .limitSet fun s =>
    let l := s.limits.updated slotLimit callLimit pairTolerance lossTimeout ramp
    .ok (s.withLimits l slotLimit.isSome callLimit.isSome, .limitSet l)

end Sys2Proof.Machine
end

