-- ==== Sys2Proof/Machine/CallPort.lean ====
section
/-!
DEFINITION. The call port: strobes, the call window's completion, the strobe timeout and the local timer (R70 to R79,
R87, R90).
-/
namespace Sys2Proof.Machine

/-- A CALL notice with the call port's state and rate failures, the call estimate and the period count as they stand
(R75). -/
def State.raiseCall (s : State) (reason : CallReason) (measured : Option Int) : State :=
  s.raise (.call
    { reason := reason, state := s.call.state, estimate := s.rate.estimate, measured := measured,
      rateFailures := s.call.rateFailures, mixPeriod := s.mix.period })

/-- The first strobe of a call, at `tick`: LOCKING, the local timer stopped, halves and counts cleared, the call window
opened on it, CALL reason STROBES (R70). -/
def State.startCall (s : State) (tick : Nat) : State :=
  { s with
    call :=
      { s.call with
        state := .locking
        captureHalf := silence
        playHalf := silence
        strobeCount := 0
        strobeTimer := some (tick + Config.strobeTimeoutTicks)
        localTimer := none
        rateFailures := 0 }
    rate := { estimate := 0, window := some { startTick := tick, counted := 0 } } }.raiseCall .strobes none

/-- Steps 1 to 4 of R71: the play half's sample driven on the uplink line, the downlink captured, the strobe counted
and the strobe timer re-armed. -/
def State.exchange (s : State) (tick : Nat) (downlink : Sample) : State :=
  let n := s.call.strobeCount
  { s with
    call :=
      { s.call with
        uplink := s.call.playHalf.getD n 0
        captureHalf := s.call.captureHalf.set n downlink
        strobeCount := n + 1
        strobeTimer := some (tick + Config.strobeTimeoutTicks) } }

/-- The call port takes a completed call window with measured value `m` (R74): within the call limit it is RUNNING
with no failures, and LOCKED is raised where it was LOCKING; outside, the failures rise and RATE is raised. -/
def State.callResult (s : State) (m : Int) : State :=
  if withinLimit m s.limits.callLimit then
    let t := { s with call := { s.call with state := .running, rateFailures := 0 } }
    if s.call.state = .locking then t.raiseCall .locked (some (reportedValue m)) else t
  else
    { s with call := { s.call with rateFailures := satSucc8 s.call.rateFailures } }.raiseCall .rate
      (some (reportedValue m))

/-- The completion of the call window on the strobe at `tick`: estimate, result, and a new window on the same strobe
(R87, R90). -/
def State.completeCallWindow (s : State) (w : CallWindow) (tick : Nat) : State :=
  let m := callMeasured w.startTick tick
  let c := clampedValue m s.limits.callLimit
  let estimate := if s.call.state = .running then quarterStep s.rate.estimate c else c
  { s with rate :=
    { estimate := estimate, window := some { startTick := tick, counted := 0 } } }.callResult m

/-- Step 5 of R71: a strobe is handed to the call window (R87). -/
def State.windowStrobe (s : State) (tick : Nat) : State :=
  match s.rate.window with
  | none => s
  | some w =>
    if Config.callWindowStrobes ≤ w.counted + 1 then s.completeCallWindow w tick
    else { s with rate := { s.rate with window := some { w with counted := w.counted + 1 } } }

/-- Step 6 of R71: the strobe that brings the count to 80 raises a mix period under CALL pacing, with the capture half
as D (R72). -/
def State.endPeriod (s : State) (tick : Nat) : State :=
  if Config.blockSamples ≤ s.call.strobeCount then
    { s with call := { s.call with strobeCount := 0, lastMixTick := some tick } }.mixPeriod .byCall s.call.captureHalf
  else s

/-- A strobe: while ABSENT it starts a call and is then taken in LOCKING, its window having opened on it (R70, R71). -/
def State.takeStrobe (s : State) (tick : Nat) (downlink : Sample) : State :=
  match s.call.state with
  | .absent => ((s.startCall tick).exchange tick downlink).endPeriod tick
  | .locking => ((s.exchange tick downlink).windowStrobe tick).endPeriod tick
  | .running => ((s.exchange tick downlink).windowStrobe tick).endPeriod tick

/-- STROBE (R70, R71). -/
def execStrobe (tick : Nat) (downlink : Sample) (s : State) : Host.Outcome State Fault Refusal :=
  .next (s.takeStrobe tick downlink)

/-- When the first local mix period is due after a strobe timeout at `tick` (R77). -/
def firstLocalDue (lastMixTick : Option Nat) (tick : Nat) : Nat :=
  match lastMixTick with
  | some m => max (m + Config.mixPeriodTicks) tick
  | none => tick + Config.mixPeriodTicks

/-- The strobe timeout at `tick`: ABSENT, the partial period and the call window discarded, the local timer armed,
CALL reason TIMEOUT (R73). -/
def State.endCall (s : State) (tick : Nat) : State :=
  { s with
    call :=
      { s.call with
        state := .absent
        captureHalf := silence
        playHalf := silence
        strobeCount := 0
        strobeTimer := none
        localTimer := some (firstLocalDue s.call.lastMixTick tick) }
    rate := { estimate := 0, window := none } }.raiseCall .timeout none

/-- STROBE_TIMEOUT: the strobe timer expires at its due tick (R73). With no timer armed there is no expiry (log 3). -/
def execStrobeTimeout (s : State) : Host.Outcome State Fault Refusal :=
  .next <|
    match s.call.strobeTimer with
    | some due => s.endCall due
    | none => s

/-- LOCAL_TIMER_EXPIRY: the local timer expires at its due tick, raises a mix period under LOCAL pacing with D zero,
and is re-armed (R77). With no timer armed there is no expiry (R78, log 3). -/
def execLocalTimerExpiry (s : State) : Host.Outcome State Fault Refusal :=
  .next <|
    match s.call.localTimer with
    | some due =>
      { s with
        call :=
          { s.call with
            lastMixTick := some due
            localTimer := some (due + Config.mixPeriodTicks) } }.mixPeriod .byLocal silence
    | none => s

end Sys2Proof.Machine
end

