-- ==== Sys2Proof/Machine/Formats.lean ====
section
/-!
DEFINITION. What the part sends on the control link, byte by byte: the codes of 11.2, DONE and REFUSED bodies (R180),
STATUS and CAPTURE.READ results (11.3.2, 11.3.3) and notice records (R181).
-/
namespace Sys2Proof.Machine

/-! ### Codes (11.2) -/

/-- The byte of a slot number. -/
def slotByte (i : SlotId) : Byte := BitVec.ofNat 8 i.num

/-- The byte of an optional slot number: 0xFF when absent (R179). -/
def optSlotByte : Option SlotId → Byte
  | some i => slotByte i
  | none => 0xFF

/-- MONO 0, LEFT 1, RIGHT 2. -/
def Side.byte : Side → Byte
  | .mono => 0
  | .left => 1
  | .right => 2

/-- SOLO 0, LEADER 1, FOLLOWER 2. -/
def Role.byte : Role → Byte
  | .solo => 0
  | .leader => 1
  | .follower => 2

/-- EMPTY 0, MEASURING 1, FILLING 2, ACTIVE 3, STALLED 4, LOST 5. -/
def SlotState.byte : SlotState → Byte
  | .empty => 0
  | .measuring => 1
  | .filling => 2
  | .active => 3
  | .stalled => 4
  | .lost => 5

/-- ABSENT 0, LOCKING 1, RUNNING 2. -/
def CallState.byte : CallState → Byte
  | .absent => 0
  | .locking => 1
  | .running => 2

/-- CALL 0, LOCAL 1. -/
def Pacing.byte : Pacing → Byte
  | .byCall => 0
  | .byLocal => 1

/-- IDLE 0, PLAYING 1, GAP 2. -/
def PromptState.byte : PromptState → Byte
  | .idle => 0
  | .playing => 1
  | .gap => 2

/-- OFF 0, ABOVE 1, BELOW 2. -/
def WatchCondition.byte : WatchCondition → Byte
  | .off => 0
  | .above => 1
  | .below => 2

/-- A slot's number, or DEVICE 0x80. -/
def Subject.byte : Subject → Byte
  | .slot i => slotByte i
  | .device => 0x80

/-- CHECK 1 to IDLE 11. -/
def refusalByte : RefusalCode → Byte
  | .check => 1
  | .format => 2
  | .unknown => 3
  | .range => 4
  | .busy => 5
  | .pending => 6
  | .noLink => 7
  | .conflict => 8
  | .full => 9
  | .notFound => 10
  | .idle => 11

/-- LATE 1 to RADIO_FRAME 9. -/
def AnomalyKind.byte : AnomalyKind → Byte
  | .late => 1
  | .skip => 2
  | .bad => 3
  | .inOverrun => 4
  | .inStarve => 5
  | .outShort => 6
  | .unbound => 7
  | .window => 8
  | .radioFrame => 9

/-- SLOT 1 to MIXSAT 11: one more than the mask bit. -/
def NoticeKind.byte (k : NoticeKind) : Byte := BitVec.ofNat 8 (k.maskBit + 1)

/-- ADMITTED 1 to FAIL_DOWN 13. -/
def SlotReason.byte : SlotReason → Byte
  | .admitted => 1
  | .active => 2
  | .stalled => 3
  | .resumed => 4
  | .lostTimeout => 5
  | .lostDown => 6
  | .portReset => 7
  | .recovering => 8
  | .relinked => 9
  | .role => 10
  | .failRate => 11
  | .failSilent => 12
  | .failDown => 13

/-- LEVEL 1, INACTIVE 2. -/
def TalkCause.byte : TalkCause → Byte
  | .level => 1
  | .inactive => 2

/-- RATE 1, FILL 2. -/
def SkewReason.byte : SkewReason → Byte
  | .rate => 1
  | .fill => 2

/-- POWER 1, SOFT 2. -/
def ReadyReason.byte : ReadyReason → Byte
  | .power => 1
  | .soft => 2

/-- STROBES 1, LOCKED 2, RATE 3, TIMEOUT 4. -/
def CallReason.byte : CallReason → Byte
  | .strobes => 1
  | .locked => 2
  | .rate => 3
  | .timeout => 4

/-- DONE 1, STOPPED 2. -/
def PromptReason.byte : PromptReason → Byte
  | .done => 1
  | .stopped => 2

/-! ### Fields (R179) -/

/-- A one-byte number. -/
def nat8 (n : Nat) : Byte := BitVec.ofNat 8 n

/-- A two-byte number. -/
def nat16 (n : Nat) : List Byte := bytes16 (BitVec.ofNat 16 n)

/-- A two-byte signed number. -/
def int16 (n : Int) : List Byte := bytes16 (BitVec.ofInt 16 n)

/-- An optional handle: 0 when absent. -/
def optHandle (h : Option Handle) : Byte := h.getD 0

/-- An optional identity: six zero bytes when absent. -/
def optIdentity (x : Option Identity) : List Byte := bytes48 (x.getD 0)

/-- An optional step: four zero bytes when absent. -/
def optStep (x : Option Nat) : List Byte := bytes32 (BitVec.ofNat 32 (x.getD 0))

/-! ### Results of DONE replies (11.3.1 to 11.3.3) -/

/-- The 20-byte profile record. -/
def Profile.bytes (p : Profile) : List Byte :=
  presenceByte [p.partnerIdentity.isSome, p.inTarget.isSome, p.outTarget.isSome] ::
    (bytes48 p.identity ++ p.side.byte :: (optIdentity p.partnerIdentity ++ flagByte p.autoAdmit ::
      BitVec.ofInt 8 p.seed :: (nat16 (p.inTarget.getD 0) ++ nat16 (p.outTarget.getD 0))))

/-- The eleven counters in the order of R170. -/
def Stats.bytes (c : Stats) : List Byte :=
  [c.micIn, c.concealed, c.skipped, c.late, c.bad, c.inOverrun, c.inStarve, c.pulls, c.outShort, c.outOverrun,
    c.resync].flatMap nat16

/-- The slot result of STATUS, 42 bytes (11.3.2). -/
def SlotStatus.bytes (x : SlotStatus) : List Byte :=
  [slotByte x.slot, x.state.byte, x.side.byte, x.role.byte, optSlotByte x.partner, optHandle x.handle,
    presenceByte [x.identity.isSome, x.lastServed.isSome]] ++ optIdentity x.identity ++
  [flagByte x.mic] ++ nat16 x.inFill ++ nat16 x.outFill ++ nat16 x.inTarget ++ nat16 x.outTarget ++
  int16 x.estimate ++ [flagByte x.firstWindow, nat8 x.failCount] ++ optStep x.inStep ++ optStep x.outStep ++
  optBytes16 x.lastServed ++ nat16 x.level ++ [flagByte x.primary] ++ nat16 x.weight ++ [nat8 x.idle]

/-- One pending entry of the device result, 8 bytes. -/
def PendingLink.bytes (e : PendingLink) : List Byte := e.handle :: (bytes48 e.identity ++ [flagByte e.mic])

/-- The four pending entries of the device result, unused ones 0. -/
def pendingBytes (entries : List PendingLink) : List Byte :=
  (entries.take 4).flatMap PendingLink.bytes ++ List.replicate (8 * (4 - entries.length)) 0

/-- Region start, length, read position, remaining (2 bytes each), gap and gap count of the device result. -/
def playBytes (p : Player) : List Byte :=
  nat16 ((p.play?.map fun q => q.start).getD 0) ++ nat16 ((p.play?.map fun q => q.length).getD 0) ++
    nat16 ((p.play?.map fun q => q.position).getD 0) ++ nat16 p.remaining ++
    [nat8 ((p.play?.map fun q => q.gap).getD 0), nat8 p.gapCount]

/-- The device result of STATUS, 58 bytes (11.3.2). -/
def DeviceStatus.bytes (x : DeviceStatus) : List Byte :=
  [Subject.device.byte, x.callState.byte, x.pacing.byte] ++ int16 x.estimate ++ [nat8 x.rateFailures] ++
  bytes32 x.period ++ [x.player.state.byte, presenceByte [x.player.play?.isSome]] ++ playBytes x.player ++
  [nat8 x.pendingLinks.length] ++ pendingBytes x.pendingLinks ++
  [nat8 x.queued, flagByte x.attn, flagByte x.captureFull]

/-- The result of CAPTURE.READ: one byte when empty, 16 when full (11.3.3). -/
def captureBytes : Option (Anomaly × Nat) → List Byte
  | none => [0]
  | some (a, further) =>
    [1, a.kind.byte, optSlotByte a.slot, optHandle a.handle, presenceByte [a.message.isSome]] ++
      bytes16 ((a.message.map fun m => m.1).getD 0) ++ bytes32 ((a.message.map fun m => m.2).getD 0) ++
      bytes32 a.mixPeriod ++ [nat8 further]

/-- The fields of a notice, in the order and widths of R181. Bits 5..7 of the MIXSAT mask byte, which 11.2 assigns to no
output, are sent as 0: a DESIGN CHOICE (log 27). -/
def NoticeBody.bytes : NoticeBody → List Byte
  | .slot _ n =>
    [n.reason.byte, n.state.byte, n.role.byte, optSlotByte n.partner, optHandle n.handle,
      presenceByte [n.identity.isSome, n.linkReason.isSome]] ++ optIdentity n.identity ++ [n.linkReason.getD 0]
  | .rate _ n =>
    [n.state.byte] ++ int16 n.measured ++ int16 n.estimate ++ nat16 n.slotLimit ++ [nat8 n.failCount, nat8 n.blocks] ++
      bytes32 n.ticks
  | .level _ n => [n.condition.byte] ++ nat16 n.threshold ++ [nat8 n.count] ++ nat16 n.level ++ bytes32 n.mixPeriod
  | .talk _ n =>
    [n.cause.byte, slotByte n.partner] ++ nat16 n.level ++ nat16 n.partnerLevel ++ [n.partnerState.byte] ++
      bytes32 n.mixPeriod
  | .skew _ n =>
    [n.reason.byte, slotByte n.leader] ++ int16 n.followerValue ++ int16 n.leaderValue ++ int16 n.difference
  | .ready n => [n.reason.byte, n.revision] ++ bytes32 n.mixPeriod
  | .call n =>
    [n.reason.byte, n.state.byte, presenceByte [n.measured.isSome]] ++ int16 n.estimate ++
      int16 (n.measured.getD 0) ++ [nat8 n.rateFailures] ++ bytes32 n.mixPeriod
  | .join n =>
    n.handle :: (bytes48 n.identity ++ [flagByte n.mic, nat8 n.entries, optHandle n.dropped])
  | .prompt n =>
    [n.reason.byte] ++ nat16 n.start ++ nat16 n.length ++ [n.stateLeft.byte] ++ nat16 n.remaining ++
      bytes32 n.mixPeriod
  | .capture n => [n.kind.byte, optSlotByte n.slot]
  | .mixsat n => [n.mask.setWidth 8] ++ bytes32 n.mixPeriod ++ nat16 n.samples ++ [n.pacing.byte]

/-- The result of COLLECT: notices left, kind (0 for none), then subject, occurrence count and fields (R181). -/
def collectBytes (left : Nat) : Option Notice → List Byte
  | none => [nat8 left, 0]
  | some n => [nat8 left, n.body.kind.byte, n.body.subject.byte, nat8 n.count] ++ n.body.bytes

/-- The result of an accepted ADMIT. -/
def Admission.bytes (a : Admission) : List Byte :=
  [slotByte a.slot, a.handle] ++ bytes48 a.identity ++ [a.side.byte, a.role.byte, optSlotByte a.partner] ++
    nat16 a.inTarget ++ nat16 a.outTarget ++ [BitVec.ofInt 8 a.seed] ++ int16 a.estimate

/-- The six gains of a row, ordered by input. -/
def GainRow.bytes (r : GainRow) : List Byte :=
  [r.d, r.e.s0, r.e.s1, r.e.s2, r.e.s3, r.p].flatMap nat16

/-- The thirty gains of a matrix, ordered by output and then by input (R121). -/
def GainMatrix.bytes (m : GainMatrix) : List Byte :=
  [m.u, m.o.s0, m.o.s1, m.o.s2, m.o.s3].flatMap GainRow.bytes

/-- The result bytes of a DONE reply, after the kind byte (11.3.1). -/
def Result.bytes : Result → List Byte
  | .ident vendor part revision => bytes16 vendor ++ bytes16 part ++ [revision]
  | .statusSlot x => x.bytes
  | .statusDevice x => x.bytes
  | .stats i state c => [slotByte i, state.byte] ++ c.bytes
  | .capture r => captureBytes r
  | .collect left n => collectBytes left n
  | .maskSet mask attn => bytes16 (mask.setWidth 16) ++ [flagByte attn]
  | .reset => []
  | .profilePut p replaced => p.bytes ++ [flagByte replaced]
  | .profileDrop identity => bytes48 identity
  | .profileGet p => p.bytes
  | .admitLink a => a.bytes
  | .decline handle identity => handle :: bytes48 identity
  | .remove i state identity handle => [slotByte i, state.byte] ++ optIdentity identity ++ [optHandle handle]
  | .gainSet entries => entries.flatMap bytesOfEntry
  | .gainGet targets applied => targets.bytes ++ applied.bytes
  | .talkSet p => nat16 p.gate ++ nat16 p.hysteresis ++ nat16 p.duckWeight ++ nat16 p.gateWeight
  | .watchSet i c threshold count => [slotByte i, c.byte] ++ nat16 threshold ++ [nat8 count]
  | .limitSet l =>
    nat16 l.slotLimit ++ nat16 l.callLimit ++ nat16 l.pairTolerance ++ [nat8 l.lossTimeout] ++ nat16 l.ramp
  | .promptLoad offset written => nat16 offset ++ [nat8 written]
  | .promptPlay start length repeats gap => nat16 start ++ nat16 length ++ [nat8 repeats, nat8 gap]
  | .promptMore remaining => nat16 remaining
  | .promptStop state remaining => [state.byte] ++ nat16 remaining

/-! ### Reply frames (R180) -/

/-- The kind byte of a reply: DONE 0x40, REFUSED 0x41. -/
def ReplyBody.kindByte : ReplyBody → Byte
  | .done _ _ => 0x40
  | .refused _ _ => 0x41

/-- The body of a reply. -/
def ReplyBody.bytes : ReplyBody → List Byte
  | .done kind r => kind.code :: r.bytes
  | .refused code kind => [refusalByte code, kind]

/-- The whole frame of a reply. -/
def ReplyFrame.bytes (r : ReplyFrame) : List Byte := controlFrame r.body.kindByte r.tag r.body.bytes

end Sys2Proof.Machine
end

