-- ==== Sys2Proof/Machine/ControlLink.lean ====
section
/-!
DEFINITION. The requests that read the part as a whole, the RESET request, and the events of the reply stream and the
inter-byte timer (R162, R164, R167 to R175, R177).
-/
namespace Sys2Proof.Machine

/-- IDENT (R167). -/
def execIdent (tag : Byte) (s : State) : Host.Outcome State Fault Refusal :=
  .next <| s.request tag .ident fun s => .ok (s, .ident Config.vendorCode Config.partCode Config.revision)

/-- The inbound step that STATUS reports: of a live slot, the step an inbound pass would form now (R115). -/
def State.reportedInStep (s : State) (i : SlotId) : Option Nat :=
  if (s.slot i).state.live then some (s.inboundStep s.slotStates s.pacing i) else none

/-- STATUS of a slot (R168). -/
def State.slotStatus (s : State) (i : SlotId) : SlotStatus :=
  let x := s.slot i
  { slot := i, state := x.state, side := x.side, role := x.role, partner := x.partner, handle := x.handle,
    identity := x.identity, mic := x.mic, inFill := x.inRing.samples.length, outFill := x.outRing.samples.length,
    inTarget := x.inTarget, outTarget := x.outTarget, estimate := x.estimate, firstWindow := x.firstWindow,
    failCount := x.failCount, inStep := s.reportedInStep i, outStep := x.outRing.lastStep,
    lastServed := x.outRing.lastServed, level := x.talker.level, primary := x.talker.primary,
    weight := x.talker.weight, idle := x.idle }

/-- STATUS of the device (R169). -/
def State.deviceStatus (s : State) : DeviceStatus :=
  { callState := s.call.state, pacing := s.pacing, estimate := s.rate.estimate, rateFailures := s.call.rateFailures,
    period := s.mix.period, player := s.prompt.player, pendingLinks := s.radio.pendingLinks,
    queued := s.notices.queue.length, attn := s.attn, captureFull := s.capture.record.isSome }

/-- STATUS (R168, R169). -/
def execStatus (tag subject : Byte) (s : State) : Host.Outcome State Fault Refusal :=
  .next <| s.request tag .status fun s =>
    match subjectOfByte subject with
    | none => .error .range
    | some (.slot i) => .ok (s, .statusSlot (s.slotStatus i))
    | some .device => .ok (s, .statusDevice s.deviceStatus)

/-- STATS_READ: the counters as they stand, then cleared where the clear flag is set (R170). -/
def execStatsRead (tag slot clear : Byte) (s : State) : Host.Outcome State Fault Refusal :=
  .next <| s.request tag .statsRead fun s =>
    match slotOfByte slot, clearFlagOfByte clear with
    | some i, some c =>
      .ok (if c then s.count i fun _ => .zero else s, .stats i (s.slot i).state (s.slot i).stats)
    | _, _ => .error .range

/-- CAPTURE_READ: the record and its further-count, then emptied (R67, R171). -/
def execCaptureRead (tag : Byte) (s : State) : Host.Outcome State Fault Refusal :=
  .next <| s.request tag .captureRead fun s =>
    .ok ({ s with capture := { record := none, further := 0 } },
      .capture (s.capture.record.map fun a => (a, s.capture.further)))

/-- COLLECT: the oldest notice is removed and returned with the count left; an empty queue gives none (R174). -/
def execCollect (tag : Byte) (s : State) : Host.Outcome State Fault Refusal :=
  .next <| s.request tag .collect fun s =>
    match s.notices.queue with
    | [] => .ok (s, .collect 0 none)
    | n :: rest => .ok ({ s with notices := { s.notices with queue := rest } }, .collect rest.length (some n))

/-- MASK_SET: a flag outside the eleven kinds is refused, else the mask is replaced (R175). -/
def execMaskSet (tag : Byte) (mask : BitVec 16) (s : State) : Host.Outcome State Fault Refusal :=
  .next <| s.request tag .maskSet fun s =>
    if 2048 ≤ mask.toNat then .error .range
    else
      let t := { s with notices := { s.notices with mask := mask.setWidth 11 } }
      .ok (t, .maskSet (mask.setWidth 11) t.attn)

/-- RESET: its DONE reply joins the stream and the mode becomes RESETTING (R177). -/
def execReset (tag : Byte) (s : State) : Host.Outcome State Fault Refusal :=
  .next <| s.request tag .reset fun s => .ok ({ s with link := { s.link with mode := .resetting } }, .reset)

/-- REPLY_SENT: the last byte of the oldest reply leaves the transmit line and the reply the stream (R164). With no
reply waiting none departs (log 3). -/
def execReplySent (s : State) : Host.Outcome State Fault Refusal :=
  .next <|
    match s.link.replies with
    | [] => s
    | r :: rest => { s with link := { s.link with replies := rest, line := r.bytes } }

/-- INTER_BYTE_TIMEOUT: the partial frame is discarded and the receiver hunts (R162). With no timer armed there is no
expiry (log 3). -/
def execInterByteTimeout (s : State) : Host.Outcome State Fault Refusal :=
  .next <|
    match s.link.receiver.timer with
    | some _ => s.hunt
    | none => s

end Sys2Proof.Machine
end

