-- ==== Sys2Proof/Machine/RadioPort.lean ====
section
/-!
DEFINITION. Microphone blocks and pulls: what a MIC does to its slot's inbound ring, what a PULL is answered, and the
departure of an outgoing message (R44, R46, R53 to R63, R113).
-/
namespace Sys2Proof.Machine

/-! ### MIC (R53 to R59) -/

/-- Steps 4 of R53 on the ring: `c` concealment blocks, then the block unless it is BAD, which up to one further
concealment block replaces (R55, R56). What is concealed, skipped and discarded comes with the ring. -/
structure MicEffect where
  ring : InRing
  concealed : Nat
  skipped : Nat
  discarded : Nat
deriving DecidableEq, Repr

/-- The inserts and the append of a MIC block that a gap of `g` blocks precedes (R55, R56, R57, R59). -/
def micEffect (r : InRing) (live : Bool) (target g : Nat) (bad : Bool) (samples : List Sample) : MicEffect :=
  let c := min g (min 8 (concealCap target r.samples.length))
  let inserted := r.conceal live c
  if bad then
    let c2 := if c = 8 then 0 else min 1 (concealCap target inserted.1.samples.length)
    let replaced := inserted.1.conceal live c2
    { ring := replaced.1, concealed := c + c2, skipped := g - c, discarded := inserted.2 + replaced.2 }
  else
    let appended := inserted.1.appendReal live samples
    { ring := appended.1, concealed := c, skipped := g - c, discarded := inserted.2 + appended.2 }

/-- Counters of a MIC taken in order or ahead (R65). -/
def Stats.afterMic (c : Stats) (e : MicEffect) (bad : Bool) : Stats :=
  { c with
    concealed := satAdd16 c.concealed e.concealed
    skipped := satAdd16 c.skipped e.skipped
    bad := if bad then satAdd16 c.bad 1 else c.bad
    inOverrun := satAdd16 c.inOverrun e.discarded }

/-- An anomaly of slot `i`, with its handle and the message's sequence number and stamp, recorded where `occurred`
(R66). -/
def State.slotAnomaly (s : State) (occurred : Bool) (kind : AnomalyKind) (i : SlotId) (message : Option (SeqNum × Stamp)) :
    State :=
  if occurred then s.anomaly kind (some i) (s.slot i).handle message else s

/-- Steps 4 to 6 of R53: a block that is not late, a gap of `g` blocks before it. The anomalies are recorded in the
order SKIP, BAD, IN_OVERRUN (R66). -/
def State.takeBlock (s : State) (i : SlotId) (g : Nat) (seq : SeqNum) (stamp : Stamp) (bad : Bool)
    (samples : List Sample) : State :=
  let x := s.slot i
  let e := micEffect x.inRing x.state.live x.inTarget g bad samples
  let ring := { e.ring with expected := some (seq + 1) }
  let s := s.modSlot i fun x =>
    { x with
      inRing := if x.state.acquiring then ring.trim x.inTarget else ring
      stats := x.stats.afterMic e bad }
  let s := s.slotAnomaly (decide (0 < e.skipped)) .skip i (some (seq, stamp))
  let s := s.slotAnomaly bad .bad i (some (seq, stamp))
  let s := s.slotAnomaly (decide (0 < e.discarded)) .inOverrun i (some (seq, stamp))
  s.fillTest i

/-- A MIC on slot `i`'s bound handle, in the order of R53. -/
def State.micOnSlot (s : State) (i : SlotId) (seq : SeqNum) (stamp : Stamp) (bad : Bool) (samples : List Sample) :
    State :=
  let s := (s.activity i).count i fun c => { c with micIn := satAdd16 c.micIn 1 }
  match classifyMic (s.slot i).inRing.expected seq with
  | .late =>
    (s.count i fun c => { c with late := satAdd16 c.late 1 }).slotAnomaly true .late i (some (seq, stamp))
  | .ahead g => s.takeBlock i g seq stamp bad samples

/-- A MIC by the class of its handle (R46): on a pending handle it is discarded, on an unbound one the anomaly UNBOUND
is recorded besides. -/
def State.takeMic (s : State) (handle : Handle) (seq : SeqNum) (stamp : Stamp) (bad : Bool) (samples : List Sample) :
    State :=
  match s.boundSlot handle with
  | some i => s.micOnSlot i seq stamp bad samples
  | none =>
    if s.isPending handle then s else s.anomaly .unbound none (some handle) (some (seq, stamp))

/-- MIC (R46, R53); with handle 0 or not exactly 80 samples the frame is malformed (R45). -/
def execMic (handle : Handle) (seq : SeqNum) (stamp : Stamp) (bad : Bool) (samples : List Sample) (s : State) :
    Host.Outcome State Fault Refusal :=
  .next (if isHandle handle && isBlock samples then s.takeMic handle seq stamp bad samples else s.badRadioFrame)

/-! ### PULL (R62, R63, R113) -/

/-- The SPK that answers a PULL with SILENT: 80 zeros (R63). -/
def silentSpk (handle : Handle) (seq : SeqNum) : RadioOut := .spk handle seq true false silence

/-- The outbound pass that slot `i` would make now (R113). -/
def State.outboundPass (s : State) (i : SlotId) : PassResult :=
  fullPass (s.outboundStep i) (s.slot i).outRing.samples (s.slot i).outRing.phase

/-- The outbound pass of slot `i` at a PULL answered with data: the ring read, the step and the sequence number
stored, short outputs counted and recorded (R113). -/
def State.takeOutboundPass (s : State) (i : SlotId) (seq : SeqNum) (stamp : Stamp) : State :=
  let r := s.outboundPass i
  let step := s.outboundStep i
  (s.modSlot i fun x =>
    { x with
      outRing := { samples := r.left, phase := r.phase, lastStep := some step, lastServed := some seq }
      stats := { x.stats with outShort := satAdd16 x.stats.outShort r.short } }).slotAnomaly
    (decide (0 < r.short)) .outShort i (some (seq, stamp))

/-- A PULL on slot `i`'s bound handle, in the order of R62: activity, count, answer, rate window, SPK. -/
def State.pullOnSlot (s : State) (i : SlotId) (handle : Handle) (seq : SeqNum) (stamp : Stamp) : State :=
  let s := (s.activity i).count i fun c => { c with pulls := satAdd16 c.pulls 1 }
  if (s.slot i).state = .active then
    let r := s.outboundPass i
    ((s.takeOutboundPass i seq stamp).windowPull i seq stamp).send
      (.spk handle seq false (decide (0 < r.short)) r.outputs)
  else (s.windowPull i seq stamp).send (silentSpk handle seq)

/-- A PULL by the class of its handle (R46): on a pending or unbound handle it is answered SILENT, and on an unbound
one the anomaly UNBOUND is recorded. -/
def State.takePull (s : State) (handle : Handle) (seq : SeqNum) (stamp : Stamp) : State :=
  match s.boundSlot handle with
  | some i => s.pullOnSlot i handle seq stamp
  | none =>
    if s.isPending handle then s.send (silentSpk handle seq)
    else (s.anomaly .unbound none (some handle) (some (seq, stamp))).send (silentSpk handle seq)

/-- PULL (R46, R62); with handle 0 the frame is malformed (R45). -/
def execPull (handle : Handle) (seq : SeqNum) (stamp : Stamp) (s : State) : Host.Outcome State Fault Refusal :=
  .next (if isHandle handle then s.takePull handle seq stamp else s.badRadioFrame)

/-! ### Departure of an outgoing message (R44, R182) -/

/-- The frame bytes of an outgoing message (R182). -/
def RadioOut.frame : RadioOut → List Byte
  | .spk handle seq silent short samples =>
    radioFrameBytes
      (0x21 :: handle :: (bytes16 seq ++ (flagByte silent + flagByte short + flagByte short) ::
        bytesOfSamples samples))
  | .release handle => radioFrameBytes [0x22, handle]

/-- RADIO_MESSAGE_SENT: the oldest outgoing message finishes transmission and leaves the stream (R44). With nothing
waiting no message departs (log 3). -/
def execRadioMessageSent (s : State) : Host.Outcome State Fault Refusal :=
  .next <|
    match s.radio.outgoing with
    | [] => s
    | m :: rest => { s with radio := { s.radio with outgoing := rest, line := m.frame } }

end Sys2Proof.Machine
end

