-- ==== Sys2Proof/Machine/SlotTable.lean ====
section
/-!
DEFINITION. The slot table: the profile table, admission, LINK.UP, LINK.DOWN, PORT.RESET and REMOVE (R11 to R27).
-/
namespace Sys2Proof.Machine

/-! ### The profile table (R18 to R20) -/

/-- The profile record for an identity (R18). -/
def State.profileOf (s : State) (identity : Identity) : Option Profile :=
  s.profiles.find? fun p => p.identity == identity

/-- The record that an accepted PROFILE.PUT stores: seed and present targets clamped (R19). -/
def profileStored (f : ProfileFields) (side : Side) : Profile :=
  { identity := f.identity, side := side, partnerIdentity := f.partnerIdentity, autoAdmit := f.autoAdmit,
    seed := clampSeed f.seed.toInt,
    inTarget := f.inboundTarget.map fun t => clampTarget t.toNat,
    outTarget := f.outboundTarget.map fun t => clampTarget t.toNat }

/-- The table with `p` in place of the record for its identity, or added (R19; the list's order means nothing,
log 14). -/
def putProfile (table : List Profile) (p : Profile) : List Profile :=
  if table.any fun q => q.identity == p.identity then
    table.map fun q => if q.identity == p.identity then p else q
  else table ++ [p]

/-- PROFILE.PUT's checks, in order, and its effect (R19). -/
def performProfilePut (f : ProfileFields) (s : State) : Except RefusalCode (State × Result) :=
  match sideOfByte f.side with
  | none => .error .range
  | some side =>
    if f.partnerIdentity = some f.identity then .error .conflict
    else if side = .mono ∧ f.partnerIdentity.isSome then .error .conflict
    else if (s.profileOf f.identity).isNone ∧ Config.profileCapacity ≤ s.profiles.length then .error .full
    else
      let p := profileStored f side
      .ok ({ s with profiles := putProfile s.profiles p }, .profilePut p (s.profileOf f.identity).isSome)

/-- PROFILE_PUT (R19). -/
def execProfilePut (tag : Byte) (profile : ProfileFields) (s : State) : Host.Outcome State Fault Refusal :=
  .next (s.request tag .profilePut (performProfilePut profile))

/-- PROFILE_DROP: the record for the identity is removed, or NOTFOUND (R20). -/
def execProfileDrop (tag : Byte) (identity : Identity) (s : State) : Host.Outcome State Fault Refusal :=
  .next <| s.request tag .profileDrop fun s =>
    match s.profileOf identity with
    | none => .error .notFound
    | some _ =>
      .ok ({ s with profiles := s.profiles.filter fun p => p.identity != identity }, .profileDrop identity)

/-- PROFILE_GET: the record for the identity, or NOTFOUND (R20). -/
def execProfileGet (tag : Byte) (identity : Identity) (s : State) : Host.Outcome State Fault Refusal :=
  .next <| s.request tag .profileGet fun s =>
    match s.profileOf identity with
    | none => .error .notFound
    | some p => .ok (s, .profileGet p)

/-! ### Admission (R16, R21 to R25) -/

/-- An admission value target: of the request, else of the profile, else the device default; clamped (R24). -/
def resolveTarget (requested : Option (BitVec 16)) (ofProfile : Option Nat) (default : Nat) : Nat :=
  clampTarget (match requested with
    | some t => t.toNat
    | none => ofProfile.getD default)

/-- The seed of an admission: of the request, else of the profile, else 0; clamped (R24). -/
def resolveSeed (requested : Option Byte) (profile : Option Profile) : Int :=
  clampSeed (match requested with
    | some b => b.toInt
    | none => match profile with
      | some p => p.seed
      | none => 0)

/-- The slot that holds a profile's partner identity, where it is SOLO and has the side opposite to `side` (R16,
R23). -/
def State.profilePartner (s : State) (profile : Option Profile) (side : Side) : Option SlotId :=
  match profile.bind fun p => p.partnerIdentity with
  | none => none
  | some identity =>
    match s.slotOfIdentity identity with
    | none => none
    | some k => if (s.slot k).role = .solo ∧ side.opposite = some (s.slot k).side then some k else none

/-- The values an admission has resolved (R24). -/
structure AdmissionValues where
  side : Side
  inTarget : Nat
  outTarget : Nat
  seed : Int
deriving DecidableEq, Repr

/-- The initial rate estimate: the seed times 500, clamped to the slot limit (R24). -/
def seedEstimate (seed : Int) (slotLimit : Nat) : Int := clampSym (seed * 500) slotLimit

/-- The EMPTY slot `i` takes a link and enters MEASURING by admission: counters cleared, estimate seeded, and the pair
formed where there is a partner (R8, R25, R29). -/
def State.admitInto (s : State) (i : SlotId) (link : PendingLink) (v : AdmissionValues)
    (partner : Option SlotId) : State :=
  let s := s.modSlot i fun x =>
    { x.measuring with
      handle := some link.handle
      identity := some link.identity
      mic := link.mic
      side := v.side
      inTarget := v.inTarget
      outTarget := v.outTarget
      estimate := seedEstimate v.seed s.limits.slotLimit
      stats := .zero }
  match partner with
  | some k => s.formPair i k
  | none => s

/-- The partner checks of R22, in order: 5 the partner differs from the slot, 6 it is not EMPTY, 7 it has no partner,
8 the two sides are opposite. -/
def State.partnerRefusal (s : State) (i k : SlotId) (side : Side) : Option RefusalCode :=
  if k = i then some .range
  else if (s.slot k).state = .empty then some .busy
  else if (s.slot k).partner.isSome then some .conflict
  else if side = .mono ∨ (s.slot k).side = .mono ∨ side = (s.slot k).side then some .conflict
  else none

/-- The state checks of R22, in order; the pending entry and the slot are those the request names. -/
def State.admitRefusal (s : State) (entry : Option PendingLink) (i : SlotId) (side : Side) (partner : Option SlotId) :
    Option RefusalCode :=
  match entry with
  | none => some .noLink
  | some e =>
    if (s.slot i).state ≠ .empty then some .busy
    else if s.notices.holdsAbout i then some .pending
    else if (s.slotOfIdentity e.identity).isSome then some .conflict
    else
      match partner with
      | none => none
      | some k => s.partnerRefusal i k side

/-- The pending entry for a handle (R13). -/
def State.pendingEntry (s : State) (h : Handle) : Option PendingLink :=
  s.radio.pendingLinks.find? fun e => e.handle == h

/-- An ADMIT that has passed its checks (R23, R24, R25). -/
def State.accept (s : State) (e : PendingLink) (i : SlotId) (side : Side) (named : Option SlotId)
    (inboundTarget outboundTarget : Option (BitVec 16)) (seed : Option Byte) : State × Result :=
  let profile := s.profileOf e.identity
  let v : AdmissionValues :=
    { side := side
      inTarget := resolveTarget inboundTarget (profile.bind fun p => p.inTarget) 320
      outTarget := resolveTarget outboundTarget (profile.bind fun p => p.outTarget) 240
      seed := resolveSeed seed profile }
  let t := (s.dropPending e.handle).admitInto i e v (named.or (s.profilePartner profile side))
  let x := t.slot i
  (t, .admitLink
    { slot := i, handle := e.handle, identity := e.identity, side := x.side, role := x.role, partner := x.partner,
      inTarget := x.inTarget, outTarget := x.outTarget, seed := v.seed, estimate := x.estimate })

/-- ADMIT's checks, R21 first and then R22, and its effect (R25). -/
def performAdmit (handle : Handle) (slot side partner : Byte) (inboundTarget outboundTarget : Option (BitVec 16))
    (seed : Option Byte) (s : State) : Except RefusalCode (State × Result) :=
  match slotOfByte slot, sideOfByte side, partnerOfByte partner with
  | some i, some sd, some named =>
    match s.admitRefusal (s.pendingEntry handle) i sd named, s.pendingEntry handle with
    | none, some e => .ok (s.accept e i sd named inboundTarget outboundTarget seed)
    | some c, _ => .error c
    | none, none => .error .noLink
  | _, _, _ => .error .range

/-- ADMIT (R21 to R25). -/
def execAdmit (tag : Byte) (handle : Handle) (slot side partner : Byte)
    (inboundTarget outboundTarget : Option (BitVec 16)) (seed : Option Byte) (s : State) :
    Host.Outcome State Fault Refusal :=
  .next (s.request tag .admitLink (performAdmit handle slot side partner inboundTarget outboundTarget seed))

/-- DECLINE: the pending entry is removed and its handle released, or NOLINK (R26). -/
def execDecline (tag : Byte) (handle : Handle) (s : State) : Host.Outcome State Fault Refusal :=
  .next <| s.request tag .decline fun s =>
    match s.pendingEntry handle with
    | none => .error .noLink
    | some e => .ok ((s.dropPending handle).release (some handle), .decline handle e.identity)

/-- REMOVE: RELEASE for the bound handle, the slot enters EMPTY without a SLOT notice of its own, and a pair it
belonged to ends (R27, R33). -/
def State.removeSlot (s : State) (i : SlotId) : State :=
  ((s.release (s.slot i).handle).vacate i).settlePairs (fun _ => false) id

/-- REMOVE (R27). -/
def execRemove (tag slot : Byte) (s : State) : Host.Outcome State Fault Refusal :=
  .next <| s.request tag .remove fun s =>
    match slotOfByte slot with
    | none => .error .range
    | some i =>
      if (s.slot i).state = .empty then .error .notFound
      else .ok (s.removeSlot i, .remove i (s.slot i).state (s.slot i).identity (s.slot i).handle)

/-! ### LINK.DOWN (R11) -/

/-- A LINK.DOWN taken for slot `i`: an acquiring slot empties with FAIL_DOWN, a live slot is LOST with its handle
cleared, a LOST slot's handle is cleared (R11, R31, R33). -/
def State.linkDownSlot (s : State) (i : SlotId) (reason : Option Byte) : State :=
  match (s.slot i).state with
  | .measuring => s.failSlot i .failDown reason
  | .filling => s.failSlot i .failDown reason
  | .active =>
    (s.lose i none).settlePairs (fun j => j == i) fun t => t.raiseSlot i .lostDown (s.slot i).handle reason
  | .stalled =>
    (s.lose i none).settlePairs (fun j => j == i) fun t => t.raiseSlot i .lostDown (s.slot i).handle reason
  | .lost => s.modSlot i fun x => { x with handle := none }
  | .empty => s

/-- A LINK.DOWN by the class of its handle (R46): bound, pending, or unbound. -/
def State.linkDown (s : State) (handle : Handle) (reason : Option Byte) : State :=
  match s.boundSlot handle with
  | some i => s.linkDownSlot i reason
  | none => s.dropPending handle

/-- LINK_DOWN (R11, R46); with handle 0 the frame is malformed (R45). -/
def execLinkDown (handle : Handle) (reason : Byte) (s : State) : Host.Outcome State Fault Refusal :=
  .next (if isHandle handle then s.linkDown handle (some reason) else s.badRadioFrame)

/-! ### LINK.UP (R14 to R17) -/

/-- The pending entries with an identity are removed and their handles released: the controller has moved that earbud
to a new handle (R16, R17). -/
def State.supersede (s : State) (identity : Identity) : State :=
  let old := s.radio.pendingLinks.filter fun e => e.identity == identity
  (old.foldl (fun t e => t.release (some e.handle)) s).setPendingLinks
    (s.radio.pendingLinks.filter fun e => e.identity != identity)

/-- The second step of R14 on a slot that holds the link's identity: the old handle is released where one is bound,
the new one bound, and the slot enters MEASURING by recovery (LOST) or relink (any other state). -/
def State.rebind (s : State) (i : SlotId) (link : PendingLink) : State :=
  let x := s.slot i
  let t := (s.release x.handle).setSlot i { x.measuring with handle := some link.handle, mic := link.mic }
  if x.state = .lost then t.raiseSlot i .recovering (some link.handle) none
  else (t.zeroIfLive i x.state).raiseSlot i .relinked (some link.handle) none

/-- The link joins the tail of the pending list, the oldest entry of a full list being released, and JOIN is raised
(R17). -/
def State.appendPending (s : State) (link : PendingLink) : State :=
  let s := s.supersede link.identity
  let full := Config.pendingCapacity ≤ s.radio.pendingLinks.length
  let dropped := if full then s.radio.pendingLinks.head?.map fun e => e.handle else none
  let kept := if full then s.radio.pendingLinks.tail else s.radio.pendingLinks
  let links := kept ++ [link]
  ((s.release dropped).setPendingLinks links).raise (.join
    { handle := link.handle, identity := link.identity, mic := link.mic, entries := links.length,
      dropped := dropped })

/-- The slot into which auto-admission admits a link: the lowest-numbered EMPTY slot, where the profile's auto-admission
flag is set and no notice about that slot is queued (R16). -/
def State.autoSlot (s : State) (profile : Option Profile) : Option SlotId :=
  match profile, s.lowestEmpty with
  | some p, some i => if p.autoAdmit ∧ !s.notices.holdsAbout i then some i else none
  | _, _ => none

/-- Auto-admission of a link into slot `i` on the strength of a profile, with SLOT reason ADMITTED (R16, R24). -/
def State.autoAdmit (s : State) (i : SlotId) (link : PendingLink) (p : Profile) : State :=
  let s := s.supersede link.identity
  let v : AdmissionValues :=
    { side := p.side, inTarget := resolveTarget none p.inTarget 320, outTarget := resolveTarget none p.outTarget 240,
      seed := resolveSeed none (some p) }
  (s.admitInto i link v (s.profilePartner (some p) p.side)).raiseSlot i .admitted (some link.handle) none

/-- The second and third steps of R14. -/
def State.placeLink (s : State) (link : PendingLink) : State :=
  match s.slotOfIdentity link.identity with
  | some i => s.rebind i link
  | none =>
    match s.autoSlot (s.profileOf link.identity), s.profileOf link.identity with
    | some i, some p => s.autoAdmit i link p
    | _, _ => s.appendPending link

/-- The first step of R14 (a pending entry for the handle is removed; a slot that holds the handle takes a LINK.DOWN
with no link reason), then the second and third. -/
def State.linkUp (s : State) (link : PendingLink) : State := (s.linkDown link.handle none).placeLink link

/-- LINK_UP (R14 to R17); with handle 0 the frame is malformed (R45). -/
def execLinkUp (handle : Handle) (identity : Identity) (mic : Bool) (s : State) : Host.Outcome State Fault Refusal :=
  .next (if isHandle handle then s.linkUp { handle := handle, identity := identity, mic := mic } else s.badRadioFrame)

/-! ### PORT.RESET (R12, R35, R48) -/

/-- PORT.RESET on one slot record (R12). -/
def Slot.portReset (x : Slot) : Slot × Option SlotReason :=
  match x.state with
  | .empty => (x, none)
  | .measuring => (x.emptied, some .failDown)
  | .filling => (x.emptied, some .failDown)
  | .active => (x.lost none, some .portReset)
  | .stalled => (x.lost none, some .portReset)
  | .lost => ({ x with handle := none }, none)

/-- PORT_RESET: every slot, then the pair rules once, and the pending list emptied (R12, R35, R48). -/
def execPortReset (s : State) : Host.Outcome State Fault Refusal :=
  .next ((s.changeSlots Slot.portReset none).setPendingLinks [])

end Sys2Proof.Machine
end

