-- ==== Sys2Proof/Machine/Frames.lean ====
section
/-!
DEFINITION. Frames as bytes: a complete control link frame taken by the checks of R163, the receiver byte by byte
(R161), and a radio frame as it arrives (R45, R182).
-/
namespace Sys2Proof.Machine

/-! ### Taking what a frame carries -/

/-- The event of a request's completed frame (R163); `none` for a command that is no request. -/
def requestOutcome (s : State) : Instr → Option (Host.Outcome State Fault Refusal)
  | .ident tag => some (execIdent tag s)
  | .status tag subject => some (execStatus tag subject s)
  | .statsRead tag slot clear => some (execStatsRead tag slot clear s)
  | .captureRead tag => some (execCaptureRead tag s)
  | .collect tag => some (execCollect tag s)
  | .maskSet tag mask => some (execMaskSet tag mask s)
  | .reset tag => some (execReset tag s)
  | .profilePut tag profile => some (execProfilePut tag profile s)
  | .profileDrop tag identity => some (execProfileDrop tag identity s)
  | .profileGet tag identity => some (execProfileGet tag identity s)
  | .admitLink tag handle slot side partner inT outT seed =>
    some (execAdmit tag handle slot side partner inT outT seed s)
  | .decline tag handle => some (execDecline tag handle s)
  | .remove tag slot => some (execRemove tag slot s)
  | .gainSet tag entries => some (execGainSet tag entries s)
  | .gainGet tag => some (execGainGet tag s)
  | .talkSet tag gate hysteresis duckWeight gateWeight =>
    some (execTalkSet tag gate hysteresis duckWeight gateWeight s)
  | .watchSet tag slot condition threshold count => some (execWatchSet tag slot condition threshold count s)
  | .limitSet tag slotLimit callLimit pairTolerance lossTimeout ramp =>
    some (execLimitSet tag slotLimit callLimit pairTolerance lossTimeout ramp s)
  | .promptLoad tag offset samples => some (execPromptLoad tag offset samples s)
  | .promptPlay tag start length repeats gap => some (execPromptPlay tag start length repeats gap s)
  | .promptMore tag n => some (execPromptMore tag n s)
  | .promptStop tag => some (execPromptStop tag s)
  | .powerOnReset _ => none
  | .interByteTimeout => none
  | .refusedFrame _ _ _ _ => none
  | .replySent => none
  | .softReset _ => none
  | .radioFrame _ => none
  | .linkUp _ _ _ => none
  | .linkDown _ _ => none
  | .mic _ _ _ _ _ => none
  | .pull _ _ _ => none
  | .portReset => none
  | .strobe _ _ => none
  | .strobeTimeout => none
  | .localTimerExpiry => none
  | .controlLinkByte _ _ => none
  | .resetAsserted => none
  | .radioMessageSent => none

/-- The event of a radio message (R45, R46); `none` for a command that is no radio message. -/
def radioOutcome (s : State) : Instr → Option (Host.Outcome State Fault Refusal)
  | .linkUp handle identity present => some (execLinkUp handle identity present s)
  | .linkDown handle reason => some (execLinkDown handle reason s)
  | .mic handle seq stamp bad samples => some (execMic handle seq stamp bad samples s)
  | .pull handle seq stamp => some (execPull handle seq stamp s)
  | .portReset => some (execPortReset s)
  | .powerOnReset _ => none
  | .interByteTimeout => none
  | .refusedFrame _ _ _ _ => none
  | .replySent => none
  | .ident _ => none
  | .status _ _ => none
  | .statsRead _ _ _ => none
  | .captureRead _ => none
  | .collect _ => none
  | .maskSet _ _ => none
  | .reset _ => none
  | .softReset _ => none
  | .profilePut _ _ => none
  | .profileDrop _ _ => none
  | .profileGet _ _ => none
  | .admitLink _ _ _ _ _ _ _ _ => none
  | .decline _ _ => none
  | .remove _ _ => none
  | .gainSet _ _ => none
  | .gainGet _ => none
  | .talkSet _ _ _ _ _ => none
  | .watchSet _ _ _ _ _ => none
  | .limitSet _ _ _ _ _ _ => none
  | .promptLoad _ _ _ => none
  | .promptPlay _ _ _ _ _ => none
  | .promptMore _ _ => none
  | .promptStop _ => none
  | .radioFrame _ => none
  | .strobe _ _ => none
  | .strobeTimeout => none
  | .localTimerExpiry => none
  | .controlLinkByte _ _ => none
  | .resetAsserted => none
  | .radioMessageSent => none

/-! ### Complete control link frames (R163, R164) -/

/-- A complete frame, checked in the order of R163: refused with the code of the first check that fails, else handed to
the block that owns the request it carries. A frame that completes in RESETTING or into a full reply stream is not
taken (R164, R177). -/
def takeFrame (kind tag : Byte) (body : List Byte) (check : Byte) (s : State) : Host.Outcome State Fault Refusal :=
  match decodeFrame kind tag body check with
  | .error code => .next (s.completeFrame fun s => s.reply tag (.refused code kind))
  | .ok request => (requestOutcome s request).getD (.next s)

/-- REFUSED_FRAME: the check byte of a frame arrives (R163; log 5 for a frame that no check refuses). A length above
248 is abandoned at its length byte, with no reply (R161, log 21). -/
def execRefusedFrame (kind tag : Byte) (body : List Byte) (check : Byte) (s : State) :
    Host.Outcome State Fault Refusal :=
  if Config.maxBody < body.length then .next (if s.deaf then s else s.hunt) else takeFrame kind tag body check s

/-! ### The receiver, byte by byte (R161) -/

/-- The part with another receive assembly. -/
def State.withReceiver (s : State) (r : Receiver) : State := { s with link := { s.link with receiver := r } }

/-- A byte added to the frame under way at `tick`: the running sum takes it, the receiver expects `phase` next and the
inter-byte timer is armed (R161). -/
def Receiver.advance (r : Receiver) (tick : Nat) (byte : Byte) (phase : RxPhase) : Receiver :=
  { r with phase := phase, sum := r.sum + byte, timer := some (tick + Config.interByteTicks) }

/-- The receiver at the start byte of a frame (R161). -/
def Receiver.begin (tick : Nat) : Receiver :=
  { Receiver.idle with phase := .length, timer := some (tick + Config.interByteTicks) }

/-- The state after the tag or a body byte: CHECK once the body holds length bytes, else BODY (R161). -/
def Receiver.afterBody (length : Option Nat) (held : Nat) : RxPhase :=
  if length = some held then .check else .body

/-- A byte taken by an OPEN part's receiver (R161). In CHECK the sum of all bytes after the start byte is the running
sum plus the byte, and the frame is complete. -/
def State.takeByte (s : State) (tick : Nat) (byte : Byte) : Host.Outcome State Fault Refusal :=
  let r := s.link.receiver
  match r.phase with
  | .hunting => .next (if byte = startByte then s.withReceiver (.begin tick) else s)
  | .length =>
    .next (if Config.maxBody < byte.toNat then s.hunt
      else s.withReceiver { r.advance tick byte .kind with length := some byte.toNat })
  | .kind => .next (s.withReceiver { r.advance tick byte .tag with kind := some byte })
  | .tag =>
    .next (s.withReceiver { r.advance tick byte (Receiver.afterBody r.length 0) with tag := some byte })
  | .body =>
    .next (s.withReceiver
      { r.advance tick byte (Receiver.afterBody r.length (r.body.length + 1)) with body := r.body ++ [byte] })
  | .check => takeFrame (r.kind.getD 0) (r.tag.getD 0) r.body byte s

/-- CONTROL_LINK_BYTE: a byte on the receive line (R161), discarded while RESET is held (R160) or the mode is RESETTING
(R177). -/
def execControlLinkByte (tick : Nat) (byte : Byte) (s : State) : Host.Outcome State Fault Refusal :=
  if s.deaf then .next s else s.takeByte tick byte

/-! ### Radio frames (R45) -/

/-- RADIO_FRAME: a frame from the radio controller. One whose check, kind, length or handle is not good is discarded
and recorded (R45); any other is taken as the message it carries (log 6). -/
def execRadioFrame (bytes : List Byte) (s : State) : Host.Outcome State Fault Refusal :=
  match decodeRadio bytes with
  | none => .next s.badRadioFrame
  | some message => (radioOutcome s message).getD (.next s)

end Sys2Proof.Machine
end

