-- ==== Sys2Proof/Machine/Resets.lean ====
section
/-!
DEFINITION. The two resets and the RESET pin (R2, R13, R68, R118, R137, R160, R176, R177).
-/
namespace Sys2Proof.Machine

/-- POWER_ON_RESET, complete at `tick`: every block at its power-on values, the queue holding READY reason POWER,
RESET released (R176). The waiting commands are not the part's. -/
def execPowerOnReset (tick : Nat) (s : State) : Host.Outcome State Fault Refusal :=
  .next { State.reset with call := .afterReset tick 0, pending := s.pending }

/-- RESET_ASSERTED: ATTN is driven low and control link bytes are discarded until RESET is released (R160, R175). -/
def execResetAsserted (s : State) : Host.Outcome State Fault Refusal := .next { s with resetHeld := true }

/-- A slot record after a soft reset: the values of R2, the level watch settings kept, the weight of a SOLO slot with S
at 0 under the kept parameters (R2, R137). -/
def Slot.softReset (x : Slot) (p : TalkParams) : Slot :=
  { Slot.initial with
    talker := { level := 0, primary := false, weight := talkerWeight .solo false 0 p }
    watch := { x.watch with run := 0 } }

/-- RELEASE for the bound handle of each slot in slot order, then for each pending entry, oldest first (R2, R13). -/
def State.releaseAll (s : State) : State :=
  s.radio.pendingLinks.foldl (fun t e => t.release (some e.handle))
    (SlotId.all.foldl (fun t i => t.release (s.slot i).handle) s)

/-- The soft reset as one event, complete at `tick`: every block at its soft-reset values, the queue emptied and READY
reason SOFT queued, the mode OPEN. The profile table, limits, target gains, talker parameters, watch settings, prompt
memory and mask are kept (R18, R94, R118, R137, R150, R175, R177). -/
def State.softReset (s : State) (tick : Nat) : State :=
  let t := s.releaseAll.setPendingLinks []
  { t with
    link := { t.link with receiver := .idle, replies := [], mode := .normal }
    notices := { t.notices with queue := [readyNotice .soft] }
    slots := t.slots.map fun x => x.softReset s.talk
    call := .afterReset tick s.call.uplink
    rate := { estimate := 0, window := none }
    mix := { t.mix with applied := .zero, period := 0 }
    prompt := { t.prompt with player := .idle }
    capture := { record := none, further := 0 } }

/-- SOFT_RESET, performed when the RESET reply's last byte has been sent, which leaves the reply stream empty in
RESETTING; at any other time it does not occur (R160, R177, log 3, log 7). -/
def execSoftReset (tick : Nat) (s : State) : Host.Outcome State Fault Refusal :=
  .next (if s.link.mode = .resetting ∧ s.link.replies = [] then s.softReset tick else s)

end Sys2Proof.Machine
end

