-- ==== Sys2Proof/Machine/Dispatch.lean ====
section
/-!
DEFINITION. Which meaning each command has: one arm for each row of the table, in its order.
-/
namespace Sys2Proof.Machine

def exec (i : Instr) (s : State) : Host.Outcome State Fault Refusal :=
  match i with
  | .powerOnReset tick => Sys2Proof.Machine.execPowerOnReset tick s
  | .interByteTimeout => Sys2Proof.Machine.execInterByteTimeout s
  | .refusedFrame kind tag body check => Sys2Proof.Machine.execRefusedFrame kind tag body check s
  | .replySent => Sys2Proof.Machine.execReplySent s
  | .ident tag => Sys2Proof.Machine.execIdent tag s
  | .status tag subject => Sys2Proof.Machine.execStatus tag subject s
  | .statsRead tag slot clear => Sys2Proof.Machine.execStatsRead tag slot clear s
  | .captureRead tag => Sys2Proof.Machine.execCaptureRead tag s
  | .collect tag => Sys2Proof.Machine.execCollect tag s
  | .maskSet tag mask => Sys2Proof.Machine.execMaskSet tag mask s
  | .reset tag => Sys2Proof.Machine.execReset tag s
  | .softReset tick => Sys2Proof.Machine.execSoftReset tick s
  | .profilePut tag profile => Sys2Proof.Machine.execProfilePut tag profile s
  | .profileDrop tag identity => Sys2Proof.Machine.execProfileDrop tag identity s
  | .profileGet tag identity => Sys2Proof.Machine.execProfileGet tag identity s
  | .admitLink tag handle slot side partner inboundTarget outboundTarget seed => Sys2Proof.Machine.execAdmit tag handle slot side partner inboundTarget outboundTarget seed s
  | .decline tag handle => Sys2Proof.Machine.execDecline tag handle s
  | .remove tag slot => Sys2Proof.Machine.execRemove tag slot s
  | .gainSet tag entries => Sys2Proof.Machine.execGainSet tag entries s
  | .gainGet tag => Sys2Proof.Machine.execGainGet tag s
  | .talkSet tag gate hysteresis duckWeight gateWeight => Sys2Proof.Machine.execTalkSet tag gate hysteresis duckWeight gateWeight s
  | .watchSet tag slot condition threshold count => Sys2Proof.Machine.execWatchSet tag slot condition threshold count s
  | .limitSet tag slotLimit callLimit pairTolerance lossTimeout ramp => Sys2Proof.Machine.execLimitSet tag slotLimit callLimit pairTolerance lossTimeout ramp s
  | .promptLoad tag offset samples => Sys2Proof.Machine.execPromptLoad tag offset samples s
  | .promptPlay tag start length repeats gap => Sys2Proof.Machine.execPromptPlay tag start length repeats gap s
  | .promptMore tag n => Sys2Proof.Machine.execPromptMore tag n s
  | .promptStop tag => Sys2Proof.Machine.execPromptStop tag s
  | .radioFrame bytes => Sys2Proof.Machine.execRadioFrame bytes s
  | .linkUp handle identity mic => Sys2Proof.Machine.execLinkUp handle identity mic s
  | .linkDown handle reason => Sys2Proof.Machine.execLinkDown handle reason s
  | .mic handle seq stamp bad samples => Sys2Proof.Machine.execMic handle seq stamp bad samples s
  | .pull handle seq stamp => Sys2Proof.Machine.execPull handle seq stamp s
  | .portReset => Sys2Proof.Machine.execPortReset s
  | .strobe tick downlink => Sys2Proof.Machine.execStrobe tick downlink s
  | .strobeTimeout => Sys2Proof.Machine.execStrobeTimeout s
  | .localTimerExpiry => Sys2Proof.Machine.execLocalTimerExpiry s
  | .controlLinkByte tick byte => Sys2Proof.Machine.execControlLinkByte tick byte s
  | .resetAsserted => Sys2Proof.Machine.execResetAsserted s
  | .radioMessageSent => Sys2Proof.Machine.execRadioMessageSent s

end Sys2Proof.Machine
end

