-- ==== Sys2Proof/Safety.lean ====
section
/-!
DEFINITION. What claims are stated in: the forms an answer takes, the laws that the manual says the part keeps, and a
run of bytes on the control link.
-/
namespace Sys2Proof

/-- Whether a request kind admits a body length (11.3.1). -/
def RequestKind.admits (k : RequestKind) (n : Nat) : Bool :=
  match k with
  | .ident => n == 0
  | .status => n == 1
  | .statsRead => n == 2
  | .captureRead => n == 0
  | .collect => n == 0
  | .maskSet => n == 2
  | .reset => n == 0
  | .profilePut => n == 20
  | .profileDrop => n == 6
  | .profileGet => n == 6
  | .admitLink => n == 10
  | .decline => n == 1
  | .remove => n == 1
  | .gainSet => n % 4 == 0 && decide (4 ≤ n) && decide (n ≤ 120)
  | .gainGet => n == 0
  | .talkSet => n == 9
  | .watchSet => n == 5
  | .limitSet => n == 10
  | .promptLoad => n % 2 == 0 && decide (4 ≤ n) && decide (n ≤ 242)
  | .promptPlay => n == 6
  | .promptMore => n == 2
  | .promptStop => n == 0

end Sys2Proof

namespace Sys2Proof.Machine

/-! ### Answers on the control link (R163, R164, R165) -/

/-- The part takes a frame that completes now: it is OPEN, RESET is released, and the reply stream has room (R164,
R177). -/
def State.Listens (s : State) : Prop :=
  s.resetHeld = false ∧ s.link.mode = .normal ∧ s.link.replies.length < Config.replyCapacity

/-- The part after a reply has joined the stream's tail, the receiver HUNTING and its timer clear (R161, R164). -/
def State.answered (s : State) (tag : Byte) (b : ReplyBody) : State :=
  { s with link :=
    { s.link with receiver := .idle, replies := s.link.replies ++ [{ tag := tag, body := b }] } }

/-- The part after a DONE reply (R163). -/
def State.answeredDone (s : State) (tag : Byte) (kind : RequestKind) (r : Result) : State :=
  s.answered tag (.done kind r)

/-- The part after a REFUSED reply to a request (R163, R165). -/
def State.answeredRefused (s : State) (tag : Byte) (kind : RequestKind) (c : RefusalCode) : State :=
  s.answered tag (.refused c kind.code)

/-- Bytes that arrive on the receive line one after another, each with the tick of its arrival. -/
def feed : List (Nat × Byte) → State → Host.Outcome State Fault Refusal
  | [], s => .next s
  | (tick, byte) :: rest, s =>
    match exec (.controlLinkByte tick byte) s with
    | .next t => feed rest t
    | .fault r => .fault r
    | .refused r => .refused r

/-! ### Names that statements use -/

/-- Slot `i` holds a handle, and no other slot does (R44). -/
def State.Holds (s : State) (i : SlotId) (h : Handle) : Prop :=
  (s.slot i).handle = some h ∧ ∀ j, (s.slot j).handle = some h → j = i

/-- No slot holds a handle (R44). -/
def State.Unheld (s : State) (h : Handle) : Prop := ∀ i, (s.slot i).handle ≠ some h

/-- The handle is not in the pending list (R13). -/
def State.NotPending (s : State) (h : Handle) : Prop := ∀ e ∈ s.radio.pendingLinks, e.handle ≠ h

/-- The index by which requests name an output: 0 U, 1..4 O0..O3 (R117). -/
def Output.index : Output → Nat
  | .u => 0
  | .o i => i.num + 1

/-- The index by which requests name an input: 0 D, 1..4 E0..E3, 5 P (R117). -/
def Input.index : Input → Nat
  | .d => 0
  | .e i => i.num + 1
  | .p => 5

/-- The record of a slot that is EMPTY: the values of R2, with the counters, talker state and level watch given. -/
def Slot.emptyRecord (stats : Stats) (talker : Talker) (watch : LevelWatch) : Slot :=
  { state := .empty, handle := none, identity := none, side := .mono, role := .solo, partner := none, mic := false,
    inTarget := 320, outTarget := 240, estimate := 0, firstWindow := false, failCount := 0, idle := 0, window := none,
    inRing := { samples := [], phase := 0, expected := none, history := none, run := 0 },
    outRing := { samples := [], phase := 0, lastStep := none, lastServed := none },
    stats := stats, talker := talker, watch := watch }

/-- The record with which a slot leaves for EMPTY by a cause other than a reset (R2, R137). -/
def Slot.leftEmpty (x : Slot) : Slot :=
  .emptyRecord x.stats { level := 0, primary := false, weight := x.talker.weight } { x.watch with run := 0 }

/-- A record with both rings as a flush leaves them and the window WAITING (R52, R83). -/
def Slot.flushedRecord (x : Slot) : Slot :=
  { x with
    inRing := { samples := [], phase := 0, expected := none, history := none, run := 0 }
    outRing := { samples := [], phase := 0, lastStep := none, lastServed := none }
    window := none }

/-- A record that enters MEASURING: what R8 and R137 set, everything else kept. -/
def Slot.acquiringRecord (x : Slot) : Slot :=
  { x.flushedRecord with
    state := .measuring, idle := 0, failCount := 0, firstWindow := false,
    talker := { x.talker with level := 0 }, watch := { x.watch with run := 0 } }

/-- A raise of a notice into a queue held in State. -/
def State.withNotice (s : State) (b : NoticeBody) : State :=
  { s with notices := { s.notices with queue := coalesce b s.notices.queue } }

/-- The part after an anomaly: it fills an empty capture record, its further-count 0, and raises CAPTURE; else it adds 1 to
the further-count, up to 255 (R66). -/
def State.recorded (s : State) (kind : AnomalyKind) (slot : Option SlotId) (handle : Option Handle)
    (message : Option (SeqNum × Stamp)) : State :=
  match s.capture.record with
  | none =>
    { s with capture :=
      { record := some
          { kind := kind, slot := slot, handle := handle, message := message, mixPeriod := s.mix.period },
        further := 0 } }.withNotice (.capture { kind := kind, slot := slot })
  | some a => { s with capture := { record := some a, further := min 255 (s.capture.further + 1) } }

/-- A message joined to the tail of the outgoing radio stream (R44). -/
def State.withOutgoing (s : State) (m : List RadioOut) : State :=
  { s with radio := { s.radio with outgoing := s.radio.outgoing ++ m } }

/-- The part with slot `i`'s record replaced. -/
def State.withSlot (s : State) (i : SlotId) (x : Slot) : State := { s with slots := s.slots.set i x }

/-- The column and the row of slot `i` at applied gain 0 where `when` holds (R126). -/
def State.silencedWhen (s : State) (when : Bool) (i : SlotId) : State :=
  { s with mix :=
    { s.mix with
      applied := .tabulate fun o j => if when && (o == .o i || j == .e i) then 0 else s.mix.applied.get o j } }

/-- The partner that a profile names for a slot of the side given: the non-EMPTY slot that holds the profile's partner
identity, where it is SOLO and the two sides are LEFT and RIGHT (R16, R23). -/
def State.namedPartner (s : State) (profile : Option Profile) (side : Side) : Option SlotId :=
  (profile.bind fun p => p.partnerIdentity).bind fun identity =>
    (SlotId.all.find? fun k => (s.slot k).state != .empty && (s.slot k).identity == some identity).filter fun k =>
      (s.slot k).role == .solo &&
        match side, (s.slot k).side with
        | .left, .right => true
        | .right, .left => true
        | _, _ => false

/-- The first of the checks of R21 and R22 that an ADMIT fails, in their order; the partner byte 0xFF names none. -/
def State.admitVerdict (s : State) (handle : Handle) (slot side partner : Byte) : Option RefusalCode :=
  match SlotId.all.find? (fun j => j.num == slot.toNat), sideOfByte side with
  | some i, some sd =>
    if partner != 0xFF && 4 ≤ partner.toNat then some .range
    else
      match s.radio.pendingLinks.find? (fun e => e.handle == handle) with
      | none => some .noLink
      | some e =>
        if (s.slot i).state != .empty then some .busy
        else if s.notices.queue.any fun n => n.body.subject == .slot i then some .pending
        else if SlotId.all.any fun j => (s.slot j).state != .empty && (s.slot j).identity == some e.identity then
          some .conflict
        else
          match SlotId.all.find? (fun j => j.num == partner.toNat) with
          | none => none
          | some k =>
            if k == i then some .range
            else if (s.slot k).state == .empty then some .busy
            else if (s.slot k).partner.isSome then some .conflict
            else if sd == .mono || (s.slot k).side == .mono || sd == (s.slot k).side then some .conflict
            else none
  | _, _ => some .range

/-! ### The widths of results (11.3, 11.4) -/

/-- The bytes of a notice's fields (R181). -/
def NoticeBody.width : NoticeBody → Nat
  | .slot _ _ => 13
  | .rate _ _ => 13
  | .level _ _ => 10
  | .talk _ _ => 11
  | .skew _ _ => 8
  | .ready _ => 6
  | .call _ => 12
  | .join _ => 10
  | .prompt _ => 12
  | .capture _ => 2
  | .mixsat _ => 8

/-- The bytes of a DONE result after the kind byte (R180, 11.3.1 to 11.3.3; R181 for COLLECT). -/
def Result.width : Result → Nat
  | .ident _ _ _ => 5
  | .statusSlot _ => 42
  | .statusDevice _ => 58
  | .stats _ _ _ => 24
  | .capture none => 1
  | .capture (some _) => 16
  | .collect _ none => 2
  | .collect _ (some n) => 4 + n.body.width
  | .maskSet _ _ => 3
  | .reset => 0
  | .profilePut _ _ => 21
  | .profileDrop _ => 6
  | .profileGet _ => 20
  | .admitLink _ => 18
  | .decline _ _ => 7
  | .remove _ _ _ _ => 9
  | .gainSet entries => 4 * entries.length
  | .gainGet _ _ => 120
  | .talkSet _ => 8
  | .watchSet _ _ _ _ => 5
  | .limitSet _ => 9
  | .promptLoad _ _ => 3
  | .promptPlay _ _ _ _ => 6
  | .promptMore _ => 2
  | .promptStop _ _ => 3

/-! ### Notices and radio messages, many at once -/

/-- The queue after a list of raises, in their order (R173). -/
def raisedInto (q : List Notice) (l : List NoticeBody) : List Notice := l.foldl (fun q b => coalesce b q) q

/-- The part after a list of raises, in their order (R173). -/
def State.withNotices (s : State) (l : List NoticeBody) : State :=
  { s with notices := { s.notices with queue := raisedInto s.notices.queue l } }

/-- The queued notices of one kind, oldest first (R172). -/
def NoticeQueue.ofKind (q : NoticeQueue) (k : NoticeKind) : List Notice := q.queue.filter fun n => n.body.kind == k

/-! ### Roles and rates -/

/-- The LEADER of a slot that is a FOLLOWER (R28). -/
def State.leaderOf (s : State) (i : SlotId) : Option SlotId :=
  match (s.slot i).role with
  | .follower => (s.slot i).partner
  | _ => none

/-- The part with slot `i` LEADER and slot `k` FOLLOWER, and ROLE raised on slot `i` with no link reason (R31, R32;
log 11). -/
def State.withLead (s : State) (i k : SlotId) : State :=
  let x := s.slot i
  ((s.withSlot i { x with role := .leader }).withSlot k { s.slot k with role := .follower }).withNotice
    (.slot i { reason := .role, state := x.state, role := .leader, partner := x.partner, handle := x.handle,
               identity := x.identity, linkReason := none })

/-- The part in which slot `i`, having entered ACTIVE, takes the lead where it is the FOLLOWER of a LOST LEADER (R32). -/
def State.leadTaken (s : State) (i : SlotId) : State :=
  match s.leaderOf i with
  | some k => if (s.slot k).state = .lost then s.withLead i k else s
  | none => s

/-- The rate deviation by which a slot is resampled: its own estimate, for a FOLLOWER of an ACTIVE or STALLED LEADER
the LEADER's (R36, R96). -/
def State.sharedEstimate (s : State) (i : SlotId) : Int :=
  match s.leaderOf i with
  | some k => if (s.slot k).state = .active ∨ (s.slot k).state = .stalled then (s.slot k).estimate else (s.slot i).estimate
  | none => (s.slot i).estimate

/-- The step of an inbound pass of slot `i` under a pacing source: the slot's rate against the pacing clock's, and twice
the excess of the fill over the target, at most 400 either way (R96, R101, R103, R104). -/
def State.stepIn (s : State) (pacing : Pacing) (i : SlotId) : Nat :=
  let x := s.slot i
  let pace := match pacing with
    | .byCall => s.rate.estimate
    | .byLocal => 0
  stepOf (s.sharedEstimate i - pace + max (-400) (min 400 (2 * ((x.inRing.samples.length : Int) - x.inTarget))))

/-- The step of an outbound pass of slot `i`: for a FOLLOWER the last outbound step of its LEADER, where the LEADER is
ACTIVE and holds one, else its own, from the opposite of its relative rate (R38, R96, R102, R103, R104). -/
def State.stepOut (s : State) (i : SlotId) : Nat :=
  let x := s.slot i
  let pace := if s.call.state = .absent then 0 else s.rate.estimate
  let own :=
    stepOf (-(s.sharedEstimate i - pace) + max (-400) (min 400 (2 * ((x.outRing.samples.length : Int) - x.outTarget))))
  match s.leaderOf i with
  | some k =>
    match (s.slot k).state, (s.slot k).outRing.lastStep with
    | .active, some step => step
    | _, _ => own
  | none => own

/-! ### Microphone blocks (R54 to R59, R66) -/

/-- How far a MIC stands ahead of the expected one: 0 where none is expected, `none` for a late block (R54). -/
def Slot.gapBefore (x : Slot) (seq : SeqNum) : Option Nat :=
  match x.inRing.expected with
  | none => some 0
  | some e => if (seq - e).toNat ≤ 32767 then some (seq - e).toNat else none

/-- The concealment blocks that a gap of `g` blocks gets: at most 8, and as many as keep the fill within the target
(R55). -/
def Slot.gapBlocks (x : Slot) (g : Nat) : Nat := min g (min 8 ((x.inTarget - x.inRing.samples.length) / 80))

/-- The concealment blocks that replace a BAD block behind a gap of `g` blocks: none after 8, else at most one within the
target (R56). -/
def Slot.badBlocks (x : Slot) (g : Nat) : Nat :=
  let c := x.gapBlocks g
  if c = 8 then 0 else min 1 ((x.inTarget - (x.inRing.samples.length + 80 * c)) / 80)

/-- The samples of the concealment block made at run `k` (R57). -/
def Slot.fadedBlock (x : Slot) (k : Nat) : List Sample :=
  match x.inRing.history with
  | none => List.replicate 80 0
  | some h => h.map fun v => if k ≤ 4 then BitVec.ofInt 16 (Int.tdiv v.toInt (2 ^ k)) else 0

/-- The ring's samples and all that a MIC behind a gap of `g` blocks appends to them, nothing discarded yet (R55, R56,
R57). -/
def Slot.blockAppended (x : Slot) (g : Nat) (bad : Bool) (samples : List Sample) : List Sample :=
  let n := x.gapBlocks g + if bad then x.badBlocks g else 0
  x.inRing.samples ++ ((List.range n).flatMap fun j => x.fadedBlock (min 255 (x.inRing.run + j + 1))) ++
    if bad then [] else samples

/-- The samples that the appends of a MIC on a live slot discard: what passes 1024 (R59); an acquiring slot's ring is
trimmed instead (R58). -/
def Slot.blockOverrun (x : Slot) (g : Nat) (bad : Bool) (samples : List Sample) : Nat :=
  if x.state = .measuring ∨ x.state = .filling then 0 else (x.blockAppended g bad samples).length - 1024

/-- The record of a slot after a MIC that is not late, behind a gap of `g` blocks: idle count 0, the ring after the appends
and after its overrun or trim, the next block expected, history and run, counters (R5, R53 to R59, R65). -/
def Slot.withBlock (x : Slot) (g : Nat) (seq : SeqNum) (bad : Bool) (samples : List Sample) : Slot :=
  let ring := x.blockAppended g bad samples
  let n := x.gapBlocks g + if bad then x.badBlocks g else 0
  let discarded := x.blockOverrun g bad samples
  let excess := if x.state = .measuring ∨ x.state = .filling then ring.length - x.inTarget else discarded
  { x with
    idle := 0
    inRing :=
      { samples := ring.drop excess, phase := if discarded = 0 then x.inRing.phase else 0, expected := some (seq + 1),
        history := if bad then x.inRing.history else some samples,
        run := if bad then min 255 (x.inRing.run + n) else 0 }
    stats := { x.stats with
      micIn := min 65535 (x.stats.micIn + 1), concealed := min 65535 (x.stats.concealed + n),
      skipped := min 65535 (x.stats.skipped + (g - x.gapBlocks g)),
      bad := if bad then min 65535 (x.stats.bad + 1) else x.stats.bad,
      inOverrun := min 65535 (x.stats.inOverrun + discarded) } }

/-- The part with that record in slot `i` and the anomalies of the arrival recorded, in their order SKIP, BAD, IN_OVERRUN
(R66). -/
def State.blockTaken (s : State) (i : SlotId) (g : Nat) (seq : SeqNum) (stamp : Stamp) (bad : Bool)
    (samples : List Sample) : State :=
  let x := s.slot i
  let kinds : List AnomalyKind :=
    (if x.gapBlocks g < g then [.skip] else []) ++ (if bad then [.bad] else []) ++
      if 0 < x.blockOverrun g bad samples then [.inOverrun] else []
  kinds.foldl (fun t kind => t.recorded kind (some i) x.handle (some (seq, stamp)))
    (s.withSlot i (x.withBlock g seq bad samples))

/-- The part after a FILLING slot has entered ACTIVE: its column and row at 0, SLOT reason ACTIVE, and the lead taken
where it is the FOLLOWER of a LOST LEADER (R9, R32, R127). -/
def State.activated (s : State) (i : SlotId) : State :=
  let x := s.slot i
  (((s.withSlot i { x with state := .active }).silencedWhen true i).withNotice
    (.slot i { reason := .active, state := .active, role := x.role, partner := x.partner, handle := x.handle,
               identity := x.identity, linkReason := none })).leadTaken i

/-! ### A mix period, of the state that raises it (R71, R72, R77, R80) -/

/-- The commands that raise a mix period in `s`, with the pacing source and the input D of the period: the expiry of the
local timer, and the strobe that brings the count to 80. The call window closes on the strobe after one that raises a
period (R87), so that strobe completes no window. -/
inductive RaisesPeriod (s : State) : Instr → Pacing → List Sample → Prop
  | timer (due : Nat) : s.call.localTimer = some due →
    RaisesPeriod s .localTimerExpiry .byLocal (List.replicate 80 0)
  | strobe (tick : Nat) (downlink : Sample) (w : CallWindow) : s.call.state ≠ .absent → s.call.strobeCount = 79 →
    s.rate.window = some w → w.counted < 5119 →
    RaisesPeriod s (.strobe tick downlink) .byCall (s.call.captureHalf.set 79 downlink)

/-- The applied gain with which the period mixes a path: the rows and columns of slots that are not live at 0, every
other path moved toward its effective target by at most the ramp (R122, R124, R125). -/
def State.periodGain (s : State) (o : Output) (j : Input) : Nat :=
  let stepped :=
    (match o with
      | .u => true
      | .o i => (s.slot i).state.live) &&
    match j with
    | .e k => (s.slot k).state.live
    | _ => true
  let g := s.mix.targets.get o j
  let e :=
    match o, j with
    | .u, .e k => if (s.slot k).state = .stalled then 0 else (g * (s.slot k).talker.weight + 2048) / 4096
    | .o _, .e k => if (s.slot k).state = .stalled then 0 else g
    | _, _ => g
  let a := s.mix.applied.get o j
  let ramp := s.limits.ramp
  if stepped then (if ramp = 0 then e else if a ≤ e then min e (a + ramp) else max e (a - ramp)) else 0

/-- The six gains of an output in the period. -/
def State.periodRow (s : State) (o : Output) : GainRow :=
  { d := s.periodGain o .d, e := .tabulate fun k => s.periodGain o (.e k), p := s.periodGain o .p }

/-- The inbound pass of slot `i` in the period (R111). -/
def State.periodPass (s : State) (pacing : Pacing) (i : SlotId) : PassResult :=
  runPass (s.stepIn pacing i) 80 (s.slot i).inRing.samples (s.slot i).inRing.phase

/-- The six inputs of the period: D as given, the outputs of the live slots' inbound passes, the player's P (R129). -/
def State.periodInputs (s : State) (pacing : Pacing) (d : List Sample) : MixInputs :=
  { d := d
    e := .tabulate fun i => if (s.slot i).state.live then (s.periodPass pacing i).outputs else List.replicate 80 0
    p := (formP s.prompt.memory s.prompt.player).1 }

/-- The slots whose inbound pass starves in the period: live, with a microphone, an output short (R111). -/
def State.starves (s : State) (pacing : Pacing) (i : SlotId) : Bool :=
  (s.slot i).state.live && (s.slot i).mic && decide (0 < (s.periodPass pacing i).short)

/-- The outbound ring of slot `i` with the period's O_i appended under the overrun rule (R61, R134). -/
def State.periodOut (s : State) (pacing : Pacing) (d : List Sample) (i : SlotId) : OutRing :=
  let r := (s.slot i).outRing
  let n := r.samples.length - 944
  { r with
    samples := r.samples.drop n ++ mixedBlock (s.periodRow (.o i)) (s.periodInputs pacing d)
    phase := if n = 0 then r.phase else 0 }

/-- The LEADER to whose outbound ring the fill check of the period sets that of its FOLLOWER, slot `i`: both were ACTIVE,
both hold one last served sequence, and the fills after the appends differ by more than 40 (R40). -/
def State.resyncsTo (s : State) (pacing : Pacing) (d : List Sample) (i : SlotId) : Option SlotId :=
  (s.leaderOf i).filter fun k =>
    let mine := s.periodOut pacing d i
    let theirs := s.periodOut pacing d k
    (s.slot i).state == .active && (s.slot k).state == .active && mine.lastServed.isSome &&
      mine.lastServed == theirs.lastServed &&
      decide (40 < ((mine.samples.length : Int) - theirs.samples.length).natAbs)

/-- How many samples of an output of the period saturate: 0 where the period does not form it (R130, R132). -/
def State.periodSaturations (s : State) (pacing : Pacing) (d : List Sample) (o : Output) : Nat :=
  let formed : Bool :=
    match o with
    | .u => pacing == .byCall
    | .o i => (s.slot i).state == .active
  if formed then saturatedCount (s.periodRow o) (s.periodInputs pacing d) else 0

/-- The number of the period (R79). -/
def State.periodNumber (s : State) : PeriodNumber := s.mix.period + 1

/-! ### The notice queue (R172, R173) -/

/-- At most one notice for each kind and subject, every occurrence count within 1..255 (R172, R173). -/
def NoticeQueue.Lawful (q : NoticeQueue) : Prop :=
  (q.queue.map fun n => n.body.key).Nodup ∧ ∀ n ∈ q.queue, 1 ≤ n.count ∧ n.count ≤ 255

/-! ### The control link unit (R160, R161, R164) -/

/-- The bytes of the frame under way after its start byte, as received so far. -/
def Receiver.received (r : Receiver) : List Byte :=
  (match r.length with
    | some n => [BitVec.ofNat 8 n]
    | none => []) ++
  (match r.kind with
    | some k => [k]
    | none => []) ++
  (match r.tag with
    | some t => [t]
    | none => []) ++ r.body

/-- What the receive assembly holds in each receiver state (R160): the fields present, the body's length against the
length byte, the timer outside HUNTING. -/
def Receiver.holds (r : Receiver) : Prop :=
  match r.phase with
  | .hunting => r = .idle
  | .length => r.length = none ∧ r.kind = none ∧ r.tag = none ∧ r.body = [] ∧ r.timer.isSome
  | .kind => (∃ n ≤ 248, r.length = some n) ∧ r.kind = none ∧ r.tag = none ∧ r.body = [] ∧ r.timer.isSome
  | .tag => (∃ n ≤ 248, r.length = some n) ∧ r.kind.isSome ∧ r.tag = none ∧ r.body = [] ∧ r.timer.isSome
  | .body => (∃ n ≤ 248, r.length = some n ∧ r.body.length < n) ∧ r.kind.isSome ∧ r.tag.isSome ∧ r.timer.isSome
  | .check => (∃ n ≤ 248, r.length = some n ∧ r.body.length = n) ∧ r.kind.isSome ∧ r.tag.isSome ∧ r.timer.isSome

/-- The control link unit: at most 8 replies (R164), a consistent receive assembly, and the running sum of what has
been received (R160). -/
def ControlLink.Lawful (l : ControlLink) : Prop :=
  l.replies.length ≤ 8 ∧ l.receiver.holds ∧ l.receiver.sum = byteSum l.receiver.received

/-! ### The prompt player (R150, R151) -/

/-- A play lies within memory, its read position within its region, its counts within their ranges (R151). -/
def Play.Lawful (p : Play) : Prop :=
  1 ≤ p.length ∧ p.start + p.length ≤ 16384 ∧ p.start ≤ p.position ∧ p.position < p.start + p.length ∧
    p.remaining ≤ 65535 ∧ p.gap ≤ 255

/-- The play record (R151): in GAP the read position is the region start and the gap count 1 to the gap. -/
def Player.Lawful : Player → Prop
  | .idle => True
  | .playing p => p.Lawful
  | .gap p n => p.Lawful ∧ p.position = p.start ∧ 1 ≤ n ∧ n ≤ p.gap

/-- The prompt memory in its canonical form and a lawful play record. -/
def PromptPlayer.Lawful (p : PromptPlayer) : Prop := Memory.wf p.memory = true ∧ p.player.Lawful

/-! ### Gains and talker weights (R117, R126, R136) -/

/-- Every gain of a matrix lies within 0..8191 (R117). -/
def GainMatrix.Bounded (m : GainMatrix) : Prop := ∀ o i, m.get o i ≤ 8191

/-- Every gain within 0..8191 (R117), every talker weight and both weight parameters within 0..4096 (R136). -/
def State.GainsLawful (s : State) : Prop :=
  s.mix.targets.Bounded ∧ s.mix.applied.Bounded ∧ (∀ i, (s.slot i).talker.weight ≤ 4096) ∧
    s.talk.duckWeight ≤ 4096 ∧ s.talk.gateWeight ≤ 4096

/-- The column and the row of a slot that is neither ACTIVE nor STALLED hold applied gains of 0 (R126). -/
def State.DeadSlotsSilent (s : State) : Prop :=
  ∀ i, (s.slot i).state.live = false →
    (∀ o, s.mix.applied.get o (.e i) = 0) ∧ ∀ j, s.mix.applied.get (.o i) j = 0

/-! ### Pairs (R28, R30, R136) -/

/-- Two sides of a pair: LEFT and RIGHT (R28). -/
def Side.opposes (a b : Side) : Prop := (a = .left ∧ b = .right) ∨ (a = .right ∧ b = .left)

/-- Slot `i` with its partner, where it has one: each names the other, neither is EMPTY, one is LEADER and the other
FOLLOWER, their sides are LEFT and RIGHT, exactly one is the primary; a slot with no partner is SOLO and no primary
(R28, R136). -/
def State.pairLawful (s : State) (i : SlotId) : Prop :=
  match (s.slot i).partner with
  | none => (s.slot i).role = .solo ∧ (s.slot i).talker.primary = false
  | some k =>
    k ≠ i ∧ (s.slot k).partner = some i ∧ (s.slot i).state ≠ .empty ∧ (s.slot i).side.opposes (s.slot k).side ∧
      (((s.slot i).role = .leader ∧ (s.slot k).role = .follower) ∨
        ((s.slot i).role = .follower ∧ (s.slot k).role = .leader)) ∧
      (s.slot i).talker.primary = !(s.slot k).talker.primary

/-- Every pair is lawful (R28). -/
def State.PairsLawful (s : State) : Prop := ∀ i, s.pairLawful i

/-! ### Handles and identities (R1, R13, R44) -/

/-- Which slots hold a handle and an identity (R1, R3). -/
def Slot.bindingLawful (x : Slot) : Prop :=
  match x.state with
  | .empty => x.handle = none ∧ x.identity = none
  | .lost => x.identity.isSome
  | _ => x.handle.isSome ∧ x.identity.isSome

/-- Handles and identities: a handle is never 0, bound to at most one slot and never both bound and pending; an
identity is held by at most one slot and never both held and pending; the pending list holds at most 4 entries, no two
with one handle or one identity (R1, R13, R44). -/
def State.BindingsLawful (s : State) : Prop :=
  (∀ i, (s.slot i).bindingLawful ∧ (s.slot i).handle ≠ some 0) ∧
  (∀ i j h, (s.slot i).handle = some h → (s.slot j).handle = some h → i = j) ∧
  (∀ i j d, (s.slot i).identity = some d → (s.slot j).identity = some d → i = j) ∧
  s.radio.pendingLinks.length ≤ 4 ∧
  (s.radio.pendingLinks.map fun e => e.handle).Nodup ∧
  (s.radio.pendingLinks.map fun e => e.identity).Nodup ∧
  ∀ e ∈ s.radio.pendingLinks,
    e.handle ≠ 0 ∧ ∀ i, (s.slot i).handle ≠ some e.handle ∧ (s.slot i).identity ≠ some e.identity

/-! ### Rings (R50, R52, R58, R104) -/

/-- A slot's rings and targets: fills 0..1024, phases below one sample, the last outbound step within the step range, a
history of 80 samples, a run of at most 255, targets 160..800; an acquiring slot holds at most its target at phase 0;
an EMPTY or LOST slot's rings are flushed and its window is reset, and an EMPTY slot binds no handle (R3, R50, R52,
R58, R104). -/
def Slot.ringsLawful (x : Slot) : Prop :=
  x.inRing.samples.length ≤ 1024 ∧ x.outRing.samples.length ≤ 1024 ∧
  x.inRing.phase < 1048576 ∧ x.outRing.phase < 1048576 ∧
  (∀ step, x.outRing.lastStep = some step → 1047527 ≤ step ∧ step ≤ 1049625) ∧
  (∀ h, x.inRing.history = some h → h.length = 80) ∧ x.inRing.run ≤ 255 ∧
  160 ≤ x.inTarget ∧ x.inTarget ≤ 800 ∧ 160 ≤ x.outTarget ∧ x.outTarget ≤ 800 ∧
  (x.state.acquiring = true → x.inRing.samples.length ≤ x.inTarget ∧ x.inRing.phase = 0) ∧
  (x.state = .empty ∨ x.state = .lost → x.inRing = .flushed ∧ x.outRing = .flushed ∧ x.window = none) ∧
  (x.state = .empty → x.handle = none)

/-- Every slot's rings are lawful (R50). -/
def State.RingsLawful (s : State) : Prop := ∀ i, (s.slot i).ringsLawful

/-! ### Rates and the call port (R68, R69, R87, R91, R94) -/

/-- The limits within their ranges (R94). -/
def Limits.Lawful (l : Limits) : Prop :=
  80 ≤ l.slotLimit ∧ l.slotLimit ≤ 8000 ∧ 80 ≤ l.callLimit ∧ l.callLimit ≤ 8000 ∧ l.pairTolerance ≤ 8000 ∧
    8 ≤ l.lossTimeout ∧ l.lossTimeout ≤ 255 ∧ l.ramp ≤ 8191

/-- Every rate estimate lies within the limit set for its clock (R91). -/
def State.RatesLawful (s : State) : Prop :=
  s.limits.Lawful ∧ (∀ i, (s.slot i).estimate.natAbs ≤ s.limits.slotLimit) ∧
    s.rate.estimate.natAbs ≤ s.limits.callLimit

/-- The call port (R68, R69, R87): while ABSENT no strobe timer, a local timer, no window, estimate 0, count 0 and both
halves 0; else a strobe timer, no local timer, an OPEN window with at most 5119 strobes counted and a strobe count
below 80. Both halves hold 80 samples. -/
def State.CallLawful (s : State) : Prop :=
  s.call.captureHalf.length = 80 ∧ s.call.playHalf.length = 80 ∧ s.call.rateFailures ≤ 255 ∧
  match s.call.state with
  | .absent =>
    s.call.strobeTimer = none ∧ s.call.localTimer.isSome ∧ s.rate.window = none ∧ s.rate.estimate = 0 ∧
      s.call.strobeCount = 0 ∧ s.call.captureHalf = silence ∧ s.call.playHalf = silence
  | _ =>
    s.call.strobeTimer.isSome ∧ s.call.localTimer = none ∧ s.call.strobeCount < 80 ∧
      ∃ w, s.rate.window = some w ∧ w.counted < 5120

/-! ### Counters and levels (R5, R65, R66, R136) -/

/-- The eleven counters within 0..65535 (R65). -/
def Stats.Bounded (c : Stats) : Prop :=
  c.micIn ≤ 65535 ∧ c.concealed ≤ 65535 ∧ c.skipped ≤ 65535 ∧ c.late ≤ 65535 ∧ c.bad ≤ 65535 ∧
    c.inOverrun ≤ 65535 ∧ c.inStarve ≤ 65535 ∧ c.pulls ≤ 65535 ∧ c.outShort ≤ 65535 ∧ c.outOverrun ≤ 65535 ∧
    c.resync ≤ 65535

/-- Counters, idle count, fail count, level and watch of a slot within their ranges (R1, R65, R136). -/
def Slot.countsLawful (x : Slot) : Prop :=
  x.stats.Bounded ∧ x.idle ≤ 255 ∧ x.failCount ≤ 3 ∧ x.talker.level ≤ 32768 ∧ x.watch.threshold ≤ 32768 ∧
    1 ≤ x.watch.count ∧ x.watch.count ≤ 255 ∧ x.watch.run ≤ 255

/-- Every slot's counts are lawful, and so is the further-count (R66). -/
def State.CountsLawful (s : State) : Prop := (∀ i, (s.slot i).countsLawful) ∧ s.capture.further ≤ 255

/-! ### The profile table (R18, R19) -/

/-- The profile table: at most 8 records, one for each identity, seeds within −15..+15 and targets within 160..800, no
MONO record with a partner, no record its own partner (R18, R19). -/
def State.ProfilesLawful (s : State) : Prop :=
  s.profiles.length ≤ 8 ∧ (s.profiles.map fun p => p.identity).Nodup ∧
  ∀ p ∈ s.profiles, -15 ≤ p.seed ∧ p.seed ≤ 15 ∧ (∀ t, p.inTarget = some t → 160 ≤ t ∧ t ≤ 800) ∧
    (∀ t, p.outTarget = some t → 160 ≤ t ∧ t ≤ 800) ∧ (p.side = .mono → p.partnerIdentity = none) ∧
    p.partnerIdentity ≠ some p.identity

end Sys2Proof.Machine
end

