-- ==== Sys2Proof/Certificates/Slice0/Obligations.lean ====
section
/-!
DEFINITION. The statements for the provers, each about every state that meets its premises. `Obligations.<Name>` is
listed in OBLIGATIONS.json under its id.
-/

open Sys2Proof Sys2Proof.Machine

/-! ### The queue of commands -/

/-- A step runs the command at the front of the queue with the queue's rest. On an empty queue the part idles: that
clause is the model's own choice (log 2). -/
def Obligations.StepRunsFrontCommand : Prop :=
  ∀ s : State,
    (∀ c rest, s.pending = c :: rest → step s = exec c { s with pending := rest }) ∧
      (s.pending = [] → step s = .next s)

/-- Every command, whatever its operands and in every state, answers a next state and leaves the waiting commands as
they are: no fault and no refusal. That the part stops on no event is read from the manual (log 20, DEDUCED); that an
event which cannot occur in a state changes nothing, and that a frame too long to be one changes the receiver alone, are
the model's choices (log 3, 21). -/
def Obligations.EveryCommandAnswers : Prop :=
  ∀ (c : Instr) (s : State), ∃ t, exec c s = .next t ∧ t.pending = s.pending

/-! ### Frames on the control link -/

/-- A frame, whether it carries a request or is to be refused, changes nothing while RESET is held or in RESETTING, and
else only returns the receiver to HUNTING when the reply stream holds 8 replies (R160, R164, R177).
A request that is taken gets exactly one reply, at the stream's tail, with its tag: DONE with a result of its kind,
or REFUSED with its kind byte and no other change than the reply and the receiver in HUNTING (R163, R164, R165). -/
def Obligations.EachTakenFrameGetsOneReply : Prop :=
  (∀ (c : Instr) (s : State),
      (c.requestFrame.isSome = true ∨ ∃ kind tag body check, c = .refusedFrame kind tag body check) →
        (s.resetHeld = true ∨ s.link.mode = .resetting → exec c s = .next s) ∧
        (s.resetHeld = false → s.link.mode = .normal → 8 ≤ s.link.replies.length →
          exec c s = .next { s with link := { s.link with receiver := .idle } })) ∧
  ∀ (c : Instr) (kind : RequestKind) (tag : Byte) (body : List Byte) (s : State),
    c.requestFrame = some (kind, tag, body) → s.Listens →
      ∃ t b, exec c s = .next t ∧ t.link.replies = s.link.replies ++ [{ tag := tag, body := b }] ∧
        t.link.receiver = .idle ∧
        ((∃ r, b = .done kind r) ∨ ∃ code, b = .refused code kind.code ∧ t = s.answered tag b)

/-- A complete frame that fails a check of R163 is answered REFUSED with the code of the first that fails: CHECK where
its bytes do not sum to 0, UNKNOWN where its kind byte is outside 0x01..0x16, FORMAT where the kind does not take its
length. A frame that fails none is the request it carries: the model's choice of how such a frame is taken as a
command (log 5). -/
def Obligations.CompleteFramesAreChecked : Prop :=
  ∀ (kind tag : Byte) (body : List Byte) (check : Byte) (s : State), body.length ≤ 248 →
    (s.Listens → byteSum (frameHead kind tag body) + check ≠ 0 →
      exec (.refusedFrame kind tag body check) s = .next (s.answered tag (.refused .check kind))) ∧
    (s.Listens → byteSum (frameHead kind tag body) + check = 0 → (kind.toNat = 0 ∨ 22 < kind.toNat) →
      exec (.refusedFrame kind tag body check) s = .next (s.answered tag (.refused .unknown kind))) ∧
    (∀ k : RequestKind, k.code = kind → byteSum (frameHead kind tag body) + check = 0 →
      (s.Listens → k.admits body.length = false →
        exec (.refusedFrame kind tag body check) s = .next (s.answered tag (.refused .format kind))) ∧
      (k.admits body.length = true →
        ∃ c, decodeRequest kind tag body = .ok c ∧ exec (.refusedFrame kind tag body check) s = exec c s))

/-- Decode and encode agree for every well-formed request, at every value of its operands: its frame is of an admitted
length and decodes to it. -/
def Obligations.RequestFramesDecode : Prop :=
  ∀ (c : Instr) (kind : RequestKind) (tag : Byte) (body : List Byte), c.wellFormed = true →
    c.requestFrame = some (kind, tag, body) →
      body.length ≤ 248 ∧ kind.admits body.length = true ∧
        decodeFrame kind.code tag body (frameCheck kind.code tag body) = .ok c

/-- Decode and encode agree for every well-formed radio message. A frame decodes to a command exactly where it is that
well-formed message's bytes, whatever the ignored bits of its flag byte, followed by a 16-bit check, low byte first, that
makes the sum of all bytes before it and the check 0 modulo 65,536: any other frame decodes to none (R45, R182). A message
is its kind byte and its fields, each low byte first (R179, R182). -/
def Obligations.RadioFramesDecode : Prop :=
  (∀ (c : Instr) (m : List Byte), c.wellFormed = true → c.radioMessage = some m →
    decodeRadio (radioFrameBytes m) = some c) ∧
  (∀ (bytes : List Byte) (c : Instr), decodeRadio bytes = some c ↔
    c.wellFormed = true ∧ ∃ (m head : List Byte) (lo hi : Byte), c.radioMessage = some m ∧
      bytes.length = m.length + 2 ∧ bytes = head ++ [lo, hi] ∧
      ((head.map BitVec.toNat).sum + lo.toNat + 256 * hi.toNat) % 65536 = 0 ∧
      match c with
      | .linkUp _ _ mic => head.set 8 (if mic then 1 else 0) = m ∧ mic = (head.getD 8 0 != 0)
      | .mic _ _ _ bad _ => head.set 8 (if bad then 1 else 0) = m ∧ bad = (head.getD 8 0).getLsbD 0
      | _ => head = m) ∧
  ∀ c : Instr,
    let low := fun (n v : Nat) => (List.range n).map fun k => BitVec.ofNat 8 (v / 256 ^ k)
    c.radioMessage =
      match c with
      | .linkUp handle identity mic => some ([0x11, handle] ++ low 6 identity.toNat ++ [if mic then 1 else 0])
      | .linkDown handle reason => some [0x12, handle, reason]
      | .mic handle seq stamp bad samples =>
        some ([0x13, handle] ++ low 2 seq.toNat ++ low 4 stamp.toNat ++ [if bad then 1 else 0] ++
          samples.flatMap fun v => low 2 v.toNat)
      | .pull handle seq stamp => some ([0x14, handle] ++ low 2 seq.toNat ++ low 4 stamp.toNat)
      | .portReset => some [0x1F]
      | _ => none

/-- The bytes of a frame, its start byte first, taken one by one by a HUNTING receiver at whatever ticks, do what the
complete frame does (R161, R163). That the complete frame, a good one included, is taken as this command, and a request's
command as the arrival of its frame's check byte, are the model's choices (log 4, 5). -/
def Obligations.BytesAssembleTheFrame : Prop :=
  ∀ (kind tag : Byte) (body : List Byte) (check : Byte) (ticks : List Nat) (s : State), body.length ≤ 248 →
    s.resetHeld = false → s.link.mode = .normal → s.link.receiver = .idle → ticks.length = body.length + 5 →
      feed (ticks.zip (startByte :: (frameHead kind tag body ++ [check]))) s =
        exec (.refusedFrame kind tag body check) s

/-- The receiver takes a byte by its state (R161): what each state does with it, the timer armed 245,760 ticks later
outside HUNTING, an over-long frame abandoned; while RESET is held or in RESETTING it is discarded (R160, R177). The
byte that completes a frame does what the command for the complete frame does, a good frame included: the model's choice
of how such a frame is taken (log 5). -/
def Obligations.ReceiverTakesBytes : Prop :=
  ∀ (tick : Nat) (byte : Byte) (s : State),
    (s.resetHeld = true ∨ s.link.mode = .resetting → exec (.controlLinkByte tick byte) s = .next s) ∧
    (s.resetHeld = false → s.link.mode = .normal →
      let r := s.link.receiver
      let goes := fun r' : Receiver => exec (.controlLinkByte tick byte) s =
        .next { s with link := { s.link with receiver := r' } }
      let due := some (tick + 245760)
      (r.phase = .hunting → byte ≠ 0xC3 → exec (.controlLinkByte tick byte) s = .next s) ∧
      (r.phase = .hunting → byte = 0xC3 →
        goes { phase := .length, length := none, kind := none, tag := none, body := [], sum := 0, timer := due }) ∧
      (r.phase = .length → byte.toNat ≤ 248 →
        goes { r with phase := .kind, length := some byte.toNat, sum := r.sum + byte, timer := due }) ∧
      (r.phase = .length → 248 < byte.toNat → goes .idle) ∧
      (r.phase = .kind → goes { r with phase := .tag, kind := some byte, sum := r.sum + byte, timer := due }) ∧
      (r.phase = .tag → r.length = some 0 →
        goes { r with phase := .check, tag := some byte, sum := r.sum + byte, timer := due }) ∧
      (r.phase = .tag → r.length ≠ some 0 →
        goes { r with phase := .body, tag := some byte, sum := r.sum + byte, timer := due }) ∧
      (r.phase = .body → r.length = some (r.body.length + 1) →
        goes { r with phase := .check, body := r.body ++ [byte], sum := r.sum + byte, timer := due }) ∧
      (r.phase = .body → r.length ≠ some (r.body.length + 1) →
        goes { r with phase := .body, body := r.body ++ [byte], sum := r.sum + byte, timer := due }) ∧
      ∀ kind tag, r.phase = .check → r.kind = some kind → r.tag = some tag → r.body.length ≤ 248 →
        exec (.controlLinkByte tick byte) s = exec (.refusedFrame kind tag r.body byte) s)

/-- At the expiry of the inter-byte timer the partial frame is discarded, the timer cleared and the receiver HUNTING;
no reply is produced and nothing else changes. A byte taken first re-arms the timer; one taken after the expiry starts
a frame when it is 0xC3 and is discarded otherwise (R162). That the running sum is 0 in HUNTING is the model's
choice (log 18). -/
def Obligations.InterByteTimeoutDiscards : Prop :=
  ∀ s : State, s.link.receiver.timer.isSome = true →
    exec .interByteTimeout s = .next { s with link := { s.link with receiver := .idle } } ∧
    (s.resetHeld = false → s.link.mode = .normal → ∀ (tick : Nat) (byte : Byte),
      (∀ t, s.link.receiver.phase ≠ .hunting → exec (.controlLinkByte tick byte) s = .next t →
        t.link.receiver.timer = some (tick + 245760) ∨ t.link.receiver = .idle) ∧
      (byte ≠ 0xC3 →
        exec (.controlLinkByte tick byte) { s with link := { s.link with receiver := .idle } } =
          .next { s with link := { s.link with receiver := .idle } }) ∧
      (byte = 0xC3 →
        exec (.controlLinkByte tick byte) { s with link := { s.link with receiver := .idle } } =
          .next { s with link := { s.link with receiver :=
            { Receiver.idle with phase := .length, timer := some (tick + 245760) } } }))

/-- A radio frame that is not good is discarded: the anomaly RADIO_FRAME, with no slot, handle, sequence number or
stamp, fills an empty capture record with the period count and raises CAPTURE, or adds 1 to the further-count; nothing
else changes (R45, R66). A good frame is the message it carries: the model's choice of how such a frame is taken as a
command (log 6). -/
def Obligations.RadioFramesAreChecked : Prop :=
  ∀ (bytes : List Byte) (s : State),
    (decodeRadio bytes = none →
      (s.capture.record = none →
        exec (.radioFrame bytes) s =
          .next { s with
            capture :=
              { record := some
                  { kind := .radioFrame, slot := none, handle := none, message := none, mixPeriod := s.mix.period },
                further := 0 }
            notices := { s.notices with
              queue := coalesce (.capture { kind := .radioFrame, slot := none }) s.notices.queue } }) ∧
      ∀ a, s.capture.record = some a →
        exec (.radioFrame bytes) s =
          .next { s with capture := { record := some a, further := min 255 (s.capture.further + 1) } }) ∧
    ∀ c, decodeRadio bytes = some c → exec (.radioFrame bytes) s = exec c s

/-- A raised notice joins the tail with count 1 where the queue holds none of its kind and subject; else it replaces the
fields of the queued one in place, a MIXSAT ORing its mask, and adds 1 to the count up to 255 (R133, R173). -/
def Obligations.RaisedNoticesCoalesce : Prop :=
  ∀ (b : NoticeBody) (s : State),
    ((∀ n ∈ s.notices.queue, n.body.key ≠ b.key) →
      s.raise b = { s with notices := { s.notices with queue := s.notices.queue ++ [{ count := 1, body := b }] } }) ∧
    ∀ l n r, s.notices.queue = l ++ n :: r → (∀ m ∈ l, m.body.key ≠ b.key) → n.body.key = b.key →
      s.raise b =
        { s with notices := { s.notices with
          queue := l ++ { count := min 255 (n.count + 1),
                          body := match b, n.body with
                            | .mixsat new, .mixsat old => .mixsat { new with mask := new.mask ||| old.mask }
                            | _, _ => b } :: r } }

/-! ### Requests that read the part -/

/-- IDENT, GAIN.GET and STATUS report what the rules list and change nothing but the reply stream; a subject that is
neither a slot nor DEVICE is refused RANGE (R115, R121, R167, R168, R169).
STATS.READ answers the slot's state and counters as they stand and then, where the clear flag is 1, sets them to 0;
a slot outside 0..3 or a clear flag other than 0 and 1 is refused RANGE (R170).
CAPTURE.READ answers a full record with its further-count and empties it, or that it is empty; the notice queue is
not touched (R67, R171). -/
def Obligations.ReadingRequestsAnswer : Prop :=
  (∀ (tag subject : Byte) (s : State), s.Listens →
    exec (.ident tag) s = .next (s.answeredDone tag .ident (.ident 0x2F61 0x0D04 0x03)) ∧
    exec (.gainGet tag) s = .next (s.answeredDone tag .gainGet (.gainGet s.mix.targets s.mix.applied)) ∧
    (4 ≤ subject.toNat → subject ≠ 0x80 →
      exec (.status tag subject) s = .next (s.answeredRefused tag .status .range)) ∧
    (∀ i : SlotId, subject.toNat = i.num →
      let x := s.slot i
      exec (.status tag subject) s = .next (s.answeredDone tag .status (.statusSlot
        { slot := i, state := x.state, side := x.side, role := x.role, partner := x.partner, handle := x.handle,
          identity := x.identity, mic := x.mic, inFill := x.inRing.samples.length,
          outFill := x.outRing.samples.length, inTarget := x.inTarget, outTarget := x.outTarget,
          estimate := x.estimate, firstWindow := x.firstWindow, failCount := x.failCount,
          inStep := if x.state = .active ∨ x.state = .stalled then
              some (s.stepIn (if s.call.state = .absent then .byLocal else .byCall) i) else none,
          outStep := x.outRing.lastStep, lastServed := x.outRing.lastServed, level := x.talker.level,
          primary := x.talker.primary, weight := x.talker.weight, idle := x.idle }))) ∧
    (subject = 0x80 →
      exec (.status tag subject) s = .next (s.answeredDone tag .status (.statusDevice
        { callState := s.call.state,
          pacing := if s.call.state = .absent then .byLocal else .byCall,
          estimate := s.rate.estimate, rateFailures := s.call.rateFailures, period := s.mix.period,
          player := s.prompt.player, pendingLinks := s.radio.pendingLinks, queued := s.notices.queue.length,
          attn := s.notices.queue.any fun n => !(s.notices.mask.getLsbD n.body.kind.maskBit),
          captureFull := s.capture.record.isSome })))) ∧
  (∀ (tag slot clear : Byte) (s : State), s.Listens →
      (4 ≤ slot.toNat ∨ 2 ≤ clear.toNat →
        exec (.statsRead tag slot clear) s = .next (s.answeredRefused tag .statsRead .range)) ∧
      ∀ i : SlotId, slot.toNat = i.num →
        (clear = 0 → exec (.statsRead tag slot clear) s =
          .next (s.answeredDone tag .statsRead (.stats i (s.slot i).state (s.slot i).stats))) ∧
        (clear = 1 → exec (.statsRead tag slot clear) s =
          .next ((s.withSlot i { s.slot i with
              stats := { micIn := 0, concealed := 0, skipped := 0, late := 0, bad := 0, inOverrun := 0, inStarve := 0,
                         pulls := 0, outShort := 0, outOverrun := 0, resync := 0 } }).answeredDone tag .statsRead
            (.stats i (s.slot i).state (s.slot i).stats)))) ∧
  ∀ (tag : Byte) (s : State), s.Listens →
    (∀ a, s.capture.record = some a →
      exec (.captureRead tag) s =
        .next ({ s with capture := { record := none, further := 0 } }.answeredDone tag .captureRead
          (.capture (some (a, s.capture.further))))) ∧
    (s.capture.record = none →
      exec (.captureRead tag) s =
        .next ({ s with capture := { record := none, further := 0 } }.answeredDone tag .captureRead (.capture none)))

/-- COLLECT removes the oldest notice, masked or not, and answers it with the number left, the others keeping their
order; on an empty queue it answers no notice and 0. The number left is at most 25 (R172, R174).
MASK.SET with a flag outside the eleven kinds is refused RANGE; else it replaces the mask and answers it with ATTN
after the change, high exactly when a notice of an unmasked kind is queued (R175). -/
def Obligations.CollectAndMaskSetAnswer : Prop :=
  (∀ (tag : Byte) (s : State), s.Listens →
      (∀ n rest, s.notices.queue = n :: rest →
        exec (.collect tag) s =
          .next ({ s with notices := { s.notices with queue := rest } }.answeredDone tag .collect
            (.collect rest.length (some n))) ∧
        (s.notices.Lawful → rest.length ≤ 25)) ∧
      (s.notices.queue = [] → exec (.collect tag) s = .next (s.answeredDone tag .collect (.collect 0 none)))) ∧
  ∀ (tag : Byte) (mask : BitVec 16) (s : State), s.Listens →
    (2048 ≤ mask.toNat → exec (.maskSet tag mask) s = .next (s.answeredRefused tag .maskSet .range)) ∧
    (mask.toNat < 2048 →
      exec (.maskSet tag mask) s =
        .next ({ s with notices := { s.notices with mask := mask.setWidth 11 } }.answeredDone tag .maskSet
          (.maskSet (mask.setWidth 11) (s.notices.queue.any fun n => !(mask.getLsbD n.body.kind.maskBit)))))

/-! ### Resets -/

/-- RESET answers DONE behind the waiting replies and enters RESETTING; nothing else changes (R177).
The soft reset, once the stream is empty in RESETTING: every block at its soft-reset values, RELEASE for each bound
handle in slot order and then for each pending entry, the queue holding READY reason SOFT alone, the mode OPEN; profile
table, limits, target gains, talker parameters, watch settings, prompt memory and mask are kept (R2, R13, R18, R52,
R68, R94, R118, R137, R150, R151, R160, R176, R177). That earlier outgoing messages and the lines are kept, and that
the event has no effect at another time, are the model's choices (log 3, 7, 9, 12). -/
def Obligations.ResetRequestLeadsToSoftReset : Prop :=
  (∀ (tag : Byte) (s : State), s.Listens →
      exec (.reset tag) s = .next { s with link :=
        { s.link with
          receiver := .idle, mode := .resetting,
          replies := s.link.replies ++ [{ tag := tag, body := .done .reset .reset }] } }) ∧
  ∀ (tick : Nat) (s : State),
    (s.link.mode = .resetting → s.link.replies = [] →
      exec (.softReset tick) s = .next
        { s with
          link := { receiver := .idle, replies := [], mode := .normal, line := s.link.line }
          notices :=
            { s.notices with
              queue := [{ count := 1, body := .ready { reason := .soft, revision := 0x03, mixPeriod := 0 } }] }
          radio :=
            { pendingLinks := [],
              outgoing := s.radio.outgoing ++
                ((SlotId.all.filterMap fun i => (s.slot i).handle).map RadioOut.release ++
                  s.radio.pendingLinks.map fun e => RadioOut.release e.handle),
              line := s.radio.line }
          slots := .tabulate fun i => .emptyRecord
            { micIn := 0, concealed := 0, skipped := 0, late := 0, bad := 0, inOverrun := 0, inStarve := 0, pulls := 0,
              outShort := 0, outOverrun := 0, resync := 0 }
            { level := 0, primary := false,
              weight := if 0 < s.talk.gate then min 4096 s.talk.gateWeight else 4096 }
            { (s.slot i).watch with run := 0 }
          call :=
            { state := .absent, captureHalf := List.replicate 80 0, playHalf := List.replicate 80 0, strobeCount := 0,
              strobeTimer := none, localTimer := some (tick + 122880), lastMixTick := none, rateFailures := 0,
              uplink := s.call.uplink }
          rate := { estimate := 0, window := none }
          mix := { s.mix with applied := .tabulate fun _ _ => 0, period := 0 }
          prompt := { s.prompt with player := .idle }
          capture := { record := none, further := 0 } }) ∧
    (s.link.mode = .normal ∨ s.link.replies ≠ [] → exec (.softReset tick) s = .next s)

/-- Power-on reset puts every block at its power-on values, the queue holding READY reason POWER alone (R2, R13, R18,
R52, R68, R94, R118, R137, R150, R151, R160, R176); RESET_ASSERTED holds RESET, so that ATTN is low and control link
bytes are discarded (R160, R175). The lines' values, and that RESET held leaves every other state and event as it is, are
the model's choices (log 8, 12). -/
def Obligations.ResetPinEffects : Prop :=
  ∀ (tick : Nat) (s : State),
    exec (.powerOnReset tick) s = .next
      { link := { receiver := .idle, replies := [], mode := .normal, line := [] }
        notices :=
          { queue := [{ count := 1, body := .ready { reason := .power, revision := 0x03, mixPeriod := 0 } }], mask := 0 }
        radio := { pendingLinks := [], outgoing := [], line := [] }
        profiles := []
        slots := .tabulate fun _ => .emptyRecord
          { micIn := 0, concealed := 0, skipped := 0, late := 0, bad := 0, inOverrun := 0, inStarve := 0, pulls := 0,
            outShort := 0, outOverrun := 0, resync := 0 }
          { level := 0, primary := false, weight := 1024 } { condition := .off, threshold := 0, count := 1, run := 0 }
        call :=
          { state := .absent, captureHalf := List.replicate 80 0, playHalf := List.replicate 80 0, strobeCount := 0,
            strobeTimer := none, localTimer := some (tick + 122880), lastMixTick := none, rateFailures := 0, uplink := 0 }
        rate := { estimate := 0, window := none }
        limits := { slotLimit := 2400, callLimit := 1600, pairTolerance := 400, lossTimeout := 40, ramp := 256 }
        mix :=
          { targets := .tabulate fun o j =>
              match o, j with
              | .u, .e _ => 4096
              | .u, _ => 0
              | .o _, .d => 4096
              | .o _, .p => 4096
              | .o i, .e k => if k = i then 256 else 0
            applied := .tabulate fun _ _ => 0
            period := 0 }
        talk := { gate := 300, hysteresis := 600, duckWeight := 512, gateWeight := 1024 }
        prompt := { memory := [], player := .idle }
        capture := { record := none, further := 0 }
        resetHeld := false
        pending := s.pending } ∧
    exec .resetAsserted s = .next { s with resetHeld := true } ∧
    ({ s with resetHeld := true } : State).attn = false ∧
    ∀ byte, exec (.controlLinkByte tick byte) { s with resetHeld := true } = .next { s with resetHeld := true }

/-! ### The profile table and admission -/

/-- PROFILE.PUT's checks in the order of R19, and the table after an accepted one: the record with clamped seed and
targets in place of the record for its identity, or added, every other record kept.
PROFILE.DROP removes the record for an identity and PROFILE.GET answers it; where the table holds none both are
refused NOTFOUND. Neither touches anything else (R20). -/
def Obligations.ProfileRequestsAnswer : Prop :=
  (∀ (tag : Byte) (f : ProfileFields) (s : State), s.Listens →
      let known := ∃ p ∈ s.profiles, p.identity = f.identity
      let odd := f.partnerIdentity = some f.identity ∨ (f.side = 0 ∧ f.partnerIdentity.isSome = true)
      (3 ≤ f.side.toNat → exec (.profilePut tag f) s = .next (s.answeredRefused tag .profilePut .range)) ∧
      (f.side.toNat < 3 → odd →
        exec (.profilePut tag f) s = .next (s.answeredRefused tag .profilePut .conflict)) ∧
      (f.side.toNat < 3 → ¬odd → ¬known → 8 ≤ s.profiles.length →
        exec (.profilePut tag f) s = .next (s.answeredRefused tag .profilePut .full)) ∧
      (∀ side, sideOfByte f.side = some side → ¬odd → (known ∨ s.profiles.length < 8) →
        let p : Profile :=
          { identity := f.identity, side := side, partnerIdentity := f.partnerIdentity, autoAdmit := f.autoAdmit,
            seed := max (-15) (min 15 f.seed.toInt),
            inTarget := f.inboundTarget.map fun t => max 160 (min 800 t.toNat),
            outTarget := f.outboundTarget.map fun t => max 160 (min 800 t.toNat) }
        ∃ table replaced, (replaced = true ↔ known) ∧
          exec (.profilePut tag f) s =
            .next ({ s with profiles := table }.answeredDone tag .profilePut (.profilePut p replaced)) ∧
          (∀ q, q ∈ table ↔ q = p ∨ (q ∈ s.profiles ∧ q.identity ≠ f.identity)) ∧
          table.length = if replaced then s.profiles.length else s.profiles.length + 1)) ∧
  ∀ (tag : Byte) (identity : Identity) (s : State), s.Listens →
    ((∀ p ∈ s.profiles, p.identity ≠ identity) →
      exec (.profileDrop tag identity) s = .next (s.answeredRefused tag .profileDrop .notFound) ∧
      exec (.profileGet tag identity) s = .next (s.answeredRefused tag .profileGet .notFound)) ∧
    ∀ l p r, s.profiles = l ++ p :: r → p.identity = identity → (∀ q ∈ l, q.identity ≠ identity) →
      (∀ q ∈ r, q.identity ≠ identity) →
      exec (.profileDrop tag identity) s =
        .next ({ s with profiles := l ++ r }.answeredDone tag .profileDrop (.profileDrop identity)) ∧
      exec (.profileGet tag identity) s = .next (s.answeredDone tag .profileGet (.profileGet p))

/-- An ADMIT that fails a check of R21 or R22 is refused with the code of the first that fails.
An ADMIT that passes its checks: the pending entry leaves the list, the slot enters MEASURING with the entry's
handle, identity and mic flag and the values of R24, and where a partner is given, or taken from the profile, the two
become a pair, the admitted slot FOLLOWER or, beside a LOST partner, LEADER, the LEADER being the primary. No notice
and no radio message (R8, R23, R24, R25, R29, R30). -/
def Obligations.AdmitAnswers : Prop :=
  (∀ (tag : Byte) (handle : Handle) (slot side partner : Byte) (inT outT : Option (BitVec 16)) (seed : Option Byte)
      (s : State) (code : RefusalCode), s.Listens → s.admitVerdict handle slot side partner = some code →
        exec (.admitLink tag handle slot side partner inT outT seed) s = .next (s.answeredRefused tag .admitLink code)) ∧
  ∀ (tag : Byte) (handle : Handle) (slot side partner : Byte) (inT outT : Option (BitVec 16)) (seed : Option Byte)
    (s : State) (i : SlotId) (sd : Side) (e : PendingLink), s.Listens →
    s.admitVerdict handle slot side partner = none → slot.toNat = i.num → sideOfByte side = some sd →
    s.radio.pendingLinks.find? (fun q => q.handle == handle) = some e →
      let profile := s.profiles.find? fun p => p.identity == e.identity
      let inTarget := max 160 (min 800 ((inT.map BitVec.toNat).getD ((profile.bind Profile.inTarget).getD 320)))
      let outTarget := max 160 (min 800 ((outT.map BitVec.toNat).getD ((profile.bind Profile.outTarget).getD 240)))
      let applied := max (-15) (min 15 ((seed.map BitVec.toInt).getD ((profile.map Profile.seed).getD 0)))
      let limit : Int := s.limits.slotLimit
      let estimate := max (-limit) (min limit (applied * 500))
      let record : Slot :=
        { (s.slot i).acquiringRecord with
          handle := some handle, identity := some e.identity, mic := e.mic, side := sd, inTarget := inTarget,
          outTarget := outTarget, estimate := estimate,
          stats := { micIn := 0, concealed := 0, skipped := 0, late := 0, bad := 0, inOverrun := 0, inStarve := 0,
                     pulls := 0, outShort := 0, outOverrun := 0, resync := 0 } }
      let t : State := { s with radio := { s.radio with
        pendingLinks := s.radio.pendingLinks.filter fun q => q.handle != handle } }
      let result := fun x : Slot => Result.admitLink
        { slot := i, handle := handle, identity := e.identity, side := x.side, role := x.role, partner := x.partner,
          inTarget := inTarget, outTarget := outTarget, seed := applied, estimate := estimate }
      match (SlotId.all.find? fun k => k.num == partner.toNat).or (s.namedPartner profile sd) with
      | none =>
        exec (.admitLink tag handle slot side partner inT outT seed) s =
          .next ((t.withSlot i record).answeredDone tag .admitLink (result record))
      | some k =>
        let leads := (s.slot k).state = .lost
        let mine : Slot :=
          { record with
            role := if leads then .leader else .follower, partner := some k,
            talker := { record.talker with primary := decide leads } }
        let theirs : Slot :=
          { s.slot k with
            role := if leads then .follower else .leader, partner := some i,
            talker := { (s.slot k).talker with primary := !decide leads } }
        exec (.admitLink tag handle slot side partner inT outT seed) s =
          .next (((t.withSlot i mine).withSlot k theirs).answeredDone tag .admitLink (result mine))

/-- DECLINE removes the pending entry and sends RELEASE for its handle, or is refused NOLINK (R26).
REMOVE of a slot outside 0..3 is refused RANGE and of an EMPTY one NOTFOUND; of any other slot it sends RELEASE for
a bound handle and empties the slot, its column and row at 0 where it was live; a partner becomes SOLO, no primary, with
a ROLE notice, and no notice is raised on the slot itself (R2, R27, R33, R126). What a ROLE notice carries as handle and
link reason is the model's choice (log 11). -/
def Obligations.DeclineAndRemoveAnswer : Prop :=
  (∀ (tag : Byte) (handle : Handle) (s : State), s.Listens →
    (s.NotPending handle → exec (.decline tag handle) s = .next (s.answeredRefused tag .decline .noLink)) ∧
    ∀ l e r, s.radio.pendingLinks = l ++ e :: r → e.handle = handle → (∀ q ∈ l, q.handle ≠ handle) →
      (∀ q ∈ r, q.handle ≠ handle) →
      exec (.decline tag handle) s =
        .next ({ s with radio :=
            { s.radio with pendingLinks := l ++ r, outgoing := s.radio.outgoing ++ [RadioOut.release handle] } }.answeredDone
          tag .decline (.decline handle e.identity))) ∧
  ∀ (tag slot : Byte) (s : State), s.Listens → s.PairsLawful →
    (4 ≤ slot.toNat → exec (.remove tag slot) s = .next (s.answeredRefused tag .remove .range)) ∧
    ∀ i : SlotId, slot.toNat = i.num →
      let x := s.slot i
      (x.state = .empty → exec (.remove tag slot) s = .next (s.answeredRefused tag .remove .notFound)) ∧
      (x.state ≠ .empty →
        let t := ((s.withOutgoing (x.handle.toList.map RadioOut.release)).withSlot i x.leftEmpty).silencedWhen
          (x.state == .active || x.state == .stalled) i
        let result := Result.remove i x.state x.identity x.handle
        (x.partner = none → exec (.remove tag slot) s = .next (t.answeredDone tag .remove result)) ∧
        ∀ k, x.partner = some k →
          let y : Slot :=
            { s.slot k with
              role := .solo, partner := none, talker := { (s.slot k).talker with primary := false } }
          exec (.remove tag slot) s =
            .next (((t.withSlot k y).withNotice (NoticeBody.slot k
                { reason := .role, state := y.state, role := .solo, partner := none, handle := y.handle,
                  identity := y.identity, linkReason := none })).answeredDone tag .remove result))

/-! ### Settings -/

/-- GAIN.SET with an output index outside 0..4 or an input index outside 0..5 in any entry is refused RANGE; else each
path takes the clamped gain of the last entry that names it, every other path keeps its target, no applied gain moves,
and the reply carries the entries with the gains as written (R119). -/
def Obligations.GainSetAnswers : Prop :=
  ∀ (tag : Byte) (entries : List GainEntry) (s : State), s.Listens → 1 ≤ entries.length → entries.length ≤ 30 →
    ((∃ e ∈ entries, 5 ≤ e.output.toNat ∨ 6 ≤ e.input.toNat) →
      exec (.gainSet tag entries) s = .next (s.answeredRefused tag .gainSet .range)) ∧
    ((∀ e ∈ entries, e.output.toNat < 5 ∧ e.input.toNat < 6) →
      ∃ targets,
        exec (.gainSet tag entries) s =
          .next ({ s with mix := { s.mix with targets := targets } }.answeredDone tag .gainSet
            (.gainSet (entries.map fun e : GainEntry => { e with gain := BitVec.ofNat 16 (min 8191 e.gain.toNat) }))) ∧
        ∀ o j, targets.get o j =
          match entries.reverse.find? fun e => e.output.toNat == o.index && e.input.toNat == j.index with
          | some e => min 8191 e.gain.toNat
          | none => s.mix.targets.get o j)

/-- TALK.SET sets each field present, clamped, and answers all four; WATCH.SET sets a slot's watch, clamped, and restarts
its run, or is refused RANGE for a slot outside 0..3 or a condition outside OFF, ABOVE and BELOW. Neither changes
anything else (R144, R147).
LIMIT.SET sets each field present, clamped to its range, and answers all five; a new slot limit clamps every slot's
estimate and a new call limit the call estimate, and nothing else changes (R94, R95). -/
def Obligations.SettingRequestsAnswer : Prop :=
  (∀ (tag : Byte) (s : State), s.Listens →
      (∀ g h d w : Option (BitVec 16),
        let p : TalkParams :=
          { gate := (g.map fun v => min 32768 v.toNat).getD s.talk.gate,
            hysteresis := (h.map fun v => min 32768 v.toNat).getD s.talk.hysteresis,
            duckWeight := (d.map fun v => min 4096 v.toNat).getD s.talk.duckWeight,
            gateWeight := (w.map fun v => min 4096 v.toNat).getD s.talk.gateWeight }
        exec (.talkSet tag g h d w) s = .next ({ s with talk := p }.answeredDone tag .talkSet (.talkSet p))) ∧
      ∀ (slot condition : Byte) (threshold : BitVec 16) (count : Byte),
        (4 ≤ slot.toNat ∨ 3 ≤ condition.toNat →
          exec (.watchSet tag slot condition threshold count) s = .next (s.answeredRefused tag .watchSet .range)) ∧
        ∀ (i : SlotId) (c : WatchCondition), slot.toNat = i.num → condition = c.byte →
          let t := min 32768 threshold.toNat
          let n := max 1 count.toNat
          exec (.watchSet tag slot condition threshold count) s =
            .next ((s.withSlot i { s.slot i with
                watch := { condition := c, threshold := t, count := n, run := 0 } }).answeredDone tag .watchSet
              (.watchSet i c t n))) ∧
  ∀ (tag : Byte) (slotL callL pairT : Option (BitVec 16)) (loss : Option Byte) (ramp : Option (BitVec 16)) (s : State),
    s.Listens →
      let l : Limits :=
        { slotLimit := (slotL.map fun v => max 80 (min 8000 v.toNat)).getD s.limits.slotLimit,
          callLimit := (callL.map fun v => max 80 (min 8000 v.toNat)).getD s.limits.callLimit,
          pairTolerance := (pairT.map fun v => min 8000 v.toNat).getD s.limits.pairTolerance,
          lossTimeout := (loss.map fun v => max 8 v.toNat).getD s.limits.lossTimeout,
          ramp := (ramp.map fun v => min 8191 v.toNat).getD s.limits.ramp }
      let clamped := fun (x : Int) (limit : Nat) => max (-(limit : Int)) (min (limit : Int) x)
      exec (.limitSet tag slotL callL pairT loss ramp) s =
        .next ({ s with
            limits := l
            slots := .tabulate fun i =>
              if slotL.isSome then { s.slot i with estimate := clamped (s.slot i).estimate l.slotLimit } else s.slot i
            rate := if callL.isSome then { s.rate with estimate := clamped s.rate.estimate l.callLimit } else s.rate
          }.answeredDone tag .limitSet (.limitSet l))

/-! ### The prompt player -/

/-- PROMPT.LOAD at an offset of 16384 or above is refused RANGE; one whose clipped span shares an address with the region
that the player holds is refused BUSY; any other writes the clipped span and nothing else, and answers how many samples
it wrote (R152). -/
def Obligations.PromptLoadAnswers : Prop :=
  ∀ (tag : Byte) (offset : BitVec 16) (samples : List Sample) (s : State), s.Listens →
    1 ≤ samples.length → samples.length ≤ 120 → Memory.wf s.prompt.memory = true →
    let n := min samples.length (16384 - offset.toNat)
    let shares := fun p : Play => ∃ a, p.start ≤ a ∧ a < p.start + p.length ∧ offset.toNat ≤ a ∧ a < offset.toNat + n
    (16384 ≤ offset.toNat →
      exec (.promptLoad tag offset samples) s = .next (s.answeredRefused tag .promptLoad .range)) ∧
    (offset.toNat < 16384 → (∃ p, s.prompt.player.play? = some p ∧ shares p) →
      exec (.promptLoad tag offset samples) s = .next (s.answeredRefused tag .promptLoad .busy)) ∧
    (offset.toNat < 16384 → (∀ p, s.prompt.player.play? = some p → ¬shares p) →
      ∃ memory,
        exec (.promptLoad tag offset samples) s =
          .next ({ s with prompt := { s.prompt with memory := memory } }.answeredDone tag .promptLoad
            (.promptLoad offset.toNat n)) ∧
        ∀ a, readPrompt memory a =
          if offset.toNat ≤ a ∧ a < offset.toNat + n then samples.getD (a - offset.toNat) 0
          else readPrompt s.prompt.memory a)

/-- PROMPT.PLAY's checks in order, and its effect: the region clamped at the end of memory, PLAYING from its start with
`r` plays to follow (R153).
PROMPT.MORE adds to the remaining plays up to 65535 and changes nothing else of the play, refused RANGE for 0 and
IDLE while no play is held; that RANGE is tested first is the model's choice (log 25). PROMPT.STOP ends a play with
PROMPT reason STOPPED, and in IDLE changes nothing (R156, R157, R158). -/
def Obligations.PromptPlayRequestsAnswer : Prop :=
  (∀ (tag : Byte) (start length : BitVec 16) (r gap : Byte) (s : State), s.Listens →
      (length = 0 ∨ 16384 ≤ start.toNat →
        exec (.promptPlay tag start length r gap) s = .next (s.answeredRefused tag .promptPlay .range)) ∧
      (length ≠ 0 → start.toNat < 16384 → s.prompt.player ≠ .idle →
        exec (.promptPlay tag start length r gap) s = .next (s.answeredRefused tag .promptPlay .busy)) ∧
      (length ≠ 0 → start.toNat < 16384 → s.prompt.player = .idle →
        let n := min length.toNat (16384 - start.toNat)
        exec (.promptPlay tag start length r gap) s =
          .next ({ s with prompt := { s.prompt with player := Player.playing {
              start := start.toNat, length := n, position := start.toNat, remaining := r.toNat,
              gap := gap.toNat } } }.answeredDone tag .promptPlay (.promptPlay start.toNat n r.toNat gap.toNat)))) ∧
  ∀ (tag : Byte) (n : BitVec 16) (s : State), s.Listens →
    (n = 0 → exec (.promptMore tag n) s = .next (s.answeredRefused tag .promptMore .range)) ∧
    (n ≠ 0 → s.prompt.player = .idle →
      exec (.promptMore tag n) s = .next (s.answeredRefused tag .promptMore .idle)) ∧
    (s.prompt.player = .idle →
      exec (.promptStop tag) s = .next (s.answeredDone tag .promptStop (.promptStop .idle 0))) ∧
    ∀ p : Play,
      let r := min 65535 (p.remaining + n.toNat)
      let more := fun q : Player => exec (.promptMore tag n) s =
        .next ({ s with prompt := { s.prompt with player := q } }.answeredDone tag .promptMore (.promptMore r))
      let stopped := fun left : PromptState => exec (.promptStop tag) s =
        .next (({ s with prompt := { s.prompt with player := .idle } }.withNotice (.prompt
          { reason := .stopped, start := p.start, length := p.length, stateLeft := left, remaining := p.remaining,
            mixPeriod := s.mix.period })).answeredDone tag .promptStop (.promptStop left p.remaining))
      (s.prompt.player = .playing p → (n ≠ 0 → more (.playing { p with remaining := r })) ∧ stopped .playing) ∧
      ∀ c, s.prompt.player = .gap p c → (n ≠ 0 → more (.gap { p with remaining := r } c)) ∧ stopped .gap

/-! ### Departures -/

/-- The oldest reply, and the oldest outgoing radio message, leave their streams when they have been sent, the bytes of
their frames having stood on the line; nothing else changes (R44, R164). That the line's last frame is held, and that
nothing departs where nothing waits, are the model's choices (log 3, 12).
Every reply frame is the start byte, the length byte, the kind byte, the tag, a body of at most 121 bytes and a check
with which the bytes after the start byte sum to 0 modulo 256: DONE carries its kind code and a result of the width that
11.3 and 11.4 give, REFUSED the refusal code and the kind byte (R180, R181). Every SPK frame is its kind, handle,
sequence number, flags and samples, every RELEASE frame its kind and handle, each with a 16-bit check that makes the sum
0 modulo 65,536 (R63, R182). -/
def Obligations.DeparturesLeaveTheStreams : Prop :=
  (∀ s : State,
    (∀ r rest, s.link.replies = r :: rest →
      exec .replySent s = .next { s with link := { s.link with replies := rest, line := r.bytes } }) ∧
    (s.link.replies = [] → exec .replySent s = .next s) ∧
    (∀ m rest, s.radio.outgoing = m :: rest →
      exec .radioMessageSent s = .next { s with radio := { s.radio with outgoing := rest, line := m.frame } }) ∧
    (s.radio.outgoing = [] → exec .radioMessageSent s = .next s)) ∧
  (∀ r : ReplyFrame, (∀ kind entries, r.body = .done kind (.gainSet entries) → entries.length ≤ 30) →
    ∃ (kind : Byte) (body : List Byte) (check : Byte),
      r.bytes = 0xC3 :: BitVec.ofNat 8 body.length :: kind :: r.tag :: (body ++ [check]) ∧ body.length ≤ 121 ∧
      ((r.bytes.drop 1).map BitVec.toNat).sum % 256 = 0 ∧
      match r.body with
      | .refused code k => kind = 0x41 ∧ body = [refusalByte code, k]
      | .done k x => kind = 0x40 ∧ body = k.code :: x.bytes ∧ x.bytes.length = x.width) ∧
  ∀ m : RadioOut,
    let two := fun v : BitVec 16 => [v.setWidth 8, (v >>> 8).setWidth 8]
    let head : List Byte :=
      match m with
      | .spk handle seq silent short samples =>
        [0x21, handle] ++ two seq ++ [(if silent then 1 else 0) + if short then 2 else 0] ++ samples.flatMap two
      | .release handle => [0x22, handle]
    ∃ lo hi : Byte, m.frame = head ++ [lo, hi] ∧
      ((head.map BitVec.toNat).sum + lo.toNat + 256 * hi.toNat) % 65536 = 0 ∧
      match m with
      | .spk _ _ _ _ samples => samples.length = 80 → m.frame.length = 167
      | .release _ => m.frame.length = 4

/-! ### Links -/

/-- A LINK.UP that no slot and no flagged profile takes joins the pending list: first the entries of its identity are
released, then the oldest of a list that still holds 4, and JOIN tells the entry, the number of entries and what was
dropped (R16, R17, R47, R49). -/
def Obligations.LinkUpJoinsPendingList : Prop :=
  ∀ (handle : Handle) (identity : Identity) (mic : Bool) (s : State), handle ≠ 0 → s.Unheld handle →
    s.NotPending handle → (∀ i, (s.slot i).state ≠ .empty → (s.slot i).identity ≠ some identity) →
    ((∀ p ∈ s.profiles, p.identity = identity → p.autoAdmit = false) ∨ (∀ i, (s.slot i).state ≠ .empty) ∨
      ∃ i, SlotId.all.find? (fun j => (s.slot j).state == .empty) = some i ∧ ∃ n ∈ s.notices.queue, n.body.subject = .slot i) →
    let old := s.radio.pendingLinks.filter fun e => e.identity == identity
    let kept := s.radio.pendingLinks.filter fun e => e.identity != identity
    let entry : PendingLink := { handle := handle, identity := identity, mic := mic }
    let joined := fun (links : List PendingLink) (dropped : Option Handle) =>
      exec (.linkUp handle identity mic) s =
        .next ({ s with radio :=
            { s.radio with
              pendingLinks := links ++ [entry],
              outgoing := s.radio.outgoing ++
                (old.map (fun e : PendingLink => RadioOut.release e.handle) ++ dropped.toList.map RadioOut.release) } }.withNotice
          (.join { handle := handle, identity := identity, mic := mic, entries := links.length + 1,
                   dropped := dropped }))
    (kept.length < 4 → joined kept none) ∧
    ∀ e rest, kept = e :: rest → 4 ≤ kept.length → joined rest (some e.handle)

/-- Auto-admission: a LINK.UP whose identity no slot holds and whose profile is flagged goes into the lowest-numbered
EMPTY slot, where no notice about that slot is queued, with the profile's side, targets and seed; a partner is the slot
that holds the profile's partner identity, SOLO and of the opposite side. SLOT reason ADMITTED is raised and no JOIN
(R8, R16, R24, R25, R29, R30). -/
def Obligations.LinkUpAutoAdmits : Prop :=
  ∀ (handle : Handle) (identity : Identity) (mic : Bool) (s : State) (p : Profile) (i : SlotId), handle ≠ 0 →
    s.Unheld handle → s.NotPending handle →
    (∀ j, (s.slot j).state ≠ .empty → (s.slot j).identity ≠ some identity) →
    s.profiles.find? (fun q => q.identity == identity) = some p → p.autoAdmit = true →
    SlotId.all.find? (fun j => (s.slot j).state == .empty) = some i →
    (∀ n ∈ s.notices.queue, n.body.subject ≠ .slot i) →
    let old := s.radio.pendingLinks.filter fun e => e.identity == identity
    let t : State := { s with radio :=
      { s.radio with
        pendingLinks := s.radio.pendingLinks.filter fun e => e.identity != identity,
        outgoing := s.radio.outgoing ++ old.map fun e : PendingLink => RadioOut.release e.handle } }
    let limit : Int := s.limits.slotLimit
    let record : Slot :=
      { (s.slot i).acquiringRecord with
        handle := some handle, identity := some identity, mic := mic, side := p.side,
        inTarget := max 160 (min 800 (p.inTarget.getD 320)), outTarget := max 160 (min 800 (p.outTarget.getD 240)),
        estimate := max (-limit) (min limit (max (-15) (min 15 p.seed) * 500)),
        stats := { micIn := 0, concealed := 0, skipped := 0, late := 0, bad := 0, inOverrun := 0, inStarve := 0,
                   pulls := 0, outShort := 0, outOverrun := 0, resync := 0 } }
    let notice := fun x : Slot => NoticeBody.slot i
      { reason := .admitted, state := .measuring, role := x.role, partner := x.partner, handle := some handle,
        identity := some identity, linkReason := none }
    match s.namedPartner (some p) p.side with
    | none => exec (.linkUp handle identity mic) s = .next ((t.withSlot i record).withNotice (notice record))
    | some k =>
      let leads := (s.slot k).state = .lost
      let mine : Slot :=
        { record with
          role := if leads then .leader else .follower, partner := some k,
          talker := { record.talker with primary := decide leads } }
      let theirs : Slot :=
        { s.slot k with
          role := if leads then .follower else .leader, partner := some i,
          talker := { (s.slot k).talker with primary := !decide leads } }
      k ≠ i → exec (.linkUp handle identity mic) s =
        .next (((t.withSlot i mine).withSlot k theirs).withNotice (notice mine))

/-- A LINK.UP whose identity a slot holds goes to that slot: the old handle, where bound, is released, the new one bound
and the mic flag copied, and the slot enters MEASURING by recovery from LOST, or by relink with its column and row at 0
where it was live (R8, R14, R126). Its handle, where it was pending or bound, first leaves the list or takes a LINK.DOWN
with no link reason, as the statements of LINK.DOWN spell it out. With handle 0 it is a malformed frame (R45), as the
model takes such a command (log 6). -/
def Obligations.LinkUpReturnsToItsSlot : Prop :=
  ∀ (handle : Handle) (identity : Identity) (mic : Bool) (s : State),
    (handle = 0 → exec (.linkUp handle identity mic) s = exec (.radioFrame []) s) ∧
    (handle ≠ 0 → s.Unheld handle → s.NotPending handle → ∀ i, (s.slot i).state ≠ .empty →
      (s.slot i).identity = some identity →
      (∀ j, (s.slot j).state ≠ .empty → (s.slot j).identity = some identity → j = i) →
      let x := s.slot i
      exec (.linkUp handle identity mic) s =
        .next ((((s.withOutgoing (x.handle.toList.map RadioOut.release)).withSlot i
            { x.acquiringRecord with handle := some handle, mic := mic }).silencedWhen
            (x.state == .active || x.state == .stalled) i).withNotice
          (.slot i { reason := if x.state = .lost then .recovering else .relinked, state := .measuring, role := x.role,
                     partner := x.partner, handle := some handle, identity := some identity, linkReason := none }))) ∧
    (handle ≠ 0 → s.Unheld handle →
      exec (.linkUp handle identity mic) s =
        exec (.linkUp handle identity mic)
          { s with radio := { s.radio with
            pendingLinks := s.radio.pendingLinks.filter fun e => e.handle != handle } }) ∧
    ∀ i, handle ≠ 0 → s.Holds i handle → (s.slot i).state ≠ .empty → s.NotPending handle →
      (s.linkDown handle none).Unheld handle ∧
        exec (.linkUp handle identity mic) s = exec (.linkUp handle identity mic) (s.linkDown handle none)

/-- LINK.DOWN for the handle of a slot: an acquiring slot empties with FAIL_DOWN, and a pair it belonged to ends, its
partner SOLO, no primary, with a ROLE notice; a live one in no pair is LOST with its handle cleared, rings flushed and
column and row at 0, with LOST_DOWN; a LOST one's handle is cleared, whatever its pair. For any other handle only a
pending entry goes (R2, R11, R13, R33, R46, R52, R126). The LINK.DOWN that the first step of R14 makes of a LINK.UP's
bound handle does the same with the link reason absent. With handle 0 it is a malformed frame (R45), as the model takes
such a command (log 6). What a ROLE notice carries as handle and link reason is the model's choice (log 11). -/
def Obligations.LinkDownEndsTheLink : Prop :=
  ∀ (handle : Handle) (reason : Byte) (s : State),
    let ends := fun t : Option Byte → State =>
      exec (.linkDown handle reason) s = .next (t (some reason)) ∧ s.linkDown handle none = t none
    (handle = 0 → exec (.linkDown handle reason) s = exec (.radioFrame []) s) ∧
    (handle ≠ 0 → s.Unheld handle →
      ends fun _ =>
        { s with radio := { s.radio with
          pendingLinks := s.radio.pendingLinks.filter fun e => e.handle != handle } }) ∧
    (handle ≠ 0 → s.PairsLawful → ∀ i, s.Holds i handle →
      let x := s.slot i
      let failed := fun r => NoticeBody.slot i
        { reason := .failDown, state := .empty, role := .solo, partner := none, handle := some handle,
          identity := none, linkReason := r }
      (x.state = .measuring ∨ x.state = .filling →
        (x.partner = none → ends fun r => (s.withSlot i x.leftEmpty).withNotice (failed r)) ∧
        ∀ k, x.partner = some k →
          let y := s.slot k
          ends fun r =>
            ((s.withSlot i x.leftEmpty).withSlot k
                { y with role := .solo, partner := none, talker := { y.talker with primary := false } }).withNotices
              [failed r,
                .slot k { reason := .role, state := y.state, role := .solo, partner := none, handle := y.handle,
                          identity := y.identity, linkReason := none }]) ∧
      (x.state = .active ∨ x.state = .stalled → x.partner = none →
        ends fun r =>
          ((s.withSlot i { x.flushedRecord with state := .lost, handle := none }).silencedWhen true i).withNotice
            (.slot i { reason := .lostDown, state := .lost, role := .solo, partner := none, handle := some handle,
                       identity := x.identity, linkReason := r })) ∧
      (x.state = .lost → ends fun _ => s.withSlot i { x with handle := none }))

/-- LINK.DOWN on a live member of a pair: where it is the LEADER and its FOLLOWER is live the roles swap, LOST_DOWN
carrying the new role FOLLOWER before ROLE is raised on the new LEADER; else the roles are kept and only LOST_DOWN is
raised. Partners and primary flags stay (R11, R31, R34). The LINK.DOWN that the first step of R14 makes of a LINK.UP's
bound handle does the same with the link reason absent. What ROLE carries as handle and link reason is the model's choice
(log 11). -/
def Obligations.LeaderLossSwapsRoles : Prop :=
  ∀ (handle : Handle) (reason : Byte) (s : State) (i k : SlotId), handle ≠ 0 → s.PairsLawful → s.Holds i handle →
    (s.slot i).partner = some k → ((s.slot i).state = .active ∨ (s.slot i).state = .stalled) →
    let x := s.slot i
    let y := s.slot k
    let ends := fun t : Option Byte → State =>
      exec (.linkDown handle reason) s = .next (t (some reason)) ∧ s.linkDown handle none = t none
    let down := fun role : Role =>
      (s.withSlot i { x.flushedRecord with state := .lost, handle := none, role := role }).silencedWhen true i
    let told := fun (role : Role) (r : Option Byte) => NoticeBody.slot i
      { reason := .lostDown, state := .lost, role := role, partner := some k, handle := some handle,
        identity := x.identity, linkReason := r }
    (x.role = .leader → (y.state = .active ∨ y.state = .stalled) →
      ends fun r =>
        (((down .follower).withSlot k { y with role := .leader }).withNotice (told .follower r)).withNotice
          (.slot k { reason := .role, state := y.state, role := .leader, partner := some i, handle := y.handle,
                     identity := y.identity, linkReason := none })) ∧
    (x.role = .follower ∨ (y.state ≠ .active ∧ y.state ≠ .stalled) →
      ends fun r => (down x.role).withNotice (told x.role r))

/-- PORT.RESET ends every link at once: an acquiring slot is EMPTY with the values of R2, a live one LOST with its handle
cleared, rings flushed, window reset and column and row at 0, a LOST one unchanged but for its handle, which is cleared,
and an EMPTY one unchanged; no handle is bound or pending. Nothing else changes but the roles of pairs and the notice
queue: counters, capture record and waiting messages stay, no RELEASE is sent, and call port, rate monitor, control link,
prompt player and every setting are left alone (R2, R12, R48, R52, R126).
The pair rules are applied once: a pair with an acquiring member ends, the other member SOLO, LOST and no primary; every
other pair keeps roles and partners. FAIL_DOWN and PORT_RESET are raised in slot order, then ROLE on each remaining
member (R12, R33, R35). What a ROLE notice carries, that it comes after the event's own notices, and the order of two
ROLE notices are the model's choices (log 11, 23, 24). -/
def Obligations.PortResetEndsEveryLink : Prop :=
  ∀ s : State, (∀ i, (s.slot i).state = .empty → (s.slot i).handle = none) →
    let ended : SlotId → Slot := fun i =>
      let x := s.slot i
      match x.state with
      | .empty => x
      | .measuring => x.leftEmpty
      | .filling => x.leftEmpty
      | .active => { x.flushedRecord with state := .lost, handle := none }
      | .stalled => { x.flushedRecord with state := .lost, handle := none }
      | .lost => { x with handle := none }
    ∃ t, exec .portReset s = .next t ∧
      t = { s with
        radio := { s.radio with pendingLinks := [] }
        slots := t.slots
        notices := { s.notices with queue := t.notices.queue }
        mix := { s.mix with
          applied := .tabulate fun o j =>
            if SlotId.all.any fun i =>
                ((s.slot i).state == .active || (s.slot i).state == .stalled) && (o == .o i || j == .e i) then 0
            else s.mix.applied.get o j } } ∧
      (∀ i, (t.slot i).handle = none ∧ (t.slot i).stats = (s.slot i).stats) ∧
      (∀ i, t.slot i =
        { ended i with
          role := (t.slot i).role, partner := (t.slot i).partner,
          talker := { (ended i).talker with primary := (t.slot i).talker.primary } }) ∧
      (s.PairsLawful →
        let fails : SlotId → Bool := fun i => (s.slot i).state == .measuring || (s.slot i).state == .filling
        let ends : SlotId → Bool := fun i => match (s.slot i).partner with
          | some k => fails k && !fails i
          | none => false
        let notice := fun (i : SlotId) (reason : SlotReason) (handle : Option Handle) =>
          NoticeBody.slot i
            { reason := reason, state := (t.slot i).state, role := (t.slot i).role, partner := (t.slot i).partner,
              handle := handle, identity := (t.slot i).identity, linkReason := none }
        (∀ i, t.slot i =
          if ends i then
            { ended i with role := .solo, partner := none, talker := { (ended i).talker with primary := false } }
          else ended i) ∧
        t.notices.queue = raisedInto s.notices.queue
          ((SlotId.all.filterMap fun i =>
              if fails i then some (notice i .failDown (s.slot i).handle)
              else if (s.slot i).state == .active || (s.slot i).state == .stalled then
                some (notice i .portReset (s.slot i).handle)
              else none) ++
            SlotId.all.filterMap fun i => if ends i then some (notice i .role none) else none))

/-! ### Microphone blocks -/

/-- A good block in order on an ACTIVE slot: idle count 0, MIC_IN 1 more, the block appended and made the history, the
run 0, the next sequence number expected; where the ring would pass 1024 its oldest samples are discarded, counted under
IN_OVERRUN, the phase set to 0 and the anomaly recorded (R5, R53, R54, R57, R59). -/
def Obligations.MicBlockInOrder : Prop :=
  ∀ (handle : Handle) (seq : SeqNum) (stamp : Stamp) (samples : List Sample) (s : State) (i : SlotId), handle ≠ 0 →
    samples.length = 80 → s.Holds i handle → (s.slot i).state = .active → (s.slot i).stats.Bounded →
    ((s.slot i).inRing.expected = none ∨ (s.slot i).inRing.expected = some seq) →
      let x := s.slot i
      let d := x.inRing.samples.length + 80 - 1024
      let t := s.withSlot i
        { x with
          idle := 0
          inRing :=
            { samples := x.inRing.samples.drop d ++ samples, phase := if d = 0 then x.inRing.phase else 0,
              expected := some (seq + 1), history := some samples, run := 0 }
          stats := { x.stats with
            micIn := min 65535 (x.stats.micIn + 1), inOverrun := min 65535 (x.stats.inOverrun + d) } }
      exec (.mic handle seq stamp false samples) s =
        .next (if d = 0 then t else t.recorded .inOverrun (some i) (some handle) (some (seq, stamp)))

/-- A block that is not late on an ACTIVE slot, ahead of the expected one or BAD or neither: as many concealment blocks as
the gap, 8 and the cap allow, each the history faded by the running count, then the block itself, or for a BAD one at most
one concealment block more; what passes 1024 is discarded, oldest samples first; the counters, the history, the run and
the expected sequence follow. SKIP is recorded before BAD and IN_OVERRUN after both: the first of them fills an empty
capture record and raises CAPTURE, the others, and all of them where it is full, are counted. Nothing else changes (R5,
R54, R55, R56, R57, R59, R65, R66). -/
def Obligations.MicGapsAreConcealed : Prop :=
  ∀ (handle : Handle) (seq : SeqNum) (stamp : Stamp) (bad : Bool) (samples : List Sample) (s : State) (i : SlotId)
    (g : Nat), handle ≠ 0 → samples.length = 80 → s.Holds i handle → (s.slot i).state = .active →
    (s.slot i).ringsLawful → (s.slot i).gapBefore seq = some g →
      exec (.mic handle seq stamp bad samples) s = .next (s.blockTaken i g seq stamp bad samples)

/-- A block that is not late on a MEASURING or FILLING slot, ahead of the expected one or BAD or neither, is taken in the
same way, but its ring is then trimmed to the inbound target, oldest samples first, with nothing counted for the trim; a
FILLING slot that so reaches its target, or that has no microphone, enters ACTIVE with SLOT reason ACTIVE and its column
and row at 0, and as the FOLLOWER of a LOST LEADER takes the lead (R9, R32, R53, R55, R56, R58, R127). What its ROLE
notice carries as handle and link reason is the model's choice (log 11). -/
def Obligations.MicWhileAcquiring : Prop :=
  ∀ (handle : Handle) (seq : SeqNum) (stamp : Stamp) (bad : Bool) (samples : List Sample) (s : State) (i : SlotId)
    (g : Nat), handle ≠ 0 → samples.length = 80 → s.Holds i handle →
    ((s.slot i).state = .measuring ∨ (s.slot i).state = .filling) →
    ((s.slot i).ringsLawful ∨ (g = 0 ∧ bad = false)) → (s.slot i).gapBefore seq = some g →
      let x := s.slot i
      let fill := ((x.withBlock g seq bad samples).inRing.samples).length
      (x.state = .measuring ∨ (x.mic = true ∧ fill < x.inTarget) →
        exec (.mic handle seq stamp bad samples) s = .next (s.blockTaken i g seq stamp bad samples)) ∧
      (x.state = .filling → (x.mic = false ∨ x.inTarget ≤ fill) →
        exec (.mic handle seq stamp bad samples) s = .next ((s.blockTaken i g seq stamp bad samples).activated i))

/-- A MIC that reaches no ring: late on an ACTIVE, MEASURING or FILLING slot it is activity, counts under MIC_IN and LATE
and is recorded; on a pending handle it is discarded; on an unbound one UNBOUND is recorded; with handle 0 or not 80
samples it is a malformed frame (R45, R46, R54), as the model takes such a command (log 6). -/
def Obligations.MicNotTaken : Prop :=
  ∀ (handle : Handle) (seq : SeqNum) (stamp : Stamp) (bad : Bool) (samples : List Sample) (s : State),
    (handle ≠ 0 → samples.length = 80 →
      (∀ i expected, s.Holds i handle →
        ((s.slot i).state = .active ∨ (s.slot i).state = .measuring ∨ (s.slot i).state = .filling) →
        (s.slot i).inRing.expected = some expected → 32768 ≤ (seq - expected).toNat →
        let x := s.slot i
        exec (.mic handle seq stamp bad samples) s =
          .next ((s.withSlot i { x with
              idle := 0
              stats := { x.stats with
                micIn := min 65535 (x.stats.micIn + 1), late := min 65535 (x.stats.late + 1) } }).recorded .late
            (some i) (some handle) (some (seq, stamp)))) ∧
      (s.Unheld handle → ¬s.NotPending handle → exec (.mic handle seq stamp bad samples) s = .next s) ∧
      (s.Unheld handle → s.NotPending handle →
        exec (.mic handle seq stamp bad samples) s =
          .next (s.recorded .unbound none (some handle) (some (seq, stamp))))) ∧
    (handle = 0 ∨ samples.length ≠ 80 →
      exec (.mic handle seq stamp bad samples) s = exec (.radioFrame []) s)

/-- Traffic on a slot that is STALLED or LOST: the message is handled as if the slot had just returned to ACTIVE with
RESUMED, and as the FOLLOWER of a LOST LEADER taken the lead, or had just entered MEASURING by recovery with RECOVERING,
its role and partner kept (R5, R7, R8, R10, R32, R34). What the ROLE notice carries as handle and link reason is the
model's choice (log 11). -/
def Obligations.TrafficRevivesSlots : Prop :=
  ∀ (c : Instr) (handle : Handle) (s : State) (i : SlotId), handle ≠ 0 → s.Holds i handle →
    ((∃ seq stamp, c = .pull handle seq stamp) ∨
      ∃ seq stamp bad samples, samples.length = 80 ∧ c = .mic handle seq stamp bad samples) →
      let x := s.slot i
      let notice := fun (reason : SlotReason) (state : SlotState) => NoticeBody.slot i
        { reason := reason, state := state, role := x.role, partner := x.partner, handle := some handle,
          identity := x.identity, linkReason := none }
      (x.state = .stalled →
        exec c s = exec c
          (((s.withSlot i { x with state := .active, idle := 0 }).withNotice (notice .resumed .active)).leadTaken i)) ∧
      (x.state = .lost →
        exec c s = exec c ((s.withSlot i x.acquiringRecord).withNotice (notice .recovering .measuring)))

/-! ### Pulls -/

/-- A PULL answered SILENT sends 80 zeros with its handle and sequence number: on a pending handle nothing else, on an
unbound one with UNBOUND, on a MEASURING or FILLING slot it is activity, counted, and taken by the rate window, which it
opens, leaves, or, overshot, discards with WINDOW (R46, R62, R63, R84, R86). With handle 0 it is a malformed frame (R45),
as the model takes such a command (log 6). -/
def Obligations.PullAnsweredSilent : Prop :=
  ∀ (handle : Handle) (seq : SeqNum) (stamp : Stamp) (s : State),
    let spk := [RadioOut.spk handle seq true false (List.replicate 80 0)]
    (handle = 0 → exec (.pull handle seq stamp) s = exec (.radioFrame []) s) ∧
    (handle ≠ 0 →
      (s.Unheld handle → ¬s.NotPending handle → exec (.pull handle seq stamp) s = .next (s.withOutgoing spk)) ∧
      (s.Unheld handle → s.NotPending handle →
        exec (.pull handle seq stamp) s =
          .next ((s.recorded .unbound none (some handle) (some (seq, stamp))).withOutgoing spk)) ∧
      ∀ i, s.Holds i handle → ((s.slot i).state = .measuring ∨ (s.slot i).state = .filling) →
        let x := s.slot i
        let y : Slot := { x with idle := 0, stats := { x.stats with pulls := min 65535 (x.stats.pulls + 1) } }
        let opened : Slot := { y with window := some { startSeq := seq, startStamp := stamp } }
        (x.window = none →
          exec (.pull handle seq stamp) s = .next ((s.withSlot i opened).withOutgoing spk)) ∧
        ∀ w, x.window = some w →
          let d := (seq - w.startSeq).toNat
          (d ≤ 63 ∨ 32768 ≤ d →
            exec (.pull handle seq stamp) s = .next ((s.withSlot i y).withOutgoing spk)) ∧
          ((128 ≤ d ∧ d ≤ 32767) ∨ (64 ≤ d ∧ d ≤ 127 ∧ stamp = w.startStamp) →
            exec (.pull handle seq stamp) s =
              .next (((s.withSlot i opened).recorded .window (some i) (some handle) (some (seq, stamp))).withOutgoing
                spk)))

/-- A PULL on an ACTIVE slot that completes no window is answered with the 80 outputs of an outbound pass over the slot's
ring, at the slot's own step or, for a FOLLOWER, its LEADER's; the ring is left as the pass leaves it, the step and
sequence number are stored, short outputs are counted and recorded and set SHORT. A window that is overshot, or closed
with no ticks between, is discarded with WINDOW and a new one opened on the PULL (R36, R37, R38, R62, R63, R84, R85, R86,
R106, R113). -/
def Obligations.PullAnsweredWithData : Prop :=
  ∀ (handle : Handle) (seq : SeqNum) (stamp : Stamp) (s : State) (i : SlotId), handle ≠ 0 → s.Holds i handle →
    (s.slot i).state = .active →
      let x := s.slot i
      let r := runPass (s.stepOut i) 80 x.outRing.samples x.outRing.phase
      let opened : RateWindow := { startSeq := seq, startStamp := stamp }
      let served := fun w : RateWindow =>
        let t := s.withSlot i
          { x with
            idle := 0
            window := some w
            outRing := { samples := r.left, phase := r.phase, lastStep := some (s.stepOut i), lastServed := some seq }
            stats := { x.stats with
              pulls := min 65535 (x.stats.pulls + 1), outShort := min 65535 (x.stats.outShort + r.short) } }
        if r.short = 0 then t else t.recorded .outShort (some i) (some handle) (some (seq, stamp))
      let spk := [RadioOut.spk handle seq false (decide (0 < r.short)) r.outputs]
      ((∀ w, x.window = some w → (seq - w.startSeq).toNat ≤ 63 ∨ 32768 ≤ (seq - w.startSeq).toNat) →
        exec (.pull handle seq stamp) s = .next ((served (x.window.getD opened)).withOutgoing spk)) ∧
      ∀ w, x.window = some w →
        let d := (seq - w.startSeq).toNat
        (128 ≤ d ∧ d ≤ 32767) ∨ (64 ≤ d ∧ d ≤ 127 ∧ stamp = w.startStamp) →
          exec (.pull handle seq stamp) s =
            .next (((served opened).recorded .window (some i) (some handle) (some (seq, stamp))).withOutgoing spk)

/-- A PULL that completes the window of an acquiring or ACTIVE slot, `d` blocks and `n` ticks after its start, in the order
of R92. An ACTIVE slot's outbound pass comes first. The estimate takes the clamped value in MEASURING and at the first
window since, else moves a quarter of the way; RATE is raised outside the limit, and SKEW reason RATE where a FOLLOWER's
clamped value leaves the estimate of its ACTIVE or STALLED LEADER by more than the tolerance. A MEASURING slot within the
limit enters FILLING and, where its microphone is absent or its ring at the target, ACTIVE within the PULL, taking the
lead of a LOST LEADER; at the third window in a row outside it empties, with RELEASE before its SPK, with FAIL_RATE, and
with the end of its pair. A new window opens on the PULL (R8, R9, R32, R33, R39, R85, R88, R89, R92, R93, R113). What a
ROLE notice carries as handle and link reason is the model's choice (log 11). -/
def Obligations.PullClosesTheWindow : Prop :=
  ∀ (handle : Handle) (seq : SeqNum) (stamp : Stamp) (s : State) (i : SlotId) (w : RateWindow), handle ≠ 0 →
    s.Holds i handle → s.PairsLawful → (s.slot i).window = some w →
    64 ≤ (seq - w.startSeq).toNat → (seq - w.startSeq).toNat ≤ 127 → stamp ≠ w.startStamp →
    80 ≤ s.limits.slotLimit → s.limits.slotLimit ≤ 8000 →
      let x := s.slot i
      let d := (seq - w.startSeq).toNat
      let n := stamp - w.startStamp
      let m := roundHalfAway (((122880 * d : Nat) - (n.toNat : Int)) * 8000000) n.toNat
      let limit : Int := s.limits.slotLimit
      let c := max (-limit) (min limit m)
      let within := decide (m.natAbs ≤ s.limits.slotLimit)
      let active := x.state == .active
      let pass := runPass (s.stepOut i) 80 x.outRing.samples x.outRing.phase
      let estimate :=
        if x.state = .measuring ∨ x.firstWindow = false then c else x.estimate + Int.tdiv (c - x.estimate) 4
      let failCount :=
        if x.state = .measuring then (if within then 0 else x.failCount + 1) else x.failCount
      let y : Slot :=
        { x with
          idle := 0, firstWindow := true, failCount := failCount, estimate := estimate,
          window := some { startSeq := seq, startStamp := stamp },
          outRing :=
            if active then
              { samples := pass.left, phase := pass.phase, lastStep := some (s.stepOut i), lastServed := some seq }
            else x.outRing
          stats := { x.stats with
            pulls := min 65535 (x.stats.pulls + 1),
            outShort := if active then min 65535 (x.stats.outShort + pass.short) else x.stats.outShort } }
      let spk :=
        if active then RadioOut.spk handle seq false (decide (0 < pass.short)) pass.outputs
        else RadioOut.spk handle seq true false (List.replicate 80 0)
      let rate : List NoticeBody :=
        if within then []
        else
          [.rate i
            { state := x.state, measured := max (-32767) (min 32767 m), estimate := estimate,
              slotLimit := s.limits.slotLimit, failCount := failCount, blocks := d, ticks := n }]
      let skew : List NoticeBody :=
        match s.leaderOf i with
        | some k =>
          let lead := (s.slot k).estimate
          if ((s.slot k).state = .active ∨ (s.slot k).state = .stalled) ∧
              s.limits.pairTolerance < (c - lead).natAbs then
            [.skew i
              { reason := .rate, leader := k, followerValue := c, leaderValue := lead, difference := c - lead }]
          else []
        | none => []
      let after := fun v : Slot =>
        let t := s.withSlot i v
        (if active && decide (0 < pass.short) then
          t.recorded .outShort (some i) (some handle) (some (seq, stamp))
        else t).withNotices (rate ++ skew)
      (x.state = .active ∨ x.state = .filling ∨ (x.state = .measuring ∧ within = false ∧ x.failCount < 2) →
        exec (.pull handle seq stamp) s = .next ((after y).withOutgoing [spk])) ∧
      (x.state = .measuring → within = true → x.mic = true → x.inRing.samples.length < x.inTarget →
        exec (.pull handle seq stamp) s = .next ((after { y with state := .filling }).withOutgoing [spk])) ∧
      (x.state = .measuring → within = true → (x.mic = false ∨ x.inTarget ≤ x.inRing.samples.length) →
        exec (.pull handle seq stamp) s =
          .next (((((after { y with state := .active }).silencedWhen true i).withNotice
            (.slot i { reason := .active, state := .active, role := x.role, partner := x.partner,
                       handle := some handle, identity := x.identity, linkReason := none })).leadTaken i).withOutgoing
            [spk])) ∧
      (x.state = .measuring → within = false → 2 ≤ x.failCount →
        let failed := NoticeBody.slot i
          { reason := .failRate, state := .empty, role := .solo, partner := none, handle := some handle,
            identity := none, linkReason := none }
        (x.partner = none →
          exec (.pull handle seq stamp) s =
            .next (((after y.leftEmpty).withNotice failed).withOutgoing [.release handle, spk])) ∧
        ∀ k, x.partner = some k →
          let z := s.slot k
          exec (.pull handle seq stamp) s =
            .next ((((after y.leftEmpty).withSlot k
                { z with role := .solo, partner := none, talker := { z.talker with primary := false } }).withNotices
              [failed,
                .slot k { reason := .role, state := z.state, role := .solo, partner := none, handle := z.handle,
                          identity := z.identity, linkReason := none }]).withOutgoing [.release handle, spk]))

/-! ### The call port -/

/-- A strobe while ABSENT starts a call: LOCKING, halves and counts 0, the local timer stopped, the call window opened
on it, STROBES raised; it plays 0 and captures position 0. A later strobe that ends no period and closes no window
plays, captures, counts and re-arms the strobe timer (R70, R71, R87).
The expiry of the strobe timer ends the call: ABSENT, the partial period and the call window discarded, the estimate
0, the rate failures kept, the local timer due at the later of the last mix tick plus 122,880 and the expiry's tick, or
122,880 ticks after it where there is no last mix tick, and TIMEOUT raised (R73, R75, R77). With no timer armed there is
no expiry: the model's choice (log 3). -/
def Obligations.StrobesStartAndFeedTheCall : Prop :=
  (∀ (tick : Nat) (downlink : Sample) (s : State),
      (s.call.state = .absent →
        exec (.strobe tick downlink) s =
          .next ({ s with
              call :=
                { s.call with
                  state := .locking, captureHalf := downlink :: List.replicate 79 0, playHalf := List.replicate 80 0,
                  strobeCount := 1, strobeTimer := some (tick + 49152), localTimer := none, rateFailures := 0,
                  uplink := 0 }
              rate := { estimate := 0, window := some { startTick := tick, counted := 0 } } }.withNotice
            (.call { reason := .strobes, state := .locking, estimate := 0, measured := none, rateFailures := 0,
                     mixPeriod := s.mix.period }))) ∧
      ∀ w, s.call.state ≠ .absent → s.call.strobeCount < 79 → s.rate.window = some w → w.counted < 5119 →
        exec (.strobe tick downlink) s =
          .next { s with
            call :=
              { s.call with
                uplink := s.call.playHalf.getD s.call.strobeCount 0,
                captureHalf := s.call.captureHalf.set s.call.strobeCount downlink,
                strobeCount := s.call.strobeCount + 1, strobeTimer := some (tick + 49152) }
            rate := { s.rate with window := some { w with counted := w.counted + 1 } } }) ∧
  ∀ s : State,
    (∀ due, s.call.strobeTimer = some due →
      exec .strobeTimeout s =
        .next ({ s with
            call :=
              { s.call with
                state := .absent, captureHalf := List.replicate 80 0, playHalf := List.replicate 80 0,
                strobeCount := 0, strobeTimer := none,
                localTimer :=
                  match s.call.lastMixTick with
                  | some last => some (max (last + 122880) due)
                  | none => some (due + 122880) }
            rate := { estimate := 0, window := none } }.withNotice
          (.call { reason := .timeout, state := .absent, estimate := 0, measured := none,
                   rateFailures := s.call.rateFailures, mixPeriod := s.mix.period }))) ∧
    (s.call.strobeTimer = none → exec .strobeTimeout s = .next s)

/-- The strobe that brings the count of the call window to 5,120 completes it: LOCKING takes the clamped value, RUNNING
moves a quarter of the way; within the call limit the port is RUNNING with no failures, and LOCKED is raised where it
was LOCKING; outside the failures rise and RATE is raised; a new window opens on the strobe (R74, R75, R87, R88, R90).
Only where the strobe's tick is after the window's start, as the manual says it is. -/
def Obligations.StrobeClosesCallWindow : Prop :=
  ∀ (tick : Nat) (downlink : Sample) (s : State) (w : CallWindow), s.call.state ≠ .absent →
    s.call.strobeCount < 79 → s.rate.window = some w → w.counted = 5119 → w.startTick < tick →
    80 ≤ s.limits.callLimit → s.limits.callLimit ≤ 8000 →
      let n := tick - w.startTick
      let m := roundHalfAway ((7864320 - (n : Int)) * 8000000) n
      let limit : Int := s.limits.callLimit
      let c := max (-limit) (min limit m)
      let estimate :=
        if s.call.state = .running then s.rate.estimate + Int.tdiv (c - s.rate.estimate) 4 else c
      let after := fun (state : CallState) (failures : Nat) => ({ s with
        call :=
          { s.call with
            state := state, rateFailures := failures,
            uplink := s.call.playHalf.getD s.call.strobeCount 0,
            captureHalf := s.call.captureHalf.set s.call.strobeCount downlink,
            strobeCount := s.call.strobeCount + 1, strobeTimer := some (tick + 49152) }
        rate := { estimate := estimate, window := some { startTick := tick, counted := 0 } } } : State)
      let notice := fun (reason : CallReason) (state : CallState) (failures : Nat) => NoticeBody.call
        { reason := reason, state := state, estimate := estimate, measured := some (max (-32767) (min 32767 m)),
          rateFailures := failures, mixPeriod := s.mix.period }
      let failures := min 255 (s.call.rateFailures + 1)
      (m.natAbs ≤ s.limits.callLimit → s.call.state = .locking →
        exec (.strobe tick downlink) s = .next ((after .running 0).withNotice (notice .locked .running 0))) ∧
      (m.natAbs ≤ s.limits.callLimit → s.call.state = .running →
        exec (.strobe tick downlink) s = .next (after .running 0)) ∧
      (s.limits.callLimit < m.natAbs →
        exec (.strobe tick downlink) s =
          .next ((after s.call.state failures).withNotice (notice .rate s.call.state failures)))

/-! ### Mix periods -/

/-- A mix period is raised by the expiry of the local timer, which re-arms it 122,880 ticks later, and by the strobe that
brings the count to 80, which also plays and captures position 79 and leaves 80 samples in the play half. It adds 1 to
the period count modulo 2^32, records its tick, and leaves the control link, profiles, limits, target gains, talker
parameters, prompt memory and mask alone (R71, R72, R77, R79). Its notices are raised in the order CAPTURE, PROMPT,
MIXSAT, SKEW, SLOT, TALK, LEVEL: the player forms P after the last inbound pass, so that CAPTURE reaches the queue before
PROMPT (R6, R129, R132, R134, R148, R155). That with no local timer armed there is no expiry is the model's choice
(log 3). -/
def Obligations.MixPeriodsAreRaised : Prop :=
  (∀ (s : State) (c : Instr) (pacing : Pacing) (d : List Sample), RaisesPeriod s c pacing d →
    ∃ t, exec c s = .next t ∧ ∃ captures prompts mixsats skews slots talks levels : List NoticeBody,
      t.notices.queue =
        raisedInto s.notices.queue (captures ++ prompts ++ mixsats ++ skews ++ slots ++ talks ++ levels) ∧
      (∀ b ∈ captures, b.kind = .capture) ∧ (∀ b ∈ prompts, b.kind = .prompt) ∧ (∀ b ∈ mixsats, b.kind = .mixsat) ∧
      (∀ b ∈ skews, b.kind = .skew) ∧ (∀ b ∈ slots, b.kind = .slot) ∧ (∀ b ∈ talks, b.kind = .talk) ∧
      ∀ b ∈ levels, b.kind = .level) ∧
  ∀ s : State,
    let kept := fun t : State => t.mix.period = s.mix.period + 1 ∧ t.link = s.link ∧ t.profiles = s.profiles ∧
      t.limits = s.limits ∧ t.mix.targets = s.mix.targets ∧ t.talk = s.talk ∧ t.prompt.memory = s.prompt.memory ∧
      t.notices.mask = s.notices.mask ∧ t.radio.pendingLinks = s.radio.pendingLinks
    (∀ due, s.call.localTimer = some due →
      ∃ t, exec .localTimerExpiry s = .next t ∧ kept t ∧ t.rate = s.rate ∧
        t.call = { s.call with lastMixTick := some due, localTimer := some (due + 122880) }) ∧
    (s.call.localTimer = none → exec .localTimerExpiry s = .next s) ∧
    ∀ tick downlink w, s.call.state ≠ .absent → s.call.strobeCount = 79 → s.rate.window = some w → w.counted < 5119 →
      ∃ t, exec (.strobe tick downlink) s = .next t ∧ kept t ∧
        t.rate = { s.rate with window := some { w with counted := w.counted + 1 } } ∧
        t.call.playHalf.length = 80 ∧
        t.call = { s.call with
          uplink := s.call.playHalf.getD 79 0, captureHalf := s.call.captureHalf.set 79 downlink, strobeCount := 0,
          strobeTimer := some (tick + 49152), lastMixTick := some tick, playHalf := t.call.playHalf }

/-- The audio of a mix period, under either pacing source (R40, R41, R61, R66, R111, R129, R130, R134). Under CALL pacing
the play half is the mix, by the ramped gains of the uplink's row, of D, the live slots' inbound passes and the
player's P. A live slot's inbound ring is left as its pass leaves it, short outputs counted under IN_STARVE where it has
a microphone; an ACTIVE slot's own mix is appended to its outbound ring, with OUT_OVERRUN, and a FOLLOWER's ring is then
resynchronised to its LEADER's by the fill check, with RESYNC and SKEW reason FILL. IN_STARVE is recorded once for each
starved slot. That two SKEW notices come in the order of their slots is the model's choice (log 10). -/
def Obligations.MixPeriodsFormTheAudio : Prop :=
  ∀ (s : State) (c : Instr) (pacing : Pacing) (d : List Sample), RaisesPeriod s c pacing d → s.PairsLawful →
    ∃ t, exec c s = .next t ∧
      t.call.playHalf =
        (match pacing with
        | .byCall => mixedBlock (s.periodRow .u) (s.periodInputs pacing d)
        | .byLocal => s.call.playHalf) ∧
      (∀ i,
        let x := s.slot i
        let y := t.slot i
        let pass := s.periodPass pacing i
        let read : InRing := { x.inRing with samples := pass.left, phase := pass.phase }
        let counted : Stats :=
          { x.stats with
            inStarve := if s.starves pacing i then min 65535 (x.stats.inStarve + pass.short) else x.stats.inStarve }
        let out := s.periodOut pacing d i
        (x.state.live = false →
          y.stats = x.stats ∧ (y.state = x.state → y.inRing = x.inRing ∧ y.outRing = x.outRing)) ∧
        (x.state = .stalled →
          y.stats = counted ∧ (y.state = .stalled → y.inRing = read ∧ y.outRing = x.outRing)) ∧
        (x.state = .active →
          y.inRing = read ∧
          y.outRing =
            (match s.resyncsTo pacing d i with
            | none => out
            | some k =>
              let lead := s.periodOut pacing d k
              { out with
                samples := List.replicate (lead.samples.length - out.samples.length) 0 ++
                  out.samples.drop (out.samples.length - lead.samples.length)
                phase := lead.phase }) ∧
          y.stats =
            { counted with
              outOverrun := min 65535 (x.stats.outOverrun + (x.outRing.samples.length - 944))
              resync :=
                if (s.resyncsTo pacing d i).isSome then min 65535 (x.stats.resync + 1) else x.stats.resync })) ∧
      t.notices.ofKind .skew = raisedInto (s.notices.ofKind .skew)
        (SlotId.all.filterMap fun i => (s.resyncsTo pacing d i).map fun k =>
          let mine : Nat := (s.periodOut pacing d i).samples.length
          let theirs : Nat := (s.periodOut pacing d k).samples.length
          .skew i { reason := .fill, leader := k, followerValue := mine, leaderValue := theirs,
                    difference := (mine : Int) - theirs }) ∧
      let starved := SlotId.all.filter (s.starves pacing)
      let captures := t.notices.ofKind .capture
      (starved = [] → t.capture = s.capture ∧ captures = s.notices.ofKind .capture) ∧
      (∀ a, starved ≠ [] → s.capture.record = some a →
        t.capture = { record := some a, further := min 255 (s.capture.further + starved.length) } ∧
          captures = s.notices.ofKind .capture) ∧
      ∀ i rest, starved = i :: rest → s.capture.record = none →
        t.capture =
          { record := some
              { kind := .inStarve, slot := some i, handle := (s.slot i).handle, message := none,
                mixPeriod := s.periodNumber },
            further := min 255 rest.length } ∧
        captures = raisedInto (s.notices.ofKind .capture) [.capture { kind := .inStarve, slot := some i }]

/-- At a mix period, under either pacing source, every path whose slots were live moves toward its effective target by at
most the ramp: 0 on the column of a STALLED slot, the weighted target where an ACTIVE slot's microphone meets the uplink,
its target elsewhere; every other path, and every path of a slot that is lost in the period, ends at 0 (R122, R123, R124,
R125, R126). -/
def Obligations.MixPeriodsRampTheGains : Prop :=
  ∀ (s : State) (c : Instr) (pacing : Pacing) (d : List Sample), RaisesPeriod s c pacing d →
    ∃ t, exec c s = .next t ∧ ∀ o j,
      let stepped :=
        (match o with
          | .u => true
          | .o i => (s.slot i).state.live && (t.slot i).state.live) &&
        match j with
        | .e k => (s.slot k).state.live && (t.slot k).state.live
        | _ => true
      let g := s.mix.targets.get o j
      let e :=
        match o, j with
        | .u, .e k => if (s.slot k).state = .stalled then 0 else (g * (s.slot k).talker.weight + 2048) / 4096
        | .o _, .e k => if (s.slot k).state = .stalled then 0 else g
        | _, _ => g
      let a := s.mix.applied.get o j
      let ramp := s.limits.ramp
      t.mix.applied.get o j =
        if stepped then (if ramp = 0 then e else if a ≤ e then min e (a + ramp) else max e (a - ramp)) else 0

/-- At a mix period, under either pacing source, the idle count of every acquiring or live slot rises by 1, up to 255, and
is compared with 4 and with the loss timeout: ACTIVE becomes STALLED, STALLED becomes LOST with its handle kept, rings
flushed and window reset, an acquiring slot EMPTY with RELEASE for its handle, in slot order; EMPTY and LOST slots stay.
The pair rules are then applied once, and the SLOT notices of the changes are raised in slot order, the ROLE notices
after them in the order of their subjects (R5, R6, R31, R33, R49, R52). What a ROLE notice carries as handle and link
reason is the model's choice (log 11). -/
def Obligations.MixPeriodsTimeSilence : Prop :=
  ∀ (s : State) (c : Instr) (pacing : Pacing) (d : List Sample), RaisesPeriod s c pacing d → s.PairsLawful →
    ∃ t, exec c s = .next t ∧
      let n := fun i => min 255 ((s.slot i).idle + 1)
      let late := fun i => decide (s.limits.lossTimeout ≤ n i)
      let fails := fun i => (s.slot i).state.acquiring && late i
      let goesLost := fun i => (s.slot i).state == .stalled && late i
      let ends := fun i => match (s.slot i).partner with
        | some k => fails k && !fails i
        | none => false
      let leads := fun i => match s.leaderOf i with
        | some k => goesLost k && (t.slot i).state.live
        | none => false
      let follows := fun i => match (s.slot i).partner with
        | some k => goesLost i && s.leaderOf k == some i && (t.slot k).state.live
        | none => false
      let notice := fun (i : SlotId) (reason : SlotReason) (handle : Option Handle) =>
        NoticeBody.slot i
          { reason := reason, state := (t.slot i).state, role := (t.slot i).role, partner := (t.slot i).partner,
            handle := handle, identity := (t.slot i).identity, linkReason := none }
      t.radio.outgoing =
        s.radio.outgoing ++ ((SlotId.all.filter fails).filterMap fun i => (s.slot i).handle).map RadioOut.release ∧
      (∀ i,
        let x := s.slot i
        let y := t.slot i
        (x.state = .empty ∨ x.state = .lost → y.state = x.state ∧ y.idle = x.idle) ∧
        (x.state = .active → y.idle = n i ∧ y.handle = x.handle ∧
          y.state = if 4 ≤ n i then .stalled else .active) ∧
        (x.state = .stalled → y.idle = n i ∧ y.handle = x.handle ∧
          y.state = (if late i then .lost else .stalled) ∧
          (late i = true → y.window = none ∧
            y.inRing = { samples := [], phase := 0, expected := none, history := none, run := 0 } ∧
            y.outRing = { samples := [], phase := 0, lastStep := none, lastServed := none })) ∧
        (x.state = .measuring ∨ x.state = .filling →
          (late i = true → y.state = .empty ∧ y.handle = none ∧ y.stats = x.stats) ∧
          (late i = false → y.state = x.state ∧ y.handle = x.handle ∧ y.idle = n i)) ∧
        (y.role, y.partner) =
          (if fails i || ends i then (.solo, none)
          else if leads i then (.leader, x.partner)
          else if follows i then (.follower, x.partner)
          else (x.role, x.partner))) ∧
      t.notices.ofKind .slot = raisedInto (s.notices.ofKind .slot)
        ((SlotId.all.filterMap fun i =>
            if (s.slot i).state = .active ∧ 4 ≤ n i then some (notice i .stalled (s.slot i).handle)
            else if goesLost i then some (notice i .lostTimeout (s.slot i).handle)
            else if fails i then some (notice i .failSilent (s.slot i).handle)
            else none) ++
          SlotId.all.filterMap fun i =>
            if ends i || leads i then some (notice i .role (t.slot i).handle) else none)

/-- P of a mix period, and the player after it, of a lawful play (R154): in IDLE zeros; in GAP zeros, the count falling by
1, PLAYING from the region's start at 0; in PLAYING the region from the read position on, at its end at once again while
plays remain and no gap is set, else zeros, in GAP where plays remain, in IDLE where none does.
At a mix period the player moves so, the memory is kept, and a play that ends raises PROMPT reason DONE (R154, R155,
R158). -/
def Obligations.PromptsPlayInMixPeriods : Prop :=
  (∀ memory : List PromptCell,
    formP memory .idle = (List.replicate 80 0, .idle) ∧
    (∀ (p : Play) (n : Nat), 1 ≤ n →
      formP memory (.gap p n) = (List.replicate 80 0, if n = 1 then .playing p else .gap p (n - 1))) ∧
    ∀ p : Play, p.Lawful →
      let r := formP memory (.playing p)
      let played := p.position - p.start
      let ended := (played + 80) / p.length
      r.1.length = 80 ∧
      (∀ n, n < 80 → r.1.getD n 0 =
        if (played + n) / p.length = 0 ∨ (p.gap = 0 ∧ (played + n) / p.length ≤ p.remaining) then
          readPrompt memory (p.start + (played + n) % p.length)
        else 0) ∧
      r.2 =
        if ended = 0 then .playing { p with position := p.position + 80 }
        else if p.gap = 0 ∧ ended ≤ p.remaining then
          .playing { p with
            position := p.start + (played + 80) % p.length, remaining := p.remaining - ended }
        else if p.gap = 0 ∨ p.remaining = 0 then .idle
        else .gap { p with position := p.start, remaining := p.remaining - 1 } p.gap) ∧
  ∀ (s : State) (c : Instr) (pacing : Pacing) (d : List Sample), RaisesPeriod s c pacing d →
    ∃ t, exec c s = .next t ∧
      let after := (formP s.prompt.memory s.prompt.player).2
      t.prompt = { memory := s.prompt.memory, player := after } ∧
      t.notices.ofKind .prompt = raisedInto (s.notices.ofKind .prompt)
        (match s.prompt.player, after with
        | .playing p, .idle =>
          [.prompt { reason := .done, start := p.start, length := p.length, stateLeft := .playing, remaining := 0,
                     mixPeriod := s.periodNumber }]
        | _, _ => [])

/-- The close of a mix period (R136 to R143, R145, R146, R148). S of every slot that was live moves an eighth of the way,
truncated, toward the peak of its 80 samples; in each pair that still stands, the primary flag moves to an ACTIVE member
whose partner was not ACTIVE (INACTIVE), or whose S passes its partner's by more than the hysteresis and reaches the gate
(LEVEL); every slot's weight follows from role, flag and S; the run counter of a slot that was ACTIVE and whose condition
holds rises by 1, up to 255, every other run is 0. TALK is raised for each move, in the order of the slots, then LEVEL
for each run that reaches its count. -/
def Obligations.MixPeriodsCloseTheTalkers : Prop :=
  ∀ (s : State) (c : Instr) (pacing : Pacing) (d : List Sample), RaisesPeriod s c pacing d → s.PairsLawful →
    ∃ t, exec c s = .next t ∧
      let level := fun i => (t.slot i).talker.level
      let got := fun i => match (t.slot i).partner with
        | some k =>
          if (s.slot k).talker.primary = true ∧ (s.slot i).state = .active then
            if (s.slot k).state ≠ .active then some TalkCause.inactive
            else if level k + s.talk.hysteresis < level i ∧ s.talk.gate ≤ level i then some TalkCause.level
            else none
          else none
        | none => none
      let holds := fun i =>
        decide ((s.slot i).state = .active) &&
          match (s.slot i).watch.condition with
          | .off => false
          | .above => decide ((s.slot i).watch.threshold ≤ level i)
          | .below => decide (level i ≤ (s.slot i).watch.threshold)
      (∀ i,
        let x := s.slot i
        let y := t.slot i
        let peak : Nat := (s.periodPass pacing i).outputs.foldl (fun m v => max m v.toInt.natAbs) 0
        ((x.state.live = true → (y.talker.level : Int) = x.talker.level + Int.tdiv ((peak : Int) - x.talker.level) 8) ∧
        (x.state.live = false → y.talker.level = if x.state ≠ .empty ∧ y.state = .empty then 0 else x.talker.level)) ∧
        y.talker.primary =
          (match y.partner with
          | some k => (got i).isSome || (x.talker.primary && !(got k).isSome)
          | none => false) ∧
        (let table := if y.role = .solo ∨ y.talker.primary = true then 4096 else s.talk.duckWeight
        y.talker.weight = if y.talker.level < s.talk.gate then min table s.talk.gateWeight else table) ∧
        y.watch = { x.watch with run := if holds i then min 255 (x.watch.run + 1) else 0 }) ∧
      t.notices.ofKind .talk = raisedInto (s.notices.ofKind .talk)
        (SlotId.all.filterMap fun i =>
          match (t.slot i).partner, got i with
          | some k, some cause =>
            some (.talk i { cause := cause, partner := k, level := level i, partnerLevel := level k,
                            partnerState := (s.slot k).state, mixPeriod := s.periodNumber })
          | _, _ => none) ∧
      t.notices.ofKind .level = raisedInto (s.notices.ofKind .level)
        (SlotId.all.filterMap fun i =>
          let w := (s.slot i).watch
          if holds i && w.run + 1 == w.count then
            some (.level i { condition := w.condition, threshold := w.threshold, count := w.count, level := level i,
                             mixPeriod := s.periodNumber })
          else none)

/-! ### Arithmetic -/

/-- The steps and the measured value: a step lies within its range, is symmetric, is nominal for deviations up to 3, and
is the nearest integer to the deviation's share of a sample (R88, R104). -/
def Obligations.StepsAndMeasuredValues : Prop :=
  (∀ t8 : Int, 1047527 ≤ stepOf t8 ∧ stepOf t8 ≤ 1049625) ∧
  (∀ t8 : Int, -8000 ≤ t8 → t8 ≤ 8000 → stepOf t8 + stepOf (-t8) = 2097152) ∧
  (∀ t8 : Int, -8000 ≤ t8 → t8 ≤ 8000 →
    |2 * (((stepOf t8 : Int) - 1048576) * 8000000 - 1048576 * t8)| ≤ 8000000) ∧
  (∀ t8 : Int, -3 ≤ t8 → t8 ≤ 3 → stepOf t8 = 1048576) ∧
  ∀ e n : Nat, 0 < n →
    |2 * (measuredValue e n * n - ((e : Int) - n) * 8000000)| ≤ n ∧
    (n < e → 0 ≤ measuredValue e n) ∧ (e < n → measuredValue e n ≤ 0) ∧ measuredValue n n = 0

/-- An output of a pass that is not short is formed from the two oldest samples of the ring as it then stands, s0 and s1,
and the phase fraction f that the outputs before it have left: it is s0 plus (s1 − s0)·f/2^20 rounded to the nearest
integer, a half going away from zero; it lies between s0 and s1, and at f = 0 it is s0 (R107).
A pass has 80 outputs, the k formed from the ring first and the short ones, all 0, after them; a formed output
advances the phase by the step and releases the whole samples of that sum, and a short one moves nothing, so that the
pass releases floor((f0 + k·step)/2^20) samples and leaves the rest of that sum as phase; an output is short when fewer
than 2 samples are left: a ring of 0 or 1 gives 80 short outputs, and 81 samples suffice at the nominal step from phase
0 (R108, R109, R110). -/
def Obligations.PassesReadTheRing : Prop :=
  (∀ (step : Nat) (ring : List Sample) (f0 k : Nat), f0 < 1048576 → k < 80 - (runPass step 80 ring f0).short →
    let first := (f0 + k * step) / 1048576
    let f := (f0 + k * step) % 1048576
    let s0 := (ring.getD first 0).toInt
    let s1 := (ring.getD (first + 1) 0).toInt
    let y := ((runPass step 80 ring f0).outputs.getD k 0).toInt
    let p := (s1 - s0) * f
    first + 1 < ring.length ∧
      y = s0 + (if p < 0 then -((2 * -p + 1048576) / 2097152) else (2 * p + 1048576) / 2097152) ∧
      min s0 s1 ≤ y ∧ y ≤ max s0 s1 ∧ (f = 0 → y = s0)) ∧
  ∀ (step : Nat) (ring : List Sample) (f0 : Nat), f0 < 1048576 →
    let r := runPass step 80 ring f0
    let k := 80 - r.short
    r.outputs.length = 80 ∧ r.short ≤ 80 ∧ r.outputs.drop k = List.replicate r.short 0 ∧
    r.left = ring.drop ((f0 + k * step) / 1048576) ∧ r.phase = (f0 + k * step) % 1048576 ∧
    (0 < r.short → r.left.length < 2) ∧ (ring.length < 2 → r.short = 80) ∧
    (81 ≤ ring.length → (runPass 1048576 80 ring 0).short = 0 ∧ (runPass 1048576 80 ring 0).outputs = ring.take 80)

/-- The ramp: R = 0 or a distance within R reaches the effective target at once, else the gain moves by R toward it; it
stays between the two, and the target is reached in ceiling(|e − a|/R) steps and no sooner (R124).
The smoothed level moves an eighth of the way toward the peak level, truncated toward zero, so that it stays between
the two and rests within 7 of a constant level; the weight is 4096 for a SOLO slot or a primary, else the duck weight,
and under the gate at most the gate weight (R139, R140). -/
def Obligations.RampLevelsAndWeights : Prop :=
  (∀ ramp a e : Nat,
      rampStep 0 a e = e ∧
      (((e : Int) - a).natAbs ≤ ramp → rampStep ramp a e = e) ∧
      (0 < ramp → a + ramp < e → rampStep ramp a e = a + ramp) ∧
      (0 < ramp → e + ramp < a → rampStep ramp a e = a - ramp) ∧
      min a e ≤ rampStep ramp a e ∧ rampStep ramp a e ≤ max a e ∧
      (0 < ramp → ∀ n, (fun b => rampStep ramp b e)^[n] a = e ↔ (((e : Int) - a).natAbs + ramp - 1) / ramp ≤ n)) ∧
  (∀ s l : Nat,
    (smoothLevel s l : Int) = s + Int.tdiv ((l : Int) - s) 8 ∧ min s l ≤ smoothLevel s l ∧ smoothLevel s l ≤ max s l ∧
      (smoothLevel s l = s ↔ ((l : Int) - s).natAbs ≤ 7)) ∧
  ∀ (role : Role) (primary : Bool) (level : Nat) (p : TalkParams),
    let table := if role = .solo ∨ primary = true then 4096 else p.duckWeight
    (p.gate ≤ level → talkerWeight role primary level p = table) ∧
    (level < p.gate → talkerWeight role primary level p = min table p.gateWeight)

/-- A mixed output: the sum over the six inputs never leaves a signed 32-bit accumulator, each sample is that sum over
4096, rounded half away from zero once and then saturated, and the saturated samples, whose rounded sums lie outside
−32768..32767, are counted (R131, R132). A mix period in which a formed output saturates raises MIXSAT once, with the mask
of those outputs, the count over all of them, the period's number and its pacing source (R130, R132, R133). -/
def Obligations.OutputsAreRoundedSums : Prop :=
  (∀ (g : GainRow) (x : MixInputs), (∀ j, g.get j ≤ 8191) →
    let acc := fun n =>
      let cell := fun block : List Sample => (block.getD n 0).toInt
      g.d * cell x.d + g.e.s0 * cell x.e.s0 + g.e.s1 * cell x.e.s1 + g.e.s2 * cell x.e.s2 + g.e.s3 * cell x.e.s3 +
        g.p * cell x.p
    let rounded := fun n => if acc n < 0 then -((-acc n + 2048) / 4096) else (acc n + 2048) / 4096
    (mixedBlock g x).length = 80 ∧
    (∀ n, n < 80 →
      |acc n| ≤ 1610416128 ∧ ((mixedBlock g x).getD n 0).toInt = max (-32768) (min 32767 (rounded n))) ∧
    saturatedCount g x = (List.range 80).countP fun n => decide (rounded n < -32768) || decide (32767 < rounded n)) ∧
  ∀ (s : State) (c : Instr) (pacing : Pacing) (d : List Sample), RaisesPeriod s c pacing d →
    ∃ t, exec c s = .next t ∧
      let n := s.periodSaturations pacing d
      let total := n .u + n (.o .s0) + n (.o .s1) + n (.o .s2) + n (.o .s3)
      let bit := fun (o : Output) (k : Nat) => if n o = 0 then 0 else 2 ^ k
      t.notices.ofKind .mixsat = raisedInto (s.notices.ofKind .mixsat)
        (if total = 0 then []
        else
          [.mixsat
            { mask := BitVec.ofNat 5
                (bit .u 0 + bit (.o .s0) 1 + bit (.o .s1) 2 + bit (.o .s2) 3 + bit (.o .s3) 4),
              mixPeriod := s.periodNumber, samples := total, pacing := pacing }])

/-! ### What every step keeps -/

/-- Every step keeps the queue's law: at most one notice for each kind and subject, so at most 26, and every occurrence
count within 1..255 (R172, R173). -/
def Obligations.StepsKeepTheNoticeQueueLawful : Prop :=
  (∀ s t : State, s.notices.Lawful → step s = .next t → t.notices.Lawful) ∧
  ∀ q : NoticeQueue, q.Lawful → q.queue.length ≤ 26

/-- Every step keeps the control link unit lawful: at most 8 replies, a receive assembly that holds what its state says,
and the running sum of what it holds (R160, R161, R164). -/
def Obligations.StepsKeepTheControlLinkLawful : Prop :=
  ∀ s t : State, s.link.Lawful → step s = .next t → t.link.Lawful

/-- Every step keeps the prompt memory in its canonical form and the play within its region and ranges (R150, R151). -/
def Obligations.StepsKeepThePromptPlayerLawful : Prop :=
  ∀ s t : State, s.prompt.Lawful → step s = .next t → t.prompt.Lawful

/-- Every step keeps every gain within 0..8191 and every weight within 0..4096 (R117, R136).
Every step keeps the law of R126: a slot that is neither ACTIVE nor STALLED has a column and a row of 0. -/
def Obligations.StepsKeepTheGainsLawful : Prop :=
  (∀ s t : State, s.GainsLawful → step s = .next t → t.GainsLawful) ∧
  ∀ s t : State, s.DeadSlotsSilent → step s = .next t → t.DeadSlotsSilent

/-- Every step keeps every pair lawful: mutual partners, one LEADER and one FOLLOWER, sides LEFT and RIGHT, exactly one
primary (R28, R136, R149). -/
def Obligations.StepsKeepPairsLawful : Prop :=
  ∀ s t : State, s.PairsLawful → step s = .next t → t.PairsLawful

/-- Every step keeps handles and identities unique and the pending list apart from the slots (R1, R13, R44). -/
def Obligations.StepsKeepBindingsLawful : Prop :=
  ∀ s t : State, s.BindingsLawful → step s = .next t → t.BindingsLawful

/-- Every step keeps every ring within 1024 samples and every other value of R50 within its range (R50, R52, R58,
R104). -/
def Obligations.StepsKeepRingsLawful : Prop :=
  ∀ s t : State, s.RingsLawful → step s = .next t → t.RingsLawful

/-- Every step keeps every rate estimate within the limit set for its clock, every limit within its range, and the call
port's fields as its state says (R69, R87, R91, R94). -/
def Obligations.StepsKeepRatesAndCallLawful : Prop :=
  (∀ s t : State, s.RatesLawful → step s = .next t → t.RatesLawful) ∧
  ∀ s t : State, s.CallLawful → step s = .next t → t.CallLawful

/-- Every step keeps every counter, level and watch within its range, and the profile table's law (R18, R65, R66,
R136). -/
def Obligations.StepsKeepCountsAndProfilesLawful : Prop :=
  (∀ s t : State, s.CountsLawful → step s = .next t → t.CountsLawful) ∧
  ∀ s t : State, s.ProfilesLawful → step s = .next t → t.ProfilesLawful

/-- The state after reset meets every one of these laws. -/
def Obligations.ResetMeetsTheLaws : Prop :=
  State.reset.notices.Lawful ∧ State.reset.link.Lawful ∧ State.reset.prompt.Lawful ∧ State.reset.GainsLawful ∧
    State.reset.DeadSlotsSilent ∧ State.reset.PairsLawful ∧ State.reset.BindingsLawful ∧ State.reset.RingsLawful ∧
    State.reset.RatesLawful ∧ State.reset.CallLawful ∧ State.reset.CountsLawful ∧ State.reset.ProfilesLawful

/-- Settings move only by the request that sets them: but for a power-on reset and a frame taken as bytes, the profile
table changes only at PROFILE.PUT and PROFILE.DROP, the limits at LIMIT.SET, the target gains at GAIN.SET, the talker
parameters at TALK.SET, the prompt memory at PROMPT.LOAD and the mask at MASK.SET (R18, R94, R117, R136, R150, R175). -/
def Obligations.SettingsMoveOnlyByTheirRequest : Prop :=
  ∀ (c : Instr) (s t : State), exec c s = .next t → (∀ tick, c ≠ .powerOnReset tick) →
    (∀ tick byte, c ≠ .controlLinkByte tick byte) → (∀ kind tag body check, c ≠ .refusedFrame kind tag body check) →
    ((∀ tag f, c ≠ .profilePut tag f) → (∀ tag d, c ≠ .profileDrop tag d) → t.profiles = s.profiles) ∧
    ((∀ tag a b d e f, c ≠ .limitSet tag a b d e f) → t.limits = s.limits) ∧
    ((∀ tag entries, c ≠ .gainSet tag entries) → t.mix.targets = s.mix.targets) ∧
    ((∀ tag a b d e, c ≠ .talkSet tag a b d e) → t.talk = s.talk) ∧
    ((∀ tag offset samples, c ≠ .promptLoad tag offset samples) → t.prompt.memory = s.prompt.memory) ∧
    ((∀ tag mask, c ≠ .maskSet tag mask) → t.notices.mask = s.notices.mask)
end

