-- ==== Sys2Proof/Laws/Arith.lean ====
section
/-!
SUPPORT. The arithmetic words of the manual: what clamping, rounding and saturating give.
-/
namespace Sys2Proof.Machine

/-! ### Clamps -/

theorem clampNat_eq {x a b : Nat} (h : a ≤ b) : clampNat x a b = max a (min b x) := by
  unfold clampNat
  split
  · omega
  · split <;> omega

theorem clampInt_eq {x a b : Int} (h : a ≤ b) : clampInt x a b = max a (min b x) := by
  unfold clampInt
  split
  · omega
  · split <;> omega

theorem clampSym_eq (x : Int) (l : Nat) : clampSym x l = max (-(l : Int)) (min (l : Int) x) := clampInt_eq (by omega)

theorem clampSym_natAbs (x : Int) (l : Nat) : (clampSym x l).natAbs ≤ l := by rw [clampSym_eq]; omega

theorem clampSeed_eq (x : Int) : clampSeed x = max (-15) (min 15 x) := clampInt_eq (by omega)

theorem clampTarget_eq (t : Nat) : clampTarget t = max 160 (min 800 t) := clampNat_eq (by omega)

theorem settingOr_eq {w : Nat} (x : Option (BitVec w)) {lo hi held : Nat} (h : lo ≤ hi) :
    settingOr x lo hi held = (x.map fun v => max lo (min hi v.toNat)).getD held := by
  cases x <;> simp [settingOr, clampNat_eq h]

theorem settingOr_byte (x : Option Byte) {lo held : Nat} (h : lo ≤ 255) :
    settingOr x lo 255 held = (x.map fun v => max lo v.toNat).getD held := by
  rw [settingOr_eq x h]
  cases x with
  | none => rfl
  | some v => have := v.isLt; simp only [Option.map_some, Option.getD_some]; omega

/-! ### Rounding half away from zero -/

/-- The rounded quotient by the sign of the numerator. -/
theorem roundHalfAway_eq (p : Int) (q : Nat) :
    roundHalfAway p q = if p < 0 then -((2 * -p + q) / (2 * q)) else (2 * p + q) / (2 * q) := by
  unfold roundHalfAway
  split
  · have : ((p.natAbs : Nat) : Int) = -p := by omega
    push_cast
    rw [← Int.natCast_natAbs, this]
  · have : ((p.natAbs : Nat) : Int) = p := by omega
    push_cast
    rw [← Int.natCast_natAbs, this]

/-- It is the nearest integer. -/
theorem roundHalfAway_near (p : Int) {q : Nat} (hq : 0 < q) : |2 * (roundHalfAway p q * q - p)| ≤ q := by
  have hq' : (0 : Int) < 2 * q := by omega
  have key : ∀ x : Int, 2 * x - q ≤ 2 * ((2 * x + q) / (2 * q) * q) ∧ 2 * ((2 * x + q) / (2 * q) * q) ≤ 2 * x + q := by
    intro x
    have h1 := Int.ediv_mul_le (2 * x + q) (Int.ne_of_gt hq')
    have h2 := Int.lt_ediv_add_one_mul_self (2 * x + q) hq'
    constructor <;> nlinarith
  rw [roundHalfAway_eq, abs_le]
  split
  · have := key (-p)
    constructor <;> nlinarith
  · have := key p
    constructor <;> nlinarith

theorem roundHalfAway_nonneg {p : Int} (q : Nat) (h : 0 ≤ p) : 0 ≤ roundHalfAway p q := by
  rw [roundHalfAway_eq, if_neg (by omega)]
  exact Int.ediv_nonneg (by omega) (by omega)

theorem roundHalfAway_nonpos {p : Int} (q : Nat) (h : p ≤ 0) : roundHalfAway p q ≤ 0 := by
  rw [roundHalfAway_eq]
  split
  · have : 0 ≤ (2 * -p + q) / (2 * (q : Int)) := Int.ediv_nonneg (by omega) (by omega)
    omega
  · have : p = 0 := by omega
    subst this
    rcases q with _ | q
    · simp
    · have : ((2 * 0 + ((q + 1 : Nat) : Int)) / (2 * ((q + 1 : Nat) : Int))) = 0 := Int.ediv_eq_zero_of_lt (by omega) (by omega)
      omega

/-! ### Saturation -/

theorem toInt_saturateSample (y : Int) : (saturateSample y).toInt = max (-32768) (min 32767 y) := by
  rw [saturateSample, clampInt_eq (by omega), BitVec.toInt_ofInt]
  have : -32768 ≤ max (-32768) (min 32767 y) ∧ max (-32768) (min 32767 y) ≤ 32767 := by omega
  rw [Int.bmod_def]
  omega

theorem satAdd16_le (c n : Nat) : satAdd16 c n ≤ 65535 := by unfold satAdd16; omega

theorem satSucc8_le (c : Nat) : satSucc8 c ≤ 255 := by unfold satSucc8; omega

end Sys2Proof.Machine
end

