-- ==== Sys2Proof/Laws/Decode.lean ====
section
/-!
SUPPORT. Reading back what the writers of R179 write: fields, lists of samples and entries, presence bytes, checks.
-/
namespace Sys2Proof

/-! ### Fields (R179) -/

theorem bytes16_def (x : BitVec 16) : bytes16 x = [byteAt x 0, byteAt x 1] := rfl

@[simp] theorem length_bytes16 (x : BitVec 16) : (bytes16 x).length = 2 := rfl

@[simp] theorem length_bytes32 (x : BitVec 32) : (bytes32 x).length = 4 := rfl

@[simp] theorem length_bytes48 (x : BitVec 48) : (bytes48 x).length = 6 := rfl

@[simp] theorem le16_bytes (x : BitVec 16) : le16 (byteAt x 0) (byteAt x 1) = x := by
  apply BitVec.eq_of_getLsbD_eq
  intro i hi
  simp only [le16, byteAt, BitVec.getLsbD_append, BitVec.getLsbD_extractLsb']
  (repeat' split) <;> (rw [decide_eq_true (by omega), Bool.true_and]; congr 1; omega)

@[simp] theorem le32_bytes (x : BitVec 32) : le32 (byteAt x 0) (byteAt x 1) (byteAt x 2) (byteAt x 3) = x := by
  apply BitVec.eq_of_getLsbD_eq
  intro i hi
  simp only [le32, byteAt, BitVec.getLsbD_append, BitVec.getLsbD_extractLsb']
  (repeat' split) <;> (rw [decide_eq_true (by omega), Bool.true_and]; congr 1; omega)

@[simp] theorem le48_bytes (x : BitVec 48) :
    le48 (byteAt x 0) (byteAt x 1) (byteAt x 2) (byteAt x 3) (byteAt x 4) (byteAt x 5) = x := by
  apply BitVec.eq_of_getLsbD_eq
  intro i hi
  simp only [le48, byteAt, BitVec.getLsbD_append, BitVec.getLsbD_extractLsb']
  (repeat' split) <;> (rw [decide_eq_true (by omega), Bool.true_and]; congr 1; omega)

@[simp] theorem bytes16_le16 (b0 b1 : Byte) : bytes16 (le16 b0 b1) = [b0, b1] := by
  simp only [bytes16, byteAt, le16, List.cons.injEq, and_true]
  refine ⟨?_, ?_⟩ <;> apply BitVec.eq_of_getLsbD_eq <;> intro i hi <;>
    simp only [BitVec.getLsbD_append, BitVec.getLsbD_extractLsb'] <;> (repeat' split) <;>
    first
    | omega
    | simp_all

@[simp] theorem bytes32_le32 (b0 b1 b2 b3 : Byte) : bytes32 (le32 b0 b1 b2 b3) = [b0, b1, b2, b3] := by
  simp only [bytes32, byteAt, le32, List.cons.injEq, and_true]
  refine ⟨?_, ?_, ?_, ?_⟩ <;> apply BitVec.eq_of_getLsbD_eq <;> intro i hi <;>
    simp only [BitVec.getLsbD_append, BitVec.getLsbD_extractLsb'] <;> (repeat' split) <;>
    first
    | omega
    | simp_all

@[simp] theorem bytes48_le48 (b0 b1 b2 b3 b4 b5 : Byte) :
    bytes48 (le48 b0 b1 b2 b3 b4 b5) = [b0, b1, b2, b3, b4, b5] := by
  simp only [bytes48, byteAt, le48, List.cons.injEq, and_true]
  refine ⟨?_, ?_, ?_, ?_, ?_, ?_⟩ <;> apply BitVec.eq_of_getLsbD_eq <;> intro i hi <;>
    simp only [BitVec.getLsbD_append, BitVec.getLsbD_extractLsb'] <;> (repeat' split) <;>
    first
    | omega
    | simp_all

/-- A byte of a field as a number: the field over a power of 256. -/
theorem byteAt_eq {w : Nat} (x : BitVec w) (k : Nat) : byteAt x k = BitVec.ofNat 8 (x.toNat / 256 ^ k) := by
  apply BitVec.eq_of_toNat_eq
  simp [byteAt, BitVec.extractLsb'_toNat, Nat.shiftRight_eq_div_pow, Nat.pow_mul]

@[simp] theorem flagOf_flagByte (f : Bool) : flagOf (flagByte f) = f := by cases f <;> decide

@[simp] theorem getLsbD_flagByte (f : Bool) : (flagByte f).getLsbD 0 = f := by cases f <;> decide

/-! ### Presence bytes (R179) -/

theorem presenceByte_three (a b c : Bool) :
    (presenceByte [a, b, c]).getLsbD 0 = a ∧ (presenceByte [a, b, c]).getLsbD 1 = b ∧
      (presenceByte [a, b, c]).getLsbD 2 = c := by
  revert a b c; decide

theorem presenceByte_four (a b c d : Bool) :
    (presenceByte [a, b, c, d]).getLsbD 0 = a ∧ (presenceByte [a, b, c, d]).getLsbD 1 = b ∧
      (presenceByte [a, b, c, d]).getLsbD 2 = c ∧ (presenceByte [a, b, c, d]).getLsbD 3 = d := by
  revert a b c d; decide

theorem presenceByte_five (a b c d e : Bool) :
    (presenceByte [a, b, c, d, e]).getLsbD 0 = a ∧ (presenceByte [a, b, c, d, e]).getLsbD 1 = b ∧
      (presenceByte [a, b, c, d, e]).getLsbD 2 = c ∧ (presenceByte [a, b, c, d, e]).getLsbD 3 = d ∧
      (presenceByte [a, b, c, d, e]).getLsbD 4 = e := by
  revert a b c d e; decide

/-- An optional field whose presence bit stands for it is read back, whatever fills its bytes when it is absent. -/
theorem present_getD {α : Type} {p : Byte} {bit : Nat} {x : Option α} (h : p.getLsbD bit = x.isSome) (fill : α) :
    present p bit (x.getD fill) = x := by
  cases x <;> simp_all [present]

/-! ### Samples and entries (R119, R152) -/

theorem bytesOfSamples_cons (x : Sample) (l : List Sample) :
    bytesOfSamples (x :: l) = byteAt x 0 :: byteAt x 1 :: bytesOfSamples l := rfl

@[simp] theorem length_bytesOfSamples (l : List Sample) : (bytesOfSamples l).length = 2 * l.length := by
  induction l with
  | nil => rfl
  | cons x l ih => rw [bytesOfSamples_cons]; simp [ih]; omega

@[simp] theorem samplesOfBytes_bytesOfSamples (l : List Sample) : samplesOfBytes (bytesOfSamples l) = some l := by
  induction l with
  | nil => rfl
  | cons x l ih => rw [bytesOfSamples_cons, samplesOfBytes, ih]; simp

/-- Samples that are read from bytes write those bytes. -/
theorem bytesOfSamples_of_samplesOfBytes : ∀ {bytes : List Byte} {l : List Sample}, samplesOfBytes bytes = some l →
    bytesOfSamples l = bytes
  | [], l, h => by
    cases h
    rfl
  | [_], l, h => by cases h
  | b0 :: b1 :: rest, l, h => by
    simp only [samplesOfBytes, Option.map_eq_some_iff] at h
    obtain ⟨l', h', rfl⟩ := h
    show bytes16 (le16 b0 b1) ++ bytesOfSamples l' = _
    rw [bytes16_le16, bytesOfSamples_of_samplesOfBytes h']
    rfl

theorem bytesOfEntries_cons (e : GainEntry) (l : List GainEntry) :
    (e :: l).flatMap bytesOfEntry =
      e.output :: e.input :: byteAt e.gain 0 :: byteAt e.gain 1 :: l.flatMap bytesOfEntry := rfl

@[simp] theorem length_bytesOfEntries (l : List GainEntry) : (l.flatMap bytesOfEntry).length = 4 * l.length := by
  induction l with
  | nil => rfl
  | cons e l ih => rw [bytesOfEntries_cons]; simp only [List.length_cons, ih]; omega

@[simp] theorem entriesOfBytes_bytesOfEntries (l : List GainEntry) :
    entriesOfBytes (l.flatMap bytesOfEntry) = some l := by
  induction l with
  | nil => rfl
  | cons e l ih => rw [bytesOfEntries_cons, entriesOfBytes, ih]; simp

theorem samplesOfBytes_none {bytes : List Byte} : samplesOfBytes bytes = none ↔ bytes.length % 2 ≠ 0 := by
  induction bytes using samplesOfBytes.induct with
  | case1 => simp [samplesOfBytes]
  | case2 o i g0 ih =>
    simp [samplesOfBytes, ih]
    omega
  | case3 => simp [samplesOfBytes]

theorem entriesOfBytes_none {bytes : List Byte} : entriesOfBytes bytes = none ↔ bytes.length % 4 ≠ 0 := by
  induction bytes using entriesOfBytes.induct with
  | case1 => simp [entriesOfBytes]
  | case2 o i g0 g1 rest ih =>
    simp [entriesOfBytes, ih]
    omega
  | case3 l h1 h2 =>
    simp only [entriesOfBytes]
    rcases l with _ | ⟨a0, _ | ⟨a1, _ | ⟨a2, _ | ⟨a3, r⟩⟩⟩⟩ <;> simp_all
    exact absurd rfl (h2 _ _ _ _ _ rfl rfl rfl rfl)

/-- Bytes that read as samples are two for each sample. -/
theorem length_of_samplesOfBytes : ∀ {bytes : List Byte} {l : List Sample}, samplesOfBytes bytes = some l →
    bytes.length = 2 * l.length
  | [], l, h => by simp only [samplesOfBytes, Option.some.injEq] at h; subst h; rfl
  | [_], l, h => by simp [samplesOfBytes] at h
  | lo :: hi :: rest, l, h => by
    simp only [samplesOfBytes, Option.map_eq_some_iff] at h
    obtain ⟨m, hm, rfl⟩ := h
    have := length_of_samplesOfBytes hm
    simp only [List.length_cons]
    omega

/-- Bytes that read as entries are four for each entry. -/
theorem length_of_entriesOfBytes : ∀ {bytes : List Byte} {l : List GainEntry}, entriesOfBytes bytes = some l →
    bytes.length = 4 * l.length
  | [], l, h => by simp only [entriesOfBytes, Option.some.injEq] at h; subst h; rfl
  | [_], l, h => by simp [entriesOfBytes] at h
  | [_, _], l, h => by simp [entriesOfBytes] at h
  | [_, _, _], l, h => by simp [entriesOfBytes] at h
  | o :: i :: g0 :: g1 :: rest, l, h => by
    simp only [entriesOfBytes, Option.map_eq_some_iff] at h
    obtain ⟨m, hm, rfl⟩ := h
    have := length_of_entriesOfBytes hm
    simp only [List.length_cons]
    omega

/-! ### Kinds and checks (R163, R180, R182) -/

@[simp] theorem RequestKind.ofCode_code (k : RequestKind) : RequestKind.ofCode k.code = some k := by
  cases k <;> decide

/-- A kind byte names the kind whose code it is, and no other. -/
theorem RequestKind.ofCode_eq_some {b : Byte} {k : RequestKind} : RequestKind.ofCode b = some k ↔ k.code = b := by
  constructor
  · intro h
    simpa using List.find?_some h
  · rintro rfl
    exact RequestKind.ofCode_code k

@[simp] theorem byteSum_frameCheck (kind tag : Byte) (body : List Byte) :
    byteSum (frameHead kind tag body) + frameCheck kind tag body = 0 := BitVec.add_right_neg _

theorem byteSum_append (l : List Byte) (b : Byte) : byteSum (l ++ [b]) = byteSum l + b := by
  simp [byteSum]

/-- The check of R182 as a sum of numbers. -/
theorem radioCheck_iff (head : List Byte) (lo hi : Byte) : radioSum head + le16 lo hi = 0 ↔
    ((head.map BitVec.toNat).sum + lo.toNat + 256 * hi.toNat) % 65536 = 0 := by
  have sum : ∀ (l : List Byte) (a : BitVec 16), (l.foldl (fun acc b => acc + b.setWidth 16) a).toNat =
      (a.toNat + (l.map BitVec.toNat).sum) % 65536 := by
    intro l
    induction l with
    | nil =>
      intro a
      have := a.isLt
      simp
      omega
    | cons b l ih =>
      intro a
      rw [List.foldl_cons, ih]
      have := b.isLt
      simp [BitVec.toNat_add]
      omega
  have word : (le16 lo hi).toNat = lo.toNat + 256 * hi.toNat := by
    unfold le16
    rw [BitVec.toNat_append, ← Nat.shiftLeft_add_eq_or_of_lt lo.isLt, Nat.shiftLeft_eq]
    omega
  rw [← BitVec.toNat_inj, BitVec.toNat_add, radioSum, sum, word]
  simp
  omega

/-- The frames whose check holds: a message and the two bytes that bring the sum to 0. -/
theorem checkedMessage_eq_some {bytes m : List Byte} : checkedMessage bytes = some m ↔
    ∃ lo hi : Byte, bytes = m ++ [lo, hi] ∧ radioSum m + le16 lo hi = 0 := by
  constructor
  · intro h
    unfold checkedMessage at h
    split at h
    · next lo hi h2 =>
      split at h
      · next hs =>
        cases h
        exact ⟨lo, hi, by rw [← h2, List.take_append_drop], hs⟩
      · cases h
    · cases h
  · rintro ⟨lo, hi, rfl, hs⟩
    unfold checkedMessage
    rw [show (m ++ [lo, hi]).length - 2 = m.length by simp, List.drop_left, List.take_left]
    dsimp only
    rw [if_pos hs]

/-- The check of a radio frame holds as it is written. -/
theorem checkedMessage_radioFrameBytes (m : List Byte) : checkedMessage (radioFrameBytes m) = some m := by
  have h : (radioFrameBytes m).length - 2 = m.length := by simp [radioFrameBytes]
  unfold checkedMessage
  rw [h]
  simp [radioFrameBytes, bytes16_def]

end Sys2Proof
end

