-- ==== Sys2Proof/Laws/State.lean ====
section
/-!
SUPPORT. What each operation leaves alone: one lemma for each operation and each field it does not touch, so that no
later proof unfolds a record update; reading back a slot record.
-/
namespace Sys2Proof

theorem SlotId.mem_all (i : SlotId) : i ∈ SlotId.all := by cases i <;> decide

variable {α β : Type}

@[simp] theorem PerSlot.get_set_self (p : PerSlot α) (i : SlotId) (a : α) : (p.set i a).get i = a := by
  cases i <;> rfl

theorem PerSlot.get_set_ne (p : PerSlot α) {i j : SlotId} (h : j ≠ i) (a : α) : (p.set i a).get j = p.get j := by
  cases i <;> cases j <;> first | rfl | exact absurd rfl h

theorem PerSlot.get_set (p : PerSlot α) (i j : SlotId) (a : α) : (p.set i a).get j = if j = i then a else p.get j := by
  cases i <;> cases j <;> rfl

@[simp] theorem PerSlot.get_tabulate (f : SlotId → α) (i : SlotId) : (PerSlot.tabulate f).get i = f i := by
  cases i <;> rfl

@[simp] theorem PerSlot.get_const (a : α) (i : SlotId) : (PerSlot.const a).get i = a := by cases i <;> rfl

@[simp] theorem PerSlot.get_map (f : α → β) (p : PerSlot α) (i : SlotId) : (p.map f).get i = f (p.get i) := by
  cases i <;> rfl

theorem PerSlot.ext_get {p q : PerSlot α} (h : ∀ i, p.get i = q.get i) : p = q := by
  obtain ⟨a, b, c, d⟩ := p
  obtain ⟨a', b', c', d'⟩ := q
  have h0 := h .s0
  have h1 := h .s1
  have h2 := h .s2
  have h3 := h .s3
  simp only [PerSlot.get] at h0 h1 h2 h3
  rw [h0, h1, h2, h3]

@[simp] theorem PerSlot.tabulate_get (p : PerSlot α) : PerSlot.tabulate p.get = p := rfl

namespace Machine

/-! ### Slot records -/

@[simp] theorem State.slot_mk (s : State) (p : PerSlot Slot) (i : SlotId) : ({ s with slots := p } : State).slot i = p.get i := rfl

theorem State.slot_def (s : State) (i : SlotId) : s.slots.get i = s.slot i := rfl

@[simp] theorem State.slot_setSlot_self (s : State) (i : SlotId) (x : Slot) : (s.setSlot i x).slot i = x := by
  simp [State.slot, State.setSlot]

theorem State.slot_setSlot (s : State) (i j : SlotId) (x : Slot) :
    (s.setSlot i x).slot j = if j = i then x else s.slot j := by
  simp [State.slot, State.setSlot, PerSlot.get_set]

theorem State.slot_setSlot_ne (s : State) {i j : SlotId} (h : j ≠ i) (x : Slot) : (s.setSlot i x).slot j = s.slot j := by
  simp [State.slot_setSlot, h]

@[simp] theorem State.slot_modSlot_self (s : State) (i : SlotId) (f : Slot → Slot) :
    (s.modSlot i f).slot i = f (s.slot i) := by simp [State.modSlot]

theorem State.slot_modSlot (s : State) (i j : SlotId) (f : Slot → Slot) :
    (s.modSlot i f).slot j = if j = i then f (s.slot i) else s.slot j := by
  simp [State.modSlot, State.slot_setSlot]

theorem State.slot_modSlot_ne (s : State) {i j : SlotId} (h : j ≠ i) (f : Slot → Slot) :
    (s.modSlot i f).slot j = s.slot j := by simp [State.slot_modSlot, h]

/-- Equal slots, equal slot tables. -/
theorem State.slots_ext {s t : State} (h : ∀ i, s.slot i = t.slot i) : s.slots = t.slots := PerSlot.ext_get h

/-- A fold over slots keeps whatever every one of its steps keeps. -/
theorem foldl_keeps (π : State → β) (f : State → α → State) (h : ∀ s i, π (f s i) = π s) (l : List α)
    (s : State) : π (l.foldl f s) = π s := by
  induction l generalizing s with
  | nil => rfl
  | cons i l ih => rw [List.foldl_cons, ih, h]

/-! ### Fields that an operation leaves alone -/

@[simp] theorem State.setSlot_link (s : State) (i : SlotId) (x : Slot) : (s.setSlot i x).link = s.link := rfl
@[simp] theorem State.setSlot_notices (s : State) (i : SlotId) (x : Slot) : (s.setSlot i x).notices = s.notices := rfl
@[simp] theorem State.setSlot_radio (s : State) (i : SlotId) (x : Slot) : (s.setSlot i x).radio = s.radio := rfl
@[simp] theorem State.setSlot_profiles (s : State) (i : SlotId) (x : Slot) : (s.setSlot i x).profiles = s.profiles :=
  rfl
@[simp] theorem State.setSlot_call (s : State) (i : SlotId) (x : Slot) : (s.setSlot i x).call = s.call := rfl
@[simp] theorem State.setSlot_rate (s : State) (i : SlotId) (x : Slot) : (s.setSlot i x).rate = s.rate := rfl
@[simp] theorem State.setSlot_limits (s : State) (i : SlotId) (x : Slot) : (s.setSlot i x).limits = s.limits := rfl
@[simp] theorem State.setSlot_mix (s : State) (i : SlotId) (x : Slot) : (s.setSlot i x).mix = s.mix := rfl
@[simp] theorem State.setSlot_talk (s : State) (i : SlotId) (x : Slot) : (s.setSlot i x).talk = s.talk := rfl
@[simp] theorem State.setSlot_prompt (s : State) (i : SlotId) (x : Slot) : (s.setSlot i x).prompt = s.prompt := rfl
@[simp] theorem State.setSlot_capture (s : State) (i : SlotId) (x : Slot) : (s.setSlot i x).capture = s.capture := rfl
@[simp] theorem State.setSlot_resetHeld (s : State) (i : SlotId) (x : Slot) :
    (s.setSlot i x).resetHeld = s.resetHeld := rfl
@[simp] theorem State.setSlot_pending (s : State) (i : SlotId) (x : Slot) : (s.setSlot i x).pending = s.pending := rfl

@[simp] theorem State.modSlot_link (s : State) (i : SlotId) (f : Slot → Slot) : (s.modSlot i f).link = s.link := rfl
@[simp] theorem State.modSlot_notices (s : State) (i : SlotId) (f : Slot → Slot) :
    (s.modSlot i f).notices = s.notices := rfl
@[simp] theorem State.modSlot_radio (s : State) (i : SlotId) (f : Slot → Slot) : (s.modSlot i f).radio = s.radio :=
  rfl
@[simp] theorem State.modSlot_profiles (s : State) (i : SlotId) (f : Slot → Slot) :
    (s.modSlot i f).profiles = s.profiles := rfl
@[simp] theorem State.modSlot_call (s : State) (i : SlotId) (f : Slot → Slot) : (s.modSlot i f).call = s.call := rfl
@[simp] theorem State.modSlot_rate (s : State) (i : SlotId) (f : Slot → Slot) : (s.modSlot i f).rate = s.rate := rfl
@[simp] theorem State.modSlot_limits (s : State) (i : SlotId) (f : Slot → Slot) : (s.modSlot i f).limits = s.limits :=
  rfl
@[simp] theorem State.modSlot_mix (s : State) (i : SlotId) (f : Slot → Slot) : (s.modSlot i f).mix = s.mix := rfl
@[simp] theorem State.modSlot_talk (s : State) (i : SlotId) (f : Slot → Slot) : (s.modSlot i f).talk = s.talk := rfl
@[simp] theorem State.modSlot_prompt (s : State) (i : SlotId) (f : Slot → Slot) : (s.modSlot i f).prompt = s.prompt :=
  rfl
@[simp] theorem State.modSlot_capture (s : State) (i : SlotId) (f : Slot → Slot) :
    (s.modSlot i f).capture = s.capture := rfl
@[simp] theorem State.modSlot_resetHeld (s : State) (i : SlotId) (f : Slot → Slot) :
    (s.modSlot i f).resetHeld = s.resetHeld := rfl
@[simp] theorem State.modSlot_pending (s : State) (i : SlotId) (f : Slot → Slot) :
    (s.modSlot i f).pending = s.pending := rfl

@[simp] theorem State.count_link (s : State) (i : SlotId) (f : Stats → Stats) : (s.count i f).link = s.link := rfl
@[simp] theorem State.count_notices (s : State) (i : SlotId) (f : Stats → Stats) :
    (s.count i f).notices = s.notices := rfl
@[simp] theorem State.count_radio (s : State) (i : SlotId) (f : Stats → Stats) : (s.count i f).radio = s.radio := rfl
@[simp] theorem State.count_profiles (s : State) (i : SlotId) (f : Stats → Stats) :
    (s.count i f).profiles = s.profiles := rfl
@[simp] theorem State.count_call (s : State) (i : SlotId) (f : Stats → Stats) : (s.count i f).call = s.call := rfl
@[simp] theorem State.count_rate (s : State) (i : SlotId) (f : Stats → Stats) : (s.count i f).rate = s.rate := rfl
@[simp] theorem State.count_limits (s : State) (i : SlotId) (f : Stats → Stats) : (s.count i f).limits = s.limits :=
  rfl
@[simp] theorem State.count_mix (s : State) (i : SlotId) (f : Stats → Stats) : (s.count i f).mix = s.mix := rfl
@[simp] theorem State.count_talk (s : State) (i : SlotId) (f : Stats → Stats) : (s.count i f).talk = s.talk := rfl
@[simp] theorem State.count_prompt (s : State) (i : SlotId) (f : Stats → Stats) : (s.count i f).prompt = s.prompt :=
  rfl
@[simp] theorem State.count_capture (s : State) (i : SlotId) (f : Stats → Stats) :
    (s.count i f).capture = s.capture := rfl
@[simp] theorem State.count_resetHeld (s : State) (i : SlotId) (f : Stats → Stats) :
    (s.count i f).resetHeld = s.resetHeld := rfl
@[simp] theorem State.count_pending (s : State) (i : SlotId) (f : Stats → Stats) :
    (s.count i f).pending = s.pending := rfl

@[simp] theorem State.raise_link (s : State) (b : NoticeBody) : (s.raise b).link = s.link := rfl
@[simp] theorem State.raise_radio (s : State) (b : NoticeBody) : (s.raise b).radio = s.radio := rfl
@[simp] theorem State.raise_profiles (s : State) (b : NoticeBody) : (s.raise b).profiles = s.profiles := rfl
@[simp] theorem State.raise_slots (s : State) (b : NoticeBody) : (s.raise b).slots = s.slots := rfl
@[simp] theorem State.raise_call (s : State) (b : NoticeBody) : (s.raise b).call = s.call := rfl
@[simp] theorem State.raise_rate (s : State) (b : NoticeBody) : (s.raise b).rate = s.rate := rfl
@[simp] theorem State.raise_limits (s : State) (b : NoticeBody) : (s.raise b).limits = s.limits := rfl
@[simp] theorem State.raise_mix (s : State) (b : NoticeBody) : (s.raise b).mix = s.mix := rfl
@[simp] theorem State.raise_talk (s : State) (b : NoticeBody) : (s.raise b).talk = s.talk := rfl
@[simp] theorem State.raise_prompt (s : State) (b : NoticeBody) : (s.raise b).prompt = s.prompt := rfl
@[simp] theorem State.raise_capture (s : State) (b : NoticeBody) : (s.raise b).capture = s.capture := rfl
@[simp] theorem State.raise_resetHeld (s : State) (b : NoticeBody) : (s.raise b).resetHeld = s.resetHeld := rfl
@[simp] theorem State.raise_pending (s : State) (b : NoticeBody) : (s.raise b).pending = s.pending := rfl
@[simp] theorem State.raise_notices_mask (s : State) (b : NoticeBody) : (s.raise b).notices.mask = s.notices.mask :=
  rfl
@[simp] theorem State.raise_slot (s : State) (b : NoticeBody) (j : SlotId) : (s.raise b).slot j = s.slot j := rfl

@[simp] theorem State.raiseSlot_link (s : State) (i : SlotId) (r : SlotReason) (h : Option Handle) (l : Option Byte) :
    (s.raiseSlot i r h l).link = s.link := rfl
@[simp] theorem State.raiseSlot_radio (s : State) (i : SlotId) (r : SlotReason) (h : Option Handle) (l : Option Byte) :
    (s.raiseSlot i r h l).radio = s.radio := rfl
@[simp] theorem State.raiseSlot_profiles (s : State) (i : SlotId) (r : SlotReason) (h : Option Handle) (l : Option Byte) :
    (s.raiseSlot i r h l).profiles = s.profiles := rfl
@[simp] theorem State.raiseSlot_slots (s : State) (i : SlotId) (r : SlotReason) (h : Option Handle) (l : Option Byte) :
    (s.raiseSlot i r h l).slots = s.slots := rfl
@[simp] theorem State.raiseSlot_call (s : State) (i : SlotId) (r : SlotReason) (h : Option Handle) (l : Option Byte) :
    (s.raiseSlot i r h l).call = s.call := rfl
@[simp] theorem State.raiseSlot_rate (s : State) (i : SlotId) (r : SlotReason) (h : Option Handle) (l : Option Byte) :
    (s.raiseSlot i r h l).rate = s.rate := rfl
@[simp] theorem State.raiseSlot_limits (s : State) (i : SlotId) (r : SlotReason) (h : Option Handle) (l : Option Byte) :
    (s.raiseSlot i r h l).limits = s.limits := rfl
@[simp] theorem State.raiseSlot_mix (s : State) (i : SlotId) (r : SlotReason) (h : Option Handle) (l : Option Byte) :
    (s.raiseSlot i r h l).mix = s.mix := rfl
@[simp] theorem State.raiseSlot_talk (s : State) (i : SlotId) (r : SlotReason) (h : Option Handle) (l : Option Byte) :
    (s.raiseSlot i r h l).talk = s.talk := rfl
@[simp] theorem State.raiseSlot_prompt (s : State) (i : SlotId) (r : SlotReason) (h : Option Handle) (l : Option Byte) :
    (s.raiseSlot i r h l).prompt = s.prompt := rfl
@[simp] theorem State.raiseSlot_capture (s : State) (i : SlotId) (r : SlotReason) (h : Option Handle) (l : Option Byte) :
    (s.raiseSlot i r h l).capture = s.capture := rfl
@[simp] theorem State.raiseSlot_resetHeld (s : State) (i : SlotId) (r : SlotReason) (h : Option Handle) (l : Option Byte) :
    (s.raiseSlot i r h l).resetHeld = s.resetHeld := rfl
@[simp] theorem State.raiseSlot_pending (s : State) (i : SlotId) (r : SlotReason) (h : Option Handle) (l : Option Byte) :
    (s.raiseSlot i r h l).pending = s.pending := rfl
@[simp] theorem State.raiseSlot_notices_mask (s : State) (i : SlotId) (r : SlotReason) (h : Option Handle) (l : Option Byte) :
    (s.raiseSlot i r h l).notices.mask = s.notices.mask := rfl
@[simp] theorem State.raiseSlot_slot (s : State) (i : SlotId) (r : SlotReason) (h : Option Handle) (l : Option Byte) (j : SlotId) :
    (s.raiseSlot i r h l).slot j = s.slot j := rfl

@[simp] theorem State.send_link (s : State) (m : RadioOut) : (s.send m).link = s.link := rfl
@[simp] theorem State.send_notices (s : State) (m : RadioOut) : (s.send m).notices = s.notices := rfl
@[simp] theorem State.send_profiles (s : State) (m : RadioOut) : (s.send m).profiles = s.profiles := rfl
@[simp] theorem State.send_slots (s : State) (m : RadioOut) : (s.send m).slots = s.slots := rfl
@[simp] theorem State.send_call (s : State) (m : RadioOut) : (s.send m).call = s.call := rfl
@[simp] theorem State.send_rate (s : State) (m : RadioOut) : (s.send m).rate = s.rate := rfl
@[simp] theorem State.send_limits (s : State) (m : RadioOut) : (s.send m).limits = s.limits := rfl
@[simp] theorem State.send_mix (s : State) (m : RadioOut) : (s.send m).mix = s.mix := rfl
@[simp] theorem State.send_talk (s : State) (m : RadioOut) : (s.send m).talk = s.talk := rfl
@[simp] theorem State.send_prompt (s : State) (m : RadioOut) : (s.send m).prompt = s.prompt := rfl
@[simp] theorem State.send_capture (s : State) (m : RadioOut) : (s.send m).capture = s.capture := rfl
@[simp] theorem State.send_resetHeld (s : State) (m : RadioOut) : (s.send m).resetHeld = s.resetHeld := rfl
@[simp] theorem State.send_pending (s : State) (m : RadioOut) : (s.send m).pending = s.pending := rfl
@[simp] theorem State.send_radio_pendingLinks (s : State) (m : RadioOut) :
    (s.send m).radio.pendingLinks = s.radio.pendingLinks := rfl
@[simp] theorem State.send_radio_line (s : State) (m : RadioOut) : (s.send m).radio.line = s.radio.line := rfl
@[simp] theorem State.send_slot (s : State) (m : RadioOut) (j : SlotId) : (s.send m).slot j = s.slot j := rfl

@[simp] theorem State.setPendingLinks_link (s : State) (l : List PendingLink) : (s.setPendingLinks l).link = s.link :=
  rfl
@[simp] theorem State.setPendingLinks_notices (s : State) (l : List PendingLink) :
    (s.setPendingLinks l).notices = s.notices := rfl
@[simp] theorem State.setPendingLinks_profiles (s : State) (l : List PendingLink) :
    (s.setPendingLinks l).profiles = s.profiles := rfl
@[simp] theorem State.setPendingLinks_slots (s : State) (l : List PendingLink) :
    (s.setPendingLinks l).slots = s.slots := rfl
@[simp] theorem State.setPendingLinks_call (s : State) (l : List PendingLink) : (s.setPendingLinks l).call = s.call :=
  rfl
@[simp] theorem State.setPendingLinks_rate (s : State) (l : List PendingLink) : (s.setPendingLinks l).rate = s.rate :=
  rfl
@[simp] theorem State.setPendingLinks_limits (s : State) (l : List PendingLink) :
    (s.setPendingLinks l).limits = s.limits := rfl
@[simp] theorem State.setPendingLinks_mix (s : State) (l : List PendingLink) : (s.setPendingLinks l).mix = s.mix :=
  rfl
@[simp] theorem State.setPendingLinks_talk (s : State) (l : List PendingLink) : (s.setPendingLinks l).talk = s.talk :=
  rfl
@[simp] theorem State.setPendingLinks_prompt (s : State) (l : List PendingLink) :
    (s.setPendingLinks l).prompt = s.prompt := rfl
@[simp] theorem State.setPendingLinks_capture (s : State) (l : List PendingLink) :
    (s.setPendingLinks l).capture = s.capture := rfl
@[simp] theorem State.setPendingLinks_resetHeld (s : State) (l : List PendingLink) :
    (s.setPendingLinks l).resetHeld = s.resetHeld := rfl
@[simp] theorem State.setPendingLinks_pending (s : State) (l : List PendingLink) :
    (s.setPendingLinks l).pending = s.pending := rfl
@[simp] theorem State.setPendingLinks_radio_outgoing (s : State) (l : List PendingLink) :
    (s.setPendingLinks l).radio.outgoing = s.radio.outgoing := rfl
@[simp] theorem State.setPendingLinks_radio_line (s : State) (l : List PendingLink) :
    (s.setPendingLinks l).radio.line = s.radio.line := rfl
@[simp] theorem State.setPendingLinks_slot (s : State) (l : List PendingLink) (j : SlotId) :
    (s.setPendingLinks l).slot j = s.slot j := rfl

@[simp] theorem State.dropPending_link (s : State) (h : Handle) : (s.dropPending h).link = s.link := rfl
@[simp] theorem State.dropPending_notices (s : State) (h : Handle) : (s.dropPending h).notices = s.notices := rfl
@[simp] theorem State.dropPending_profiles (s : State) (h : Handle) : (s.dropPending h).profiles = s.profiles := rfl
@[simp] theorem State.dropPending_slots (s : State) (h : Handle) : (s.dropPending h).slots = s.slots := rfl
@[simp] theorem State.dropPending_call (s : State) (h : Handle) : (s.dropPending h).call = s.call := rfl
@[simp] theorem State.dropPending_rate (s : State) (h : Handle) : (s.dropPending h).rate = s.rate := rfl
@[simp] theorem State.dropPending_limits (s : State) (h : Handle) : (s.dropPending h).limits = s.limits := rfl
@[simp] theorem State.dropPending_mix (s : State) (h : Handle) : (s.dropPending h).mix = s.mix := rfl
@[simp] theorem State.dropPending_talk (s : State) (h : Handle) : (s.dropPending h).talk = s.talk := rfl
@[simp] theorem State.dropPending_prompt (s : State) (h : Handle) : (s.dropPending h).prompt = s.prompt := rfl
@[simp] theorem State.dropPending_capture (s : State) (h : Handle) : (s.dropPending h).capture = s.capture := rfl
@[simp] theorem State.dropPending_resetHeld (s : State) (h : Handle) : (s.dropPending h).resetHeld = s.resetHeld :=
  rfl
@[simp] theorem State.dropPending_pending (s : State) (h : Handle) : (s.dropPending h).pending = s.pending := rfl
@[simp] theorem State.dropPending_radio_outgoing (s : State) (h : Handle) :
    (s.dropPending h).radio.outgoing = s.radio.outgoing := rfl
@[simp] theorem State.dropPending_radio_line (s : State) (h : Handle) : (s.dropPending h).radio.line = s.radio.line :=
  rfl
@[simp] theorem State.dropPending_slot (s : State) (h : Handle) (j : SlotId) : (s.dropPending h).slot j = s.slot j :=
  rfl

@[simp] theorem State.zeroGains_link (s : State) (i : SlotId) : (s.zeroGains i).link = s.link := rfl
@[simp] theorem State.zeroGains_notices (s : State) (i : SlotId) : (s.zeroGains i).notices = s.notices := rfl
@[simp] theorem State.zeroGains_radio (s : State) (i : SlotId) : (s.zeroGains i).radio = s.radio := rfl
@[simp] theorem State.zeroGains_profiles (s : State) (i : SlotId) : (s.zeroGains i).profiles = s.profiles := rfl
@[simp] theorem State.zeroGains_slots (s : State) (i : SlotId) : (s.zeroGains i).slots = s.slots := rfl
@[simp] theorem State.zeroGains_call (s : State) (i : SlotId) : (s.zeroGains i).call = s.call := rfl
@[simp] theorem State.zeroGains_rate (s : State) (i : SlotId) : (s.zeroGains i).rate = s.rate := rfl
@[simp] theorem State.zeroGains_limits (s : State) (i : SlotId) : (s.zeroGains i).limits = s.limits := rfl
@[simp] theorem State.zeroGains_talk (s : State) (i : SlotId) : (s.zeroGains i).talk = s.talk := rfl
@[simp] theorem State.zeroGains_prompt (s : State) (i : SlotId) : (s.zeroGains i).prompt = s.prompt := rfl
@[simp] theorem State.zeroGains_capture (s : State) (i : SlotId) : (s.zeroGains i).capture = s.capture := rfl
@[simp] theorem State.zeroGains_resetHeld (s : State) (i : SlotId) : (s.zeroGains i).resetHeld = s.resetHeld := rfl
@[simp] theorem State.zeroGains_pending (s : State) (i : SlotId) : (s.zeroGains i).pending = s.pending := rfl
@[simp] theorem State.zeroGains_mix_targets (s : State) (i : SlotId) : (s.zeroGains i).mix.targets = s.mix.targets :=
  rfl
@[simp] theorem State.zeroGains_mix_period (s : State) (i : SlotId) : (s.zeroGains i).mix.period = s.mix.period := rfl
@[simp] theorem State.zeroGains_slot (s : State) (i : SlotId) (j : SlotId) : (s.zeroGains i).slot j = s.slot j := rfl

@[simp] theorem State.hunt_notices (s : State) : (s.hunt).notices = s.notices := rfl
@[simp] theorem State.hunt_radio (s : State) : (s.hunt).radio = s.radio := rfl
@[simp] theorem State.hunt_profiles (s : State) : (s.hunt).profiles = s.profiles := rfl
@[simp] theorem State.hunt_slots (s : State) : (s.hunt).slots = s.slots := rfl
@[simp] theorem State.hunt_call (s : State) : (s.hunt).call = s.call := rfl
@[simp] theorem State.hunt_rate (s : State) : (s.hunt).rate = s.rate := rfl
@[simp] theorem State.hunt_limits (s : State) : (s.hunt).limits = s.limits := rfl
@[simp] theorem State.hunt_mix (s : State) : (s.hunt).mix = s.mix := rfl
@[simp] theorem State.hunt_talk (s : State) : (s.hunt).talk = s.talk := rfl
@[simp] theorem State.hunt_prompt (s : State) : (s.hunt).prompt = s.prompt := rfl
@[simp] theorem State.hunt_capture (s : State) : (s.hunt).capture = s.capture := rfl
@[simp] theorem State.hunt_resetHeld (s : State) : (s.hunt).resetHeld = s.resetHeld := rfl
@[simp] theorem State.hunt_pending (s : State) : (s.hunt).pending = s.pending := rfl
@[simp] theorem State.hunt_link_replies (s : State) : (s.hunt).link.replies = s.link.replies := rfl
@[simp] theorem State.hunt_link_mode (s : State) : (s.hunt).link.mode = s.link.mode := rfl
@[simp] theorem State.hunt_link_line (s : State) : (s.hunt).link.line = s.link.line := rfl
@[simp] theorem State.hunt_slot (s : State) (j : SlotId) : (s.hunt).slot j = s.slot j := rfl

@[simp] theorem State.reply_notices (s : State) (tag : Byte) (b : ReplyBody) : (s.reply tag b).notices = s.notices :=
  rfl
@[simp] theorem State.reply_radio (s : State) (tag : Byte) (b : ReplyBody) : (s.reply tag b).radio = s.radio := rfl
@[simp] theorem State.reply_profiles (s : State) (tag : Byte) (b : ReplyBody) :
    (s.reply tag b).profiles = s.profiles := rfl
@[simp] theorem State.reply_slots (s : State) (tag : Byte) (b : ReplyBody) : (s.reply tag b).slots = s.slots := rfl
@[simp] theorem State.reply_call (s : State) (tag : Byte) (b : ReplyBody) : (s.reply tag b).call = s.call := rfl
@[simp] theorem State.reply_rate (s : State) (tag : Byte) (b : ReplyBody) : (s.reply tag b).rate = s.rate := rfl
@[simp] theorem State.reply_limits (s : State) (tag : Byte) (b : ReplyBody) : (s.reply tag b).limits = s.limits := rfl
@[simp] theorem State.reply_mix (s : State) (tag : Byte) (b : ReplyBody) : (s.reply tag b).mix = s.mix := rfl
@[simp] theorem State.reply_talk (s : State) (tag : Byte) (b : ReplyBody) : (s.reply tag b).talk = s.talk := rfl
@[simp] theorem State.reply_prompt (s : State) (tag : Byte) (b : ReplyBody) : (s.reply tag b).prompt = s.prompt := rfl
@[simp] theorem State.reply_capture (s : State) (tag : Byte) (b : ReplyBody) : (s.reply tag b).capture = s.capture :=
  rfl
@[simp] theorem State.reply_resetHeld (s : State) (tag : Byte) (b : ReplyBody) :
    (s.reply tag b).resetHeld = s.resetHeld := rfl
@[simp] theorem State.reply_pending (s : State) (tag : Byte) (b : ReplyBody) : (s.reply tag b).pending = s.pending :=
  rfl
@[simp] theorem State.reply_link_receiver (s : State) (tag : Byte) (b : ReplyBody) :
    (s.reply tag b).link.receiver = s.link.receiver := rfl
@[simp] theorem State.reply_link_mode (s : State) (tag : Byte) (b : ReplyBody) :
    (s.reply tag b).link.mode = s.link.mode := rfl
@[simp] theorem State.reply_link_line (s : State) (tag : Byte) (b : ReplyBody) :
    (s.reply tag b).link.line = s.link.line := rfl
@[simp] theorem State.reply_slot (s : State) (tag : Byte) (b : ReplyBody) (j : SlotId) :
    (s.reply tag b).slot j = s.slot j := rfl

@[simp] theorem State.withReceiver_notices (s : State) (r : Receiver) : (s.withReceiver r).notices = s.notices := rfl
@[simp] theorem State.withReceiver_radio (s : State) (r : Receiver) : (s.withReceiver r).radio = s.radio := rfl
@[simp] theorem State.withReceiver_profiles (s : State) (r : Receiver) : (s.withReceiver r).profiles = s.profiles :=
  rfl
@[simp] theorem State.withReceiver_slots (s : State) (r : Receiver) : (s.withReceiver r).slots = s.slots := rfl
@[simp] theorem State.withReceiver_call (s : State) (r : Receiver) : (s.withReceiver r).call = s.call := rfl
@[simp] theorem State.withReceiver_rate (s : State) (r : Receiver) : (s.withReceiver r).rate = s.rate := rfl
@[simp] theorem State.withReceiver_limits (s : State) (r : Receiver) : (s.withReceiver r).limits = s.limits := rfl
@[simp] theorem State.withReceiver_mix (s : State) (r : Receiver) : (s.withReceiver r).mix = s.mix := rfl
@[simp] theorem State.withReceiver_talk (s : State) (r : Receiver) : (s.withReceiver r).talk = s.talk := rfl
@[simp] theorem State.withReceiver_prompt (s : State) (r : Receiver) : (s.withReceiver r).prompt = s.prompt := rfl
@[simp] theorem State.withReceiver_capture (s : State) (r : Receiver) : (s.withReceiver r).capture = s.capture := rfl
@[simp] theorem State.withReceiver_resetHeld (s : State) (r : Receiver) :
    (s.withReceiver r).resetHeld = s.resetHeld := rfl
@[simp] theorem State.withReceiver_pending (s : State) (r : Receiver) : (s.withReceiver r).pending = s.pending := rfl
@[simp] theorem State.withReceiver_link_replies (s : State) (r : Receiver) :
    (s.withReceiver r).link.replies = s.link.replies := rfl
@[simp] theorem State.withReceiver_link_mode (s : State) (r : Receiver) :
    (s.withReceiver r).link.mode = s.link.mode := rfl
@[simp] theorem State.withReceiver_link_line (s : State) (r : Receiver) :
    (s.withReceiver r).link.line = s.link.line := rfl
@[simp] theorem State.withReceiver_slot (s : State) (r : Receiver) (j : SlotId) :
    (s.withReceiver r).slot j = s.slot j := rfl

@[simp] theorem State.setPlayer_link (s : State) (p : Player) : (s.setPlayer p).link = s.link := rfl
@[simp] theorem State.setPlayer_notices (s : State) (p : Player) : (s.setPlayer p).notices = s.notices := rfl
@[simp] theorem State.setPlayer_radio (s : State) (p : Player) : (s.setPlayer p).radio = s.radio := rfl
@[simp] theorem State.setPlayer_profiles (s : State) (p : Player) : (s.setPlayer p).profiles = s.profiles := rfl
@[simp] theorem State.setPlayer_slots (s : State) (p : Player) : (s.setPlayer p).slots = s.slots := rfl
@[simp] theorem State.setPlayer_call (s : State) (p : Player) : (s.setPlayer p).call = s.call := rfl
@[simp] theorem State.setPlayer_rate (s : State) (p : Player) : (s.setPlayer p).rate = s.rate := rfl
@[simp] theorem State.setPlayer_limits (s : State) (p : Player) : (s.setPlayer p).limits = s.limits := rfl
@[simp] theorem State.setPlayer_mix (s : State) (p : Player) : (s.setPlayer p).mix = s.mix := rfl
@[simp] theorem State.setPlayer_talk (s : State) (p : Player) : (s.setPlayer p).talk = s.talk := rfl
@[simp] theorem State.setPlayer_capture (s : State) (p : Player) : (s.setPlayer p).capture = s.capture := rfl
@[simp] theorem State.setPlayer_resetHeld (s : State) (p : Player) : (s.setPlayer p).resetHeld = s.resetHeld := rfl
@[simp] theorem State.setPlayer_pending (s : State) (p : Player) : (s.setPlayer p).pending = s.pending := rfl
@[simp] theorem State.setPlayer_prompt_memory (s : State) (p : Player) :
    (s.setPlayer p).prompt.memory = s.prompt.memory := rfl
@[simp] theorem State.setPlayer_slot (s : State) (p : Player) (j : SlotId) : (s.setPlayer p).slot j = s.slot j := rfl

@[simp] theorem State.openWindow_link (s : State) (i : SlotId) (q : SeqNum) (t : Stamp) :
    (s.openWindow i q t).link = s.link := rfl
@[simp] theorem State.openWindow_notices (s : State) (i : SlotId) (q : SeqNum) (t : Stamp) :
    (s.openWindow i q t).notices = s.notices := rfl
@[simp] theorem State.openWindow_radio (s : State) (i : SlotId) (q : SeqNum) (t : Stamp) :
    (s.openWindow i q t).radio = s.radio := rfl
@[simp] theorem State.openWindow_profiles (s : State) (i : SlotId) (q : SeqNum) (t : Stamp) :
    (s.openWindow i q t).profiles = s.profiles := rfl
@[simp] theorem State.openWindow_call (s : State) (i : SlotId) (q : SeqNum) (t : Stamp) :
    (s.openWindow i q t).call = s.call := rfl
@[simp] theorem State.openWindow_rate (s : State) (i : SlotId) (q : SeqNum) (t : Stamp) :
    (s.openWindow i q t).rate = s.rate := rfl
@[simp] theorem State.openWindow_limits (s : State) (i : SlotId) (q : SeqNum) (t : Stamp) :
    (s.openWindow i q t).limits = s.limits := rfl
@[simp] theorem State.openWindow_mix (s : State) (i : SlotId) (q : SeqNum) (t : Stamp) :
    (s.openWindow i q t).mix = s.mix := rfl
@[simp] theorem State.openWindow_talk (s : State) (i : SlotId) (q : SeqNum) (t : Stamp) :
    (s.openWindow i q t).talk = s.talk := rfl
@[simp] theorem State.openWindow_prompt (s : State) (i : SlotId) (q : SeqNum) (t : Stamp) :
    (s.openWindow i q t).prompt = s.prompt := rfl
@[simp] theorem State.openWindow_capture (s : State) (i : SlotId) (q : SeqNum) (t : Stamp) :
    (s.openWindow i q t).capture = s.capture := rfl
@[simp] theorem State.openWindow_resetHeld (s : State) (i : SlotId) (q : SeqNum) (t : Stamp) :
    (s.openWindow i q t).resetHeld = s.resetHeld := rfl
@[simp] theorem State.openWindow_pending (s : State) (i : SlotId) (q : SeqNum) (t : Stamp) :
    (s.openWindow i q t).pending = s.pending := rfl

@[simp] theorem State.countPeriod_link (s : State) : (s.countPeriod).link = s.link := rfl
@[simp] theorem State.countPeriod_notices (s : State) : (s.countPeriod).notices = s.notices := rfl
@[simp] theorem State.countPeriod_radio (s : State) : (s.countPeriod).radio = s.radio := rfl
@[simp] theorem State.countPeriod_profiles (s : State) : (s.countPeriod).profiles = s.profiles := rfl
@[simp] theorem State.countPeriod_slots (s : State) : (s.countPeriod).slots = s.slots := rfl
@[simp] theorem State.countPeriod_call (s : State) : (s.countPeriod).call = s.call := rfl
@[simp] theorem State.countPeriod_rate (s : State) : (s.countPeriod).rate = s.rate := rfl
@[simp] theorem State.countPeriod_limits (s : State) : (s.countPeriod).limits = s.limits := rfl
@[simp] theorem State.countPeriod_talk (s : State) : (s.countPeriod).talk = s.talk := rfl
@[simp] theorem State.countPeriod_prompt (s : State) : (s.countPeriod).prompt = s.prompt := rfl
@[simp] theorem State.countPeriod_capture (s : State) : (s.countPeriod).capture = s.capture := rfl
@[simp] theorem State.countPeriod_resetHeld (s : State) : (s.countPeriod).resetHeld = s.resetHeld := rfl
@[simp] theorem State.countPeriod_pending (s : State) : (s.countPeriod).pending = s.pending := rfl
@[simp] theorem State.countPeriod_mix_targets (s : State) : (s.countPeriod).mix.targets = s.mix.targets := rfl
@[simp] theorem State.countPeriod_mix_applied (s : State) : (s.countPeriod).mix.applied = s.mix.applied := rfl
@[simp] theorem State.countPeriod_slot (s : State) (j : SlotId) : (s.countPeriod).slot j = s.slot j := rfl

@[simp] theorem State.anomaly_link (s : State) (k : AnomalyKind) (i : Option SlotId) (h : Option Handle) (m : Option (SeqNum × Stamp)) :
    (s.anomaly k i h m).link = s.link := by unfold State.anomaly; split <;> rfl
@[simp] theorem State.anomaly_radio (s : State) (k : AnomalyKind) (i : Option SlotId) (h : Option Handle) (m : Option (SeqNum × Stamp)) :
    (s.anomaly k i h m).radio = s.radio := by unfold State.anomaly; split <;> rfl
@[simp] theorem State.anomaly_profiles (s : State) (k : AnomalyKind) (i : Option SlotId) (h : Option Handle) (m : Option (SeqNum × Stamp)) :
    (s.anomaly k i h m).profiles = s.profiles := by unfold State.anomaly; split <;> rfl
@[simp] theorem State.anomaly_slots (s : State) (k : AnomalyKind) (i : Option SlotId) (h : Option Handle) (m : Option (SeqNum × Stamp)) :
    (s.anomaly k i h m).slots = s.slots := by unfold State.anomaly; split <;> rfl
@[simp] theorem State.anomaly_call (s : State) (k : AnomalyKind) (i : Option SlotId) (h : Option Handle) (m : Option (SeqNum × Stamp)) :
    (s.anomaly k i h m).call = s.call := by unfold State.anomaly; split <;> rfl
@[simp] theorem State.anomaly_rate (s : State) (k : AnomalyKind) (i : Option SlotId) (h : Option Handle) (m : Option (SeqNum × Stamp)) :
    (s.anomaly k i h m).rate = s.rate := by unfold State.anomaly; split <;> rfl
@[simp] theorem State.anomaly_limits (s : State) (k : AnomalyKind) (i : Option SlotId) (h : Option Handle) (m : Option (SeqNum × Stamp)) :
    (s.anomaly k i h m).limits = s.limits := by unfold State.anomaly; split <;> rfl
@[simp] theorem State.anomaly_mix (s : State) (k : AnomalyKind) (i : Option SlotId) (h : Option Handle) (m : Option (SeqNum × Stamp)) :
    (s.anomaly k i h m).mix = s.mix := by unfold State.anomaly; split <;> rfl
@[simp] theorem State.anomaly_talk (s : State) (k : AnomalyKind) (i : Option SlotId) (h : Option Handle) (m : Option (SeqNum × Stamp)) :
    (s.anomaly k i h m).talk = s.talk := by unfold State.anomaly; split <;> rfl
@[simp] theorem State.anomaly_prompt (s : State) (k : AnomalyKind) (i : Option SlotId) (h : Option Handle) (m : Option (SeqNum × Stamp)) :
    (s.anomaly k i h m).prompt = s.prompt := by unfold State.anomaly; split <;> rfl
@[simp] theorem State.anomaly_resetHeld (s : State) (k : AnomalyKind) (i : Option SlotId) (h : Option Handle) (m : Option (SeqNum × Stamp)) :
    (s.anomaly k i h m).resetHeld = s.resetHeld := by unfold State.anomaly; split <;> rfl
@[simp] theorem State.anomaly_pending (s : State) (k : AnomalyKind) (i : Option SlotId) (h : Option Handle) (m : Option (SeqNum × Stamp)) :
    (s.anomaly k i h m).pending = s.pending := by unfold State.anomaly; split <;> rfl
@[simp] theorem State.anomaly_notices_mask (s : State) (k : AnomalyKind) (i : Option SlotId) (h : Option Handle) (m : Option (SeqNum × Stamp)) :
    (s.anomaly k i h m).notices.mask = s.notices.mask := by unfold State.anomaly; split <;> rfl
@[simp] theorem State.anomaly_slot (s : State) (k : AnomalyKind) (i : Option SlotId) (h : Option Handle) (m : Option (SeqNum × Stamp)) (j : SlotId) :
    (s.anomaly k i h m).slot j = s.slot j := by
  rw [State.slot, State.anomaly_slots, State.slot]

@[simp] theorem State.badRadioFrame_link (s : State) : (s.badRadioFrame).link = s.link :=
  by simp [State.badRadioFrame]
@[simp] theorem State.badRadioFrame_radio (s : State) : (s.badRadioFrame).radio = s.radio :=
  by simp [State.badRadioFrame]
@[simp] theorem State.badRadioFrame_profiles (s : State) : (s.badRadioFrame).profiles = s.profiles :=
  by simp [State.badRadioFrame]
@[simp] theorem State.badRadioFrame_slots (s : State) : (s.badRadioFrame).slots = s.slots :=
  by simp [State.badRadioFrame]
@[simp] theorem State.badRadioFrame_call (s : State) : (s.badRadioFrame).call = s.call :=
  by simp [State.badRadioFrame]
@[simp] theorem State.badRadioFrame_rate (s : State) : (s.badRadioFrame).rate = s.rate :=
  by simp [State.badRadioFrame]
@[simp] theorem State.badRadioFrame_limits (s : State) : (s.badRadioFrame).limits = s.limits :=
  by simp [State.badRadioFrame]
@[simp] theorem State.badRadioFrame_mix (s : State) : (s.badRadioFrame).mix = s.mix := by simp [State.badRadioFrame]
@[simp] theorem State.badRadioFrame_talk (s : State) : (s.badRadioFrame).talk = s.talk :=
  by simp [State.badRadioFrame]
@[simp] theorem State.badRadioFrame_prompt (s : State) : (s.badRadioFrame).prompt = s.prompt :=
  by simp [State.badRadioFrame]
@[simp] theorem State.badRadioFrame_resetHeld (s : State) : (s.badRadioFrame).resetHeld = s.resetHeld :=
  by simp [State.badRadioFrame]
@[simp] theorem State.badRadioFrame_pending (s : State) : (s.badRadioFrame).pending = s.pending :=
  by simp [State.badRadioFrame]
@[simp] theorem State.badRadioFrame_notices_mask (s : State) : (s.badRadioFrame).notices.mask = s.notices.mask :=
  by simp [State.badRadioFrame]
@[simp] theorem State.badRadioFrame_slot (s : State) (j : SlotId) : (s.badRadioFrame).slot j = s.slot j := by
  rw [State.slot, State.badRadioFrame_slots, State.slot]

@[simp] theorem State.slotAnomaly_link (s : State) (o : Bool) (k : AnomalyKind) (i : SlotId) (m : Option (SeqNum × Stamp)) :
    (s.slotAnomaly o k i m).link = s.link := by unfold State.slotAnomaly; split <;> simp
@[simp] theorem State.slotAnomaly_radio (s : State) (o : Bool) (k : AnomalyKind) (i : SlotId) (m : Option (SeqNum × Stamp)) :
    (s.slotAnomaly o k i m).radio = s.radio := by unfold State.slotAnomaly; split <;> simp
@[simp] theorem State.slotAnomaly_profiles (s : State) (o : Bool) (k : AnomalyKind) (i : SlotId) (m : Option (SeqNum × Stamp)) :
    (s.slotAnomaly o k i m).profiles = s.profiles := by unfold State.slotAnomaly; split <;> simp
@[simp] theorem State.slotAnomaly_slots (s : State) (o : Bool) (k : AnomalyKind) (i : SlotId) (m : Option (SeqNum × Stamp)) :
    (s.slotAnomaly o k i m).slots = s.slots := by unfold State.slotAnomaly; split <;> simp
@[simp] theorem State.slotAnomaly_call (s : State) (o : Bool) (k : AnomalyKind) (i : SlotId) (m : Option (SeqNum × Stamp)) :
    (s.slotAnomaly o k i m).call = s.call := by unfold State.slotAnomaly; split <;> simp
@[simp] theorem State.slotAnomaly_rate (s : State) (o : Bool) (k : AnomalyKind) (i : SlotId) (m : Option (SeqNum × Stamp)) :
    (s.slotAnomaly o k i m).rate = s.rate := by unfold State.slotAnomaly; split <;> simp
@[simp] theorem State.slotAnomaly_limits (s : State) (o : Bool) (k : AnomalyKind) (i : SlotId) (m : Option (SeqNum × Stamp)) :
    (s.slotAnomaly o k i m).limits = s.limits := by unfold State.slotAnomaly; split <;> simp
@[simp] theorem State.slotAnomaly_mix (s : State) (o : Bool) (k : AnomalyKind) (i : SlotId) (m : Option (SeqNum × Stamp)) :
    (s.slotAnomaly o k i m).mix = s.mix := by unfold State.slotAnomaly; split <;> simp
@[simp] theorem State.slotAnomaly_talk (s : State) (o : Bool) (k : AnomalyKind) (i : SlotId) (m : Option (SeqNum × Stamp)) :
    (s.slotAnomaly o k i m).talk = s.talk := by unfold State.slotAnomaly; split <;> simp
@[simp] theorem State.slotAnomaly_prompt (s : State) (o : Bool) (k : AnomalyKind) (i : SlotId) (m : Option (SeqNum × Stamp)) :
    (s.slotAnomaly o k i m).prompt = s.prompt := by unfold State.slotAnomaly; split <;> simp
@[simp] theorem State.slotAnomaly_resetHeld (s : State) (o : Bool) (k : AnomalyKind) (i : SlotId) (m : Option (SeqNum × Stamp)) :
    (s.slotAnomaly o k i m).resetHeld = s.resetHeld := by unfold State.slotAnomaly; split <;> simp
@[simp] theorem State.slotAnomaly_pending (s : State) (o : Bool) (k : AnomalyKind) (i : SlotId) (m : Option (SeqNum × Stamp)) :
    (s.slotAnomaly o k i m).pending = s.pending := by unfold State.slotAnomaly; split <;> simp
@[simp] theorem State.slotAnomaly_notices_mask (s : State) (o : Bool) (k : AnomalyKind) (i : SlotId) (m : Option (SeqNum × Stamp)) :
    (s.slotAnomaly o k i m).notices.mask = s.notices.mask := by unfold State.slotAnomaly; split <;> simp
@[simp] theorem State.slotAnomaly_slot (s : State) (o : Bool) (k : AnomalyKind) (i : SlotId) (m : Option (SeqNum × Stamp)) (j : SlotId) :
    (s.slotAnomaly o k i m).slot j = s.slot j := by
  rw [State.slot, State.slotAnomaly_slots, State.slot]

@[simp] theorem State.release_link (s : State) (h : Option Handle) : (s.release h).link = s.link := by cases h <;> rfl
@[simp] theorem State.release_notices (s : State) (h : Option Handle) : (s.release h).notices = s.notices :=
  by cases h <;> rfl
@[simp] theorem State.release_profiles (s : State) (h : Option Handle) : (s.release h).profiles = s.profiles :=
  by cases h <;> rfl
@[simp] theorem State.release_slots (s : State) (h : Option Handle) : (s.release h).slots = s.slots :=
  by cases h <;> rfl
@[simp] theorem State.release_call (s : State) (h : Option Handle) : (s.release h).call = s.call := by cases h <;> rfl
@[simp] theorem State.release_rate (s : State) (h : Option Handle) : (s.release h).rate = s.rate := by cases h <;> rfl
@[simp] theorem State.release_limits (s : State) (h : Option Handle) : (s.release h).limits = s.limits :=
  by cases h <;> rfl
@[simp] theorem State.release_mix (s : State) (h : Option Handle) : (s.release h).mix = s.mix := by cases h <;> rfl
@[simp] theorem State.release_talk (s : State) (h : Option Handle) : (s.release h).talk = s.talk := by cases h <;> rfl
@[simp] theorem State.release_prompt (s : State) (h : Option Handle) : (s.release h).prompt = s.prompt :=
  by cases h <;> rfl
@[simp] theorem State.release_capture (s : State) (h : Option Handle) : (s.release h).capture = s.capture :=
  by cases h <;> rfl
@[simp] theorem State.release_resetHeld (s : State) (h : Option Handle) : (s.release h).resetHeld = s.resetHeld :=
  by cases h <;> rfl
@[simp] theorem State.release_pending (s : State) (h : Option Handle) : (s.release h).pending = s.pending :=
  by cases h <;> rfl
@[simp] theorem State.release_radio_pendingLinks (s : State) (h : Option Handle) :
    (s.release h).radio.pendingLinks = s.radio.pendingLinks := by cases h <;> rfl
@[simp] theorem State.release_radio_line (s : State) (h : Option Handle) : (s.release h).radio.line = s.radio.line :=
  by cases h <;> rfl
@[simp] theorem State.release_slot (s : State) (h : Option Handle) (j : SlotId) : (s.release h).slot j = s.slot j := by
  rw [State.slot, State.release_slots, State.slot]

@[simp] theorem State.zeroIfLive_link (s : State) (i : SlotId) (w : SlotState) : (s.zeroIfLive i w).link = s.link :=
  by unfold State.zeroIfLive; split <;> rfl
@[simp] theorem State.zeroIfLive_notices (s : State) (i : SlotId) (w : SlotState) :
    (s.zeroIfLive i w).notices = s.notices := by unfold State.zeroIfLive; split <;> rfl
@[simp] theorem State.zeroIfLive_radio (s : State) (i : SlotId) (w : SlotState) :
    (s.zeroIfLive i w).radio = s.radio := by unfold State.zeroIfLive; split <;> rfl
@[simp] theorem State.zeroIfLive_profiles (s : State) (i : SlotId) (w : SlotState) :
    (s.zeroIfLive i w).profiles = s.profiles := by unfold State.zeroIfLive; split <;> rfl
@[simp] theorem State.zeroIfLive_slots (s : State) (i : SlotId) (w : SlotState) :
    (s.zeroIfLive i w).slots = s.slots := by unfold State.zeroIfLive; split <;> rfl
@[simp] theorem State.zeroIfLive_call (s : State) (i : SlotId) (w : SlotState) : (s.zeroIfLive i w).call = s.call :=
  by unfold State.zeroIfLive; split <;> rfl
@[simp] theorem State.zeroIfLive_rate (s : State) (i : SlotId) (w : SlotState) : (s.zeroIfLive i w).rate = s.rate :=
  by unfold State.zeroIfLive; split <;> rfl
@[simp] theorem State.zeroIfLive_limits (s : State) (i : SlotId) (w : SlotState) :
    (s.zeroIfLive i w).limits = s.limits := by unfold State.zeroIfLive; split <;> rfl
@[simp] theorem State.zeroIfLive_talk (s : State) (i : SlotId) (w : SlotState) : (s.zeroIfLive i w).talk = s.talk :=
  by unfold State.zeroIfLive; split <;> rfl
@[simp] theorem State.zeroIfLive_prompt (s : State) (i : SlotId) (w : SlotState) :
    (s.zeroIfLive i w).prompt = s.prompt := by unfold State.zeroIfLive; split <;> rfl
@[simp] theorem State.zeroIfLive_capture (s : State) (i : SlotId) (w : SlotState) :
    (s.zeroIfLive i w).capture = s.capture := by unfold State.zeroIfLive; split <;> rfl
@[simp] theorem State.zeroIfLive_resetHeld (s : State) (i : SlotId) (w : SlotState) :
    (s.zeroIfLive i w).resetHeld = s.resetHeld := by unfold State.zeroIfLive; split <;> rfl
@[simp] theorem State.zeroIfLive_pending (s : State) (i : SlotId) (w : SlotState) :
    (s.zeroIfLive i w).pending = s.pending := by unfold State.zeroIfLive; split <;> rfl
@[simp] theorem State.zeroIfLive_mix_targets (s : State) (i : SlotId) (w : SlotState) :
    (s.zeroIfLive i w).mix.targets = s.mix.targets := by unfold State.zeroIfLive; split <;> rfl
@[simp] theorem State.zeroIfLive_mix_period (s : State) (i : SlotId) (w : SlotState) :
    (s.zeroIfLive i w).mix.period = s.mix.period := by unfold State.zeroIfLive; split <;> rfl
@[simp] theorem State.zeroIfLive_slot (s : State) (i : SlotId) (w : SlotState) (j : SlotId) :
    (s.zeroIfLive i w).slot j = s.slot j := by
  rw [State.slot, State.zeroIfLive_slots, State.slot]

@[simp] theorem State.vacate_link (s : State) (i : SlotId) : (s.vacate i).link = s.link := by simp [State.vacate]
@[simp] theorem State.vacate_notices (s : State) (i : SlotId) : (s.vacate i).notices = s.notices :=
  by simp [State.vacate]
@[simp] theorem State.vacate_radio (s : State) (i : SlotId) : (s.vacate i).radio = s.radio := by simp [State.vacate]
@[simp] theorem State.vacate_profiles (s : State) (i : SlotId) : (s.vacate i).profiles = s.profiles :=
  by simp [State.vacate]
@[simp] theorem State.vacate_call (s : State) (i : SlotId) : (s.vacate i).call = s.call := by simp [State.vacate]
@[simp] theorem State.vacate_rate (s : State) (i : SlotId) : (s.vacate i).rate = s.rate := by simp [State.vacate]
@[simp] theorem State.vacate_limits (s : State) (i : SlotId) : (s.vacate i).limits = s.limits :=
  by simp [State.vacate]
@[simp] theorem State.vacate_talk (s : State) (i : SlotId) : (s.vacate i).talk = s.talk := by simp [State.vacate]
@[simp] theorem State.vacate_prompt (s : State) (i : SlotId) : (s.vacate i).prompt = s.prompt :=
  by simp [State.vacate]
@[simp] theorem State.vacate_capture (s : State) (i : SlotId) : (s.vacate i).capture = s.capture :=
  by simp [State.vacate]
@[simp] theorem State.vacate_resetHeld (s : State) (i : SlotId) : (s.vacate i).resetHeld = s.resetHeld :=
  by simp [State.vacate]
@[simp] theorem State.vacate_pending (s : State) (i : SlotId) : (s.vacate i).pending = s.pending :=
  by simp [State.vacate]
@[simp] theorem State.vacate_mix_targets (s : State) (i : SlotId) : (s.vacate i).mix.targets = s.mix.targets :=
  by simp [State.vacate]
@[simp] theorem State.vacate_mix_period (s : State) (i : SlotId) : (s.vacate i).mix.period = s.mix.period :=
  by simp [State.vacate]

@[simp] theorem State.lose_link (s : State) (i : SlotId) (h : Option Handle) : (s.lose i h).link = s.link :=
  by simp [State.lose]
@[simp] theorem State.lose_notices (s : State) (i : SlotId) (h : Option Handle) : (s.lose i h).notices = s.notices :=
  by simp [State.lose]
@[simp] theorem State.lose_radio (s : State) (i : SlotId) (h : Option Handle) : (s.lose i h).radio = s.radio :=
  by simp [State.lose]
@[simp] theorem State.lose_profiles (s : State) (i : SlotId) (h : Option Handle) :
    (s.lose i h).profiles = s.profiles := by simp [State.lose]
@[simp] theorem State.lose_call (s : State) (i : SlotId) (h : Option Handle) : (s.lose i h).call = s.call :=
  by simp [State.lose]
@[simp] theorem State.lose_rate (s : State) (i : SlotId) (h : Option Handle) : (s.lose i h).rate = s.rate :=
  by simp [State.lose]
@[simp] theorem State.lose_limits (s : State) (i : SlotId) (h : Option Handle) : (s.lose i h).limits = s.limits :=
  by simp [State.lose]
@[simp] theorem State.lose_talk (s : State) (i : SlotId) (h : Option Handle) : (s.lose i h).talk = s.talk :=
  by simp [State.lose]
@[simp] theorem State.lose_prompt (s : State) (i : SlotId) (h : Option Handle) : (s.lose i h).prompt = s.prompt :=
  by simp [State.lose]
@[simp] theorem State.lose_capture (s : State) (i : SlotId) (h : Option Handle) : (s.lose i h).capture = s.capture :=
  by simp [State.lose]
@[simp] theorem State.lose_resetHeld (s : State) (i : SlotId) (h : Option Handle) :
    (s.lose i h).resetHeld = s.resetHeld := by simp [State.lose]
@[simp] theorem State.lose_pending (s : State) (i : SlotId) (h : Option Handle) : (s.lose i h).pending = s.pending :=
  by simp [State.lose]
@[simp] theorem State.lose_mix_targets (s : State) (i : SlotId) (h : Option Handle) :
    (s.lose i h).mix.targets = s.mix.targets := by simp [State.lose]
@[simp] theorem State.lose_mix_period (s : State) (i : SlotId) (h : Option Handle) :
    (s.lose i h).mix.period = s.mix.period := by simp [State.lose]

@[simp] theorem State.raiseRoles_link (s : State) (w : SlotId → Bool) : (s.raiseRoles w).link = s.link := by
  exact foldl_keeps (fun s => s.link) _ (by intro s i; split <;> simp) _ _
@[simp] theorem State.raiseRoles_radio (s : State) (w : SlotId → Bool) : (s.raiseRoles w).radio = s.radio := by
  exact foldl_keeps (fun s => s.radio) _ (by intro s i; split <;> simp) _ _
@[simp] theorem State.raiseRoles_profiles (s : State) (w : SlotId → Bool) : (s.raiseRoles w).profiles = s.profiles := by
  exact foldl_keeps (fun s => s.profiles) _ (by intro s i; split <;> simp) _ _
@[simp] theorem State.raiseRoles_slots (s : State) (w : SlotId → Bool) : (s.raiseRoles w).slots = s.slots := by
  exact foldl_keeps (fun s => s.slots) _ (by intro s i; split <;> simp) _ _
@[simp] theorem State.raiseRoles_call (s : State) (w : SlotId → Bool) : (s.raiseRoles w).call = s.call := by
  exact foldl_keeps (fun s => s.call) _ (by intro s i; split <;> simp) _ _
@[simp] theorem State.raiseRoles_rate (s : State) (w : SlotId → Bool) : (s.raiseRoles w).rate = s.rate := by
  exact foldl_keeps (fun s => s.rate) _ (by intro s i; split <;> simp) _ _
@[simp] theorem State.raiseRoles_limits (s : State) (w : SlotId → Bool) : (s.raiseRoles w).limits = s.limits := by
  exact foldl_keeps (fun s => s.limits) _ (by intro s i; split <;> simp) _ _
@[simp] theorem State.raiseRoles_mix (s : State) (w : SlotId → Bool) : (s.raiseRoles w).mix = s.mix := by
  exact foldl_keeps (fun s => s.mix) _ (by intro s i; split <;> simp) _ _
@[simp] theorem State.raiseRoles_talk (s : State) (w : SlotId → Bool) : (s.raiseRoles w).talk = s.talk := by
  exact foldl_keeps (fun s => s.talk) _ (by intro s i; split <;> simp) _ _
@[simp] theorem State.raiseRoles_prompt (s : State) (w : SlotId → Bool) : (s.raiseRoles w).prompt = s.prompt := by
  exact foldl_keeps (fun s => s.prompt) _ (by intro s i; split <;> simp) _ _
@[simp] theorem State.raiseRoles_capture (s : State) (w : SlotId → Bool) : (s.raiseRoles w).capture = s.capture := by
  exact foldl_keeps (fun s => s.capture) _ (by intro s i; split <;> simp) _ _
@[simp] theorem State.raiseRoles_resetHeld (s : State) (w : SlotId → Bool) :
    (s.raiseRoles w).resetHeld = s.resetHeld := by
  exact foldl_keeps (fun s => s.resetHeld) _ (by intro s i; split <;> simp) _ _
@[simp] theorem State.raiseRoles_pending (s : State) (w : SlotId → Bool) : (s.raiseRoles w).pending = s.pending := by
  exact foldl_keeps (fun s => s.pending) _ (by intro s i; split <;> simp) _ _
@[simp] theorem State.raiseRoles_notices_mask (s : State) (w : SlotId → Bool) :
    (s.raiseRoles w).notices.mask = s.notices.mask := by
  exact foldl_keeps (fun s => s.notices.mask) _ (by intro s i; split <;> simp) _ _
@[simp] theorem State.raiseRoles_slot (s : State) (w : SlotId → Bool) (j : SlotId) :
    (s.raiseRoles w).slot j = s.slot j := by
  rw [State.slot, State.raiseRoles_slots, State.slot]

@[simp] theorem State.takeLead_link (s : State) (i : SlotId) : (s.takeLead i).link = s.link :=
  by unfold State.takeLead; (repeat' split); all_goals simp
@[simp] theorem State.takeLead_radio (s : State) (i : SlotId) : (s.takeLead i).radio = s.radio :=
  by unfold State.takeLead; (repeat' split); all_goals simp
@[simp] theorem State.takeLead_profiles (s : State) (i : SlotId) : (s.takeLead i).profiles = s.profiles :=
  by unfold State.takeLead; (repeat' split); all_goals simp
@[simp] theorem State.takeLead_call (s : State) (i : SlotId) : (s.takeLead i).call = s.call :=
  by unfold State.takeLead; (repeat' split); all_goals simp
@[simp] theorem State.takeLead_rate (s : State) (i : SlotId) : (s.takeLead i).rate = s.rate :=
  by unfold State.takeLead; (repeat' split); all_goals simp
@[simp] theorem State.takeLead_limits (s : State) (i : SlotId) : (s.takeLead i).limits = s.limits :=
  by unfold State.takeLead; (repeat' split); all_goals simp
@[simp] theorem State.takeLead_mix (s : State) (i : SlotId) : (s.takeLead i).mix = s.mix :=
  by unfold State.takeLead; (repeat' split); all_goals simp
@[simp] theorem State.takeLead_talk (s : State) (i : SlotId) : (s.takeLead i).talk = s.talk :=
  by unfold State.takeLead; (repeat' split); all_goals simp
@[simp] theorem State.takeLead_prompt (s : State) (i : SlotId) : (s.takeLead i).prompt = s.prompt :=
  by unfold State.takeLead; (repeat' split); all_goals simp
@[simp] theorem State.takeLead_capture (s : State) (i : SlotId) : (s.takeLead i).capture = s.capture :=
  by unfold State.takeLead; (repeat' split); all_goals simp
@[simp] theorem State.takeLead_resetHeld (s : State) (i : SlotId) : (s.takeLead i).resetHeld = s.resetHeld :=
  by unfold State.takeLead; (repeat' split); all_goals simp
@[simp] theorem State.takeLead_pending (s : State) (i : SlotId) : (s.takeLead i).pending = s.pending :=
  by unfold State.takeLead; (repeat' split); all_goals simp
@[simp] theorem State.takeLead_notices_mask (s : State) (i : SlotId) : (s.takeLead i).notices.mask = s.notices.mask :=
  by unfold State.takeLead; (repeat' split); all_goals simp

@[simp] theorem State.formPair_link (s : State) (i k : SlotId) : (s.formPair i k).link = s.link :=
  by simp [State.formPair]
@[simp] theorem State.formPair_notices (s : State) (i k : SlotId) : (s.formPair i k).notices = s.notices :=
  by simp [State.formPair]
@[simp] theorem State.formPair_radio (s : State) (i k : SlotId) : (s.formPair i k).radio = s.radio :=
  by simp [State.formPair]
@[simp] theorem State.formPair_profiles (s : State) (i k : SlotId) : (s.formPair i k).profiles = s.profiles :=
  by simp [State.formPair]
@[simp] theorem State.formPair_call (s : State) (i k : SlotId) : (s.formPair i k).call = s.call :=
  by simp [State.formPair]
@[simp] theorem State.formPair_rate (s : State) (i k : SlotId) : (s.formPair i k).rate = s.rate :=
  by simp [State.formPair]
@[simp] theorem State.formPair_limits (s : State) (i k : SlotId) : (s.formPair i k).limits = s.limits :=
  by simp [State.formPair]
@[simp] theorem State.formPair_mix (s : State) (i k : SlotId) : (s.formPair i k).mix = s.mix :=
  by simp [State.formPair]
@[simp] theorem State.formPair_talk (s : State) (i k : SlotId) : (s.formPair i k).talk = s.talk :=
  by simp [State.formPair]
@[simp] theorem State.formPair_prompt (s : State) (i k : SlotId) : (s.formPair i k).prompt = s.prompt :=
  by simp [State.formPair]
@[simp] theorem State.formPair_capture (s : State) (i k : SlotId) : (s.formPair i k).capture = s.capture :=
  by simp [State.formPair]
@[simp] theorem State.formPair_resetHeld (s : State) (i k : SlotId) : (s.formPair i k).resetHeld = s.resetHeld :=
  by simp [State.formPair]
@[simp] theorem State.formPair_pending (s : State) (i k : SlotId) : (s.formPair i k).pending = s.pending :=
  by simp [State.formPair]

@[simp] theorem State.failSlot_link (s : State) (i : SlotId) (r : SlotReason) (l : Option Byte) :
    (s.failSlot i r l).link = s.link := by simp [State.failSlot, State.settlePairs]
@[simp] theorem State.failSlot_radio (s : State) (i : SlotId) (r : SlotReason) (l : Option Byte) :
    (s.failSlot i r l).radio = s.radio := by simp [State.failSlot, State.settlePairs]
@[simp] theorem State.failSlot_profiles (s : State) (i : SlotId) (r : SlotReason) (l : Option Byte) :
    (s.failSlot i r l).profiles = s.profiles := by simp [State.failSlot, State.settlePairs]
@[simp] theorem State.failSlot_call (s : State) (i : SlotId) (r : SlotReason) (l : Option Byte) :
    (s.failSlot i r l).call = s.call := by simp [State.failSlot, State.settlePairs]
@[simp] theorem State.failSlot_rate (s : State) (i : SlotId) (r : SlotReason) (l : Option Byte) :
    (s.failSlot i r l).rate = s.rate := by simp [State.failSlot, State.settlePairs]
@[simp] theorem State.failSlot_limits (s : State) (i : SlotId) (r : SlotReason) (l : Option Byte) :
    (s.failSlot i r l).limits = s.limits := by simp [State.failSlot, State.settlePairs]
@[simp] theorem State.failSlot_talk (s : State) (i : SlotId) (r : SlotReason) (l : Option Byte) :
    (s.failSlot i r l).talk = s.talk := by simp [State.failSlot, State.settlePairs]
@[simp] theorem State.failSlot_prompt (s : State) (i : SlotId) (r : SlotReason) (l : Option Byte) :
    (s.failSlot i r l).prompt = s.prompt := by simp [State.failSlot, State.settlePairs]
@[simp] theorem State.failSlot_capture (s : State) (i : SlotId) (r : SlotReason) (l : Option Byte) :
    (s.failSlot i r l).capture = s.capture := by simp [State.failSlot, State.settlePairs]
@[simp] theorem State.failSlot_resetHeld (s : State) (i : SlotId) (r : SlotReason) (l : Option Byte) :
    (s.failSlot i r l).resetHeld = s.resetHeld := by simp [State.failSlot, State.settlePairs]
@[simp] theorem State.failSlot_pending (s : State) (i : SlotId) (r : SlotReason) (l : Option Byte) :
    (s.failSlot i r l).pending = s.pending := by simp [State.failSlot, State.settlePairs]
@[simp] theorem State.failSlot_mix_targets (s : State) (i : SlotId) (r : SlotReason) (l : Option Byte) :
    (s.failSlot i r l).mix.targets = s.mix.targets := by simp [State.failSlot, State.settlePairs]
@[simp] theorem State.failSlot_mix_period (s : State) (i : SlotId) (r : SlotReason) (l : Option Byte) :
    (s.failSlot i r l).mix.period = s.mix.period := by simp [State.failSlot, State.settlePairs]
@[simp] theorem State.failSlot_notices_mask (s : State) (i : SlotId) (r : SlotReason) (l : Option Byte) :
    (s.failSlot i r l).notices.mask = s.notices.mask := by simp [State.failSlot, State.settlePairs]

@[simp] theorem State.changeSlots_link (s : State) (f : Slot → Slot × Option SlotReason) (b : Option SlotReason) :
    (s.changeSlots f b).link = s.link := by
  simp only [State.changeSlots, State.settlePairs, State.raiseRoles_link]
  rw [foldl_keeps (fun s => s.link) _ (by intro s i; split <;> simp)]
  exact foldl_keeps (fun s => s.link) _ (by intro s i; split <;> simp) _ _
@[simp] theorem State.changeSlots_radio (s : State) (f : Slot → Slot × Option SlotReason) (b : Option SlotReason) :
    (s.changeSlots f b).radio = s.radio := by
  simp only [State.changeSlots, State.settlePairs, State.raiseRoles_radio]
  rw [foldl_keeps (fun s => s.radio) _ (by intro s i; split <;> simp)]
  exact foldl_keeps (fun s => s.radio) _ (by intro s i; split <;> simp) _ _
@[simp] theorem State.changeSlots_profiles (s : State) (f : Slot → Slot × Option SlotReason) (b : Option SlotReason) :
    (s.changeSlots f b).profiles = s.profiles := by
  simp only [State.changeSlots, State.settlePairs, State.raiseRoles_profiles]
  rw [foldl_keeps (fun s => s.profiles) _ (by intro s i; split <;> simp)]
  exact foldl_keeps (fun s => s.profiles) _ (by intro s i; split <;> simp) _ _
@[simp] theorem State.changeSlots_call (s : State) (f : Slot → Slot × Option SlotReason) (b : Option SlotReason) :
    (s.changeSlots f b).call = s.call := by
  simp only [State.changeSlots, State.settlePairs, State.raiseRoles_call]
  rw [foldl_keeps (fun s => s.call) _ (by intro s i; split <;> simp)]
  exact foldl_keeps (fun s => s.call) _ (by intro s i; split <;> simp) _ _
@[simp] theorem State.changeSlots_rate (s : State) (f : Slot → Slot × Option SlotReason) (b : Option SlotReason) :
    (s.changeSlots f b).rate = s.rate := by
  simp only [State.changeSlots, State.settlePairs, State.raiseRoles_rate]
  rw [foldl_keeps (fun s => s.rate) _ (by intro s i; split <;> simp)]
  exact foldl_keeps (fun s => s.rate) _ (by intro s i; split <;> simp) _ _
@[simp] theorem State.changeSlots_limits (s : State) (f : Slot → Slot × Option SlotReason) (b : Option SlotReason) :
    (s.changeSlots f b).limits = s.limits := by
  simp only [State.changeSlots, State.settlePairs, State.raiseRoles_limits]
  rw [foldl_keeps (fun s => s.limits) _ (by intro s i; split <;> simp)]
  exact foldl_keeps (fun s => s.limits) _ (by intro s i; split <;> simp) _ _
@[simp] theorem State.changeSlots_talk (s : State) (f : Slot → Slot × Option SlotReason) (b : Option SlotReason) :
    (s.changeSlots f b).talk = s.talk := by
  simp only [State.changeSlots, State.settlePairs, State.raiseRoles_talk]
  rw [foldl_keeps (fun s => s.talk) _ (by intro s i; split <;> simp)]
  exact foldl_keeps (fun s => s.talk) _ (by intro s i; split <;> simp) _ _
@[simp] theorem State.changeSlots_prompt (s : State) (f : Slot → Slot × Option SlotReason) (b : Option SlotReason) :
    (s.changeSlots f b).prompt = s.prompt := by
  simp only [State.changeSlots, State.settlePairs, State.raiseRoles_prompt]
  rw [foldl_keeps (fun s => s.prompt) _ (by intro s i; split <;> simp)]
  exact foldl_keeps (fun s => s.prompt) _ (by intro s i; split <;> simp) _ _
@[simp] theorem State.changeSlots_capture (s : State) (f : Slot → Slot × Option SlotReason) (b : Option SlotReason) :
    (s.changeSlots f b).capture = s.capture := by
  simp only [State.changeSlots, State.settlePairs, State.raiseRoles_capture]
  rw [foldl_keeps (fun s => s.capture) _ (by intro s i; split <;> simp)]
  exact foldl_keeps (fun s => s.capture) _ (by intro s i; split <;> simp) _ _
@[simp] theorem State.changeSlots_resetHeld (s : State) (f : Slot → Slot × Option SlotReason) (b : Option SlotReason) :
    (s.changeSlots f b).resetHeld = s.resetHeld := by
  simp only [State.changeSlots, State.settlePairs, State.raiseRoles_resetHeld]
  rw [foldl_keeps (fun s => s.resetHeld) _ (by intro s i; split <;> simp)]
  exact foldl_keeps (fun s => s.resetHeld) _ (by intro s i; split <;> simp) _ _
@[simp] theorem State.changeSlots_pending (s : State) (f : Slot → Slot × Option SlotReason) (b : Option SlotReason) :
    (s.changeSlots f b).pending = s.pending := by
  simp only [State.changeSlots, State.settlePairs, State.raiseRoles_pending]
  rw [foldl_keeps (fun s => s.pending) _ (by intro s i; split <;> simp)]
  exact foldl_keeps (fun s => s.pending) _ (by intro s i; split <;> simp) _ _
@[simp] theorem State.changeSlots_mix_targets (s : State) (f : Slot → Slot × Option SlotReason) (b : Option SlotReason) :
    (s.changeSlots f b).mix.targets = s.mix.targets := by
  simp only [State.changeSlots, State.settlePairs, State.raiseRoles_mix]
  rw [foldl_keeps (fun s => s.mix.targets) _ (by intro s i; split <;> simp)]
  exact foldl_keeps (fun s => s.mix.targets) _ (by intro s i; split <;> simp) _ _
@[simp] theorem State.changeSlots_mix_period (s : State) (f : Slot → Slot × Option SlotReason) (b : Option SlotReason) :
    (s.changeSlots f b).mix.period = s.mix.period := by
  simp only [State.changeSlots, State.settlePairs, State.raiseRoles_mix]
  rw [foldl_keeps (fun s => s.mix.period) _ (by intro s i; split <;> simp)]
  exact foldl_keeps (fun s => s.mix.period) _ (by intro s i; split <;> simp) _ _
@[simp] theorem State.changeSlots_notices_mask (s : State) (f : Slot → Slot × Option SlotReason) (b : Option SlotReason) :
    (s.changeSlots f b).notices.mask = s.notices.mask := by
  simp only [State.changeSlots, State.settlePairs, State.raiseRoles_notices_mask]
  rw [foldl_keeps (fun s => s.notices.mask) _ (by intro s i; split <;> simp)]
  exact foldl_keeps (fun s => s.notices.mask) _ (by intro s i; split <;> simp) _ _

@[simp] theorem State.activate_link (s : State) (i : SlotId) : (s.activate i).link = s.link :=
  by simp [State.activate]
@[simp] theorem State.activate_radio (s : State) (i : SlotId) : (s.activate i).radio = s.radio :=
  by simp [State.activate]
@[simp] theorem State.activate_profiles (s : State) (i : SlotId) : (s.activate i).profiles = s.profiles :=
  by simp [State.activate]
@[simp] theorem State.activate_call (s : State) (i : SlotId) : (s.activate i).call = s.call :=
  by simp [State.activate]
@[simp] theorem State.activate_rate (s : State) (i : SlotId) : (s.activate i).rate = s.rate :=
  by simp [State.activate]
@[simp] theorem State.activate_limits (s : State) (i : SlotId) : (s.activate i).limits = s.limits :=
  by simp [State.activate]
@[simp] theorem State.activate_talk (s : State) (i : SlotId) : (s.activate i).talk = s.talk :=
  by simp [State.activate]
@[simp] theorem State.activate_prompt (s : State) (i : SlotId) : (s.activate i).prompt = s.prompt :=
  by simp [State.activate]
@[simp] theorem State.activate_capture (s : State) (i : SlotId) : (s.activate i).capture = s.capture :=
  by simp [State.activate]
@[simp] theorem State.activate_resetHeld (s : State) (i : SlotId) : (s.activate i).resetHeld = s.resetHeld :=
  by simp [State.activate]
@[simp] theorem State.activate_pending (s : State) (i : SlotId) : (s.activate i).pending = s.pending :=
  by simp [State.activate]
@[simp] theorem State.activate_mix_targets (s : State) (i : SlotId) : (s.activate i).mix.targets = s.mix.targets :=
  by simp [State.activate]
@[simp] theorem State.activate_mix_period (s : State) (i : SlotId) : (s.activate i).mix.period = s.mix.period :=
  by simp [State.activate]
@[simp] theorem State.activate_notices_mask (s : State) (i : SlotId) : (s.activate i).notices.mask = s.notices.mask :=
  by simp [State.activate]

@[simp] theorem State.fillTest_link (s : State) (i : SlotId) : (s.fillTest i).link = s.link :=
  by unfold State.fillTest; split <;> simp
@[simp] theorem State.fillTest_radio (s : State) (i : SlotId) : (s.fillTest i).radio = s.radio :=
  by unfold State.fillTest; split <;> simp
@[simp] theorem State.fillTest_profiles (s : State) (i : SlotId) : (s.fillTest i).profiles = s.profiles :=
  by unfold State.fillTest; split <;> simp
@[simp] theorem State.fillTest_call (s : State) (i : SlotId) : (s.fillTest i).call = s.call :=
  by unfold State.fillTest; split <;> simp
@[simp] theorem State.fillTest_rate (s : State) (i : SlotId) : (s.fillTest i).rate = s.rate :=
  by unfold State.fillTest; split <;> simp
@[simp] theorem State.fillTest_limits (s : State) (i : SlotId) : (s.fillTest i).limits = s.limits :=
  by unfold State.fillTest; split <;> simp
@[simp] theorem State.fillTest_talk (s : State) (i : SlotId) : (s.fillTest i).talk = s.talk :=
  by unfold State.fillTest; split <;> simp
@[simp] theorem State.fillTest_prompt (s : State) (i : SlotId) : (s.fillTest i).prompt = s.prompt :=
  by unfold State.fillTest; split <;> simp
@[simp] theorem State.fillTest_capture (s : State) (i : SlotId) : (s.fillTest i).capture = s.capture :=
  by unfold State.fillTest; split <;> simp
@[simp] theorem State.fillTest_resetHeld (s : State) (i : SlotId) : (s.fillTest i).resetHeld = s.resetHeld :=
  by unfold State.fillTest; split <;> simp
@[simp] theorem State.fillTest_pending (s : State) (i : SlotId) : (s.fillTest i).pending = s.pending :=
  by unfold State.fillTest; split <;> simp
@[simp] theorem State.fillTest_mix_targets (s : State) (i : SlotId) : (s.fillTest i).mix.targets = s.mix.targets :=
  by unfold State.fillTest; split <;> simp
@[simp] theorem State.fillTest_mix_period (s : State) (i : SlotId) : (s.fillTest i).mix.period = s.mix.period :=
  by unfold State.fillTest; split <;> simp
@[simp] theorem State.fillTest_notices_mask (s : State) (i : SlotId) : (s.fillTest i).notices.mask = s.notices.mask :=
  by unfold State.fillTest; split <;> simp

@[simp] theorem State.activity_link (s : State) (i : SlotId) : (s.activity i).link = s.link :=
  by unfold State.activity; dsimp only; split <;> simp
@[simp] theorem State.activity_radio (s : State) (i : SlotId) : (s.activity i).radio = s.radio :=
  by unfold State.activity; dsimp only; split <;> simp
@[simp] theorem State.activity_profiles (s : State) (i : SlotId) : (s.activity i).profiles = s.profiles :=
  by unfold State.activity; dsimp only; split <;> simp
@[simp] theorem State.activity_call (s : State) (i : SlotId) : (s.activity i).call = s.call :=
  by unfold State.activity; dsimp only; split <;> simp
@[simp] theorem State.activity_rate (s : State) (i : SlotId) : (s.activity i).rate = s.rate :=
  by unfold State.activity; dsimp only; split <;> simp
@[simp] theorem State.activity_limits (s : State) (i : SlotId) : (s.activity i).limits = s.limits :=
  by unfold State.activity; dsimp only; split <;> simp
@[simp] theorem State.activity_mix (s : State) (i : SlotId) : (s.activity i).mix = s.mix :=
  by unfold State.activity; dsimp only; split <;> simp
@[simp] theorem State.activity_talk (s : State) (i : SlotId) : (s.activity i).talk = s.talk :=
  by unfold State.activity; dsimp only; split <;> simp
@[simp] theorem State.activity_prompt (s : State) (i : SlotId) : (s.activity i).prompt = s.prompt :=
  by unfold State.activity; dsimp only; split <;> simp
@[simp] theorem State.activity_capture (s : State) (i : SlotId) : (s.activity i).capture = s.capture :=
  by unfold State.activity; dsimp only; split <;> simp
@[simp] theorem State.activity_resetHeld (s : State) (i : SlotId) : (s.activity i).resetHeld = s.resetHeld :=
  by unfold State.activity; dsimp only; split <;> simp
@[simp] theorem State.activity_pending (s : State) (i : SlotId) : (s.activity i).pending = s.pending :=
  by unfold State.activity; dsimp only; split <;> simp
@[simp] theorem State.activity_notices_mask (s : State) (i : SlotId) : (s.activity i).notices.mask = s.notices.mask :=
  by unfold State.activity; dsimp only; split <;> simp

@[simp] theorem State.discardWindow_link (s : State) (i : SlotId) (q : SeqNum) (t : Stamp) :
    (s.discardWindow i q t).link = s.link := by simp [State.discardWindow]
@[simp] theorem State.discardWindow_radio (s : State) (i : SlotId) (q : SeqNum) (t : Stamp) :
    (s.discardWindow i q t).radio = s.radio := by simp [State.discardWindow]
@[simp] theorem State.discardWindow_profiles (s : State) (i : SlotId) (q : SeqNum) (t : Stamp) :
    (s.discardWindow i q t).profiles = s.profiles := by simp [State.discardWindow]
@[simp] theorem State.discardWindow_call (s : State) (i : SlotId) (q : SeqNum) (t : Stamp) :
    (s.discardWindow i q t).call = s.call := by simp [State.discardWindow]
@[simp] theorem State.discardWindow_rate (s : State) (i : SlotId) (q : SeqNum) (t : Stamp) :
    (s.discardWindow i q t).rate = s.rate := by simp [State.discardWindow]
@[simp] theorem State.discardWindow_limits (s : State) (i : SlotId) (q : SeqNum) (t : Stamp) :
    (s.discardWindow i q t).limits = s.limits := by simp [State.discardWindow]
@[simp] theorem State.discardWindow_mix (s : State) (i : SlotId) (q : SeqNum) (t : Stamp) :
    (s.discardWindow i q t).mix = s.mix := by simp [State.discardWindow]
@[simp] theorem State.discardWindow_talk (s : State) (i : SlotId) (q : SeqNum) (t : Stamp) :
    (s.discardWindow i q t).talk = s.talk := by simp [State.discardWindow]
@[simp] theorem State.discardWindow_prompt (s : State) (i : SlotId) (q : SeqNum) (t : Stamp) :
    (s.discardWindow i q t).prompt = s.prompt := by simp [State.discardWindow]
@[simp] theorem State.discardWindow_resetHeld (s : State) (i : SlotId) (q : SeqNum) (t : Stamp) :
    (s.discardWindow i q t).resetHeld = s.resetHeld := by simp [State.discardWindow]
@[simp] theorem State.discardWindow_pending (s : State) (i : SlotId) (q : SeqNum) (t : Stamp) :
    (s.discardWindow i q t).pending = s.pending := by simp [State.discardWindow]
@[simp] theorem State.discardWindow_notices_mask (s : State) (i : SlotId) (q : SeqNum) (t : Stamp) :
    (s.discardWindow i q t).notices.mask = s.notices.mask := by simp [State.discardWindow]

@[simp] theorem State.raiseRate_link (s : State) (i : SlotId) (m : Int) (b : Nat) (t : BitVec 32) :
    (s.raiseRate i m b t).link = s.link := by unfold State.raiseRate; split <;> simp
@[simp] theorem State.raiseRate_radio (s : State) (i : SlotId) (m : Int) (b : Nat) (t : BitVec 32) :
    (s.raiseRate i m b t).radio = s.radio := by unfold State.raiseRate; split <;> simp
@[simp] theorem State.raiseRate_profiles (s : State) (i : SlotId) (m : Int) (b : Nat) (t : BitVec 32) :
    (s.raiseRate i m b t).profiles = s.profiles := by unfold State.raiseRate; split <;> simp
@[simp] theorem State.raiseRate_slots (s : State) (i : SlotId) (m : Int) (b : Nat) (t : BitVec 32) :
    (s.raiseRate i m b t).slots = s.slots := by unfold State.raiseRate; split <;> simp
@[simp] theorem State.raiseRate_call (s : State) (i : SlotId) (m : Int) (b : Nat) (t : BitVec 32) :
    (s.raiseRate i m b t).call = s.call := by unfold State.raiseRate; split <;> simp
@[simp] theorem State.raiseRate_rate (s : State) (i : SlotId) (m : Int) (b : Nat) (t : BitVec 32) :
    (s.raiseRate i m b t).rate = s.rate := by unfold State.raiseRate; split <;> simp
@[simp] theorem State.raiseRate_limits (s : State) (i : SlotId) (m : Int) (b : Nat) (t : BitVec 32) :
    (s.raiseRate i m b t).limits = s.limits := by unfold State.raiseRate; split <;> simp
@[simp] theorem State.raiseRate_mix (s : State) (i : SlotId) (m : Int) (b : Nat) (t : BitVec 32) :
    (s.raiseRate i m b t).mix = s.mix := by unfold State.raiseRate; split <;> simp
@[simp] theorem State.raiseRate_talk (s : State) (i : SlotId) (m : Int) (b : Nat) (t : BitVec 32) :
    (s.raiseRate i m b t).talk = s.talk := by unfold State.raiseRate; split <;> simp
@[simp] theorem State.raiseRate_prompt (s : State) (i : SlotId) (m : Int) (b : Nat) (t : BitVec 32) :
    (s.raiseRate i m b t).prompt = s.prompt := by unfold State.raiseRate; split <;> simp
@[simp] theorem State.raiseRate_capture (s : State) (i : SlotId) (m : Int) (b : Nat) (t : BitVec 32) :
    (s.raiseRate i m b t).capture = s.capture := by unfold State.raiseRate; split <;> simp
@[simp] theorem State.raiseRate_resetHeld (s : State) (i : SlotId) (m : Int) (b : Nat) (t : BitVec 32) :
    (s.raiseRate i m b t).resetHeld = s.resetHeld := by unfold State.raiseRate; split <;> simp
@[simp] theorem State.raiseRate_pending (s : State) (i : SlotId) (m : Int) (b : Nat) (t : BitVec 32) :
    (s.raiseRate i m b t).pending = s.pending := by unfold State.raiseRate; split <;> simp
@[simp] theorem State.raiseRate_notices_mask (s : State) (i : SlotId) (m : Int) (b : Nat) (t : BitVec 32) :
    (s.raiseRate i m b t).notices.mask = s.notices.mask := by unfold State.raiseRate; split <;> simp
@[simp] theorem State.raiseRate_slot (s : State) (i : SlotId) (m : Int) (b : Nat) (t : BitVec 32) (j : SlotId) :
    (s.raiseRate i m b t).slot j = s.slot j := by
  rw [State.slot, State.raiseRate_slots, State.slot]

@[simp] theorem State.compareRates_link (s : State) (i : SlotId) (m : Int) : (s.compareRates i m).link = s.link := by
  unfold State.compareRates
  split
  · dsimp only
    split <;> simp
  · rfl
@[simp] theorem State.compareRates_radio (s : State) (i : SlotId) (m : Int) : (s.compareRates i m).radio = s.radio := by
  unfold State.compareRates
  split
  · dsimp only
    split <;> simp
  · rfl
@[simp] theorem State.compareRates_profiles (s : State) (i : SlotId) (m : Int) :
    (s.compareRates i m).profiles = s.profiles := by
  unfold State.compareRates
  split
  · dsimp only
    split <;> simp
  · rfl
@[simp] theorem State.compareRates_slots (s : State) (i : SlotId) (m : Int) : (s.compareRates i m).slots = s.slots := by
  unfold State.compareRates
  split
  · dsimp only
    split <;> simp
  · rfl
@[simp] theorem State.compareRates_call (s : State) (i : SlotId) (m : Int) : (s.compareRates i m).call = s.call := by
  unfold State.compareRates
  split
  · dsimp only
    split <;> simp
  · rfl
@[simp] theorem State.compareRates_rate (s : State) (i : SlotId) (m : Int) : (s.compareRates i m).rate = s.rate := by
  unfold State.compareRates
  split
  · dsimp only
    split <;> simp
  · rfl
@[simp] theorem State.compareRates_limits (s : State) (i : SlotId) (m : Int) :
    (s.compareRates i m).limits = s.limits := by
  unfold State.compareRates
  split
  · dsimp only
    split <;> simp
  · rfl
@[simp] theorem State.compareRates_mix (s : State) (i : SlotId) (m : Int) : (s.compareRates i m).mix = s.mix := by
  unfold State.compareRates
  split
  · dsimp only
    split <;> simp
  · rfl
@[simp] theorem State.compareRates_talk (s : State) (i : SlotId) (m : Int) : (s.compareRates i m).talk = s.talk := by
  unfold State.compareRates
  split
  · dsimp only
    split <;> simp
  · rfl
@[simp] theorem State.compareRates_prompt (s : State) (i : SlotId) (m : Int) :
    (s.compareRates i m).prompt = s.prompt := by
  unfold State.compareRates
  split
  · dsimp only
    split <;> simp
  · rfl
@[simp] theorem State.compareRates_capture (s : State) (i : SlotId) (m : Int) :
    (s.compareRates i m).capture = s.capture := by
  unfold State.compareRates
  split
  · dsimp only
    split <;> simp
  · rfl
@[simp] theorem State.compareRates_resetHeld (s : State) (i : SlotId) (m : Int) :
    (s.compareRates i m).resetHeld = s.resetHeld := by
  unfold State.compareRates
  split
  · dsimp only
    split <;> simp
  · rfl
@[simp] theorem State.compareRates_pending (s : State) (i : SlotId) (m : Int) :
    (s.compareRates i m).pending = s.pending := by
  unfold State.compareRates
  split
  · dsimp only
    split <;> simp
  · rfl
@[simp] theorem State.compareRates_notices_mask (s : State) (i : SlotId) (m : Int) :
    (s.compareRates i m).notices.mask = s.notices.mask := by
  unfold State.compareRates
  split
  · dsimp only
    split <;> simp
  · rfl
@[simp] theorem State.compareRates_slot (s : State) (i : SlotId) (m : Int) (j : SlotId) :
    (s.compareRates i m).slot j = s.slot j := by
  rw [State.slot, State.compareRates_slots, State.slot]

@[simp] theorem State.measuringResult_link (s : State) (i : SlotId) (m : Int) :
    (s.measuringResult i m).link = s.link := by
  unfold State.measuringResult
  (repeat' split)
  all_goals simp
@[simp] theorem State.measuringResult_profiles (s : State) (i : SlotId) (m : Int) :
    (s.measuringResult i m).profiles = s.profiles := by
  unfold State.measuringResult
  (repeat' split)
  all_goals simp
@[simp] theorem State.measuringResult_call (s : State) (i : SlotId) (m : Int) :
    (s.measuringResult i m).call = s.call := by
  unfold State.measuringResult
  (repeat' split)
  all_goals simp
@[simp] theorem State.measuringResult_rate (s : State) (i : SlotId) (m : Int) :
    (s.measuringResult i m).rate = s.rate := by
  unfold State.measuringResult
  (repeat' split)
  all_goals simp
@[simp] theorem State.measuringResult_limits (s : State) (i : SlotId) (m : Int) :
    (s.measuringResult i m).limits = s.limits := by
  unfold State.measuringResult
  (repeat' split)
  all_goals simp
@[simp] theorem State.measuringResult_talk (s : State) (i : SlotId) (m : Int) :
    (s.measuringResult i m).talk = s.talk := by
  unfold State.measuringResult
  (repeat' split)
  all_goals simp
@[simp] theorem State.measuringResult_prompt (s : State) (i : SlotId) (m : Int) :
    (s.measuringResult i m).prompt = s.prompt := by
  unfold State.measuringResult
  (repeat' split)
  all_goals simp
@[simp] theorem State.measuringResult_capture (s : State) (i : SlotId) (m : Int) :
    (s.measuringResult i m).capture = s.capture := by
  unfold State.measuringResult
  (repeat' split)
  all_goals simp
@[simp] theorem State.measuringResult_resetHeld (s : State) (i : SlotId) (m : Int) :
    (s.measuringResult i m).resetHeld = s.resetHeld := by
  unfold State.measuringResult
  (repeat' split)
  all_goals simp
@[simp] theorem State.measuringResult_pending (s : State) (i : SlotId) (m : Int) :
    (s.measuringResult i m).pending = s.pending := by
  unfold State.measuringResult
  (repeat' split)
  all_goals simp
@[simp] theorem State.measuringResult_radio_pendingLinks (s : State) (i : SlotId) (m : Int) :
    (s.measuringResult i m).radio.pendingLinks = s.radio.pendingLinks := by
  unfold State.measuringResult
  (repeat' split)
  all_goals simp
@[simp] theorem State.measuringResult_radio_line (s : State) (i : SlotId) (m : Int) :
    (s.measuringResult i m).radio.line = s.radio.line := by
  unfold State.measuringResult
  (repeat' split)
  all_goals simp
@[simp] theorem State.measuringResult_mix_targets (s : State) (i : SlotId) (m : Int) :
    (s.measuringResult i m).mix.targets = s.mix.targets := by
  unfold State.measuringResult
  (repeat' split)
  all_goals simp
@[simp] theorem State.measuringResult_mix_period (s : State) (i : SlotId) (m : Int) :
    (s.measuringResult i m).mix.period = s.mix.period := by
  unfold State.measuringResult
  (repeat' split)
  all_goals simp
@[simp] theorem State.measuringResult_notices_mask (s : State) (i : SlotId) (m : Int) :
    (s.measuringResult i m).notices.mask = s.notices.mask := by
  unfold State.measuringResult
  (repeat' split)
  all_goals simp

@[simp] theorem State.completeWindow_link (s : State) (i : SlotId) (d : Nat) (n : BitVec 32) (q : SeqNum) (t : Stamp) :
    (s.completeWindow i d n q t).link = s.link := by unfold State.completeWindow; dsimp only; split <;> simp
@[simp] theorem State.completeWindow_profiles (s : State) (i : SlotId) (d : Nat) (n : BitVec 32) (q : SeqNum) (t : Stamp) :
    (s.completeWindow i d n q t).profiles = s.profiles :=
  by unfold State.completeWindow; dsimp only; split <;> simp
@[simp] theorem State.completeWindow_call (s : State) (i : SlotId) (d : Nat) (n : BitVec 32) (q : SeqNum) (t : Stamp) :
    (s.completeWindow i d n q t).call = s.call := by unfold State.completeWindow; dsimp only; split <;> simp
@[simp] theorem State.completeWindow_rate (s : State) (i : SlotId) (d : Nat) (n : BitVec 32) (q : SeqNum) (t : Stamp) :
    (s.completeWindow i d n q t).rate = s.rate := by unfold State.completeWindow; dsimp only; split <;> simp
@[simp] theorem State.completeWindow_limits (s : State) (i : SlotId) (d : Nat) (n : BitVec 32) (q : SeqNum) (t : Stamp) :
    (s.completeWindow i d n q t).limits = s.limits := by unfold State.completeWindow; dsimp only; split <;> simp
@[simp] theorem State.completeWindow_talk (s : State) (i : SlotId) (d : Nat) (n : BitVec 32) (q : SeqNum) (t : Stamp) :
    (s.completeWindow i d n q t).talk = s.talk := by unfold State.completeWindow; dsimp only; split <;> simp
@[simp] theorem State.completeWindow_prompt (s : State) (i : SlotId) (d : Nat) (n : BitVec 32) (q : SeqNum) (t : Stamp) :
    (s.completeWindow i d n q t).prompt = s.prompt := by unfold State.completeWindow; dsimp only; split <;> simp
@[simp] theorem State.completeWindow_capture (s : State) (i : SlotId) (d : Nat) (n : BitVec 32) (q : SeqNum) (t : Stamp) :
    (s.completeWindow i d n q t).capture = s.capture := by unfold State.completeWindow; dsimp only; split <;> simp
@[simp] theorem State.completeWindow_resetHeld (s : State) (i : SlotId) (d : Nat) (n : BitVec 32) (q : SeqNum) (t : Stamp) :
    (s.completeWindow i d n q t).resetHeld = s.resetHeld :=
  by unfold State.completeWindow; dsimp only; split <;> simp
@[simp] theorem State.completeWindow_pending (s : State) (i : SlotId) (d : Nat) (n : BitVec 32) (q : SeqNum) (t : Stamp) :
    (s.completeWindow i d n q t).pending = s.pending := by unfold State.completeWindow; dsimp only; split <;> simp
@[simp] theorem State.completeWindow_radio_pendingLinks (s : State) (i : SlotId) (d : Nat) (n : BitVec 32) (q : SeqNum) (t : Stamp) :
    (s.completeWindow i d n q t).radio.pendingLinks = s.radio.pendingLinks :=
  by unfold State.completeWindow; dsimp only; split <;> simp
@[simp] theorem State.completeWindow_radio_line (s : State) (i : SlotId) (d : Nat) (n : BitVec 32) (q : SeqNum) (t : Stamp) :
    (s.completeWindow i d n q t).radio.line = s.radio.line :=
  by unfold State.completeWindow; dsimp only; split <;> simp
@[simp] theorem State.completeWindow_mix_targets (s : State) (i : SlotId) (d : Nat) (n : BitVec 32) (q : SeqNum) (t : Stamp) :
    (s.completeWindow i d n q t).mix.targets = s.mix.targets :=
  by unfold State.completeWindow; dsimp only; split <;> simp
@[simp] theorem State.completeWindow_mix_period (s : State) (i : SlotId) (d : Nat) (n : BitVec 32) (q : SeqNum) (t : Stamp) :
    (s.completeWindow i d n q t).mix.period = s.mix.period :=
  by unfold State.completeWindow; dsimp only; split <;> simp
@[simp] theorem State.completeWindow_notices_mask (s : State) (i : SlotId) (d : Nat) (n : BitVec 32) (q : SeqNum) (t : Stamp) :
    (s.completeWindow i d n q t).notices.mask = s.notices.mask :=
  by unfold State.completeWindow; dsimp only; split <;> simp

@[simp] theorem State.windowPull_link (s : State) (i : SlotId) (q : SeqNum) (t : Stamp) :
    (s.windowPull i q t).link = s.link := by unfold State.windowPull; (repeat' split); all_goals simp
@[simp] theorem State.windowPull_profiles (s : State) (i : SlotId) (q : SeqNum) (t : Stamp) :
    (s.windowPull i q t).profiles = s.profiles := by unfold State.windowPull; (repeat' split); all_goals simp
@[simp] theorem State.windowPull_call (s : State) (i : SlotId) (q : SeqNum) (t : Stamp) :
    (s.windowPull i q t).call = s.call := by unfold State.windowPull; (repeat' split); all_goals simp
@[simp] theorem State.windowPull_rate (s : State) (i : SlotId) (q : SeqNum) (t : Stamp) :
    (s.windowPull i q t).rate = s.rate := by unfold State.windowPull; (repeat' split); all_goals simp
@[simp] theorem State.windowPull_limits (s : State) (i : SlotId) (q : SeqNum) (t : Stamp) :
    (s.windowPull i q t).limits = s.limits := by unfold State.windowPull; (repeat' split); all_goals simp
@[simp] theorem State.windowPull_talk (s : State) (i : SlotId) (q : SeqNum) (t : Stamp) :
    (s.windowPull i q t).talk = s.talk := by unfold State.windowPull; (repeat' split); all_goals simp
@[simp] theorem State.windowPull_prompt (s : State) (i : SlotId) (q : SeqNum) (t : Stamp) :
    (s.windowPull i q t).prompt = s.prompt := by unfold State.windowPull; (repeat' split); all_goals simp
@[simp] theorem State.windowPull_resetHeld (s : State) (i : SlotId) (q : SeqNum) (t : Stamp) :
    (s.windowPull i q t).resetHeld = s.resetHeld := by unfold State.windowPull; (repeat' split); all_goals simp
@[simp] theorem State.windowPull_pending (s : State) (i : SlotId) (q : SeqNum) (t : Stamp) :
    (s.windowPull i q t).pending = s.pending := by unfold State.windowPull; (repeat' split); all_goals simp
@[simp] theorem State.windowPull_radio_pendingLinks (s : State) (i : SlotId) (q : SeqNum) (t : Stamp) :
    (s.windowPull i q t).radio.pendingLinks = s.radio.pendingLinks :=
  by unfold State.windowPull; (repeat' split); all_goals simp
@[simp] theorem State.windowPull_radio_line (s : State) (i : SlotId) (q : SeqNum) (t : Stamp) :
    (s.windowPull i q t).radio.line = s.radio.line := by unfold State.windowPull; (repeat' split); all_goals simp
@[simp] theorem State.windowPull_mix_targets (s : State) (i : SlotId) (q : SeqNum) (t : Stamp) :
    (s.windowPull i q t).mix.targets = s.mix.targets := by unfold State.windowPull; (repeat' split); all_goals simp
@[simp] theorem State.windowPull_mix_period (s : State) (i : SlotId) (q : SeqNum) (t : Stamp) :
    (s.windowPull i q t).mix.period = s.mix.period := by unfold State.windowPull; (repeat' split); all_goals simp
@[simp] theorem State.windowPull_notices_mask (s : State) (i : SlotId) (q : SeqNum) (t : Stamp) :
    (s.windowPull i q t).notices.mask = s.notices.mask :=
  by unfold State.windowPull; (repeat' split); all_goals simp

@[simp] theorem State.takeBlock_link (s : State) (i : SlotId) (g : Nat) (q : SeqNum) (t : Stamp) (b : Bool) (l : List Sample) :
    (s.takeBlock i g q t b l).link = s.link := by simp [State.takeBlock]
@[simp] theorem State.takeBlock_radio (s : State) (i : SlotId) (g : Nat) (q : SeqNum) (t : Stamp) (b : Bool) (l : List Sample) :
    (s.takeBlock i g q t b l).radio = s.radio := by simp [State.takeBlock]
@[simp] theorem State.takeBlock_profiles (s : State) (i : SlotId) (g : Nat) (q : SeqNum) (t : Stamp) (b : Bool) (l : List Sample) :
    (s.takeBlock i g q t b l).profiles = s.profiles := by simp [State.takeBlock]
@[simp] theorem State.takeBlock_call (s : State) (i : SlotId) (g : Nat) (q : SeqNum) (t : Stamp) (b : Bool) (l : List Sample) :
    (s.takeBlock i g q t b l).call = s.call := by simp [State.takeBlock]
@[simp] theorem State.takeBlock_rate (s : State) (i : SlotId) (g : Nat) (q : SeqNum) (t : Stamp) (b : Bool) (l : List Sample) :
    (s.takeBlock i g q t b l).rate = s.rate := by simp [State.takeBlock]
@[simp] theorem State.takeBlock_limits (s : State) (i : SlotId) (g : Nat) (q : SeqNum) (t : Stamp) (b : Bool) (l : List Sample) :
    (s.takeBlock i g q t b l).limits = s.limits := by simp [State.takeBlock]
@[simp] theorem State.takeBlock_talk (s : State) (i : SlotId) (g : Nat) (q : SeqNum) (t : Stamp) (b : Bool) (l : List Sample) :
    (s.takeBlock i g q t b l).talk = s.talk := by simp [State.takeBlock]
@[simp] theorem State.takeBlock_prompt (s : State) (i : SlotId) (g : Nat) (q : SeqNum) (t : Stamp) (b : Bool) (l : List Sample) :
    (s.takeBlock i g q t b l).prompt = s.prompt := by simp [State.takeBlock]
@[simp] theorem State.takeBlock_resetHeld (s : State) (i : SlotId) (g : Nat) (q : SeqNum) (t : Stamp) (b : Bool) (l : List Sample) :
    (s.takeBlock i g q t b l).resetHeld = s.resetHeld := by simp [State.takeBlock]
@[simp] theorem State.takeBlock_pending (s : State) (i : SlotId) (g : Nat) (q : SeqNum) (t : Stamp) (b : Bool) (l : List Sample) :
    (s.takeBlock i g q t b l).pending = s.pending := by simp [State.takeBlock]
@[simp] theorem State.takeBlock_mix_targets (s : State) (i : SlotId) (g : Nat) (q : SeqNum) (t : Stamp) (b : Bool) (l : List Sample) :
    (s.takeBlock i g q t b l).mix.targets = s.mix.targets := by simp [State.takeBlock]
@[simp] theorem State.takeBlock_mix_period (s : State) (i : SlotId) (g : Nat) (q : SeqNum) (t : Stamp) (b : Bool) (l : List Sample) :
    (s.takeBlock i g q t b l).mix.period = s.mix.period := by simp [State.takeBlock]
@[simp] theorem State.takeBlock_notices_mask (s : State) (i : SlotId) (g : Nat) (q : SeqNum) (t : Stamp) (b : Bool) (l : List Sample) :
    (s.takeBlock i g q t b l).notices.mask = s.notices.mask := by simp [State.takeBlock]

@[simp] theorem State.micOnSlot_link (s : State) (i : SlotId) (q : SeqNum) (t : Stamp) (b : Bool) (l : List Sample) :
    (s.micOnSlot i q t b l).link = s.link := by unfold State.micOnSlot; dsimp only; split <;> simp
@[simp] theorem State.micOnSlot_radio (s : State) (i : SlotId) (q : SeqNum) (t : Stamp) (b : Bool) (l : List Sample) :
    (s.micOnSlot i q t b l).radio = s.radio := by unfold State.micOnSlot; dsimp only; split <;> simp
@[simp] theorem State.micOnSlot_profiles (s : State) (i : SlotId) (q : SeqNum) (t : Stamp) (b : Bool) (l : List Sample) :
    (s.micOnSlot i q t b l).profiles = s.profiles := by unfold State.micOnSlot; dsimp only; split <;> simp
@[simp] theorem State.micOnSlot_call (s : State) (i : SlotId) (q : SeqNum) (t : Stamp) (b : Bool) (l : List Sample) :
    (s.micOnSlot i q t b l).call = s.call := by unfold State.micOnSlot; dsimp only; split <;> simp
@[simp] theorem State.micOnSlot_rate (s : State) (i : SlotId) (q : SeqNum) (t : Stamp) (b : Bool) (l : List Sample) :
    (s.micOnSlot i q t b l).rate = s.rate := by unfold State.micOnSlot; dsimp only; split <;> simp
@[simp] theorem State.micOnSlot_limits (s : State) (i : SlotId) (q : SeqNum) (t : Stamp) (b : Bool) (l : List Sample) :
    (s.micOnSlot i q t b l).limits = s.limits := by unfold State.micOnSlot; dsimp only; split <;> simp
@[simp] theorem State.micOnSlot_talk (s : State) (i : SlotId) (q : SeqNum) (t : Stamp) (b : Bool) (l : List Sample) :
    (s.micOnSlot i q t b l).talk = s.talk := by unfold State.micOnSlot; dsimp only; split <;> simp
@[simp] theorem State.micOnSlot_prompt (s : State) (i : SlotId) (q : SeqNum) (t : Stamp) (b : Bool) (l : List Sample) :
    (s.micOnSlot i q t b l).prompt = s.prompt := by unfold State.micOnSlot; dsimp only; split <;> simp
@[simp] theorem State.micOnSlot_resetHeld (s : State) (i : SlotId) (q : SeqNum) (t : Stamp) (b : Bool) (l : List Sample) :
    (s.micOnSlot i q t b l).resetHeld = s.resetHeld := by unfold State.micOnSlot; dsimp only; split <;> simp
@[simp] theorem State.micOnSlot_pending (s : State) (i : SlotId) (q : SeqNum) (t : Stamp) (b : Bool) (l : List Sample) :
    (s.micOnSlot i q t b l).pending = s.pending := by unfold State.micOnSlot; dsimp only; split <;> simp
@[simp] theorem State.micOnSlot_mix_targets (s : State) (i : SlotId) (q : SeqNum) (t : Stamp) (b : Bool) (l : List Sample) :
    (s.micOnSlot i q t b l).mix.targets = s.mix.targets := by unfold State.micOnSlot; dsimp only; split <;> simp
@[simp] theorem State.micOnSlot_mix_period (s : State) (i : SlotId) (q : SeqNum) (t : Stamp) (b : Bool) (l : List Sample) :
    (s.micOnSlot i q t b l).mix.period = s.mix.period := by unfold State.micOnSlot; dsimp only; split <;> simp
@[simp] theorem State.micOnSlot_notices_mask (s : State) (i : SlotId) (q : SeqNum) (t : Stamp) (b : Bool) (l : List Sample) :
    (s.micOnSlot i q t b l).notices.mask = s.notices.mask := by unfold State.micOnSlot; dsimp only; split <;> simp

@[simp] theorem State.takeMic_link (s : State) (h : Handle) (q : SeqNum) (t : Stamp) (b : Bool) (l : List Sample) :
    (s.takeMic h q t b l).link = s.link := by unfold State.takeMic; (repeat' split); all_goals simp
@[simp] theorem State.takeMic_radio (s : State) (h : Handle) (q : SeqNum) (t : Stamp) (b : Bool) (l : List Sample) :
    (s.takeMic h q t b l).radio = s.radio := by unfold State.takeMic; (repeat' split); all_goals simp
@[simp] theorem State.takeMic_profiles (s : State) (h : Handle) (q : SeqNum) (t : Stamp) (b : Bool) (l : List Sample) :
    (s.takeMic h q t b l).profiles = s.profiles := by unfold State.takeMic; (repeat' split); all_goals simp
@[simp] theorem State.takeMic_call (s : State) (h : Handle) (q : SeqNum) (t : Stamp) (b : Bool) (l : List Sample) :
    (s.takeMic h q t b l).call = s.call := by unfold State.takeMic; (repeat' split); all_goals simp
@[simp] theorem State.takeMic_rate (s : State) (h : Handle) (q : SeqNum) (t : Stamp) (b : Bool) (l : List Sample) :
    (s.takeMic h q t b l).rate = s.rate := by unfold State.takeMic; (repeat' split); all_goals simp
@[simp] theorem State.takeMic_limits (s : State) (h : Handle) (q : SeqNum) (t : Stamp) (b : Bool) (l : List Sample) :
    (s.takeMic h q t b l).limits = s.limits := by unfold State.takeMic; (repeat' split); all_goals simp
@[simp] theorem State.takeMic_talk (s : State) (h : Handle) (q : SeqNum) (t : Stamp) (b : Bool) (l : List Sample) :
    (s.takeMic h q t b l).talk = s.talk := by unfold State.takeMic; (repeat' split); all_goals simp
@[simp] theorem State.takeMic_prompt (s : State) (h : Handle) (q : SeqNum) (t : Stamp) (b : Bool) (l : List Sample) :
    (s.takeMic h q t b l).prompt = s.prompt := by unfold State.takeMic; (repeat' split); all_goals simp
@[simp] theorem State.takeMic_resetHeld (s : State) (h : Handle) (q : SeqNum) (t : Stamp) (b : Bool) (l : List Sample) :
    (s.takeMic h q t b l).resetHeld = s.resetHeld := by unfold State.takeMic; (repeat' split); all_goals simp
@[simp] theorem State.takeMic_pending (s : State) (h : Handle) (q : SeqNum) (t : Stamp) (b : Bool) (l : List Sample) :
    (s.takeMic h q t b l).pending = s.pending := by unfold State.takeMic; (repeat' split); all_goals simp
@[simp] theorem State.takeMic_mix_targets (s : State) (h : Handle) (q : SeqNum) (t : Stamp) (b : Bool) (l : List Sample) :
    (s.takeMic h q t b l).mix.targets = s.mix.targets := by unfold State.takeMic; (repeat' split); all_goals simp
@[simp] theorem State.takeMic_mix_period (s : State) (h : Handle) (q : SeqNum) (t : Stamp) (b : Bool) (l : List Sample) :
    (s.takeMic h q t b l).mix.period = s.mix.period := by unfold State.takeMic; (repeat' split); all_goals simp
@[simp] theorem State.takeMic_notices_mask (s : State) (h : Handle) (q : SeqNum) (t : Stamp) (b : Bool) (l : List Sample) :
    (s.takeMic h q t b l).notices.mask = s.notices.mask := by unfold State.takeMic; (repeat' split); all_goals simp

@[simp] theorem State.takeOutboundPass_link (s : State) (i : SlotId) (q : SeqNum) (t : Stamp) :
    (s.takeOutboundPass i q t).link = s.link := by simp [State.takeOutboundPass]
@[simp] theorem State.takeOutboundPass_radio (s : State) (i : SlotId) (q : SeqNum) (t : Stamp) :
    (s.takeOutboundPass i q t).radio = s.radio := by simp [State.takeOutboundPass]
@[simp] theorem State.takeOutboundPass_profiles (s : State) (i : SlotId) (q : SeqNum) (t : Stamp) :
    (s.takeOutboundPass i q t).profiles = s.profiles := by simp [State.takeOutboundPass]
@[simp] theorem State.takeOutboundPass_call (s : State) (i : SlotId) (q : SeqNum) (t : Stamp) :
    (s.takeOutboundPass i q t).call = s.call := by simp [State.takeOutboundPass]
@[simp] theorem State.takeOutboundPass_rate (s : State) (i : SlotId) (q : SeqNum) (t : Stamp) :
    (s.takeOutboundPass i q t).rate = s.rate := by simp [State.takeOutboundPass]
@[simp] theorem State.takeOutboundPass_limits (s : State) (i : SlotId) (q : SeqNum) (t : Stamp) :
    (s.takeOutboundPass i q t).limits = s.limits := by simp [State.takeOutboundPass]
@[simp] theorem State.takeOutboundPass_mix (s : State) (i : SlotId) (q : SeqNum) (t : Stamp) :
    (s.takeOutboundPass i q t).mix = s.mix := by simp [State.takeOutboundPass]
@[simp] theorem State.takeOutboundPass_talk (s : State) (i : SlotId) (q : SeqNum) (t : Stamp) :
    (s.takeOutboundPass i q t).talk = s.talk := by simp [State.takeOutboundPass]
@[simp] theorem State.takeOutboundPass_prompt (s : State) (i : SlotId) (q : SeqNum) (t : Stamp) :
    (s.takeOutboundPass i q t).prompt = s.prompt := by simp [State.takeOutboundPass]
@[simp] theorem State.takeOutboundPass_resetHeld (s : State) (i : SlotId) (q : SeqNum) (t : Stamp) :
    (s.takeOutboundPass i q t).resetHeld = s.resetHeld := by simp [State.takeOutboundPass]
@[simp] theorem State.takeOutboundPass_pending (s : State) (i : SlotId) (q : SeqNum) (t : Stamp) :
    (s.takeOutboundPass i q t).pending = s.pending := by simp [State.takeOutboundPass]
@[simp] theorem State.takeOutboundPass_notices_mask (s : State) (i : SlotId) (q : SeqNum) (t : Stamp) :
    (s.takeOutboundPass i q t).notices.mask = s.notices.mask := by simp [State.takeOutboundPass]

@[simp] theorem State.pullOnSlot_link (s : State) (i : SlotId) (h : Handle) (q : SeqNum) (t : Stamp) :
    (s.pullOnSlot i h q t).link = s.link := by unfold State.pullOnSlot; dsimp only; split <;> simp
@[simp] theorem State.pullOnSlot_profiles (s : State) (i : SlotId) (h : Handle) (q : SeqNum) (t : Stamp) :
    (s.pullOnSlot i h q t).profiles = s.profiles := by unfold State.pullOnSlot; dsimp only; split <;> simp
@[simp] theorem State.pullOnSlot_call (s : State) (i : SlotId) (h : Handle) (q : SeqNum) (t : Stamp) :
    (s.pullOnSlot i h q t).call = s.call := by unfold State.pullOnSlot; dsimp only; split <;> simp
@[simp] theorem State.pullOnSlot_rate (s : State) (i : SlotId) (h : Handle) (q : SeqNum) (t : Stamp) :
    (s.pullOnSlot i h q t).rate = s.rate := by unfold State.pullOnSlot; dsimp only; split <;> simp
@[simp] theorem State.pullOnSlot_limits (s : State) (i : SlotId) (h : Handle) (q : SeqNum) (t : Stamp) :
    (s.pullOnSlot i h q t).limits = s.limits := by unfold State.pullOnSlot; dsimp only; split <;> simp
@[simp] theorem State.pullOnSlot_talk (s : State) (i : SlotId) (h : Handle) (q : SeqNum) (t : Stamp) :
    (s.pullOnSlot i h q t).talk = s.talk := by unfold State.pullOnSlot; dsimp only; split <;> simp
@[simp] theorem State.pullOnSlot_prompt (s : State) (i : SlotId) (h : Handle) (q : SeqNum) (t : Stamp) :
    (s.pullOnSlot i h q t).prompt = s.prompt := by unfold State.pullOnSlot; dsimp only; split <;> simp
@[simp] theorem State.pullOnSlot_resetHeld (s : State) (i : SlotId) (h : Handle) (q : SeqNum) (t : Stamp) :
    (s.pullOnSlot i h q t).resetHeld = s.resetHeld := by unfold State.pullOnSlot; dsimp only; split <;> simp
@[simp] theorem State.pullOnSlot_pending (s : State) (i : SlotId) (h : Handle) (q : SeqNum) (t : Stamp) :
    (s.pullOnSlot i h q t).pending = s.pending := by unfold State.pullOnSlot; dsimp only; split <;> simp
@[simp] theorem State.pullOnSlot_radio_pendingLinks (s : State) (i : SlotId) (h : Handle) (q : SeqNum) (t : Stamp) :
    (s.pullOnSlot i h q t).radio.pendingLinks = s.radio.pendingLinks :=
  by unfold State.pullOnSlot; dsimp only; split <;> simp
@[simp] theorem State.pullOnSlot_radio_line (s : State) (i : SlotId) (h : Handle) (q : SeqNum) (t : Stamp) :
    (s.pullOnSlot i h q t).radio.line = s.radio.line := by unfold State.pullOnSlot; dsimp only; split <;> simp
@[simp] theorem State.pullOnSlot_mix_targets (s : State) (i : SlotId) (h : Handle) (q : SeqNum) (t : Stamp) :
    (s.pullOnSlot i h q t).mix.targets = s.mix.targets := by unfold State.pullOnSlot; dsimp only; split <;> simp
@[simp] theorem State.pullOnSlot_mix_period (s : State) (i : SlotId) (h : Handle) (q : SeqNum) (t : Stamp) :
    (s.pullOnSlot i h q t).mix.period = s.mix.period := by unfold State.pullOnSlot; dsimp only; split <;> simp
@[simp] theorem State.pullOnSlot_notices_mask (s : State) (i : SlotId) (h : Handle) (q : SeqNum) (t : Stamp) :
    (s.pullOnSlot i h q t).notices.mask = s.notices.mask := by unfold State.pullOnSlot; dsimp only; split <;> simp

@[simp] theorem State.takePull_link (s : State) (h : Handle) (q : SeqNum) (t : Stamp) :
    (s.takePull h q t).link = s.link := by unfold State.takePull; (repeat' split); all_goals simp
@[simp] theorem State.takePull_profiles (s : State) (h : Handle) (q : SeqNum) (t : Stamp) :
    (s.takePull h q t).profiles = s.profiles := by unfold State.takePull; (repeat' split); all_goals simp
@[simp] theorem State.takePull_call (s : State) (h : Handle) (q : SeqNum) (t : Stamp) :
    (s.takePull h q t).call = s.call := by unfold State.takePull; (repeat' split); all_goals simp
@[simp] theorem State.takePull_rate (s : State) (h : Handle) (q : SeqNum) (t : Stamp) :
    (s.takePull h q t).rate = s.rate := by unfold State.takePull; (repeat' split); all_goals simp
@[simp] theorem State.takePull_limits (s : State) (h : Handle) (q : SeqNum) (t : Stamp) :
    (s.takePull h q t).limits = s.limits := by unfold State.takePull; (repeat' split); all_goals simp
@[simp] theorem State.takePull_talk (s : State) (h : Handle) (q : SeqNum) (t : Stamp) :
    (s.takePull h q t).talk = s.talk := by unfold State.takePull; (repeat' split); all_goals simp
@[simp] theorem State.takePull_prompt (s : State) (h : Handle) (q : SeqNum) (t : Stamp) :
    (s.takePull h q t).prompt = s.prompt := by unfold State.takePull; (repeat' split); all_goals simp
@[simp] theorem State.takePull_resetHeld (s : State) (h : Handle) (q : SeqNum) (t : Stamp) :
    (s.takePull h q t).resetHeld = s.resetHeld := by unfold State.takePull; (repeat' split); all_goals simp
@[simp] theorem State.takePull_pending (s : State) (h : Handle) (q : SeqNum) (t : Stamp) :
    (s.takePull h q t).pending = s.pending := by unfold State.takePull; (repeat' split); all_goals simp
@[simp] theorem State.takePull_radio_pendingLinks (s : State) (h : Handle) (q : SeqNum) (t : Stamp) :
    (s.takePull h q t).radio.pendingLinks = s.radio.pendingLinks :=
  by unfold State.takePull; (repeat' split); all_goals simp
@[simp] theorem State.takePull_radio_line (s : State) (h : Handle) (q : SeqNum) (t : Stamp) :
    (s.takePull h q t).radio.line = s.radio.line := by unfold State.takePull; (repeat' split); all_goals simp
@[simp] theorem State.takePull_mix_targets (s : State) (h : Handle) (q : SeqNum) (t : Stamp) :
    (s.takePull h q t).mix.targets = s.mix.targets := by unfold State.takePull; (repeat' split); all_goals simp
@[simp] theorem State.takePull_mix_period (s : State) (h : Handle) (q : SeqNum) (t : Stamp) :
    (s.takePull h q t).mix.period = s.mix.period := by unfold State.takePull; (repeat' split); all_goals simp
@[simp] theorem State.takePull_notices_mask (s : State) (h : Handle) (q : SeqNum) (t : Stamp) :
    (s.takePull h q t).notices.mask = s.notices.mask := by unfold State.takePull; (repeat' split); all_goals simp

@[simp] theorem State.admitInto_link (s : State) (i : SlotId) (l : PendingLink) (v : AdmissionValues) (k : Option SlotId) :
    (s.admitInto i l v k).link = s.link := by unfold State.admitInto; dsimp only; split <;> simp
@[simp] theorem State.admitInto_notices (s : State) (i : SlotId) (l : PendingLink) (v : AdmissionValues) (k : Option SlotId) :
    (s.admitInto i l v k).notices = s.notices := by unfold State.admitInto; dsimp only; split <;> simp
@[simp] theorem State.admitInto_radio (s : State) (i : SlotId) (l : PendingLink) (v : AdmissionValues) (k : Option SlotId) :
    (s.admitInto i l v k).radio = s.radio := by unfold State.admitInto; dsimp only; split <;> simp
@[simp] theorem State.admitInto_profiles (s : State) (i : SlotId) (l : PendingLink) (v : AdmissionValues) (k : Option SlotId) :
    (s.admitInto i l v k).profiles = s.profiles := by unfold State.admitInto; dsimp only; split <;> simp
@[simp] theorem State.admitInto_call (s : State) (i : SlotId) (l : PendingLink) (v : AdmissionValues) (k : Option SlotId) :
    (s.admitInto i l v k).call = s.call := by unfold State.admitInto; dsimp only; split <;> simp
@[simp] theorem State.admitInto_rate (s : State) (i : SlotId) (l : PendingLink) (v : AdmissionValues) (k : Option SlotId) :
    (s.admitInto i l v k).rate = s.rate := by unfold State.admitInto; dsimp only; split <;> simp
@[simp] theorem State.admitInto_limits (s : State) (i : SlotId) (l : PendingLink) (v : AdmissionValues) (k : Option SlotId) :
    (s.admitInto i l v k).limits = s.limits := by unfold State.admitInto; dsimp only; split <;> simp
@[simp] theorem State.admitInto_mix (s : State) (i : SlotId) (l : PendingLink) (v : AdmissionValues) (k : Option SlotId) :
    (s.admitInto i l v k).mix = s.mix := by unfold State.admitInto; dsimp only; split <;> simp
@[simp] theorem State.admitInto_talk (s : State) (i : SlotId) (l : PendingLink) (v : AdmissionValues) (k : Option SlotId) :
    (s.admitInto i l v k).talk = s.talk := by unfold State.admitInto; dsimp only; split <;> simp
@[simp] theorem State.admitInto_prompt (s : State) (i : SlotId) (l : PendingLink) (v : AdmissionValues) (k : Option SlotId) :
    (s.admitInto i l v k).prompt = s.prompt := by unfold State.admitInto; dsimp only; split <;> simp
@[simp] theorem State.admitInto_capture (s : State) (i : SlotId) (l : PendingLink) (v : AdmissionValues) (k : Option SlotId) :
    (s.admitInto i l v k).capture = s.capture := by unfold State.admitInto; dsimp only; split <;> simp
@[simp] theorem State.admitInto_resetHeld (s : State) (i : SlotId) (l : PendingLink) (v : AdmissionValues) (k : Option SlotId) :
    (s.admitInto i l v k).resetHeld = s.resetHeld := by unfold State.admitInto; dsimp only; split <;> simp
@[simp] theorem State.admitInto_pending (s : State) (i : SlotId) (l : PendingLink) (v : AdmissionValues) (k : Option SlotId) :
    (s.admitInto i l v k).pending = s.pending := by unfold State.admitInto; dsimp only; split <;> simp

@[simp] theorem State.linkDownSlot_link (s : State) (i : SlotId) (r : Option Byte) :
    (s.linkDownSlot i r).link = s.link := by
  unfold State.linkDownSlot
  split <;> simp [State.settlePairs]
@[simp] theorem State.linkDownSlot_radio (s : State) (i : SlotId) (r : Option Byte) :
    (s.linkDownSlot i r).radio = s.radio := by
  unfold State.linkDownSlot
  split <;> simp [State.settlePairs]
@[simp] theorem State.linkDownSlot_profiles (s : State) (i : SlotId) (r : Option Byte) :
    (s.linkDownSlot i r).profiles = s.profiles := by
  unfold State.linkDownSlot
  split <;> simp [State.settlePairs]
@[simp] theorem State.linkDownSlot_call (s : State) (i : SlotId) (r : Option Byte) :
    (s.linkDownSlot i r).call = s.call := by
  unfold State.linkDownSlot
  split <;> simp [State.settlePairs]
@[simp] theorem State.linkDownSlot_rate (s : State) (i : SlotId) (r : Option Byte) :
    (s.linkDownSlot i r).rate = s.rate := by
  unfold State.linkDownSlot
  split <;> simp [State.settlePairs]
@[simp] theorem State.linkDownSlot_limits (s : State) (i : SlotId) (r : Option Byte) :
    (s.linkDownSlot i r).limits = s.limits := by
  unfold State.linkDownSlot
  split <;> simp [State.settlePairs]
@[simp] theorem State.linkDownSlot_talk (s : State) (i : SlotId) (r : Option Byte) :
    (s.linkDownSlot i r).talk = s.talk := by
  unfold State.linkDownSlot
  split <;> simp [State.settlePairs]
@[simp] theorem State.linkDownSlot_prompt (s : State) (i : SlotId) (r : Option Byte) :
    (s.linkDownSlot i r).prompt = s.prompt := by
  unfold State.linkDownSlot
  split <;> simp [State.settlePairs]
@[simp] theorem State.linkDownSlot_capture (s : State) (i : SlotId) (r : Option Byte) :
    (s.linkDownSlot i r).capture = s.capture := by
  unfold State.linkDownSlot
  split <;> simp [State.settlePairs]
@[simp] theorem State.linkDownSlot_resetHeld (s : State) (i : SlotId) (r : Option Byte) :
    (s.linkDownSlot i r).resetHeld = s.resetHeld := by
  unfold State.linkDownSlot
  split <;> simp [State.settlePairs]
@[simp] theorem State.linkDownSlot_pending (s : State) (i : SlotId) (r : Option Byte) :
    (s.linkDownSlot i r).pending = s.pending := by
  unfold State.linkDownSlot
  split <;> simp [State.settlePairs]
@[simp] theorem State.linkDownSlot_mix_targets (s : State) (i : SlotId) (r : Option Byte) :
    (s.linkDownSlot i r).mix.targets = s.mix.targets := by
  unfold State.linkDownSlot
  split <;> simp [State.settlePairs]
@[simp] theorem State.linkDownSlot_mix_period (s : State) (i : SlotId) (r : Option Byte) :
    (s.linkDownSlot i r).mix.period = s.mix.period := by
  unfold State.linkDownSlot
  split <;> simp [State.settlePairs]
@[simp] theorem State.linkDownSlot_notices_mask (s : State) (i : SlotId) (r : Option Byte) :
    (s.linkDownSlot i r).notices.mask = s.notices.mask := by
  unfold State.linkDownSlot
  split <;> simp [State.settlePairs]

@[simp] theorem State.linkDown_link (s : State) (h : Handle) (r : Option Byte) : (s.linkDown h r).link = s.link :=
  by unfold State.linkDown; split <;> simp
@[simp] theorem State.linkDown_profiles (s : State) (h : Handle) (r : Option Byte) :
    (s.linkDown h r).profiles = s.profiles := by unfold State.linkDown; split <;> simp
@[simp] theorem State.linkDown_call (s : State) (h : Handle) (r : Option Byte) : (s.linkDown h r).call = s.call :=
  by unfold State.linkDown; split <;> simp
@[simp] theorem State.linkDown_rate (s : State) (h : Handle) (r : Option Byte) : (s.linkDown h r).rate = s.rate :=
  by unfold State.linkDown; split <;> simp
@[simp] theorem State.linkDown_limits (s : State) (h : Handle) (r : Option Byte) :
    (s.linkDown h r).limits = s.limits := by unfold State.linkDown; split <;> simp
@[simp] theorem State.linkDown_talk (s : State) (h : Handle) (r : Option Byte) : (s.linkDown h r).talk = s.talk :=
  by unfold State.linkDown; split <;> simp
@[simp] theorem State.linkDown_prompt (s : State) (h : Handle) (r : Option Byte) :
    (s.linkDown h r).prompt = s.prompt := by unfold State.linkDown; split <;> simp
@[simp] theorem State.linkDown_capture (s : State) (h : Handle) (r : Option Byte) :
    (s.linkDown h r).capture = s.capture := by unfold State.linkDown; split <;> simp
@[simp] theorem State.linkDown_resetHeld (s : State) (h : Handle) (r : Option Byte) :
    (s.linkDown h r).resetHeld = s.resetHeld := by unfold State.linkDown; split <;> simp
@[simp] theorem State.linkDown_pending (s : State) (h : Handle) (r : Option Byte) :
    (s.linkDown h r).pending = s.pending := by unfold State.linkDown; split <;> simp
@[simp] theorem State.linkDown_radio_outgoing (s : State) (h : Handle) (r : Option Byte) :
    (s.linkDown h r).radio.outgoing = s.radio.outgoing := by unfold State.linkDown; split <;> simp
@[simp] theorem State.linkDown_radio_line (s : State) (h : Handle) (r : Option Byte) :
    (s.linkDown h r).radio.line = s.radio.line := by unfold State.linkDown; split <;> simp
@[simp] theorem State.linkDown_mix_targets (s : State) (h : Handle) (r : Option Byte) :
    (s.linkDown h r).mix.targets = s.mix.targets := by unfold State.linkDown; split <;> simp
@[simp] theorem State.linkDown_mix_period (s : State) (h : Handle) (r : Option Byte) :
    (s.linkDown h r).mix.period = s.mix.period := by unfold State.linkDown; split <;> simp
@[simp] theorem State.linkDown_notices_mask (s : State) (h : Handle) (r : Option Byte) :
    (s.linkDown h r).notices.mask = s.notices.mask := by unfold State.linkDown; split <;> simp

@[simp] theorem State.rebind_link (s : State) (i : SlotId) (l : PendingLink) : (s.rebind i l).link = s.link :=
  by unfold State.rebind; dsimp only; split <;> simp
@[simp] theorem State.rebind_profiles (s : State) (i : SlotId) (l : PendingLink) :
    (s.rebind i l).profiles = s.profiles := by unfold State.rebind; dsimp only; split <;> simp
@[simp] theorem State.rebind_call (s : State) (i : SlotId) (l : PendingLink) : (s.rebind i l).call = s.call :=
  by unfold State.rebind; dsimp only; split <;> simp
@[simp] theorem State.rebind_rate (s : State) (i : SlotId) (l : PendingLink) : (s.rebind i l).rate = s.rate :=
  by unfold State.rebind; dsimp only; split <;> simp
@[simp] theorem State.rebind_limits (s : State) (i : SlotId) (l : PendingLink) : (s.rebind i l).limits = s.limits :=
  by unfold State.rebind; dsimp only; split <;> simp
@[simp] theorem State.rebind_talk (s : State) (i : SlotId) (l : PendingLink) : (s.rebind i l).talk = s.talk :=
  by unfold State.rebind; dsimp only; split <;> simp
@[simp] theorem State.rebind_prompt (s : State) (i : SlotId) (l : PendingLink) : (s.rebind i l).prompt = s.prompt :=
  by unfold State.rebind; dsimp only; split <;> simp
@[simp] theorem State.rebind_capture (s : State) (i : SlotId) (l : PendingLink) :
    (s.rebind i l).capture = s.capture := by unfold State.rebind; dsimp only; split <;> simp
@[simp] theorem State.rebind_resetHeld (s : State) (i : SlotId) (l : PendingLink) :
    (s.rebind i l).resetHeld = s.resetHeld := by unfold State.rebind; dsimp only; split <;> simp
@[simp] theorem State.rebind_pending (s : State) (i : SlotId) (l : PendingLink) :
    (s.rebind i l).pending = s.pending := by unfold State.rebind; dsimp only; split <;> simp
@[simp] theorem State.rebind_radio_pendingLinks (s : State) (i : SlotId) (l : PendingLink) :
    (s.rebind i l).radio.pendingLinks = s.radio.pendingLinks := by unfold State.rebind; dsimp only; split <;> simp
@[simp] theorem State.rebind_radio_line (s : State) (i : SlotId) (l : PendingLink) :
    (s.rebind i l).radio.line = s.radio.line := by unfold State.rebind; dsimp only; split <;> simp
@[simp] theorem State.rebind_mix_targets (s : State) (i : SlotId) (l : PendingLink) :
    (s.rebind i l).mix.targets = s.mix.targets := by unfold State.rebind; dsimp only; split <;> simp
@[simp] theorem State.rebind_mix_period (s : State) (i : SlotId) (l : PendingLink) :
    (s.rebind i l).mix.period = s.mix.period := by unfold State.rebind; dsimp only; split <;> simp
@[simp] theorem State.rebind_notices_mask (s : State) (i : SlotId) (l : PendingLink) :
    (s.rebind i l).notices.mask = s.notices.mask := by unfold State.rebind; dsimp only; split <;> simp

@[simp] theorem State.supersede_link (s : State) (d : Identity) : (s.supersede d).link = s.link := by
  simp only [State.supersede, State.setPendingLinks_link]
  generalize s.radio.pendingLinks.filter (fun e => e.identity == d) = l
  induction l generalizing s with
  | nil => rfl
  | cons e l ih => rw [List.foldl_cons, ih, State.release_link]
@[simp] theorem State.supersede_notices (s : State) (d : Identity) : (s.supersede d).notices = s.notices := by
  simp only [State.supersede, State.setPendingLinks_notices]
  generalize s.radio.pendingLinks.filter (fun e => e.identity == d) = l
  induction l generalizing s with
  | nil => rfl
  | cons e l ih => rw [List.foldl_cons, ih, State.release_notices]
@[simp] theorem State.supersede_profiles (s : State) (d : Identity) : (s.supersede d).profiles = s.profiles := by
  simp only [State.supersede, State.setPendingLinks_profiles]
  generalize s.radio.pendingLinks.filter (fun e => e.identity == d) = l
  induction l generalizing s with
  | nil => rfl
  | cons e l ih => rw [List.foldl_cons, ih, State.release_profiles]
@[simp] theorem State.supersede_slots (s : State) (d : Identity) : (s.supersede d).slots = s.slots := by
  simp only [State.supersede, State.setPendingLinks_slots]
  generalize s.radio.pendingLinks.filter (fun e => e.identity == d) = l
  induction l generalizing s with
  | nil => rfl
  | cons e l ih => rw [List.foldl_cons, ih, State.release_slots]
@[simp] theorem State.supersede_call (s : State) (d : Identity) : (s.supersede d).call = s.call := by
  simp only [State.supersede, State.setPendingLinks_call]
  generalize s.radio.pendingLinks.filter (fun e => e.identity == d) = l
  induction l generalizing s with
  | nil => rfl
  | cons e l ih => rw [List.foldl_cons, ih, State.release_call]
@[simp] theorem State.supersede_rate (s : State) (d : Identity) : (s.supersede d).rate = s.rate := by
  simp only [State.supersede, State.setPendingLinks_rate]
  generalize s.radio.pendingLinks.filter (fun e => e.identity == d) = l
  induction l generalizing s with
  | nil => rfl
  | cons e l ih => rw [List.foldl_cons, ih, State.release_rate]
@[simp] theorem State.supersede_limits (s : State) (d : Identity) : (s.supersede d).limits = s.limits := by
  simp only [State.supersede, State.setPendingLinks_limits]
  generalize s.radio.pendingLinks.filter (fun e => e.identity == d) = l
  induction l generalizing s with
  | nil => rfl
  | cons e l ih => rw [List.foldl_cons, ih, State.release_limits]
@[simp] theorem State.supersede_mix (s : State) (d : Identity) : (s.supersede d).mix = s.mix := by
  simp only [State.supersede, State.setPendingLinks_mix]
  generalize s.radio.pendingLinks.filter (fun e => e.identity == d) = l
  induction l generalizing s with
  | nil => rfl
  | cons e l ih => rw [List.foldl_cons, ih, State.release_mix]
@[simp] theorem State.supersede_talk (s : State) (d : Identity) : (s.supersede d).talk = s.talk := by
  simp only [State.supersede, State.setPendingLinks_talk]
  generalize s.radio.pendingLinks.filter (fun e => e.identity == d) = l
  induction l generalizing s with
  | nil => rfl
  | cons e l ih => rw [List.foldl_cons, ih, State.release_talk]
@[simp] theorem State.supersede_prompt (s : State) (d : Identity) : (s.supersede d).prompt = s.prompt := by
  simp only [State.supersede, State.setPendingLinks_prompt]
  generalize s.radio.pendingLinks.filter (fun e => e.identity == d) = l
  induction l generalizing s with
  | nil => rfl
  | cons e l ih => rw [List.foldl_cons, ih, State.release_prompt]
@[simp] theorem State.supersede_capture (s : State) (d : Identity) : (s.supersede d).capture = s.capture := by
  simp only [State.supersede, State.setPendingLinks_capture]
  generalize s.radio.pendingLinks.filter (fun e => e.identity == d) = l
  induction l generalizing s with
  | nil => rfl
  | cons e l ih => rw [List.foldl_cons, ih, State.release_capture]
@[simp] theorem State.supersede_resetHeld (s : State) (d : Identity) : (s.supersede d).resetHeld = s.resetHeld := by
  simp only [State.supersede, State.setPendingLinks_resetHeld]
  generalize s.radio.pendingLinks.filter (fun e => e.identity == d) = l
  induction l generalizing s with
  | nil => rfl
  | cons e l ih => rw [List.foldl_cons, ih, State.release_resetHeld]
@[simp] theorem State.supersede_pending (s : State) (d : Identity) : (s.supersede d).pending = s.pending := by
  simp only [State.supersede, State.setPendingLinks_pending]
  generalize s.radio.pendingLinks.filter (fun e => e.identity == d) = l
  induction l generalizing s with
  | nil => rfl
  | cons e l ih => rw [List.foldl_cons, ih, State.release_pending]
@[simp] theorem State.supersede_radio_line (s : State) (d : Identity) : (s.supersede d).radio.line = s.radio.line := by
  simp only [State.supersede, State.setPendingLinks_radio_line]
  generalize s.radio.pendingLinks.filter (fun e => e.identity == d) = l
  induction l generalizing s with
  | nil => rfl
  | cons e l ih => rw [List.foldl_cons, ih, State.release_radio_line]
@[simp] theorem State.supersede_slot (s : State) (d : Identity) (j : SlotId) : (s.supersede d).slot j = s.slot j := by
  rw [State.slot, State.supersede_slots, State.slot]

@[simp] theorem State.appendPending_link (s : State) (l : PendingLink) : (s.appendPending l).link = s.link :=
  by simp [State.appendPending]
@[simp] theorem State.appendPending_profiles (s : State) (l : PendingLink) :
    (s.appendPending l).profiles = s.profiles := by simp [State.appendPending]
@[simp] theorem State.appendPending_slots (s : State) (l : PendingLink) : (s.appendPending l).slots = s.slots :=
  by simp [State.appendPending]
@[simp] theorem State.appendPending_call (s : State) (l : PendingLink) : (s.appendPending l).call = s.call :=
  by simp [State.appendPending]
@[simp] theorem State.appendPending_rate (s : State) (l : PendingLink) : (s.appendPending l).rate = s.rate :=
  by simp [State.appendPending]
@[simp] theorem State.appendPending_limits (s : State) (l : PendingLink) : (s.appendPending l).limits = s.limits :=
  by simp [State.appendPending]
@[simp] theorem State.appendPending_mix (s : State) (l : PendingLink) : (s.appendPending l).mix = s.mix :=
  by simp [State.appendPending]
@[simp] theorem State.appendPending_talk (s : State) (l : PendingLink) : (s.appendPending l).talk = s.talk :=
  by simp [State.appendPending]
@[simp] theorem State.appendPending_prompt (s : State) (l : PendingLink) : (s.appendPending l).prompt = s.prompt :=
  by simp [State.appendPending]
@[simp] theorem State.appendPending_capture (s : State) (l : PendingLink) : (s.appendPending l).capture = s.capture :=
  by simp [State.appendPending]
@[simp] theorem State.appendPending_resetHeld (s : State) (l : PendingLink) :
    (s.appendPending l).resetHeld = s.resetHeld := by simp [State.appendPending]
@[simp] theorem State.appendPending_pending (s : State) (l : PendingLink) : (s.appendPending l).pending = s.pending :=
  by simp [State.appendPending]
@[simp] theorem State.appendPending_radio_line (s : State) (l : PendingLink) :
    (s.appendPending l).radio.line = s.radio.line := by simp [State.appendPending]
@[simp] theorem State.appendPending_notices_mask (s : State) (l : PendingLink) :
    (s.appendPending l).notices.mask = s.notices.mask := by simp [State.appendPending]
@[simp] theorem State.appendPending_slot (s : State) (l : PendingLink) (j : SlotId) :
    (s.appendPending l).slot j = s.slot j := by
  rw [State.slot, State.appendPending_slots, State.slot]

@[simp] theorem State.autoAdmit_link (s : State) (i : SlotId) (l : PendingLink) (p : Profile) :
    (s.autoAdmit i l p).link = s.link := by simp [State.autoAdmit]
@[simp] theorem State.autoAdmit_profiles (s : State) (i : SlotId) (l : PendingLink) (p : Profile) :
    (s.autoAdmit i l p).profiles = s.profiles := by simp [State.autoAdmit]
@[simp] theorem State.autoAdmit_call (s : State) (i : SlotId) (l : PendingLink) (p : Profile) :
    (s.autoAdmit i l p).call = s.call := by simp [State.autoAdmit]
@[simp] theorem State.autoAdmit_rate (s : State) (i : SlotId) (l : PendingLink) (p : Profile) :
    (s.autoAdmit i l p).rate = s.rate := by simp [State.autoAdmit]
@[simp] theorem State.autoAdmit_limits (s : State) (i : SlotId) (l : PendingLink) (p : Profile) :
    (s.autoAdmit i l p).limits = s.limits := by simp [State.autoAdmit]
@[simp] theorem State.autoAdmit_mix (s : State) (i : SlotId) (l : PendingLink) (p : Profile) :
    (s.autoAdmit i l p).mix = s.mix := by simp [State.autoAdmit]
@[simp] theorem State.autoAdmit_talk (s : State) (i : SlotId) (l : PendingLink) (p : Profile) :
    (s.autoAdmit i l p).talk = s.talk := by simp [State.autoAdmit]
@[simp] theorem State.autoAdmit_prompt (s : State) (i : SlotId) (l : PendingLink) (p : Profile) :
    (s.autoAdmit i l p).prompt = s.prompt := by simp [State.autoAdmit]
@[simp] theorem State.autoAdmit_capture (s : State) (i : SlotId) (l : PendingLink) (p : Profile) :
    (s.autoAdmit i l p).capture = s.capture := by simp [State.autoAdmit]
@[simp] theorem State.autoAdmit_resetHeld (s : State) (i : SlotId) (l : PendingLink) (p : Profile) :
    (s.autoAdmit i l p).resetHeld = s.resetHeld := by simp [State.autoAdmit]
@[simp] theorem State.autoAdmit_pending (s : State) (i : SlotId) (l : PendingLink) (p : Profile) :
    (s.autoAdmit i l p).pending = s.pending := by simp [State.autoAdmit]
@[simp] theorem State.autoAdmit_radio_line (s : State) (i : SlotId) (l : PendingLink) (p : Profile) :
    (s.autoAdmit i l p).radio.line = s.radio.line := by simp [State.autoAdmit]
@[simp] theorem State.autoAdmit_notices_mask (s : State) (i : SlotId) (l : PendingLink) (p : Profile) :
    (s.autoAdmit i l p).notices.mask = s.notices.mask := by simp [State.autoAdmit]

@[simp] theorem State.placeLink_link (s : State) (l : PendingLink) : (s.placeLink l).link = s.link :=
  by unfold State.placeLink; (repeat' split); all_goals simp
@[simp] theorem State.placeLink_profiles (s : State) (l : PendingLink) : (s.placeLink l).profiles = s.profiles :=
  by unfold State.placeLink; (repeat' split); all_goals simp
@[simp] theorem State.placeLink_call (s : State) (l : PendingLink) : (s.placeLink l).call = s.call :=
  by unfold State.placeLink; (repeat' split); all_goals simp
@[simp] theorem State.placeLink_rate (s : State) (l : PendingLink) : (s.placeLink l).rate = s.rate :=
  by unfold State.placeLink; (repeat' split); all_goals simp
@[simp] theorem State.placeLink_limits (s : State) (l : PendingLink) : (s.placeLink l).limits = s.limits :=
  by unfold State.placeLink; (repeat' split); all_goals simp
@[simp] theorem State.placeLink_talk (s : State) (l : PendingLink) : (s.placeLink l).talk = s.talk :=
  by unfold State.placeLink; (repeat' split); all_goals simp
@[simp] theorem State.placeLink_prompt (s : State) (l : PendingLink) : (s.placeLink l).prompt = s.prompt :=
  by unfold State.placeLink; (repeat' split); all_goals simp
@[simp] theorem State.placeLink_capture (s : State) (l : PendingLink) : (s.placeLink l).capture = s.capture :=
  by unfold State.placeLink; (repeat' split); all_goals simp
@[simp] theorem State.placeLink_resetHeld (s : State) (l : PendingLink) : (s.placeLink l).resetHeld = s.resetHeld :=
  by unfold State.placeLink; (repeat' split); all_goals simp
@[simp] theorem State.placeLink_pending (s : State) (l : PendingLink) : (s.placeLink l).pending = s.pending :=
  by unfold State.placeLink; (repeat' split); all_goals simp
@[simp] theorem State.placeLink_radio_line (s : State) (l : PendingLink) :
    (s.placeLink l).radio.line = s.radio.line := by unfold State.placeLink; (repeat' split); all_goals simp
@[simp] theorem State.placeLink_mix_targets (s : State) (l : PendingLink) :
    (s.placeLink l).mix.targets = s.mix.targets := by unfold State.placeLink; (repeat' split); all_goals simp
@[simp] theorem State.placeLink_mix_period (s : State) (l : PendingLink) :
    (s.placeLink l).mix.period = s.mix.period := by unfold State.placeLink; (repeat' split); all_goals simp
@[simp] theorem State.placeLink_notices_mask (s : State) (l : PendingLink) :
    (s.placeLink l).notices.mask = s.notices.mask := by unfold State.placeLink; (repeat' split); all_goals simp

@[simp] theorem State.linkUp_link (s : State) (l : PendingLink) : (s.linkUp l).link = s.link := by simp [State.linkUp]
@[simp] theorem State.linkUp_profiles (s : State) (l : PendingLink) : (s.linkUp l).profiles = s.profiles :=
  by simp [State.linkUp]
@[simp] theorem State.linkUp_call (s : State) (l : PendingLink) : (s.linkUp l).call = s.call := by simp [State.linkUp]
@[simp] theorem State.linkUp_rate (s : State) (l : PendingLink) : (s.linkUp l).rate = s.rate := by simp [State.linkUp]
@[simp] theorem State.linkUp_limits (s : State) (l : PendingLink) : (s.linkUp l).limits = s.limits :=
  by simp [State.linkUp]
@[simp] theorem State.linkUp_talk (s : State) (l : PendingLink) : (s.linkUp l).talk = s.talk := by simp [State.linkUp]
@[simp] theorem State.linkUp_prompt (s : State) (l : PendingLink) : (s.linkUp l).prompt = s.prompt :=
  by simp [State.linkUp]
@[simp] theorem State.linkUp_capture (s : State) (l : PendingLink) : (s.linkUp l).capture = s.capture :=
  by simp [State.linkUp]
@[simp] theorem State.linkUp_resetHeld (s : State) (l : PendingLink) : (s.linkUp l).resetHeld = s.resetHeld :=
  by simp [State.linkUp]
@[simp] theorem State.linkUp_pending (s : State) (l : PendingLink) : (s.linkUp l).pending = s.pending :=
  by simp [State.linkUp]
@[simp] theorem State.linkUp_radio_line (s : State) (l : PendingLink) : (s.linkUp l).radio.line = s.radio.line :=
  by simp [State.linkUp]
@[simp] theorem State.linkUp_mix_targets (s : State) (l : PendingLink) : (s.linkUp l).mix.targets = s.mix.targets :=
  by simp [State.linkUp]
@[simp] theorem State.linkUp_mix_period (s : State) (l : PendingLink) : (s.linkUp l).mix.period = s.mix.period :=
  by simp [State.linkUp]
@[simp] theorem State.linkUp_notices_mask (s : State) (l : PendingLink) :
    (s.linkUp l).notices.mask = s.notices.mask := by simp [State.linkUp]

@[simp] theorem State.removeSlot_link (s : State) (i : SlotId) : (s.removeSlot i).link = s.link :=
  by simp [State.removeSlot, State.settlePairs]
@[simp] theorem State.removeSlot_profiles (s : State) (i : SlotId) : (s.removeSlot i).profiles = s.profiles :=
  by simp [State.removeSlot, State.settlePairs]
@[simp] theorem State.removeSlot_call (s : State) (i : SlotId) : (s.removeSlot i).call = s.call :=
  by simp [State.removeSlot, State.settlePairs]
@[simp] theorem State.removeSlot_rate (s : State) (i : SlotId) : (s.removeSlot i).rate = s.rate :=
  by simp [State.removeSlot, State.settlePairs]
@[simp] theorem State.removeSlot_limits (s : State) (i : SlotId) : (s.removeSlot i).limits = s.limits :=
  by simp [State.removeSlot, State.settlePairs]
@[simp] theorem State.removeSlot_talk (s : State) (i : SlotId) : (s.removeSlot i).talk = s.talk :=
  by simp [State.removeSlot, State.settlePairs]
@[simp] theorem State.removeSlot_prompt (s : State) (i : SlotId) : (s.removeSlot i).prompt = s.prompt :=
  by simp [State.removeSlot, State.settlePairs]
@[simp] theorem State.removeSlot_capture (s : State) (i : SlotId) : (s.removeSlot i).capture = s.capture :=
  by simp [State.removeSlot, State.settlePairs]
@[simp] theorem State.removeSlot_resetHeld (s : State) (i : SlotId) : (s.removeSlot i).resetHeld = s.resetHeld :=
  by simp [State.removeSlot, State.settlePairs]
@[simp] theorem State.removeSlot_pending (s : State) (i : SlotId) : (s.removeSlot i).pending = s.pending :=
  by simp [State.removeSlot, State.settlePairs]
@[simp] theorem State.removeSlot_radio_pendingLinks (s : State) (i : SlotId) :
    (s.removeSlot i).radio.pendingLinks = s.radio.pendingLinks := by simp [State.removeSlot, State.settlePairs]
@[simp] theorem State.removeSlot_radio_line (s : State) (i : SlotId) : (s.removeSlot i).radio.line = s.radio.line :=
  by simp [State.removeSlot, State.settlePairs]
@[simp] theorem State.removeSlot_mix_targets (s : State) (i : SlotId) :
    (s.removeSlot i).mix.targets = s.mix.targets := by simp [State.removeSlot, State.settlePairs]
@[simp] theorem State.removeSlot_mix_period (s : State) (i : SlotId) : (s.removeSlot i).mix.period = s.mix.period :=
  by simp [State.removeSlot, State.settlePairs]
@[simp] theorem State.removeSlot_notices_mask (s : State) (i : SlotId) :
    (s.removeSlot i).notices.mask = s.notices.mask := by simp [State.removeSlot, State.settlePairs]

@[simp] theorem State.rampGains_link (s : State) (p : PerSlot SlotState) : (s.rampGains p).link = s.link := rfl
@[simp] theorem State.rampGains_notices (s : State) (p : PerSlot SlotState) : (s.rampGains p).notices = s.notices :=
  rfl
@[simp] theorem State.rampGains_radio (s : State) (p : PerSlot SlotState) : (s.rampGains p).radio = s.radio := rfl
@[simp] theorem State.rampGains_profiles (s : State) (p : PerSlot SlotState) :
    (s.rampGains p).profiles = s.profiles := rfl
@[simp] theorem State.rampGains_slots (s : State) (p : PerSlot SlotState) : (s.rampGains p).slots = s.slots := rfl
@[simp] theorem State.rampGains_call (s : State) (p : PerSlot SlotState) : (s.rampGains p).call = s.call := rfl
@[simp] theorem State.rampGains_rate (s : State) (p : PerSlot SlotState) : (s.rampGains p).rate = s.rate := rfl
@[simp] theorem State.rampGains_limits (s : State) (p : PerSlot SlotState) : (s.rampGains p).limits = s.limits := rfl
@[simp] theorem State.rampGains_talk (s : State) (p : PerSlot SlotState) : (s.rampGains p).talk = s.talk := rfl
@[simp] theorem State.rampGains_prompt (s : State) (p : PerSlot SlotState) : (s.rampGains p).prompt = s.prompt := rfl
@[simp] theorem State.rampGains_capture (s : State) (p : PerSlot SlotState) : (s.rampGains p).capture = s.capture :=
  rfl
@[simp] theorem State.rampGains_resetHeld (s : State) (p : PerSlot SlotState) :
    (s.rampGains p).resetHeld = s.resetHeld := rfl
@[simp] theorem State.rampGains_pending (s : State) (p : PerSlot SlotState) : (s.rampGains p).pending = s.pending :=
  rfl
@[simp] theorem State.rampGains_mix_targets (s : State) (p : PerSlot SlotState) :
    (s.rampGains p).mix.targets = s.mix.targets := rfl
@[simp] theorem State.rampGains_mix_period (s : State) (p : PerSlot SlotState) :
    (s.rampGains p).mix.period = s.mix.period := rfl
@[simp] theorem State.rampGains_slot (s : State) (p : PerSlot SlotState) (j : SlotId) :
    (s.rampGains p).slot j = s.slot j := by
  rw [State.slot, State.rampGains_slots, State.slot]

@[simp] theorem State.inboundPass_link (s : State) (p : PerSlot SlotState) (c : Pacing) (i : SlotId) :
    ((s.inboundPass p c i).1).link = s.link := by unfold State.inboundPass; dsimp only; split <;> simp
@[simp] theorem State.inboundPass_radio (s : State) (p : PerSlot SlotState) (c : Pacing) (i : SlotId) :
    ((s.inboundPass p c i).1).radio = s.radio := by unfold State.inboundPass; dsimp only; split <;> simp
@[simp] theorem State.inboundPass_profiles (s : State) (p : PerSlot SlotState) (c : Pacing) (i : SlotId) :
    ((s.inboundPass p c i).1).profiles = s.profiles := by unfold State.inboundPass; dsimp only; split <;> simp
@[simp] theorem State.inboundPass_call (s : State) (p : PerSlot SlotState) (c : Pacing) (i : SlotId) :
    ((s.inboundPass p c i).1).call = s.call := by unfold State.inboundPass; dsimp only; split <;> simp
@[simp] theorem State.inboundPass_rate (s : State) (p : PerSlot SlotState) (c : Pacing) (i : SlotId) :
    ((s.inboundPass p c i).1).rate = s.rate := by unfold State.inboundPass; dsimp only; split <;> simp
@[simp] theorem State.inboundPass_limits (s : State) (p : PerSlot SlotState) (c : Pacing) (i : SlotId) :
    ((s.inboundPass p c i).1).limits = s.limits := by unfold State.inboundPass; dsimp only; split <;> simp
@[simp] theorem State.inboundPass_mix (s : State) (p : PerSlot SlotState) (c : Pacing) (i : SlotId) :
    ((s.inboundPass p c i).1).mix = s.mix := by unfold State.inboundPass; dsimp only; split <;> simp
@[simp] theorem State.inboundPass_talk (s : State) (p : PerSlot SlotState) (c : Pacing) (i : SlotId) :
    ((s.inboundPass p c i).1).talk = s.talk := by unfold State.inboundPass; dsimp only; split <;> simp
@[simp] theorem State.inboundPass_prompt (s : State) (p : PerSlot SlotState) (c : Pacing) (i : SlotId) :
    ((s.inboundPass p c i).1).prompt = s.prompt := by unfold State.inboundPass; dsimp only; split <;> simp
@[simp] theorem State.inboundPass_resetHeld (s : State) (p : PerSlot SlotState) (c : Pacing) (i : SlotId) :
    ((s.inboundPass p c i).1).resetHeld = s.resetHeld := by unfold State.inboundPass; dsimp only; split <;> simp
@[simp] theorem State.inboundPass_pending (s : State) (p : PerSlot SlotState) (c : Pacing) (i : SlotId) :
    ((s.inboundPass p c i).1).pending = s.pending := by unfold State.inboundPass; dsimp only; split <;> simp
@[simp] theorem State.inboundPass_notices_mask (s : State) (p : PerSlot SlotState) (c : Pacing) (i : SlotId) :
    ((s.inboundPass p c i).1).notices.mask = s.notices.mask :=
  by unfold State.inboundPass; dsimp only; split <;> simp

@[simp] theorem State.micInput_link (s : State) (p : PerSlot SlotState) (c : Pacing) (i : SlotId) :
    ((s.micInput p c i).1).link = s.link := by unfold State.micInput; split <;> simp
@[simp] theorem State.micInput_radio (s : State) (p : PerSlot SlotState) (c : Pacing) (i : SlotId) :
    ((s.micInput p c i).1).radio = s.radio := by unfold State.micInput; split <;> simp
@[simp] theorem State.micInput_profiles (s : State) (p : PerSlot SlotState) (c : Pacing) (i : SlotId) :
    ((s.micInput p c i).1).profiles = s.profiles := by unfold State.micInput; split <;> simp
@[simp] theorem State.micInput_call (s : State) (p : PerSlot SlotState) (c : Pacing) (i : SlotId) :
    ((s.micInput p c i).1).call = s.call := by unfold State.micInput; split <;> simp
@[simp] theorem State.micInput_rate (s : State) (p : PerSlot SlotState) (c : Pacing) (i : SlotId) :
    ((s.micInput p c i).1).rate = s.rate := by unfold State.micInput; split <;> simp
@[simp] theorem State.micInput_limits (s : State) (p : PerSlot SlotState) (c : Pacing) (i : SlotId) :
    ((s.micInput p c i).1).limits = s.limits := by unfold State.micInput; split <;> simp
@[simp] theorem State.micInput_mix (s : State) (p : PerSlot SlotState) (c : Pacing) (i : SlotId) :
    ((s.micInput p c i).1).mix = s.mix := by unfold State.micInput; split <;> simp
@[simp] theorem State.micInput_talk (s : State) (p : PerSlot SlotState) (c : Pacing) (i : SlotId) :
    ((s.micInput p c i).1).talk = s.talk := by unfold State.micInput; split <;> simp
@[simp] theorem State.micInput_prompt (s : State) (p : PerSlot SlotState) (c : Pacing) (i : SlotId) :
    ((s.micInput p c i).1).prompt = s.prompt := by unfold State.micInput; split <;> simp
@[simp] theorem State.micInput_resetHeld (s : State) (p : PerSlot SlotState) (c : Pacing) (i : SlotId) :
    ((s.micInput p c i).1).resetHeld = s.resetHeld := by unfold State.micInput; split <;> simp
@[simp] theorem State.micInput_pending (s : State) (p : PerSlot SlotState) (c : Pacing) (i : SlotId) :
    ((s.micInput p c i).1).pending = s.pending := by unfold State.micInput; split <;> simp
@[simp] theorem State.micInput_notices_mask (s : State) (p : PerSlot SlotState) (c : Pacing) (i : SlotId) :
    ((s.micInput p c i).1).notices.mask = s.notices.mask := by unfold State.micInput; split <;> simp

@[simp] theorem State.micInputs_link (s : State) (p : PerSlot SlotState) (c : Pacing) :
    ((s.micInputs p c).1).link = s.link := by simp [State.micInputs]
@[simp] theorem State.micInputs_radio (s : State) (p : PerSlot SlotState) (c : Pacing) :
    ((s.micInputs p c).1).radio = s.radio := by simp [State.micInputs]
@[simp] theorem State.micInputs_profiles (s : State) (p : PerSlot SlotState) (c : Pacing) :
    ((s.micInputs p c).1).profiles = s.profiles := by simp [State.micInputs]
@[simp] theorem State.micInputs_call (s : State) (p : PerSlot SlotState) (c : Pacing) :
    ((s.micInputs p c).1).call = s.call := by simp [State.micInputs]
@[simp] theorem State.micInputs_rate (s : State) (p : PerSlot SlotState) (c : Pacing) :
    ((s.micInputs p c).1).rate = s.rate := by simp [State.micInputs]
@[simp] theorem State.micInputs_limits (s : State) (p : PerSlot SlotState) (c : Pacing) :
    ((s.micInputs p c).1).limits = s.limits := by simp [State.micInputs]
@[simp] theorem State.micInputs_mix (s : State) (p : PerSlot SlotState) (c : Pacing) :
    ((s.micInputs p c).1).mix = s.mix := by simp [State.micInputs]
@[simp] theorem State.micInputs_talk (s : State) (p : PerSlot SlotState) (c : Pacing) :
    ((s.micInputs p c).1).talk = s.talk := by simp [State.micInputs]
@[simp] theorem State.micInputs_prompt (s : State) (p : PerSlot SlotState) (c : Pacing) :
    ((s.micInputs p c).1).prompt = s.prompt := by simp [State.micInputs]
@[simp] theorem State.micInputs_resetHeld (s : State) (p : PerSlot SlotState) (c : Pacing) :
    ((s.micInputs p c).1).resetHeld = s.resetHeld := by simp [State.micInputs]
@[simp] theorem State.micInputs_pending (s : State) (p : PerSlot SlotState) (c : Pacing) :
    ((s.micInputs p c).1).pending = s.pending := by simp [State.micInputs]
@[simp] theorem State.micInputs_notices_mask (s : State) (p : PerSlot SlotState) (c : Pacing) :
    ((s.micInputs p c).1).notices.mask = s.notices.mask := by simp [State.micInputs]

@[simp] theorem State.raisePrompt_link (s : State) (r : PromptReason) (p : Play) (l : PromptState) (n : Nat) :
    (s.raisePrompt r p l n).link = s.link := rfl
@[simp] theorem State.raisePrompt_radio (s : State) (r : PromptReason) (p : Play) (l : PromptState) (n : Nat) :
    (s.raisePrompt r p l n).radio = s.radio := rfl
@[simp] theorem State.raisePrompt_profiles (s : State) (r : PromptReason) (p : Play) (l : PromptState) (n : Nat) :
    (s.raisePrompt r p l n).profiles = s.profiles := rfl
@[simp] theorem State.raisePrompt_slots (s : State) (r : PromptReason) (p : Play) (l : PromptState) (n : Nat) :
    (s.raisePrompt r p l n).slots = s.slots := rfl
@[simp] theorem State.raisePrompt_call (s : State) (r : PromptReason) (p : Play) (l : PromptState) (n : Nat) :
    (s.raisePrompt r p l n).call = s.call := rfl
@[simp] theorem State.raisePrompt_rate (s : State) (r : PromptReason) (p : Play) (l : PromptState) (n : Nat) :
    (s.raisePrompt r p l n).rate = s.rate := rfl
@[simp] theorem State.raisePrompt_limits (s : State) (r : PromptReason) (p : Play) (l : PromptState) (n : Nat) :
    (s.raisePrompt r p l n).limits = s.limits := rfl
@[simp] theorem State.raisePrompt_mix (s : State) (r : PromptReason) (p : Play) (l : PromptState) (n : Nat) :
    (s.raisePrompt r p l n).mix = s.mix := rfl
@[simp] theorem State.raisePrompt_talk (s : State) (r : PromptReason) (p : Play) (l : PromptState) (n : Nat) :
    (s.raisePrompt r p l n).talk = s.talk := rfl
@[simp] theorem State.raisePrompt_prompt (s : State) (r : PromptReason) (p : Play) (l : PromptState) (n : Nat) :
    (s.raisePrompt r p l n).prompt = s.prompt := rfl
@[simp] theorem State.raisePrompt_capture (s : State) (r : PromptReason) (p : Play) (l : PromptState) (n : Nat) :
    (s.raisePrompt r p l n).capture = s.capture := rfl
@[simp] theorem State.raisePrompt_resetHeld (s : State) (r : PromptReason) (p : Play) (l : PromptState) (n : Nat) :
    (s.raisePrompt r p l n).resetHeld = s.resetHeld := rfl
@[simp] theorem State.raisePrompt_pending (s : State) (r : PromptReason) (p : Play) (l : PromptState) (n : Nat) :
    (s.raisePrompt r p l n).pending = s.pending := rfl
@[simp] theorem State.raisePrompt_notices_mask (s : State) (r : PromptReason) (p : Play) (l : PromptState) (n : Nat) :
    (s.raisePrompt r p l n).notices.mask = s.notices.mask := rfl
@[simp] theorem State.raisePrompt_slot (s : State) (r : PromptReason) (p : Play) (l : PromptState) (n : Nat) (j : SlotId) :
    (s.raisePrompt r p l n).slot j = s.slot j := by
  rw [State.slot, State.raisePrompt_slots, State.slot]

@[simp] theorem State.promptInput_link (s : State) : (s.promptInput.1).link = s.link :=
  by unfold State.promptInput; dsimp only; split <;> simp
@[simp] theorem State.promptInput_radio (s : State) : (s.promptInput.1).radio = s.radio :=
  by unfold State.promptInput; dsimp only; split <;> simp
@[simp] theorem State.promptInput_profiles (s : State) : (s.promptInput.1).profiles = s.profiles :=
  by unfold State.promptInput; dsimp only; split <;> simp
@[simp] theorem State.promptInput_slots (s : State) : (s.promptInput.1).slots = s.slots :=
  by unfold State.promptInput; dsimp only; split <;> simp
@[simp] theorem State.promptInput_call (s : State) : (s.promptInput.1).call = s.call :=
  by unfold State.promptInput; dsimp only; split <;> simp
@[simp] theorem State.promptInput_rate (s : State) : (s.promptInput.1).rate = s.rate :=
  by unfold State.promptInput; dsimp only; split <;> simp
@[simp] theorem State.promptInput_limits (s : State) : (s.promptInput.1).limits = s.limits :=
  by unfold State.promptInput; dsimp only; split <;> simp
@[simp] theorem State.promptInput_mix (s : State) : (s.promptInput.1).mix = s.mix :=
  by unfold State.promptInput; dsimp only; split <;> simp
@[simp] theorem State.promptInput_talk (s : State) : (s.promptInput.1).talk = s.talk :=
  by unfold State.promptInput; dsimp only; split <;> simp
@[simp] theorem State.promptInput_capture (s : State) : (s.promptInput.1).capture = s.capture :=
  by unfold State.promptInput; dsimp only; split <;> simp
@[simp] theorem State.promptInput_resetHeld (s : State) : (s.promptInput.1).resetHeld = s.resetHeld :=
  by unfold State.promptInput; dsimp only; split <;> simp
@[simp] theorem State.promptInput_pending (s : State) : (s.promptInput.1).pending = s.pending :=
  by unfold State.promptInput; dsimp only; split <;> simp
@[simp] theorem State.promptInput_prompt_memory (s : State) : (s.promptInput.1).prompt.memory = s.prompt.memory :=
  by unfold State.promptInput; dsimp only; split <;> simp
@[simp] theorem State.promptInput_notices_mask (s : State) : (s.promptInput.1).notices.mask = s.notices.mask :=
  by unfold State.promptInput; dsimp only; split <;> simp
@[simp] theorem State.promptInput_slot (s : State) (j : SlotId) : (s.promptInput.1).slot j = s.slot j := by
  rw [State.slot, State.promptInput_slots, State.slot]

@[simp] theorem State.raiseMixsat_link (s : State) (n : Output → Nat) (c : Pacing) :
    (s.raiseMixsat n c).link = s.link := by unfold State.raiseMixsat; dsimp only; split <;> simp
@[simp] theorem State.raiseMixsat_radio (s : State) (n : Output → Nat) (c : Pacing) :
    (s.raiseMixsat n c).radio = s.radio := by unfold State.raiseMixsat; dsimp only; split <;> simp
@[simp] theorem State.raiseMixsat_profiles (s : State) (n : Output → Nat) (c : Pacing) :
    (s.raiseMixsat n c).profiles = s.profiles := by unfold State.raiseMixsat; dsimp only; split <;> simp
@[simp] theorem State.raiseMixsat_slots (s : State) (n : Output → Nat) (c : Pacing) :
    (s.raiseMixsat n c).slots = s.slots := by unfold State.raiseMixsat; dsimp only; split <;> simp
@[simp] theorem State.raiseMixsat_call (s : State) (n : Output → Nat) (c : Pacing) :
    (s.raiseMixsat n c).call = s.call := by unfold State.raiseMixsat; dsimp only; split <;> simp
@[simp] theorem State.raiseMixsat_rate (s : State) (n : Output → Nat) (c : Pacing) :
    (s.raiseMixsat n c).rate = s.rate := by unfold State.raiseMixsat; dsimp only; split <;> simp
@[simp] theorem State.raiseMixsat_limits (s : State) (n : Output → Nat) (c : Pacing) :
    (s.raiseMixsat n c).limits = s.limits := by unfold State.raiseMixsat; dsimp only; split <;> simp
@[simp] theorem State.raiseMixsat_mix (s : State) (n : Output → Nat) (c : Pacing) : (s.raiseMixsat n c).mix = s.mix :=
  by unfold State.raiseMixsat; dsimp only; split <;> simp
@[simp] theorem State.raiseMixsat_talk (s : State) (n : Output → Nat) (c : Pacing) :
    (s.raiseMixsat n c).talk = s.talk := by unfold State.raiseMixsat; dsimp only; split <;> simp
@[simp] theorem State.raiseMixsat_prompt (s : State) (n : Output → Nat) (c : Pacing) :
    (s.raiseMixsat n c).prompt = s.prompt := by unfold State.raiseMixsat; dsimp only; split <;> simp
@[simp] theorem State.raiseMixsat_capture (s : State) (n : Output → Nat) (c : Pacing) :
    (s.raiseMixsat n c).capture = s.capture := by unfold State.raiseMixsat; dsimp only; split <;> simp
@[simp] theorem State.raiseMixsat_resetHeld (s : State) (n : Output → Nat) (c : Pacing) :
    (s.raiseMixsat n c).resetHeld = s.resetHeld := by unfold State.raiseMixsat; dsimp only; split <;> simp
@[simp] theorem State.raiseMixsat_pending (s : State) (n : Output → Nat) (c : Pacing) :
    (s.raiseMixsat n c).pending = s.pending := by unfold State.raiseMixsat; dsimp only; split <;> simp
@[simp] theorem State.raiseMixsat_notices_mask (s : State) (n : Output → Nat) (c : Pacing) :
    (s.raiseMixsat n c).notices.mask = s.notices.mask := by unfold State.raiseMixsat; dsimp only; split <;> simp
@[simp] theorem State.raiseMixsat_slot (s : State) (n : Output → Nat) (c : Pacing) (j : SlotId) :
    (s.raiseMixsat n c).slot j = s.slot j := by
  rw [State.slot, State.raiseMixsat_slots, State.slot]

@[simp] theorem State.deliver_link (s : State) (p : PerSlot SlotState) (c : Pacing) (x : MixInputs) :
    (s.deliver p c x).link = s.link := rfl
@[simp] theorem State.deliver_notices (s : State) (p : PerSlot SlotState) (c : Pacing) (x : MixInputs) :
    (s.deliver p c x).notices = s.notices := rfl
@[simp] theorem State.deliver_radio (s : State) (p : PerSlot SlotState) (c : Pacing) (x : MixInputs) :
    (s.deliver p c x).radio = s.radio := rfl
@[simp] theorem State.deliver_profiles (s : State) (p : PerSlot SlotState) (c : Pacing) (x : MixInputs) :
    (s.deliver p c x).profiles = s.profiles := rfl
@[simp] theorem State.deliver_rate (s : State) (p : PerSlot SlotState) (c : Pacing) (x : MixInputs) :
    (s.deliver p c x).rate = s.rate := rfl
@[simp] theorem State.deliver_limits (s : State) (p : PerSlot SlotState) (c : Pacing) (x : MixInputs) :
    (s.deliver p c x).limits = s.limits := rfl
@[simp] theorem State.deliver_mix (s : State) (p : PerSlot SlotState) (c : Pacing) (x : MixInputs) :
    (s.deliver p c x).mix = s.mix := rfl
@[simp] theorem State.deliver_talk (s : State) (p : PerSlot SlotState) (c : Pacing) (x : MixInputs) :
    (s.deliver p c x).talk = s.talk := rfl
@[simp] theorem State.deliver_prompt (s : State) (p : PerSlot SlotState) (c : Pacing) (x : MixInputs) :
    (s.deliver p c x).prompt = s.prompt := rfl
@[simp] theorem State.deliver_capture (s : State) (p : PerSlot SlotState) (c : Pacing) (x : MixInputs) :
    (s.deliver p c x).capture = s.capture := rfl
@[simp] theorem State.deliver_resetHeld (s : State) (p : PerSlot SlotState) (c : Pacing) (x : MixInputs) :
    (s.deliver p c x).resetHeld = s.resetHeld := rfl
@[simp] theorem State.deliver_pending (s : State) (p : PerSlot SlotState) (c : Pacing) (x : MixInputs) :
    (s.deliver p c x).pending = s.pending := rfl

@[simp] theorem State.fillCheck_link (s : State) (p : PerSlot SlotState) (i : SlotId) :
    (s.fillCheck p i).link = s.link := by
  unfold State.fillCheck
  split
  · rfl
  · dsimp only
    split <;> simp
@[simp] theorem State.fillCheck_radio (s : State) (p : PerSlot SlotState) (i : SlotId) :
    (s.fillCheck p i).radio = s.radio := by
  unfold State.fillCheck
  split
  · rfl
  · dsimp only
    split <;> simp
@[simp] theorem State.fillCheck_profiles (s : State) (p : PerSlot SlotState) (i : SlotId) :
    (s.fillCheck p i).profiles = s.profiles := by
  unfold State.fillCheck
  split
  · rfl
  · dsimp only
    split <;> simp
@[simp] theorem State.fillCheck_call (s : State) (p : PerSlot SlotState) (i : SlotId) :
    (s.fillCheck p i).call = s.call := by
  unfold State.fillCheck
  split
  · rfl
  · dsimp only
    split <;> simp
@[simp] theorem State.fillCheck_rate (s : State) (p : PerSlot SlotState) (i : SlotId) :
    (s.fillCheck p i).rate = s.rate := by
  unfold State.fillCheck
  split
  · rfl
  · dsimp only
    split <;> simp
@[simp] theorem State.fillCheck_limits (s : State) (p : PerSlot SlotState) (i : SlotId) :
    (s.fillCheck p i).limits = s.limits := by
  unfold State.fillCheck
  split
  · rfl
  · dsimp only
    split <;> simp
@[simp] theorem State.fillCheck_mix (s : State) (p : PerSlot SlotState) (i : SlotId) :
    (s.fillCheck p i).mix = s.mix := by
  unfold State.fillCheck
  split
  · rfl
  · dsimp only
    split <;> simp
@[simp] theorem State.fillCheck_talk (s : State) (p : PerSlot SlotState) (i : SlotId) :
    (s.fillCheck p i).talk = s.talk := by
  unfold State.fillCheck
  split
  · rfl
  · dsimp only
    split <;> simp
@[simp] theorem State.fillCheck_prompt (s : State) (p : PerSlot SlotState) (i : SlotId) :
    (s.fillCheck p i).prompt = s.prompt := by
  unfold State.fillCheck
  split
  · rfl
  · dsimp only
    split <;> simp
@[simp] theorem State.fillCheck_capture (s : State) (p : PerSlot SlotState) (i : SlotId) :
    (s.fillCheck p i).capture = s.capture := by
  unfold State.fillCheck
  split
  · rfl
  · dsimp only
    split <;> simp
@[simp] theorem State.fillCheck_resetHeld (s : State) (p : PerSlot SlotState) (i : SlotId) :
    (s.fillCheck p i).resetHeld = s.resetHeld := by
  unfold State.fillCheck
  split
  · rfl
  · dsimp only
    split <;> simp
@[simp] theorem State.fillCheck_pending (s : State) (p : PerSlot SlotState) (i : SlotId) :
    (s.fillCheck p i).pending = s.pending := by
  unfold State.fillCheck
  split
  · rfl
  · dsimp only
    split <;> simp
@[simp] theorem State.fillCheck_notices_mask (s : State) (p : PerSlot SlotState) (i : SlotId) :
    (s.fillCheck p i).notices.mask = s.notices.mask := by
  unfold State.fillCheck
  split
  · rfl
  · dsimp only
    split <;> simp

@[simp] theorem State.fillChecks_link (s : State) (p : PerSlot SlotState) : (s.fillChecks p).link = s.link := by
  exact foldl_keeps (fun s => s.link) _ (by intro s i; simp) _ _
@[simp] theorem State.fillChecks_radio (s : State) (p : PerSlot SlotState) : (s.fillChecks p).radio = s.radio := by
  exact foldl_keeps (fun s => s.radio) _ (by intro s i; simp) _ _
@[simp] theorem State.fillChecks_profiles (s : State) (p : PerSlot SlotState) :
    (s.fillChecks p).profiles = s.profiles := by
  exact foldl_keeps (fun s => s.profiles) _ (by intro s i; simp) _ _
@[simp] theorem State.fillChecks_call (s : State) (p : PerSlot SlotState) : (s.fillChecks p).call = s.call := by
  exact foldl_keeps (fun s => s.call) _ (by intro s i; simp) _ _
@[simp] theorem State.fillChecks_rate (s : State) (p : PerSlot SlotState) : (s.fillChecks p).rate = s.rate := by
  exact foldl_keeps (fun s => s.rate) _ (by intro s i; simp) _ _
@[simp] theorem State.fillChecks_limits (s : State) (p : PerSlot SlotState) : (s.fillChecks p).limits = s.limits := by
  exact foldl_keeps (fun s => s.limits) _ (by intro s i; simp) _ _
@[simp] theorem State.fillChecks_mix (s : State) (p : PerSlot SlotState) : (s.fillChecks p).mix = s.mix := by
  exact foldl_keeps (fun s => s.mix) _ (by intro s i; simp) _ _
@[simp] theorem State.fillChecks_talk (s : State) (p : PerSlot SlotState) : (s.fillChecks p).talk = s.talk := by
  exact foldl_keeps (fun s => s.talk) _ (by intro s i; simp) _ _
@[simp] theorem State.fillChecks_prompt (s : State) (p : PerSlot SlotState) : (s.fillChecks p).prompt = s.prompt := by
  exact foldl_keeps (fun s => s.prompt) _ (by intro s i; simp) _ _
@[simp] theorem State.fillChecks_capture (s : State) (p : PerSlot SlotState) : (s.fillChecks p).capture = s.capture := by
  exact foldl_keeps (fun s => s.capture) _ (by intro s i; simp) _ _
@[simp] theorem State.fillChecks_resetHeld (s : State) (p : PerSlot SlotState) :
    (s.fillChecks p).resetHeld = s.resetHeld := by
  exact foldl_keeps (fun s => s.resetHeld) _ (by intro s i; simp) _ _
@[simp] theorem State.fillChecks_pending (s : State) (p : PerSlot SlotState) : (s.fillChecks p).pending = s.pending := by
  exact foldl_keeps (fun s => s.pending) _ (by intro s i; simp) _ _
@[simp] theorem State.fillChecks_notices_mask (s : State) (p : PerSlot SlotState) :
    (s.fillChecks p).notices.mask = s.notices.mask := by
  exact foldl_keeps (fun s => s.notices.mask) _ (by intro s i; simp) _ _

@[simp] theorem State.releaseSilent_link (s : State) : (s.releaseSilent).link = s.link := by
  exact foldl_keeps (fun s => s.link) _ (by intro t i; split <;> simp) _ _
@[simp] theorem State.releaseSilent_notices (s : State) : (s.releaseSilent).notices = s.notices := by
  exact foldl_keeps (fun s => s.notices) _ (by intro t i; split <;> simp) _ _
@[simp] theorem State.releaseSilent_profiles (s : State) : (s.releaseSilent).profiles = s.profiles := by
  exact foldl_keeps (fun s => s.profiles) _ (by intro t i; split <;> simp) _ _
@[simp] theorem State.releaseSilent_slots (s : State) : (s.releaseSilent).slots = s.slots := by
  exact foldl_keeps (fun s => s.slots) _ (by intro t i; split <;> simp) _ _
@[simp] theorem State.releaseSilent_call (s : State) : (s.releaseSilent).call = s.call := by
  exact foldl_keeps (fun s => s.call) _ (by intro t i; split <;> simp) _ _
@[simp] theorem State.releaseSilent_rate (s : State) : (s.releaseSilent).rate = s.rate := by
  exact foldl_keeps (fun s => s.rate) _ (by intro t i; split <;> simp) _ _
@[simp] theorem State.releaseSilent_limits (s : State) : (s.releaseSilent).limits = s.limits := by
  exact foldl_keeps (fun s => s.limits) _ (by intro t i; split <;> simp) _ _
@[simp] theorem State.releaseSilent_mix (s : State) : (s.releaseSilent).mix = s.mix := by
  exact foldl_keeps (fun s => s.mix) _ (by intro t i; split <;> simp) _ _
@[simp] theorem State.releaseSilent_talk (s : State) : (s.releaseSilent).talk = s.talk := by
  exact foldl_keeps (fun s => s.talk) _ (by intro t i; split <;> simp) _ _
@[simp] theorem State.releaseSilent_prompt (s : State) : (s.releaseSilent).prompt = s.prompt := by
  exact foldl_keeps (fun s => s.prompt) _ (by intro t i; split <;> simp) _ _
@[simp] theorem State.releaseSilent_capture (s : State) : (s.releaseSilent).capture = s.capture := by
  exact foldl_keeps (fun s => s.capture) _ (by intro t i; split <;> simp) _ _
@[simp] theorem State.releaseSilent_resetHeld (s : State) : (s.releaseSilent).resetHeld = s.resetHeld := by
  exact foldl_keeps (fun s => s.resetHeld) _ (by intro t i; split <;> simp) _ _
@[simp] theorem State.releaseSilent_pending (s : State) : (s.releaseSilent).pending = s.pending := by
  exact foldl_keeps (fun s => s.pending) _ (by intro t i; split <;> simp) _ _
@[simp] theorem State.releaseSilent_radio_pendingLinks (s : State) :
    (s.releaseSilent).radio.pendingLinks = s.radio.pendingLinks := by
  exact foldl_keeps (fun s => s.radio.pendingLinks) _ (by intro t i; split <;> simp) _ _
@[simp] theorem State.releaseSilent_radio_line (s : State) : (s.releaseSilent).radio.line = s.radio.line := by
  exact foldl_keeps (fun s => s.radio.line) _ (by intro t i; split <;> simp) _ _
@[simp] theorem State.releaseSilent_slot (s : State) (j : SlotId) : (s.releaseSilent).slot j = s.slot j := by
  rw [State.slot, State.releaseSilent_slots, State.slot]

@[simp] theorem State.slotPeriod_link (s : State) : (s.slotPeriod).link = s.link := by simp [State.slotPeriod]
@[simp] theorem State.slotPeriod_profiles (s : State) : (s.slotPeriod).profiles = s.profiles :=
  by simp [State.slotPeriod]
@[simp] theorem State.slotPeriod_call (s : State) : (s.slotPeriod).call = s.call := by simp [State.slotPeriod]
@[simp] theorem State.slotPeriod_rate (s : State) : (s.slotPeriod).rate = s.rate := by simp [State.slotPeriod]
@[simp] theorem State.slotPeriod_limits (s : State) : (s.slotPeriod).limits = s.limits := by simp [State.slotPeriod]
@[simp] theorem State.slotPeriod_talk (s : State) : (s.slotPeriod).talk = s.talk := by simp [State.slotPeriod]
@[simp] theorem State.slotPeriod_prompt (s : State) : (s.slotPeriod).prompt = s.prompt := by simp [State.slotPeriod]
@[simp] theorem State.slotPeriod_capture (s : State) : (s.slotPeriod).capture = s.capture :=
  by simp [State.slotPeriod]
@[simp] theorem State.slotPeriod_resetHeld (s : State) : (s.slotPeriod).resetHeld = s.resetHeld :=
  by simp [State.slotPeriod]
@[simp] theorem State.slotPeriod_pending (s : State) : (s.slotPeriod).pending = s.pending :=
  by simp [State.slotPeriod]
@[simp] theorem State.slotPeriod_radio_pendingLinks (s : State) :
    (s.slotPeriod).radio.pendingLinks = s.radio.pendingLinks := by simp [State.slotPeriod]
@[simp] theorem State.slotPeriod_radio_line (s : State) : (s.slotPeriod).radio.line = s.radio.line :=
  by simp [State.slotPeriod]
@[simp] theorem State.slotPeriod_mix_targets (s : State) : (s.slotPeriod).mix.targets = s.mix.targets :=
  by simp [State.slotPeriod]
@[simp] theorem State.slotPeriod_mix_period (s : State) : (s.slotPeriod).mix.period = s.mix.period :=
  by simp [State.slotPeriod]
@[simp] theorem State.slotPeriod_notices_mask (s : State) : (s.slotPeriod).notices.mask = s.notices.mask :=
  by simp [State.slotPeriod]

@[simp] theorem State.raiseTalk_link (s : State) (p : PerSlot SlotState) (i : SlotId) (c : TalkCause) :
    (s.raiseTalk p i c).link = s.link := by unfold State.raiseTalk; split <;> simp
@[simp] theorem State.raiseTalk_radio (s : State) (p : PerSlot SlotState) (i : SlotId) (c : TalkCause) :
    (s.raiseTalk p i c).radio = s.radio := by unfold State.raiseTalk; split <;> simp
@[simp] theorem State.raiseTalk_profiles (s : State) (p : PerSlot SlotState) (i : SlotId) (c : TalkCause) :
    (s.raiseTalk p i c).profiles = s.profiles := by unfold State.raiseTalk; split <;> simp
@[simp] theorem State.raiseTalk_slots (s : State) (p : PerSlot SlotState) (i : SlotId) (c : TalkCause) :
    (s.raiseTalk p i c).slots = s.slots := by unfold State.raiseTalk; split <;> simp
@[simp] theorem State.raiseTalk_call (s : State) (p : PerSlot SlotState) (i : SlotId) (c : TalkCause) :
    (s.raiseTalk p i c).call = s.call := by unfold State.raiseTalk; split <;> simp
@[simp] theorem State.raiseTalk_rate (s : State) (p : PerSlot SlotState) (i : SlotId) (c : TalkCause) :
    (s.raiseTalk p i c).rate = s.rate := by unfold State.raiseTalk; split <;> simp
@[simp] theorem State.raiseTalk_limits (s : State) (p : PerSlot SlotState) (i : SlotId) (c : TalkCause) :
    (s.raiseTalk p i c).limits = s.limits := by unfold State.raiseTalk; split <;> simp
@[simp] theorem State.raiseTalk_mix (s : State) (p : PerSlot SlotState) (i : SlotId) (c : TalkCause) :
    (s.raiseTalk p i c).mix = s.mix := by unfold State.raiseTalk; split <;> simp
@[simp] theorem State.raiseTalk_talk (s : State) (p : PerSlot SlotState) (i : SlotId) (c : TalkCause) :
    (s.raiseTalk p i c).talk = s.talk := by unfold State.raiseTalk; split <;> simp
@[simp] theorem State.raiseTalk_prompt (s : State) (p : PerSlot SlotState) (i : SlotId) (c : TalkCause) :
    (s.raiseTalk p i c).prompt = s.prompt := by unfold State.raiseTalk; split <;> simp
@[simp] theorem State.raiseTalk_capture (s : State) (p : PerSlot SlotState) (i : SlotId) (c : TalkCause) :
    (s.raiseTalk p i c).capture = s.capture := by unfold State.raiseTalk; split <;> simp
@[simp] theorem State.raiseTalk_resetHeld (s : State) (p : PerSlot SlotState) (i : SlotId) (c : TalkCause) :
    (s.raiseTalk p i c).resetHeld = s.resetHeld := by unfold State.raiseTalk; split <;> simp
@[simp] theorem State.raiseTalk_pending (s : State) (p : PerSlot SlotState) (i : SlotId) (c : TalkCause) :
    (s.raiseTalk p i c).pending = s.pending := by unfold State.raiseTalk; split <;> simp
@[simp] theorem State.raiseTalk_notices_mask (s : State) (p : PerSlot SlotState) (i : SlotId) (c : TalkCause) :
    (s.raiseTalk p i c).notices.mask = s.notices.mask := by unfold State.raiseTalk; split <;> simp
@[simp] theorem State.raiseTalk_slot (s : State) (p : PerSlot SlotState) (i : SlotId) (c : TalkCause) (j : SlotId) :
    (s.raiseTalk p i c).slot j = s.slot j := by
  rw [State.slot, State.raiseTalk_slots, State.slot]

@[simp] theorem State.raiseLevel_link (s : State) (i : SlotId) : (s.raiseLevel i).link = s.link := rfl
@[simp] theorem State.raiseLevel_radio (s : State) (i : SlotId) : (s.raiseLevel i).radio = s.radio := rfl
@[simp] theorem State.raiseLevel_profiles (s : State) (i : SlotId) : (s.raiseLevel i).profiles = s.profiles := rfl
@[simp] theorem State.raiseLevel_slots (s : State) (i : SlotId) : (s.raiseLevel i).slots = s.slots := rfl
@[simp] theorem State.raiseLevel_call (s : State) (i : SlotId) : (s.raiseLevel i).call = s.call := rfl
@[simp] theorem State.raiseLevel_rate (s : State) (i : SlotId) : (s.raiseLevel i).rate = s.rate := rfl
@[simp] theorem State.raiseLevel_limits (s : State) (i : SlotId) : (s.raiseLevel i).limits = s.limits := rfl
@[simp] theorem State.raiseLevel_mix (s : State) (i : SlotId) : (s.raiseLevel i).mix = s.mix := rfl
@[simp] theorem State.raiseLevel_talk (s : State) (i : SlotId) : (s.raiseLevel i).talk = s.talk := rfl
@[simp] theorem State.raiseLevel_prompt (s : State) (i : SlotId) : (s.raiseLevel i).prompt = s.prompt := rfl
@[simp] theorem State.raiseLevel_capture (s : State) (i : SlotId) : (s.raiseLevel i).capture = s.capture := rfl
@[simp] theorem State.raiseLevel_resetHeld (s : State) (i : SlotId) : (s.raiseLevel i).resetHeld = s.resetHeld := rfl
@[simp] theorem State.raiseLevel_pending (s : State) (i : SlotId) : (s.raiseLevel i).pending = s.pending := rfl
@[simp] theorem State.raiseLevel_notices_mask (s : State) (i : SlotId) :
    (s.raiseLevel i).notices.mask = s.notices.mask := rfl
@[simp] theorem State.raiseLevel_slot (s : State) (i : SlotId) (j : SlotId) : (s.raiseLevel i).slot j = s.slot j := by
  rw [State.slot, State.raiseLevel_slots, State.slot]

@[simp] theorem State.talkerClose_link (s : State) (p : PerSlot SlotState) (e : PerSlot (List Sample)) :
    (s.talkerClose p e).link = s.link := by
  simp only [State.talkerClose]
  rw [foldl_keeps (fun s => s.link) _ (by intro t i; split <;> simp)]
  exact foldl_keeps (fun s => s.link) _ (by intro t i; split <;> simp) _ _
@[simp] theorem State.talkerClose_radio (s : State) (p : PerSlot SlotState) (e : PerSlot (List Sample)) :
    (s.talkerClose p e).radio = s.radio := by
  simp only [State.talkerClose]
  rw [foldl_keeps (fun s => s.radio) _ (by intro t i; split <;> simp)]
  exact foldl_keeps (fun s => s.radio) _ (by intro t i; split <;> simp) _ _
@[simp] theorem State.talkerClose_profiles (s : State) (p : PerSlot SlotState) (e : PerSlot (List Sample)) :
    (s.talkerClose p e).profiles = s.profiles := by
  simp only [State.talkerClose]
  rw [foldl_keeps (fun s => s.profiles) _ (by intro t i; split <;> simp)]
  exact foldl_keeps (fun s => s.profiles) _ (by intro t i; split <;> simp) _ _
@[simp] theorem State.talkerClose_call (s : State) (p : PerSlot SlotState) (e : PerSlot (List Sample)) :
    (s.talkerClose p e).call = s.call := by
  simp only [State.talkerClose]
  rw [foldl_keeps (fun s => s.call) _ (by intro t i; split <;> simp)]
  exact foldl_keeps (fun s => s.call) _ (by intro t i; split <;> simp) _ _
@[simp] theorem State.talkerClose_rate (s : State) (p : PerSlot SlotState) (e : PerSlot (List Sample)) :
    (s.talkerClose p e).rate = s.rate := by
  simp only [State.talkerClose]
  rw [foldl_keeps (fun s => s.rate) _ (by intro t i; split <;> simp)]
  exact foldl_keeps (fun s => s.rate) _ (by intro t i; split <;> simp) _ _
@[simp] theorem State.talkerClose_limits (s : State) (p : PerSlot SlotState) (e : PerSlot (List Sample)) :
    (s.talkerClose p e).limits = s.limits := by
  simp only [State.talkerClose]
  rw [foldl_keeps (fun s => s.limits) _ (by intro t i; split <;> simp)]
  exact foldl_keeps (fun s => s.limits) _ (by intro t i; split <;> simp) _ _
@[simp] theorem State.talkerClose_mix (s : State) (p : PerSlot SlotState) (e : PerSlot (List Sample)) :
    (s.talkerClose p e).mix = s.mix := by
  simp only [State.talkerClose]
  rw [foldl_keeps (fun s => s.mix) _ (by intro t i; split <;> simp)]
  exact foldl_keeps (fun s => s.mix) _ (by intro t i; split <;> simp) _ _
@[simp] theorem State.talkerClose_talk (s : State) (p : PerSlot SlotState) (e : PerSlot (List Sample)) :
    (s.talkerClose p e).talk = s.talk := by
  simp only [State.talkerClose]
  rw [foldl_keeps (fun s => s.talk) _ (by intro t i; split <;> simp)]
  exact foldl_keeps (fun s => s.talk) _ (by intro t i; split <;> simp) _ _
@[simp] theorem State.talkerClose_prompt (s : State) (p : PerSlot SlotState) (e : PerSlot (List Sample)) :
    (s.talkerClose p e).prompt = s.prompt := by
  simp only [State.talkerClose]
  rw [foldl_keeps (fun s => s.prompt) _ (by intro t i; split <;> simp)]
  exact foldl_keeps (fun s => s.prompt) _ (by intro t i; split <;> simp) _ _
@[simp] theorem State.talkerClose_capture (s : State) (p : PerSlot SlotState) (e : PerSlot (List Sample)) :
    (s.talkerClose p e).capture = s.capture := by
  simp only [State.talkerClose]
  rw [foldl_keeps (fun s => s.capture) _ (by intro t i; split <;> simp)]
  exact foldl_keeps (fun s => s.capture) _ (by intro t i; split <;> simp) _ _
@[simp] theorem State.talkerClose_resetHeld (s : State) (p : PerSlot SlotState) (e : PerSlot (List Sample)) :
    (s.talkerClose p e).resetHeld = s.resetHeld := by
  simp only [State.talkerClose]
  rw [foldl_keeps (fun s => s.resetHeld) _ (by intro t i; split <;> simp)]
  exact foldl_keeps (fun s => s.resetHeld) _ (by intro t i; split <;> simp) _ _
@[simp] theorem State.talkerClose_pending (s : State) (p : PerSlot SlotState) (e : PerSlot (List Sample)) :
    (s.talkerClose p e).pending = s.pending := by
  simp only [State.talkerClose]
  rw [foldl_keeps (fun s => s.pending) _ (by intro t i; split <;> simp)]
  exact foldl_keeps (fun s => s.pending) _ (by intro t i; split <;> simp) _ _
@[simp] theorem State.talkerClose_notices_mask (s : State) (p : PerSlot SlotState) (e : PerSlot (List Sample)) :
    (s.talkerClose p e).notices.mask = s.notices.mask := by
  simp only [State.talkerClose]
  rw [foldl_keeps (fun s => s.notices.mask) _ (by intro t i; split <;> simp)]
  exact foldl_keeps (fun s => s.notices.mask) _ (by intro t i; split <;> simp) _ _

@[simp] theorem State.mixPeriod_link (s : State) (c : Pacing) (d : List Sample) : (s.mixPeriod c d).link = s.link :=
  by simp [State.mixPeriod]
@[simp] theorem State.mixPeriod_profiles (s : State) (c : Pacing) (d : List Sample) :
    (s.mixPeriod c d).profiles = s.profiles := by simp [State.mixPeriod]
@[simp] theorem State.mixPeriod_rate (s : State) (c : Pacing) (d : List Sample) : (s.mixPeriod c d).rate = s.rate :=
  by simp [State.mixPeriod]
@[simp] theorem State.mixPeriod_limits (s : State) (c : Pacing) (d : List Sample) :
    (s.mixPeriod c d).limits = s.limits := by simp [State.mixPeriod]
@[simp] theorem State.mixPeriod_talk (s : State) (c : Pacing) (d : List Sample) : (s.mixPeriod c d).talk = s.talk :=
  by simp [State.mixPeriod]
@[simp] theorem State.mixPeriod_resetHeld (s : State) (c : Pacing) (d : List Sample) :
    (s.mixPeriod c d).resetHeld = s.resetHeld := by simp [State.mixPeriod]
@[simp] theorem State.mixPeriod_pending (s : State) (c : Pacing) (d : List Sample) :
    (s.mixPeriod c d).pending = s.pending := by simp [State.mixPeriod]
@[simp] theorem State.mixPeriod_radio_pendingLinks (s : State) (c : Pacing) (d : List Sample) :
    (s.mixPeriod c d).radio.pendingLinks = s.radio.pendingLinks := by simp [State.mixPeriod]
@[simp] theorem State.mixPeriod_radio_line (s : State) (c : Pacing) (d : List Sample) :
    (s.mixPeriod c d).radio.line = s.radio.line := by simp [State.mixPeriod]
@[simp] theorem State.mixPeriod_mix_targets (s : State) (c : Pacing) (d : List Sample) :
    (s.mixPeriod c d).mix.targets = s.mix.targets := by simp [State.mixPeriod]
@[simp] theorem State.mixPeriod_prompt_memory (s : State) (c : Pacing) (d : List Sample) :
    (s.mixPeriod c d).prompt.memory = s.prompt.memory := by simp [State.mixPeriod]
@[simp] theorem State.mixPeriod_notices_mask (s : State) (c : Pacing) (d : List Sample) :
    (s.mixPeriod c d).notices.mask = s.notices.mask := by simp [State.mixPeriod]

@[simp] theorem State.raiseCall_link (s : State) (r : CallReason) (m : Option Int) :
    (s.raiseCall r m).link = s.link := rfl
@[simp] theorem State.raiseCall_radio (s : State) (r : CallReason) (m : Option Int) :
    (s.raiseCall r m).radio = s.radio := rfl
@[simp] theorem State.raiseCall_profiles (s : State) (r : CallReason) (m : Option Int) :
    (s.raiseCall r m).profiles = s.profiles := rfl
@[simp] theorem State.raiseCall_slots (s : State) (r : CallReason) (m : Option Int) :
    (s.raiseCall r m).slots = s.slots := rfl
@[simp] theorem State.raiseCall_call (s : State) (r : CallReason) (m : Option Int) :
    (s.raiseCall r m).call = s.call := rfl
@[simp] theorem State.raiseCall_rate (s : State) (r : CallReason) (m : Option Int) :
    (s.raiseCall r m).rate = s.rate := rfl
@[simp] theorem State.raiseCall_limits (s : State) (r : CallReason) (m : Option Int) :
    (s.raiseCall r m).limits = s.limits := rfl
@[simp] theorem State.raiseCall_mix (s : State) (r : CallReason) (m : Option Int) : (s.raiseCall r m).mix = s.mix :=
  rfl
@[simp] theorem State.raiseCall_talk (s : State) (r : CallReason) (m : Option Int) :
    (s.raiseCall r m).talk = s.talk := rfl
@[simp] theorem State.raiseCall_prompt (s : State) (r : CallReason) (m : Option Int) :
    (s.raiseCall r m).prompt = s.prompt := rfl
@[simp] theorem State.raiseCall_capture (s : State) (r : CallReason) (m : Option Int) :
    (s.raiseCall r m).capture = s.capture := rfl
@[simp] theorem State.raiseCall_resetHeld (s : State) (r : CallReason) (m : Option Int) :
    (s.raiseCall r m).resetHeld = s.resetHeld := rfl
@[simp] theorem State.raiseCall_pending (s : State) (r : CallReason) (m : Option Int) :
    (s.raiseCall r m).pending = s.pending := rfl
@[simp] theorem State.raiseCall_notices_mask (s : State) (r : CallReason) (m : Option Int) :
    (s.raiseCall r m).notices.mask = s.notices.mask := rfl
@[simp] theorem State.raiseCall_slot (s : State) (r : CallReason) (m : Option Int) (j : SlotId) :
    (s.raiseCall r m).slot j = s.slot j := by
  rw [State.slot, State.raiseCall_slots, State.slot]

@[simp] theorem State.startCall_link (s : State) (t : Nat) : (s.startCall t).link = s.link := rfl
@[simp] theorem State.startCall_radio (s : State) (t : Nat) : (s.startCall t).radio = s.radio := rfl
@[simp] theorem State.startCall_profiles (s : State) (t : Nat) : (s.startCall t).profiles = s.profiles := rfl
@[simp] theorem State.startCall_slots (s : State) (t : Nat) : (s.startCall t).slots = s.slots := rfl
@[simp] theorem State.startCall_limits (s : State) (t : Nat) : (s.startCall t).limits = s.limits := rfl
@[simp] theorem State.startCall_mix (s : State) (t : Nat) : (s.startCall t).mix = s.mix := rfl
@[simp] theorem State.startCall_talk (s : State) (t : Nat) : (s.startCall t).talk = s.talk := rfl
@[simp] theorem State.startCall_prompt (s : State) (t : Nat) : (s.startCall t).prompt = s.prompt := rfl
@[simp] theorem State.startCall_capture (s : State) (t : Nat) : (s.startCall t).capture = s.capture := rfl
@[simp] theorem State.startCall_resetHeld (s : State) (t : Nat) : (s.startCall t).resetHeld = s.resetHeld := rfl
@[simp] theorem State.startCall_pending (s : State) (t : Nat) : (s.startCall t).pending = s.pending := rfl
@[simp] theorem State.startCall_notices_mask (s : State) (t : Nat) : (s.startCall t).notices.mask = s.notices.mask :=
  rfl
@[simp] theorem State.startCall_slot (s : State) (t : Nat) (j : SlotId) : (s.startCall t).slot j = s.slot j := by
  rw [State.slot, State.startCall_slots, State.slot]

@[simp] theorem State.exchange_link (s : State) (t : Nat) (d : Sample) : (s.exchange t d).link = s.link := rfl
@[simp] theorem State.exchange_notices (s : State) (t : Nat) (d : Sample) : (s.exchange t d).notices = s.notices :=
  rfl
@[simp] theorem State.exchange_radio (s : State) (t : Nat) (d : Sample) : (s.exchange t d).radio = s.radio := rfl
@[simp] theorem State.exchange_profiles (s : State) (t : Nat) (d : Sample) : (s.exchange t d).profiles = s.profiles :=
  rfl
@[simp] theorem State.exchange_slots (s : State) (t : Nat) (d : Sample) : (s.exchange t d).slots = s.slots := rfl
@[simp] theorem State.exchange_rate (s : State) (t : Nat) (d : Sample) : (s.exchange t d).rate = s.rate := rfl
@[simp] theorem State.exchange_limits (s : State) (t : Nat) (d : Sample) : (s.exchange t d).limits = s.limits := rfl
@[simp] theorem State.exchange_mix (s : State) (t : Nat) (d : Sample) : (s.exchange t d).mix = s.mix := rfl
@[simp] theorem State.exchange_talk (s : State) (t : Nat) (d : Sample) : (s.exchange t d).talk = s.talk := rfl
@[simp] theorem State.exchange_prompt (s : State) (t : Nat) (d : Sample) : (s.exchange t d).prompt = s.prompt := rfl
@[simp] theorem State.exchange_capture (s : State) (t : Nat) (d : Sample) : (s.exchange t d).capture = s.capture :=
  rfl
@[simp] theorem State.exchange_resetHeld (s : State) (t : Nat) (d : Sample) :
    (s.exchange t d).resetHeld = s.resetHeld := rfl
@[simp] theorem State.exchange_pending (s : State) (t : Nat) (d : Sample) : (s.exchange t d).pending = s.pending :=
  rfl
@[simp] theorem State.exchange_slot (s : State) (t : Nat) (d : Sample) (j : SlotId) :
    (s.exchange t d).slot j = s.slot j := by
  rw [State.slot, State.exchange_slots, State.slot]

@[simp] theorem State.callResult_link (s : State) (m : Int) : (s.callResult m).link = s.link := by
  unfold State.callResult
  dsimp only
  (repeat' split)
  all_goals rfl
@[simp] theorem State.callResult_radio (s : State) (m : Int) : (s.callResult m).radio = s.radio := by
  unfold State.callResult
  dsimp only
  (repeat' split)
  all_goals rfl
@[simp] theorem State.callResult_profiles (s : State) (m : Int) : (s.callResult m).profiles = s.profiles := by
  unfold State.callResult
  dsimp only
  (repeat' split)
  all_goals rfl
@[simp] theorem State.callResult_slots (s : State) (m : Int) : (s.callResult m).slots = s.slots := by
  unfold State.callResult
  dsimp only
  (repeat' split)
  all_goals rfl
@[simp] theorem State.callResult_rate (s : State) (m : Int) : (s.callResult m).rate = s.rate := by
  unfold State.callResult
  dsimp only
  (repeat' split)
  all_goals rfl
@[simp] theorem State.callResult_limits (s : State) (m : Int) : (s.callResult m).limits = s.limits := by
  unfold State.callResult
  dsimp only
  (repeat' split)
  all_goals rfl
@[simp] theorem State.callResult_mix (s : State) (m : Int) : (s.callResult m).mix = s.mix := by
  unfold State.callResult
  dsimp only
  (repeat' split)
  all_goals rfl
@[simp] theorem State.callResult_talk (s : State) (m : Int) : (s.callResult m).talk = s.talk := by
  unfold State.callResult
  dsimp only
  (repeat' split)
  all_goals rfl
@[simp] theorem State.callResult_prompt (s : State) (m : Int) : (s.callResult m).prompt = s.prompt := by
  unfold State.callResult
  dsimp only
  (repeat' split)
  all_goals rfl
@[simp] theorem State.callResult_capture (s : State) (m : Int) : (s.callResult m).capture = s.capture := by
  unfold State.callResult
  dsimp only
  (repeat' split)
  all_goals rfl
@[simp] theorem State.callResult_resetHeld (s : State) (m : Int) : (s.callResult m).resetHeld = s.resetHeld := by
  unfold State.callResult
  dsimp only
  (repeat' split)
  all_goals rfl
@[simp] theorem State.callResult_pending (s : State) (m : Int) : (s.callResult m).pending = s.pending := by
  unfold State.callResult
  dsimp only
  (repeat' split)
  all_goals rfl
@[simp] theorem State.callResult_notices_mask (s : State) (m : Int) :
    (s.callResult m).notices.mask = s.notices.mask := by
  unfold State.callResult
  dsimp only
  (repeat' split)
  all_goals rfl
@[simp] theorem State.callResult_slot (s : State) (m : Int) (j : SlotId) : (s.callResult m).slot j = s.slot j := by
  rw [State.slot, State.callResult_slots, State.slot]

@[simp] theorem State.completeCallWindow_link (s : State) (w : CallWindow) (t : Nat) :
    (s.completeCallWindow w t).link = s.link := by simp [State.completeCallWindow]
@[simp] theorem State.completeCallWindow_radio (s : State) (w : CallWindow) (t : Nat) :
    (s.completeCallWindow w t).radio = s.radio := by simp [State.completeCallWindow]
@[simp] theorem State.completeCallWindow_profiles (s : State) (w : CallWindow) (t : Nat) :
    (s.completeCallWindow w t).profiles = s.profiles := by simp [State.completeCallWindow]
@[simp] theorem State.completeCallWindow_slots (s : State) (w : CallWindow) (t : Nat) :
    (s.completeCallWindow w t).slots = s.slots := by simp [State.completeCallWindow]
@[simp] theorem State.completeCallWindow_limits (s : State) (w : CallWindow) (t : Nat) :
    (s.completeCallWindow w t).limits = s.limits := by simp [State.completeCallWindow]
@[simp] theorem State.completeCallWindow_mix (s : State) (w : CallWindow) (t : Nat) :
    (s.completeCallWindow w t).mix = s.mix := by simp [State.completeCallWindow]
@[simp] theorem State.completeCallWindow_talk (s : State) (w : CallWindow) (t : Nat) :
    (s.completeCallWindow w t).talk = s.talk := by simp [State.completeCallWindow]
@[simp] theorem State.completeCallWindow_prompt (s : State) (w : CallWindow) (t : Nat) :
    (s.completeCallWindow w t).prompt = s.prompt := by simp [State.completeCallWindow]
@[simp] theorem State.completeCallWindow_capture (s : State) (w : CallWindow) (t : Nat) :
    (s.completeCallWindow w t).capture = s.capture := by simp [State.completeCallWindow]
@[simp] theorem State.completeCallWindow_resetHeld (s : State) (w : CallWindow) (t : Nat) :
    (s.completeCallWindow w t).resetHeld = s.resetHeld := by simp [State.completeCallWindow]
@[simp] theorem State.completeCallWindow_pending (s : State) (w : CallWindow) (t : Nat) :
    (s.completeCallWindow w t).pending = s.pending := by simp [State.completeCallWindow]
@[simp] theorem State.completeCallWindow_notices_mask (s : State) (w : CallWindow) (t : Nat) :
    (s.completeCallWindow w t).notices.mask = s.notices.mask := by simp [State.completeCallWindow]
@[simp] theorem State.completeCallWindow_slot (s : State) (w : CallWindow) (t : Nat) (j : SlotId) :
    (s.completeCallWindow w t).slot j = s.slot j := by
  rw [State.slot, State.completeCallWindow_slots, State.slot]

@[simp] theorem State.windowStrobe_link (s : State) (t : Nat) : (s.windowStrobe t).link = s.link :=
  by unfold State.windowStrobe; (repeat' split); all_goals simp
@[simp] theorem State.windowStrobe_radio (s : State) (t : Nat) : (s.windowStrobe t).radio = s.radio :=
  by unfold State.windowStrobe; (repeat' split); all_goals simp
@[simp] theorem State.windowStrobe_profiles (s : State) (t : Nat) : (s.windowStrobe t).profiles = s.profiles :=
  by unfold State.windowStrobe; (repeat' split); all_goals simp
@[simp] theorem State.windowStrobe_slots (s : State) (t : Nat) : (s.windowStrobe t).slots = s.slots :=
  by unfold State.windowStrobe; (repeat' split); all_goals simp
@[simp] theorem State.windowStrobe_limits (s : State) (t : Nat) : (s.windowStrobe t).limits = s.limits :=
  by unfold State.windowStrobe; (repeat' split); all_goals simp
@[simp] theorem State.windowStrobe_mix (s : State) (t : Nat) : (s.windowStrobe t).mix = s.mix :=
  by unfold State.windowStrobe; (repeat' split); all_goals simp
@[simp] theorem State.windowStrobe_talk (s : State) (t : Nat) : (s.windowStrobe t).talk = s.talk :=
  by unfold State.windowStrobe; (repeat' split); all_goals simp
@[simp] theorem State.windowStrobe_prompt (s : State) (t : Nat) : (s.windowStrobe t).prompt = s.prompt :=
  by unfold State.windowStrobe; (repeat' split); all_goals simp
@[simp] theorem State.windowStrobe_capture (s : State) (t : Nat) : (s.windowStrobe t).capture = s.capture :=
  by unfold State.windowStrobe; (repeat' split); all_goals simp
@[simp] theorem State.windowStrobe_resetHeld (s : State) (t : Nat) : (s.windowStrobe t).resetHeld = s.resetHeld :=
  by unfold State.windowStrobe; (repeat' split); all_goals simp
@[simp] theorem State.windowStrobe_pending (s : State) (t : Nat) : (s.windowStrobe t).pending = s.pending :=
  by unfold State.windowStrobe; (repeat' split); all_goals simp
@[simp] theorem State.windowStrobe_notices_mask (s : State) (t : Nat) :
    (s.windowStrobe t).notices.mask = s.notices.mask :=
  by unfold State.windowStrobe; (repeat' split); all_goals simp
@[simp] theorem State.windowStrobe_slot (s : State) (t : Nat) (j : SlotId) : (s.windowStrobe t).slot j = s.slot j := by
  rw [State.slot, State.windowStrobe_slots, State.slot]

@[simp] theorem State.endPeriod_link (s : State) (t : Nat) : (s.endPeriod t).link = s.link :=
  by unfold State.endPeriod; split <;> simp
@[simp] theorem State.endPeriod_profiles (s : State) (t : Nat) : (s.endPeriod t).profiles = s.profiles :=
  by unfold State.endPeriod; split <;> simp
@[simp] theorem State.endPeriod_rate (s : State) (t : Nat) : (s.endPeriod t).rate = s.rate :=
  by unfold State.endPeriod; split <;> simp
@[simp] theorem State.endPeriod_limits (s : State) (t : Nat) : (s.endPeriod t).limits = s.limits :=
  by unfold State.endPeriod; split <;> simp
@[simp] theorem State.endPeriod_talk (s : State) (t : Nat) : (s.endPeriod t).talk = s.talk :=
  by unfold State.endPeriod; split <;> simp
@[simp] theorem State.endPeriod_resetHeld (s : State) (t : Nat) : (s.endPeriod t).resetHeld = s.resetHeld :=
  by unfold State.endPeriod; split <;> simp
@[simp] theorem State.endPeriod_pending (s : State) (t : Nat) : (s.endPeriod t).pending = s.pending :=
  by unfold State.endPeriod; split <;> simp
@[simp] theorem State.endPeriod_radio_pendingLinks (s : State) (t : Nat) :
    (s.endPeriod t).radio.pendingLinks = s.radio.pendingLinks := by unfold State.endPeriod; split <;> simp
@[simp] theorem State.endPeriod_radio_line (s : State) (t : Nat) : (s.endPeriod t).radio.line = s.radio.line :=
  by unfold State.endPeriod; split <;> simp
@[simp] theorem State.endPeriod_mix_targets (s : State) (t : Nat) : (s.endPeriod t).mix.targets = s.mix.targets :=
  by unfold State.endPeriod; split <;> simp
@[simp] theorem State.endPeriod_prompt_memory (s : State) (t : Nat) :
    (s.endPeriod t).prompt.memory = s.prompt.memory := by unfold State.endPeriod; split <;> simp
@[simp] theorem State.endPeriod_notices_mask (s : State) (t : Nat) : (s.endPeriod t).notices.mask = s.notices.mask :=
  by unfold State.endPeriod; split <;> simp

@[simp] theorem State.takeStrobe_link (s : State) (t : Nat) (d : Sample) : (s.takeStrobe t d).link = s.link :=
  by unfold State.takeStrobe; split <;> simp
@[simp] theorem State.takeStrobe_profiles (s : State) (t : Nat) (d : Sample) :
    (s.takeStrobe t d).profiles = s.profiles := by unfold State.takeStrobe; split <;> simp
@[simp] theorem State.takeStrobe_limits (s : State) (t : Nat) (d : Sample) : (s.takeStrobe t d).limits = s.limits :=
  by unfold State.takeStrobe; split <;> simp
@[simp] theorem State.takeStrobe_talk (s : State) (t : Nat) (d : Sample) : (s.takeStrobe t d).talk = s.talk :=
  by unfold State.takeStrobe; split <;> simp
@[simp] theorem State.takeStrobe_resetHeld (s : State) (t : Nat) (d : Sample) :
    (s.takeStrobe t d).resetHeld = s.resetHeld := by unfold State.takeStrobe; split <;> simp
@[simp] theorem State.takeStrobe_pending (s : State) (t : Nat) (d : Sample) :
    (s.takeStrobe t d).pending = s.pending := by unfold State.takeStrobe; split <;> simp
@[simp] theorem State.takeStrobe_radio_pendingLinks (s : State) (t : Nat) (d : Sample) :
    (s.takeStrobe t d).radio.pendingLinks = s.radio.pendingLinks := by unfold State.takeStrobe; split <;> simp
@[simp] theorem State.takeStrobe_radio_line (s : State) (t : Nat) (d : Sample) :
    (s.takeStrobe t d).radio.line = s.radio.line := by unfold State.takeStrobe; split <;> simp
@[simp] theorem State.takeStrobe_mix_targets (s : State) (t : Nat) (d : Sample) :
    (s.takeStrobe t d).mix.targets = s.mix.targets := by unfold State.takeStrobe; split <;> simp
@[simp] theorem State.takeStrobe_prompt_memory (s : State) (t : Nat) (d : Sample) :
    (s.takeStrobe t d).prompt.memory = s.prompt.memory := by unfold State.takeStrobe; split <;> simp
@[simp] theorem State.takeStrobe_notices_mask (s : State) (t : Nat) (d : Sample) :
    (s.takeStrobe t d).notices.mask = s.notices.mask := by unfold State.takeStrobe; split <;> simp

@[simp] theorem State.releaseAll_link (s : State) : (s.releaseAll).link = s.link := by
  unfold State.releaseAll
  rw [foldl_keeps (fun s => s.link) _ (by intro t e; simp)]
  exact foldl_keeps (fun s => s.link) _ (by intro t i; simp) _ _
@[simp] theorem State.releaseAll_notices (s : State) : (s.releaseAll).notices = s.notices := by
  unfold State.releaseAll
  rw [foldl_keeps (fun s => s.notices) _ (by intro t e; simp)]
  exact foldl_keeps (fun s => s.notices) _ (by intro t i; simp) _ _
@[simp] theorem State.releaseAll_profiles (s : State) : (s.releaseAll).profiles = s.profiles := by
  unfold State.releaseAll
  rw [foldl_keeps (fun s => s.profiles) _ (by intro t e; simp)]
  exact foldl_keeps (fun s => s.profiles) _ (by intro t i; simp) _ _
@[simp] theorem State.releaseAll_slots (s : State) : (s.releaseAll).slots = s.slots := by
  unfold State.releaseAll
  rw [foldl_keeps (fun s => s.slots) _ (by intro t e; simp)]
  exact foldl_keeps (fun s => s.slots) _ (by intro t i; simp) _ _
@[simp] theorem State.releaseAll_call (s : State) : (s.releaseAll).call = s.call := by
  unfold State.releaseAll
  rw [foldl_keeps (fun s => s.call) _ (by intro t e; simp)]
  exact foldl_keeps (fun s => s.call) _ (by intro t i; simp) _ _
@[simp] theorem State.releaseAll_rate (s : State) : (s.releaseAll).rate = s.rate := by
  unfold State.releaseAll
  rw [foldl_keeps (fun s => s.rate) _ (by intro t e; simp)]
  exact foldl_keeps (fun s => s.rate) _ (by intro t i; simp) _ _
@[simp] theorem State.releaseAll_limits (s : State) : (s.releaseAll).limits = s.limits := by
  unfold State.releaseAll
  rw [foldl_keeps (fun s => s.limits) _ (by intro t e; simp)]
  exact foldl_keeps (fun s => s.limits) _ (by intro t i; simp) _ _
@[simp] theorem State.releaseAll_mix (s : State) : (s.releaseAll).mix = s.mix := by
  unfold State.releaseAll
  rw [foldl_keeps (fun s => s.mix) _ (by intro t e; simp)]
  exact foldl_keeps (fun s => s.mix) _ (by intro t i; simp) _ _
@[simp] theorem State.releaseAll_talk (s : State) : (s.releaseAll).talk = s.talk := by
  unfold State.releaseAll
  rw [foldl_keeps (fun s => s.talk) _ (by intro t e; simp)]
  exact foldl_keeps (fun s => s.talk) _ (by intro t i; simp) _ _
@[simp] theorem State.releaseAll_prompt (s : State) : (s.releaseAll).prompt = s.prompt := by
  unfold State.releaseAll
  rw [foldl_keeps (fun s => s.prompt) _ (by intro t e; simp)]
  exact foldl_keeps (fun s => s.prompt) _ (by intro t i; simp) _ _
@[simp] theorem State.releaseAll_capture (s : State) : (s.releaseAll).capture = s.capture := by
  unfold State.releaseAll
  rw [foldl_keeps (fun s => s.capture) _ (by intro t e; simp)]
  exact foldl_keeps (fun s => s.capture) _ (by intro t i; simp) _ _
@[simp] theorem State.releaseAll_resetHeld (s : State) : (s.releaseAll).resetHeld = s.resetHeld := by
  unfold State.releaseAll
  rw [foldl_keeps (fun s => s.resetHeld) _ (by intro t e; simp)]
  exact foldl_keeps (fun s => s.resetHeld) _ (by intro t i; simp) _ _
@[simp] theorem State.releaseAll_pending (s : State) : (s.releaseAll).pending = s.pending := by
  unfold State.releaseAll
  rw [foldl_keeps (fun s => s.pending) _ (by intro t e; simp)]
  exact foldl_keeps (fun s => s.pending) _ (by intro t i; simp) _ _
@[simp] theorem State.releaseAll_radio_pendingLinks (s : State) :
    (s.releaseAll).radio.pendingLinks = s.radio.pendingLinks := by
  unfold State.releaseAll
  rw [foldl_keeps (fun s => s.radio.pendingLinks) _ (by intro t e; simp)]
  exact foldl_keeps (fun s => s.radio.pendingLinks) _ (by intro t i; simp) _ _
@[simp] theorem State.releaseAll_radio_line (s : State) : (s.releaseAll).radio.line = s.radio.line := by
  unfold State.releaseAll
  rw [foldl_keeps (fun s => s.radio.line) _ (by intro t e; simp)]
  exact foldl_keeps (fun s => s.radio.line) _ (by intro t i; simp) _ _
@[simp] theorem State.releaseAll_slot (s : State) (j : SlotId) : (s.releaseAll).slot j = s.slot j := by
  rw [State.slot, State.releaseAll_slots, State.slot]

@[simp] theorem State.endCall_link (s : State) (t : Nat) : (s.endCall t).link = s.link := rfl
@[simp] theorem State.endCall_radio (s : State) (t : Nat) : (s.endCall t).radio = s.radio := rfl
@[simp] theorem State.endCall_profiles (s : State) (t : Nat) : (s.endCall t).profiles = s.profiles := rfl
@[simp] theorem State.endCall_slots (s : State) (t : Nat) : (s.endCall t).slots = s.slots := rfl
@[simp] theorem State.endCall_limits (s : State) (t : Nat) : (s.endCall t).limits = s.limits := rfl
@[simp] theorem State.endCall_mix (s : State) (t : Nat) : (s.endCall t).mix = s.mix := rfl
@[simp] theorem State.endCall_talk (s : State) (t : Nat) : (s.endCall t).talk = s.talk := rfl
@[simp] theorem State.endCall_prompt (s : State) (t : Nat) : (s.endCall t).prompt = s.prompt := rfl
@[simp] theorem State.endCall_capture (s : State) (t : Nat) : (s.endCall t).capture = s.capture := rfl
@[simp] theorem State.endCall_resetHeld (s : State) (t : Nat) : (s.endCall t).resetHeld = s.resetHeld := rfl
@[simp] theorem State.endCall_pending (s : State) (t : Nat) : (s.endCall t).pending = s.pending := rfl
@[simp] theorem State.endCall_notices_mask (s : State) (t : Nat) : (s.endCall t).notices.mask = s.notices.mask := rfl
@[simp] theorem State.endCall_slot (s : State) (t : Nat) (j : SlotId) : (s.endCall t).slot j = s.slot j := by
  rw [State.slot, State.endCall_slots, State.slot]

end Machine
end Sys2Proof
end

