-- ==== Sys2Proof/Laws/Requests.lean ====
section
/-!
SUPPORT. What a request can do, said once: its reply where the part takes it, nothing where it does not; the operands
that a byte names.
-/
namespace Sys2Proof.Machine

/-! ### Taken and not taken (R163, R164, R165, R177) -/

variable {s s' : State} {tag : Byte} {kind : RequestKind} {perform : State → Except RefusalCode (State × Result)}

theorem State.Listens.deaf (h : s.Listens) : s.deaf = false := by simp [State.deaf, h.1, h.2.1]

/-- A frame that completes while the part listens is taken by a part whose receiver hunts. -/
theorem State.completeFrame_listens (h : s.Listens) (taken : State → State) : s.completeFrame taken = taken s.hunt := by
  simp [State.completeFrame, h.deaf, Nat.not_le.mpr h.2.2]

theorem State.completeFrame_deaf (h : s.deaf = true) (taken : State → State) : s.completeFrame taken = s := by
  simp [State.completeFrame, h]

theorem State.completeFrame_full (h : s.deaf = false) (full : Config.replyCapacity ≤ s.link.replies.length)
    (taken : State → State) : s.completeFrame taken = s.hunt := by simp [State.completeFrame, h, full]

/-- A request that is performed answers DONE. -/
theorem State.request_ok (h : s.Listens) {r : Result} (hp : perform s.hunt = .ok (s', r)) :
    s.request tag kind perform = s'.reply tag (.done kind r) := by
  simp [State.request, State.completeFrame_listens h, hp]

/-- A request that is refused changes only the control link unit. -/
theorem State.request_error (h : s.Listens) {c : RefusalCode} (hp : perform s.hunt = .error c) :
    s.request tag kind perform = s.answeredRefused tag kind c := by
  simp [State.request, State.completeFrame_listens h, hp]
  rfl

/-- Whatever a field that requests reach only through `perform` and the control link unit: if `perform` keeps it, the
request keeps it. -/
theorem State.request_keeps {β : Type} (π : State → β) (hhunt : ∀ s : State, π s.hunt = π s)
    (hreply : ∀ (s : State) (tag : Byte) (b : ReplyBody), π (s.reply tag b) = π s)
    (hp : ∀ t t' r, perform t = .ok (t', r) → π t' = π t) : π (s.request tag kind perform) = π s := by
  unfold State.request State.completeFrame
  split
  · rfl
  split
  · exact hhunt s
  · dsimp only
    split
    · next h => rw [hreply, hp _ _ _ h, hhunt]
    · rw [hreply, hhunt]

/-! ### What every request is -/

theorem requestOutcome_eq (s : State) (c : Instr) : requestOutcome s c = c.requestFrame.map fun _ => exec c s := by
  cases c <;> rfl

theorem radioOutcome_eq (s : State) (c : Instr) : radioOutcome s c = c.radioMessage.map fun _ => exec c s := by
  cases c <;> rfl

/-- What a request's `perform` never touches. -/
def Performs (perform : State → Except RefusalCode (State × Result)) : Prop :=
  ∀ t t' r, perform t = .ok (t', r) →
    t'.link.receiver = t.link.receiver ∧ t'.link.replies = t.link.replies ∧ t'.link.line = t.link.line ∧
      t'.resetHeld = t.resetHeld ∧ t'.pending = t.pending

/-- Every request is performed by `State.request` with its kind and tag. -/
theorem exec_request {c : Instr} {body : List Byte} (h : c.requestFrame = some (kind, tag, body)) :
    ∃ perform, Performs perform ∧ ∀ s, exec c s = .next (s.request tag kind perform) := by
  cases c <;> simp only [Instr.requestFrame, reduceCtorEq, Option.some.injEq, Prod.mk.injEq] at h <;>
    obtain ⟨rfl, rfl, _⟩ := h <;> refine ⟨_, ?_, fun s => rfl⟩ <;> intro t t' r h <;> revert h <;> try dsimp only
  case ident => intro h; cases h; simp
  case status => split <;> intro h <;> cases h <;> simp
  case statsRead =>
    split <;> intro h <;> cases h
    split <;> simp
  case captureRead => intro h; cases h; simp
  case collect => split <;> intro h <;> cases h <;> simp
  case maskSet => split <;> intro h <;> cases h; simp
  case reset => intro h; cases h; simp
  case profilePut =>
    simp only [performProfilePut]
    (repeat' split) <;> intro h <;> cases h
    simp
  case profileDrop => split <;> intro h <;> cases h; simp
  case profileGet => split <;> intro h <;> cases h; simp
  case admitLink =>
    simp only [performAdmit, State.accept]
    (repeat' split) <;> intro h <;> cases h <;> simp
  case decline => split <;> intro h <;> cases h; simp
  case remove => (repeat' split) <;> intro h <;> cases h; simp
  case gainSet => simp only [performGainSet]; (repeat' split) <;> intro h <;> cases h; simp
  case gainGet => intro h; cases h; simp
  case talkSet => intro h; cases h; simp
  case watchSet => simp only [performWatchSet]; split <;> intro h <;> cases h; simp
  case limitSet => intro h; cases h; simp [State.withLimits]
  case promptLoad => simp only [performPromptLoad]; (repeat' split) <;> intro h <;> cases h; simp
  case promptPlay => simp only [performPromptPlay]; (repeat' split) <;> intro h <;> cases h; simp
  case promptMore => simp only [performPromptMore]; (repeat' split) <;> intro h <;> cases h; simp
  case promptStop => simp only [performPromptStop]; split <;> intro h <;> cases h <;> simp

/-- Whatever a request body decodes to is a request of that kind and tag. -/
theorem requestFrame_of_bodyRequest {body : List Byte} {c : Instr} (h : bodyRequest tag kind body = some c) :
    ∃ bytes, c.requestFrame = some (kind, tag, bytes) := by
  cases kind <;> simp only [bodyRequest, Option.map_eq_some_iff] at h
  case gainSet =>
    unfold gainSetOfBytes at h
    split at h
    · split at h <;> cases h
      exact ⟨_, rfl⟩
    · cases h
  case promptLoad =>
    unfold promptLoadOfBytes at h
    split at h
    · split at h
      · split at h <;> cases h
        exact ⟨_, rfl⟩
      · cases h
    · cases h
  all_goals
    first
    | (obtain ⟨x, _, rfl⟩ := h; exact ⟨_, rfl⟩)
    | (unfold bareRequest at h; split at h <;> cases h; exact ⟨_, rfl⟩)
    | (unfold statsReadOfBytes at h; split at h <;> cases h; exact ⟨_, rfl⟩)
    | (unfold admitOfBytes at h; split at h <;> cases h; exact ⟨_, rfl⟩)
    | (unfold talkSetOfBytes at h; split at h <;> cases h; exact ⟨_, rfl⟩)
    | (unfold watchSetOfBytes at h; split at h <;> cases h; exact ⟨_, rfl⟩)
    | (unfold limitSetOfBytes at h; split at h <;> cases h; exact ⟨_, rfl⟩)
    | (unfold promptPlayOfBytes at h; split at h <;> cases h; exact ⟨_, rfl⟩)

/-- The bodies that a kind decodes are those of the lengths it admits. -/
theorem bodyRequest_isSome (body : List Byte) : (bodyRequest tag kind body).isSome = kind.admits body.length := by
  cases kind
  case gainSet =>
    simp only [bodyRequest, RequestKind.admits, gainSetOfBytes]
    cases h : entriesOfBytes body with
    | none =>
      have := entriesOfBytes_none.mp h
      simp
      omega
    | some l =>
      rw [length_of_entriesOfBytes h]
      by_cases hc : gainCountOk l = true
      all_goals
        simp [hc]
        simp [gainCountOk] at hc
        omega
  case promptLoad =>
    simp only [bodyRequest, RequestKind.admits]
    unfold promptLoadOfBytes
    split
    · next rest =>
      cases h : samplesOfBytes rest with
      | none =>
        have := samplesOfBytes_none.mp h
        simp
        omega
      | some l =>
        have := length_of_samplesOfBytes h
        simp only [List.length_cons, this]
        by_cases hc : loadCountOk l = true
        all_goals
          simp [hc]
          simp [loadCountOk] at hc
          omega
    · rcases body with _ | ⟨a0, _ | ⟨a1, r⟩⟩ <;> simp_all
  all_goals
    rcases body with _ | ⟨a0, _ | ⟨a1, _ | ⟨a2, _ | ⟨a3, _ | ⟨a4, _ | ⟨a5, _ | ⟨a6, _ | ⟨a7, _ | ⟨a8, _ | ⟨a9, _ |
      ⟨a10, _ | ⟨a11, _ | ⟨a12, _ | ⟨a13, _ | ⟨a14, _ | ⟨a15, _ | ⟨a16, _ | ⟨a17, _ | ⟨a18, _ | ⟨a19, _ |
      ⟨a20, rest⟩⟩⟩⟩⟩⟩⟩⟩⟩⟩⟩⟩⟩⟩⟩⟩⟩⟩⟩⟩⟩
    all_goals
      simp [bodyRequest, RequestKind.admits, bareRequest, statsReadOfBytes, profileOfBytes, identityOfBytes,
        wordOfBytes, byteOfBytes, admitOfBytes, talkSetOfBytes, watchSetOfBytes, limitSetOfBytes, promptPlayOfBytes]

/-- Whatever a frame decodes to is a request with the frame's kind and tag. -/
theorem requestFrame_of_decodeFrame {k t check : Byte} {body : List Byte} {c : Instr}
    (h : decodeFrame k t body check = .ok c) : ∃ q bytes, q.code = k ∧ c.requestFrame = some (q, t, bytes) := by
  unfold decodeFrame at h
  split at h
  · unfold decodeRequest at h
    split at h
    · cases h
    · next q hq =>
      split at h
      · cases h
      · next hb =>
        cases h
        obtain ⟨bytes, hc⟩ := requestFrame_of_bodyRequest hb
        exact ⟨q, bytes, RequestKind.ofCode_eq_some.mp hq, hc⟩
  · cases h

/-! ### Operands (R179) -/

theorem slotOfNum_some {n : Nat} {i : SlotId} : slotOfNum n = some i ↔ n = i.num := by
  unfold slotOfNum
  split <;> cases i <;> simp_all [SlotId.num]

theorem slotOfNum_none {n : Nat} : slotOfNum n = none ↔ 4 ≤ n := by
  unfold slotOfNum
  split <;> simp_all
  omega

theorem slotOfByte_none {b : Byte} : slotOfByte b = none ↔ 4 ≤ b.toNat := slotOfNum_none

theorem slotOfByte_some {b : Byte} {i : SlotId} : slotOfByte b = some i ↔ b.toNat = i.num := slotOfNum_some

theorem find_num (n : Nat) : SlotId.all.find? (fun j => j.num == n) = slotOfNum n := by
  match n with
  | 0 => rfl
  | 1 => rfl
  | 2 => rfl
  | 3 => rfl
  | n + 4 => simp [SlotId.all, SlotId.num, slotOfNum]

theorem byte_eq_of_toNat {b : Byte} {n : Nat} (hn : n < 256) : b.toNat = n ↔ b = BitVec.ofNat 8 n := by
  constructor
  · intro h
    apply BitVec.eq_of_toNat_eq
    simp [h, Nat.mod_eq_of_lt hn]
  · rintro rfl
    simp [Nat.mod_eq_of_lt hn]

end Sys2Proof.Machine
end

