-- ==== Sys2Proof/Laws/Gains.lean ====
section
/-!
SUPPORT. Reading gains back from a matrix after each of its operations (R117, R119, R126), and the indexes that name
its paths.
-/
namespace Sys2Proof.Machine

@[simp] theorem GainMatrix.get_tabulate (f : Output → Input → Nat) (o : Output) (j : Input) :
    (GainMatrix.tabulate f).get o j = f o j := by
  cases o with
  | u => cases j with
    | d => rfl
    | e k => cases k <;> rfl
    | p => rfl
  | o i => cases j with
    | d => cases i <;> rfl
    | e k => cases i <;> cases k <;> rfl
    | p => cases i <;> rfl

theorem GainMatrix.ext_get {m n : GainMatrix} (h : ∀ o j, m.get o j = n.get o j) : m = n := by
  have row : ∀ r q : GainRow, (∀ j, r.get j = q.get j) → r = q := by
    intro r q hr
    have hd := hr .d
    have hp := hr .p
    have he : r.e = q.e := PerSlot.ext_get fun i => hr (.e i)
    cases r; cases q
    simp_all [GainRow.get]
  have hu : m.u = n.u := row _ _ fun j => h .u j
  have ho : m.o = n.o := PerSlot.ext_get fun i => row _ _ fun j => h (.o i) j
  cases m; cases n
  simp_all

theorem GainRow.get_set (r : GainRow) (j k : Input) (g : Nat) : (r.set j g).get k = if k = j then g else r.get k := by
  cases j <;> cases k <;> simp [GainRow.set, GainRow.get, PerSlot.get_set]

theorem GainMatrix.get_set (m : GainMatrix) (o q : Output) (j k : Input) (g : Nat) :
    (m.set o j g).get q k = if q = o ∧ k = j then g else m.get q k := by
  cases o with
  | u => cases q <;> simp [GainMatrix.set, GainMatrix.get, GainMatrix.row, GainRow.get_set]
  | o i => cases q with
    | u => simp [GainMatrix.set, GainMatrix.get, GainMatrix.row]
    | o l =>
      simp only [GainMatrix.set, GainMatrix.get, GainMatrix.row, PerSlot.get_set, Output.o.injEq]
      by_cases h : l = i <;> simp [h, GainRow.get_set]

@[simp] theorem GainMatrix.get_zero (o : Output) (j : Input) : GainMatrix.zero.get o j = 0 := by
  cases o <;> cases j <;> simp [GainMatrix.zero, GainMatrix.get, GainMatrix.row, GainRow.zero, GainRow.get]

theorem GainMatrix.get_zeroSlot (m : GainMatrix) (i : SlotId) (o : Output) (j : Input) :
    (m.zeroSlot i).get o j = if o = .o i ∨ j = .e i then 0 else m.get o j := by
  simp [GainMatrix.zeroSlot]

theorem GainMatrix.get_powerOnTargets (o : Output) (j : Input) :
    GainMatrix.powerOnTargets.get o j =
      match o, j with
      | .u, .e _ => 4096
      | .u, _ => 0
      | .o _, .d => 4096
      | .o _, .p => 4096
      | .o i, .e k => if k = i then 256 else 0 := by
  cases o with
  | u => cases j with
    | e k => cases k <;> rfl
    | _ => rfl
  | o i => cases i <;> cases j with
    | e k => cases k <;> rfl
    | _ => rfl

/-! ### Indexes of outputs and inputs (R117, R119) -/

theorem outputOfByte_some {b : Byte} {o : Output} : outputOfByte b = some o ↔ b.toNat = o.index := by
  unfold outputOfByte
  split
  · next hb => subst hb; cases o <;> simp [Output.index]
  · next hb =>
    have h0 : b.toNat ≠ 0 := fun h => hb ((byte_eq_of_toNat (by decide)).mp h)
    cases o with
    | u => simp [Output.index, h0]
    | o i =>
      simp only [Option.map_eq_some_iff, Output.o.injEq, exists_eq_right, slotOfNum_some, Output.index]
      omega

theorem inputOfByte_some {b : Byte} {j : Input} : inputOfByte b = some j ↔ b.toNat = j.index := by
  have hnum : ∀ i : SlotId, i.num < 4 := by intro i; cases i <;> decide
  unfold inputOfByte
  split
  · next hb => subst hb; cases j <;> simp [Input.index]
  · next hb =>
    have h0 : b.toNat ≠ 0 := fun h => hb ((byte_eq_of_toNat (by decide)).mp h)
    split
    · next h5 =>
      subst h5
      cases j with
      | e i => have := hnum i; simp [Input.index]; omega
      | _ => simp [Input.index]
    · next h5 =>
      have h5' : b.toNat ≠ 5 := fun h => h5 ((byte_eq_of_toNat (by decide)).mp h)
      cases j with
      | d => simp [Input.index, h0]
      | p => simp [Input.index, h5']
      | e i =>
        simp only [Option.map_eq_some_iff, Input.e.injEq, exists_eq_right, slotOfNum_some, Input.index]
        omega

end Sys2Proof.Machine
end

