-- ==== Sys2Proof/Laws/Slots.lean ====
section
/-!
SUPPORT. What the shared operations on slots do, each said once: admission, the ways out of the live states, the pair
rules where no pair is concerned.
-/
namespace Sys2Proof.Machine

variable {s : State} {i k : SlotId}

/-! ### Finding slots (R1, R16, R44) -/

theorem State.boundSlot_holds {h : Handle} (hi : s.Holds i h) : s.boundSlot h = some i := by
  have hfound : s.boundSlot h ≠ none := by
    unfold State.boundSlot
    rw [Ne, List.find?_eq_none]
    intro hn
    exact hn i (SlotId.mem_all i) (by simp [hi.1])
  cases hb : s.boundSlot h with
  | none => exact absurd hb hfound
  | some j =>
    have := List.find?_some hb
    rw [hi.2 j (by simpa using this)]

theorem State.boundSlot_unheld {h : Handle} (hn : s.Unheld h) : s.boundSlot h = none := by
  unfold State.boundSlot
  rw [List.find?_eq_none]
  intro i _
  simpa using hn i

theorem State.boundSlot_some {h : Handle} (hb : s.boundSlot h = some i) : (s.slot i).handle = some h := by
  simpa using List.find?_some hb

theorem State.slotOfIdentity_some {d : Identity} (hd : s.slotOfIdentity d = some i) :
    (s.slot i).state ≠ .empty ∧ (s.slot i).identity = some d := by
  simpa using List.find?_some hd

theorem State.slotOfIdentity_none {d : Identity} :
    s.slotOfIdentity d = none ↔ ∀ i, (s.slot i).state ≠ .empty → (s.slot i).identity ≠ some d := by
  unfold State.slotOfIdentity
  rw [List.find?_eq_none]
  constructor
  · intro h i h1
    simpa [h1] using h i (SlotId.mem_all i)
  · intro h i _
    simp only [Bool.and_eq_true, bne_iff_ne, ne_eq, beq_iff_eq, not_and]
    exact h i

theorem State.lowestEmpty_some (h : s.lowestEmpty = some i) : (s.slot i).state = .empty := by
  simpa using List.find?_some h

theorem State.lowestEmpty_none : s.lowestEmpty = none ↔ ∀ i, (s.slot i).state ≠ .empty := by
  unfold State.lowestEmpty
  rw [List.find?_eq_none]
  constructor
  · intro h i
    simpa using h i (SlotId.mem_all i)
  · intro h i _
    simpa using h i

theorem State.isPending_iff {h : Handle} : s.isPending h = true ↔ ¬s.NotPending h := by
  simp [State.isPending, State.NotPending]

/-- A partner taken from a profile is a SOLO slot that is not EMPTY (R16). -/
theorem State.profilePartner_some {p : Option Profile} {side : Side} (h : s.profilePartner p side = some k) :
    (s.slot k).state ≠ .empty ∧ (s.slot k).role = .solo := by
  unfold State.profilePartner at h
  split at h
  · cases h
  · split at h
    · cases h
    · next k' hk =>
      split at h
      · next hr =>
        cases h
        exact ⟨(State.slotOfIdentity_some hk).1, hr.1⟩
      · cases h

/-! ### Two slots at once -/

theorem State.setSlot_setSlot (x y : Slot) : (s.setSlot i x).setSlot i y = s.setSlot i y := by
  have : (s.slots.set i x).set i y = s.slots.set i y := by
    apply PerSlot.ext_get
    intro j
    simp only [PerSlot.get_set]
    split <;> rfl
  simp [State.setSlot, this]

theorem State.setSlot_comm (h : k ≠ i) (x y : Slot) :
    (s.setSlot i x).setSlot k y = (s.setSlot k y).setSlot i x := by
  have : (s.slots.set i x).set k y = (s.slots.set k y).set i x := by
    apply PerSlot.ext_get
    intro j
    simp only [PerSlot.get_set]
    by_cases h1 : j = k <;> by_cases h2 : j = i <;> simp_all
  simp [State.setSlot, this]

theorem State.setSlot_self : s.setSlot i (s.slot i) = s := by
  have : s.slots.set i (s.slot i) = s.slots := by
    apply PerSlot.ext_get
    intro j
    rw [PerSlot.get_set]
    split
    · next h => subst h; rfl
    · rfl
  simp [State.setSlot, this]

/-! ### Admission (R8, R25, R29, R30) -/

/-- The record that an admission gives its slot, before any pair. -/
def admittedRecord (x : Slot) (link : PendingLink) (v : AdmissionValues) (slotLimit : Nat) : Slot :=
  { x.measuring with
    handle := some link.handle, identity := some link.identity, mic := link.mic, side := v.side,
    inTarget := v.inTarget, outTarget := v.outTarget, estimate := seedEstimate v.seed slotLimit, stats := .zero }

theorem State.admitInto_none (link : PendingLink) (v : AdmissionValues) :
    s.admitInto i link v none = s.setSlot i (admittedRecord (s.slot i) link v s.limits.slotLimit) := rfl

theorem State.admitInto_some (h : k ≠ i) (link : PendingLink) (v : AdmissionValues) :
    s.admitInto i link v (some k) =
      (s.setSlot i
        { admittedRecord (s.slot i) link v s.limits.slotLimit with
          role := if (s.slot k).state = .lost then .leader else .follower
          partner := some k
          talker :=
            { (admittedRecord (s.slot i) link v s.limits.slotLimit).talker with
              primary := decide ((s.slot k).state = .lost) } }).setSlot k
        { s.slot k with
          role := if (s.slot k).state = .lost then .follower else .leader
          partner := some i
          talker := { (s.slot k).talker with primary := !decide ((s.slot k).state = .lost) } } := by
  simp only [State.admitInto, State.formPair, State.modSlot, State.slot_setSlot_self, State.slot_setSlot_ne _ h,
    State.setSlot_setSlot]
  rfl

/-! ### Leaving the live states (R126) -/

theorem State.silencedWhen_false : s.silencedWhen false i = s := by
  have : GainMatrix.tabulate (fun o j => s.mix.applied.get o j) = s.mix.applied :=
    GainMatrix.ext_get fun o j => GainMatrix.get_tabulate _ o j
  simp [State.silencedWhen, this]

theorem State.silencedWhen_true : s.silencedWhen true i = s.zeroGains i := by
  simp [State.silencedWhen, State.zeroGains, GainMatrix.zeroSlot]

theorem State.zeroIfLive_eq (w : SlotState) : s.zeroIfLive i w = s.silencedWhen (w == .active || w == .stalled) i := by
  unfold State.zeroIfLive SlotState.live
  split
  · next h => rw [h, State.silencedWhen_true]
  · next h => rw [Bool.eq_false_iff.mpr h, State.silencedWhen_false]

/-! ### The same operations in the words of the statements -/

theorem State.vacate_eq :
    s.vacate i =
      (s.withSlot i (s.slot i).leftEmpty).silencedWhen ((s.slot i).state == .active || (s.slot i).state == .stalled)
        i := by
  rw [State.vacate, State.zeroIfLive_eq]
  rfl

theorem State.lose_eq (handle : Option Handle) :
    s.lose i handle =
      (s.withSlot i { (s.slot i).flushedRecord with state := .lost, handle := handle }).silencedWhen
        ((s.slot i).state == .active || (s.slot i).state == .stalled) i := by
  rw [State.lose, State.zeroIfLive_eq]
  rfl

theorem State.release_eq (h : Option Handle) : s.release h = s.withOutgoing (h.toList.map RadioOut.release) := by
  cases h <;> simp [State.release, State.withOutgoing, State.send]

theorem State.raiseSlot_eq (r : SlotReason) (h : Option Handle) (l : Option Byte) :
    s.raiseSlot i r h l = s.withNotice (.slot i (slotNotice (s.slot i) r h l)) := rfl

theorem Slot.measuring_eq (x : Slot) : x.measuring = x.acquiringRecord := rfl

theorem Slot.emptied_eq (x : Slot) : x.emptied = x.leftEmpty := rfl

/-! ### The pair rules (R31, R33) -/

/-- The pair rules change a record's role, partner and primary flag at most. -/
theorem pairedAfter_eq (slots : PerSlot Slot) (lost : SlotId → Bool) (j : SlotId) :
    ∃ role partner primary, pairedAfter slots lost j =
      { slots.get j with
        role := role, partner := partner, talker := { (slots.get j).talker with primary := primary } } := by
  unfold pairedAfter
  dsimp only
  repeat' split
  · exact ⟨_, _, _, rfl⟩
  · exact ⟨_, (slots.get j).partner, (slots.get j).talker.primary, rfl⟩
  · exact ⟨_, (slots.get j).partner, (slots.get j).talker.primary, rfl⟩
  · exact ⟨(slots.get j).role, (slots.get j).partner, (slots.get j).talker.primary, rfl⟩

/-- Every record after the pair rules, where the event's own notices leave the slots alone. -/
theorem State.slot_settlePairs {lost : SlotId → Bool} {own : State → State} (hown : ∀ t, (own t).slots = t.slots)
    (j : SlotId) : (s.settlePairs lost own).slot j = pairedAfter s.slots lost j := by
  rw [State.settlePairs, State.raiseRoles_slot, State.slot, hown, PerSlot.get_tabulate]

theorem State.raiseRoles_none {who : SlotId → Bool} (h : ∀ j, who j = false) : s.raiseRoles who = s := by
  simp [State.raiseRoles, SlotId.all, h]

theorem State.raiseRoles_one {who : SlotId → Bool} (h : ∀ j, who j = (j == i)) :
    s.raiseRoles who = s.raiseSlot i .role (s.slot i).handle none := by
  have : who = fun j => j == i := funext h
  subst this
  cases i <;> simp [State.raiseRoles, SlotId.all]

/-- Where no pair is concerned, the pair rules leave every record alone and raise no ROLE notice. -/
theorem State.settlePairs_quiet {lost : SlotId → Bool} {own : State → State}
    (h : ∀ j, pairEnded s.slots j = false ∧ swapsUp (s.slot j) lost = false ∧ swapsDown s.slots lost j = false) :
    s.settlePairs lost own = own s := by
  have h1 : ∀ j, pairedAfter s.slots lost j = s.slots.get j := by
    intro j
    obtain ⟨a, b, c⟩ := h j
    have b' : swapsUp (s.slots.get j) lost = false := b
    simp [pairedAfter, a, b', c]
  have h2 : PerSlot.tabulate (pairedAfter s.slots lost) = s.slots := by
    rw [funext h1]
    rfl
  unfold State.settlePairs
  rw [h2, State.raiseRoles_none]
  intro j
  obtain ⟨a, b, _⟩ := h j
  have b' : swapsUp (s.slots.get j) lost = false := b
  simp [roleChanged, a, b']

/-- Where the pair rules change one record and raise ROLE on that slot alone. -/
theorem State.settlePairs_one {lost : SlotId → Bool} {own : State → State}
    (hx : ∀ j, j ≠ i → pairedAfter s.slots lost j = s.slot j) (hr : ∀ j, roleChanged s.slots lost j = (j == i)) :
    s.settlePairs lost own =
      (own (s.setSlot i (pairedAfter s.slots lost i))).raiseSlot i .role
        ((own (s.setSlot i (pairedAfter s.slots lost i))).slot i).handle none := by
  have h2 : PerSlot.tabulate (pairedAfter s.slots lost) = s.slots.set i (pairedAfter s.slots lost i) := by
    apply PerSlot.ext_get
    intro j
    rw [PerSlot.get_tabulate, PerSlot.get_set]
    split
    · next h => rw [h]
    · next h => exact hx j h
  unfold State.settlePairs
  rw [h2, State.raiseRoles_one hr]
  rfl

theorem State.slot_vacate_self : (s.vacate i).slot i = (s.slot i).emptied := by
  unfold State.vacate
  rw [State.zeroIfLive_slot, State.slot_setSlot_self]

theorem State.slot_vacate_ne {j : SlotId} (h : j ≠ i) : (s.vacate i).slot j = s.slot j := by
  unfold State.vacate
  rw [State.zeroIfLive_slot, State.slot_setSlot_ne _ h]

theorem swapsUp_none (x : Slot) : swapsUp x (fun _ => false) = false := by
  unfold swapsUp
  split <;> simp

theorem swapsDown_none (slots : PerSlot Slot) (j : SlotId) : swapsDown slots (fun _ => false) j = false := by
  unfold swapsDown
  split <;> simp

/-- The members of lawful pairs, one by one (R28). -/
theorem State.PairsLawful.partner (h : s.PairsLawful) {j : SlotId} (hj : (s.slot j).partner = some k) :
    k ≠ j ∧ (s.slot k).partner = some j ∧ (s.slot j).state ≠ .empty ∧ (s.slot k).state ≠ .empty ∧
      (((s.slot j).role = .leader ∧ (s.slot k).role = .follower) ∨
        ((s.slot j).role = .follower ∧ (s.slot k).role = .leader)) := by
  have h1 := h j
  unfold State.pairLawful at h1
  rw [hj] at h1
  have h2 := h k
  unfold State.pairLawful at h2
  rw [h1.2.1] at h2
  exact ⟨h1.1, h1.2.1, h1.2.2.1, h2.2.2.1, h1.2.2.2.2.1⟩

theorem State.PairsLawful.solo (h : s.PairsLawful) {j : SlotId} (hj : (s.slot j).partner = none) :
    (s.slot j).role = .solo ∧ (s.slot j).talker.primary = false := by
  have h1 := h j
  unfold State.pairLawful at h1
  rwa [hj] at h1

/-- After slot `i` has entered EMPTY, the pair that has ended is the one of its partner. -/
theorem State.pairEnded_vacate (h : s.PairsLawful) (j : SlotId) :
    pairEnded (s.vacate i).slots j = (decide (j ≠ i) && (s.slot j).partner == some i) := by
  unfold pairEnded
  by_cases hj : j = i
  · subst hj
    rw [State.slot_def, State.slot_vacate_self]
    simp [Slot.emptied, Slot.initial]
  · rw [State.slot_def, State.slot_vacate_ne hj]
    cases hp : (s.slot j).partner with
    | none => simp
    | some k =>
      obtain ⟨_, _, h3, h4, _⟩ := h.partner hp
      dsimp only
      rw [State.slot_def]
      by_cases hk : k = i
      · subst hk
        rw [State.slot_vacate_self]
        simp [Slot.emptied, Slot.initial, hj, h3]
      · rw [State.slot_vacate_ne hk]
        simp [beq_eq_false_iff_ne.mpr hk, beq_eq_false_iff_ne.mpr h4]

/-- Slot `i`, in no pair, enters EMPTY: the pair rules have nothing to do. -/
theorem State.settlePairs_vacate_solo (h : s.PairsLawful) (hi : (s.slot i).partner = none) (own : State → State) :
    (s.vacate i).settlePairs (fun _ => false) own = own (s.vacate i) := by
  apply State.settlePairs_quiet
  intro j
  refine ⟨?_, swapsUp_none _, swapsDown_none _ _⟩
  rw [State.pairEnded_vacate h]
  by_cases hj : (s.slot j).partner = some i
  · obtain ⟨_, h2, _⟩ := h.partner hj
    rw [hi] at h2
    cases h2
  · simp [hj]

/-- Slot `i` enters EMPTY and its partner remains: the partner becomes SOLO and ROLE is raised on it (R33). -/
theorem State.settlePairs_vacate_pair (h : s.PairsLawful) (hi : (s.slot i).partner = some k) (own : State → State)
    (hown : ∀ t : State, (own t).slots = t.slots) :
    (s.vacate i).settlePairs (fun _ => false) own =
      (own ((s.vacate i).setSlot k
        { s.slot k with
          role := .solo, partner := none, talker := { (s.slot k).talker with primary := false } })).raiseSlot k .role
        (s.slot k).handle none := by
  obtain ⟨hki, hk, h3, h4, _⟩ := h.partner hi
  have hend : ∀ j, pairEnded (s.vacate i).slots j = (j == k) := by
    intro j
    rw [State.pairEnded_vacate h]
    by_cases hj : j = k
    · subst hj
      simp [hki, hk]
    · have : (s.slot j).partner ≠ some i := by
        intro hp
        have := (h.partner hp).2.1
        rw [hi] at this
        exact hj (by simpa using this.symm)
      simp [beq_eq_false_iff_ne.mpr hj, beq_eq_false_iff_ne.mpr this]
  rw [State.settlePairs_one (i := k)]
  · have hsolo : pairedAfter (s.vacate i).slots (fun _ => false) k =
        { s.slot k with
          role := .solo, partner := none, talker := { (s.slot k).talker with primary := false } } := by
      simp only [pairedAfter, hend, beq_self_eq_true, if_true, State.slot_def, State.slot_vacate_ne hki]
    rw [hsolo]
    have hslot : ∀ x, (own ((s.vacate i).setSlot k x)).slot k = x := by
      intro x
      rw [State.slot, hown]
      exact State.slot_setSlot_self _ _ _
    rw [hslot]
  · intro j hj
    simp only [pairedAfter, hend, swapsUp_none, swapsDown_none, Bool.false_eq_true, if_false, beq_iff_eq, if_neg hj]
    rfl
  · intro j
    simp [roleChanged, hend, swapsUp_none]

/-! ### A change made to every slot at once (R6, R12) -/

/-- The slots whose gains a change zeroes: those that leave the live states (R126). -/
def leavesLive (s : State) (f : Slot → Slot × Option SlotReason) (i : SlotId) : Bool :=
  (s.slot i).state.live && !(f (s.slot i)).1.state.live

/-- The gains after a fold that zeroes the slots of a list that `leaves` names. -/
theorem applied_foldl_zero (leaves : SlotId → Bool) (o : Output) (j : Input) : ∀ (l : List SlotId) (t : State),
    (l.foldl (fun t i => if leaves i then t.zeroGains i else t) t).mix.applied.get o j =
      if l.any fun i => leaves i && (o == .o i || j == .e i) then 0 else t.mix.applied.get o j
  | [], t => by simp
  | i :: l, t => by
    rw [List.foldl_cons, applied_foldl_zero leaves o j l, List.any_cons]
    cases hl : l.any fun i => leaves i && (o == .o i || j == .e i) with
    | true => simp
    | false =>
      cases hi : leaves i with
      | false => simp
      | true =>
        simp only [Bool.false_eq_true, if_false, if_true, State.zeroGains, GainMatrix.get_zeroSlot, Bool.true_and,
          Bool.or_false, Bool.or_eq_true, beq_iff_eq]

theorem State.changeSlots_mix (f : Slot → Slot × Option SlotReason) (b : Option SlotReason) :
    (s.changeSlots f b).mix =
      (SlotId.all.foldl (fun (t : State) i => if leavesLive s f i then t.zeroGains i else t)
        { s with slots := s.slots.map fun x => (f x).1 }).mix := by
  unfold State.changeSlots
  dsimp only
  rw [State.settlePairs, State.raiseRoles_mix, foldl_keeps (fun t => t.mix)]
  · have : ∀ i, (({ s with slots := s.slots.map fun x => (f x).1 } : State).slot i) = (f (s.slot i)).1 := by
      intro i
      rw [State.slot_mk, PerSlot.get_map]
      rfl
    simp only [this]
    rfl
  · intro t i
    split <;> simp

/-- The gains after a change made to every slot: the columns and rows of the slots that left the live states are 0. -/
theorem State.changeSlots_applied (f : Slot → Slot × Option SlotReason) (b : Option SlotReason) (o : Output)
    (j : Input) :
    (s.changeSlots f b).mix.applied.get o j =
      if SlotId.all.any fun i => leavesLive s f i && (o == .o i || j == .e i) then 0 else s.mix.applied.get o j := by
  rw [State.changeSlots_mix, applied_foldl_zero]

/-- The records after a change made to every slot: the change, then the pair rules. -/
theorem State.slot_changeSlots (f : Slot → Slot × Option SlotReason) (b : Option SlotReason) (j : SlotId) :
    (s.changeSlots f b).slot j =
      pairedAfter (s.slots.map fun x => (f x).1)
        (fun i => (f (s.slot i)).2.isSome && (f (s.slot i)).2 == b) j := by
  unfold State.changeSlots
  dsimp only
  rw [State.slot_settlePairs]
  · congr 1
    exact foldl_keeps (fun t => t.slots) _ (by intro t i; split <;> rfl) _ _
  · intro t
    exact foldl_keeps (fun t => t.slots) _ (by intro t i; split <;> rfl) _ _

end Sys2Proof.Machine
end

