-- ==== Sys2Proof/Laws/Period.lean ====
section
/-!
SUPPORT. One mix period in two parts: the audio stages, which touch only the rings and counters of the slots that were
live, and the slot table's part with the talker selector's close.
-/
namespace Sys2Proof.Machine

/-- From `s` to `t` a slot's rings and counters may have changed, those of a slot that was not live have not. -/
def AudioOnly (states : PerSlot SlotState) (s t : State) : Prop :=
  ∀ i, t.slot i = { s.slot i with
      inRing := (t.slot i).inRing, outRing := (t.slot i).outRing, stats := (t.slot i).stats } ∧
    ((states.get i).live = false → t.slot i = s.slot i)

variable {states : PerSlot SlotState} {s t u : State}

theorem AudioOnly.of_slots (h : t.slots = s.slots) : AudioOnly states s t := by
  intro i
  have : t.slot i = s.slot i := by rw [State.slot, h, State.slot]
  rw [this]
  exact ⟨rfl, fun _ => rfl⟩

theorem AudioOnly.trans (h : AudioOnly states s t) (k : AudioOnly states t u) : AudioOnly states s u := by
  intro i
  obtain ⟨h1, h2⟩ := h i
  obtain ⟨k1, k2⟩ := k i
  refine ⟨?_, fun hl => (k2 hl).trans (h2 hl)⟩
  rw [k1, h1]

theorem AudioOnly.of_setSlot {i : SlotId} {x : Slot}
    (hx : x = { s.slot i with inRing := x.inRing, outRing := x.outRing, stats := x.stats })
    (hl : (states.get i).live = true) : AudioOnly states s (s.setSlot i x) := by
  intro j
  by_cases hj : j = i
  · subst hj
    rw [State.slot_setSlot_self]
    exact ⟨hx, fun h => by rw [hl] at h; cases h⟩
  · rw [State.slot_setSlot_ne _ hj]
    exact ⟨rfl, fun _ => rfl⟩

theorem State.micInput_audioOnly (s : State) (states : PerSlot SlotState) (c : Pacing) (i : SlotId) :
    AudioOnly states s (s.micInput states c i).1 := by
  unfold State.micInput
  split
  · next hl =>
    unfold State.inboundPass
    dsimp only
    split
    · exact (AudioOnly.of_setSlot rfl hl).trans (.of_slots (State.anomaly_slots ..))
    · exact .of_setSlot rfl hl
  · exact .of_slots rfl

theorem State.micInputs_audioOnly (s : State) (states : PerSlot SlotState) (c : Pacing) :
    AudioOnly states s (s.micInputs states c).1 :=
  (((s.micInput_audioOnly states c .s0).trans (State.micInput_audioOnly _ states c .s1)).trans
    (State.micInput_audioOnly _ states c .s2)).trans (State.micInput_audioOnly _ states c .s3)

theorem State.deliver_audioOnly (s : State) (states : PerSlot SlotState) (c : Pacing) (x : MixInputs) :
    AudioOnly states s (s.deliver states c x) := by
  intro i
  have : (s.deliver states c x).slot i =
      if states.get i = .active then (s.slot i).appendOut (mixedBlock (s.mix.applied.o.get i) x) else s.slot i := by
    rw [State.slot, State.deliver, PerSlot.get_tabulate]
  rw [this]
  split
  · next h => exact ⟨rfl, fun hl => by rw [h] at hl; cases hl⟩
  · exact ⟨rfl, fun _ => rfl⟩

theorem State.fillCheck_audioOnly (s : State) (states : PerSlot SlotState) (i : SlotId) :
    AudioOnly states s (s.fillCheck states i) := by
  unfold State.fillCheck
  split
  · exact .of_slots rfl
  · dsimp only
    split
    · next h =>
      apply AudioOnly.trans (AudioOnly.of_setSlot _ (by rw [h.1]; rfl)) (.of_slots rfl)
      rfl
    · exact .of_slots rfl

theorem State.fillChecks_audioOnly (s : State) (states : PerSlot SlotState) :
    AudioOnly states s (s.fillChecks states) := by
  unfold State.fillChecks
  generalize SlotId.all = l
  induction l generalizing s with
  | nil => exact .of_slots rfl
  | cons i l ih => exact (s.fillCheck_audioOnly states i).trans (ih _)

/-- A mix period: after the audio stages the slot table takes its part and the talker selector closes (R128, R134,
R148). -/
theorem State.mixPeriod_parts (s : State) (c : Pacing) (d : List Sample) :
    ∃ u e, s.mixPeriod c d = u.slotPeriod.talkerClose s.slotStates e ∧ AudioOnly s.slotStates s u ∧
      u.mix = (s.countPeriod.rampGains s.slotStates).mix ∧ u.limits = s.limits ∧ u.radio = s.radio ∧
      ∃ play, u.call = { s.call with playHalf := play } ∧ (c = .byCall → play.length = 80) ∧
        (c = .byLocal → play = s.call.playHalf) := by
  refine ⟨_, _, rfl, ?_, ?_, ?_, ?_, ?_⟩
  · apply AudioOnly.trans _ (State.fillChecks_audioOnly _ _)
    apply AudioOnly.trans _ (State.deliver_audioOnly _ _ _ _)
    apply AudioOnly.trans _ (.of_slots (State.raiseMixsat_slots _ _ _))
    apply AudioOnly.trans _ (.of_slots (State.promptInput_slots _))
    exact AudioOnly.trans (.of_slots (by simp)) (State.micInputs_audioOnly _ _ _)
  · simp
  · simp
  · simp
  · cases c
    · refine ⟨mixedBlock ?g ?x, ?h, ?_, ?_⟩
      case h =>
        simp only [State.fillChecks_call, State.deliver, if_true, State.raiseMixsat_call, State.promptInput_call,
          State.micInputs_call, State.rampGains_call, State.countPeriod_call]
        rfl
      · simp [mixedBlock, positions]
      · simp
    · refine ⟨_, ?_, by simp, fun _ => rfl⟩
      simp [State.deliver]

/-- The talker selector's close changes talker state and the watches' run counters alone (R148). -/
theorem State.slot_talkerClose (s : State) (states : PerSlot SlotState) (e : PerSlot (List Sample)) (i : SlotId) :
    (s.talkerClose states e).slot i = { s.slot i with
      talker := ((s.talkerClose states e).slot i).talker, watch := ((s.talkerClose states e).slot i).watch } := by
  have h : ∃ p : PerSlot Slot, (s.talkerClose states e).slots = p ∧
      ∀ i, p.get i = { s.slot i with talker := (p.get i).talker, watch := (p.get i).watch } := by
    unfold State.talkerClose
    dsimp only
    rw [foldl_keeps (fun s => s.slots) _ (by intro t i; split <;> simp)]
    rw [foldl_keeps (fun s => s.slots) _ (by intro t i; split <;> simp)]
    refine ⟨_, rfl, ?_⟩
    intro i
    simp only [PerSlot.get_tabulate]
    split <;> rfl
  obtain ⟨p, hp, hi⟩ := h
  rw [State.slot, hp]
  exact hi i

/-- The records after the slot table's part of a period: idle count and state by R5 and R6, then the pair rules. -/
theorem State.slot_slotPeriod (s : State) (i : SlotId) :
    s.slotPeriod.slot i =
      pairedAfter (s.slots.map fun x => (x.idlePeriod s.limits.lossTimeout).1)
        (fun j => (s.slot j |>.idlePeriod s.limits.lossTimeout).2.isSome &&
          ((s.slot j).idlePeriod s.limits.lossTimeout).2 == some .lostTimeout) i := by
  unfold State.slotPeriod
  rw [State.slot_changeSlots]
  simp

end Sys2Proof.Machine
end

