-- ==== Sys2Proof/Laws/Notices.lean ====
section
/-!
SUPPORT. Lists of raises: what a run of raises leaves in the queue, by kind, and which lists the pair rules and a change
made to every slot raise.
-/
namespace Sys2Proof.Machine

variable {s : State} {i k : SlotId}

/-! ### Lists of raises (R173) -/

theorem raisedInto_append (q : List Notice) (l m : List NoticeBody) :
    raisedInto q (l ++ m) = raisedInto (raisedInto q l) m := List.foldl_append

theorem State.withNotices_nil : s.withNotices [] = s := rfl

theorem State.withNotices_append (l m : List NoticeBody) :
    s.withNotices (l ++ m) = (s.withNotices l).withNotices m := by
  unfold State.withNotices
  rw [raisedInto_append]

theorem NoticeBody.over_kind {b c : NoticeBody} : (b.over c).kind = b.kind := by
  unfold NoticeBody.over
  split <;> rfl

theorem coalesce_cons (b : NoticeBody) (n : Notice) (q : List Notice) :
    coalesce b (n :: q) =
      if n.body.key = b.key then { count := satSucc8 n.count, body := b.over n.body } :: q
      else n :: coalesce b q := rfl

/-- The notices of one kind after a raise: those of another kind stay. -/
theorem coalesce_ofKind (b : NoticeBody) (kind : NoticeKind) : ∀ q : List Notice,
    (coalesce b q).filter (fun n => n.body.kind == kind) =
      if b.kind = kind then coalesce b (q.filter fun n => n.body.kind == kind)
      else q.filter fun n => n.body.kind == kind
  | [] => by
    by_cases h : b.kind = kind
    · simp [coalesce, h]
    · simp [coalesce, h]
  | n :: q => by
    rw [coalesce_cons]
    by_cases hk : n.body.key = b.key
    · have hkind : n.body.kind = b.kind := congrArg Prod.fst hk
      rw [if_pos hk, List.filter_cons, List.filter_cons, NoticeBody.over_kind, hkind]
      by_cases h : b.kind = kind
      · simp only [h, beq_self_eq_true, if_true]
        rw [coalesce_cons, if_pos hk]
      · simp [h]
    · rw [if_neg hk, List.filter_cons, List.filter_cons, coalesce_ofKind b kind q]
      by_cases h : b.kind = kind
      · simp only [if_pos h]
        by_cases h2 : n.body.kind = kind
        · simp only [h2, beq_self_eq_true, if_true]
          rw [coalesce_cons, if_neg hk]
        · simp only [beq_eq_false_iff_ne.mpr h2, Bool.false_eq_true, if_false]
      · simp only [if_neg h]

theorem ofKind_raisedInto (kind : NoticeKind) : ∀ (l : List NoticeBody) (q : List Notice),
    (raisedInto q l).filter (fun n => n.body.kind == kind) =
      raisedInto (q.filter fun n => n.body.kind == kind) (l.filter fun b => b.kind == kind)
  | [], _ => rfl
  | b :: l, q => by
    show (raisedInto (coalesce b q) l).filter _ = _
    rw [ofKind_raisedInto kind l, coalesce_ofKind, List.filter_cons]
    by_cases h : b.kind = kind
    · rw [if_pos h, if_pos (by simp [h])]
      rfl
    · rw [if_neg h, if_neg (by simp [h])]

/-! ### The raises of the pair rules and of a change made to every slot (R6, R35) -/

/-- A walk over the slots that raises, for each, what does not depend on the raises before it: a list of raises. -/
theorem State.foldl_raises {op : State → SlotId → State} {body : SlotId → Option NoticeBody}
    (hop : ∀ l i, op (s.withNotices l) i = (s.withNotices l).withNotices (body i).toList) (l : List SlotId) :
    l.foldl op s = s.withNotices (l.filterMap body) := by
  have walk : ∀ (l : List SlotId) (m : List NoticeBody),
      l.foldl op (s.withNotices m) = s.withNotices (m ++ l.filterMap body) := by
    intro l
    induction l with
    | nil =>
      intro m
      rw [List.filterMap_nil, List.append_nil]
      rfl
    | cons i l ih =>
      intro m
      rw [List.foldl_cons, hop, ← State.withNotices_append, ih]
      cases h : body i <;> simp [h]
  exact walk l []

/-- The pair rules of an event whose own notices are a list of raises: the records after them, and the ROLE notices
behind that list (R6, R35). -/
theorem State.settlePairs_eq {lost : SlotId → Bool} {own : State → State} {raised : List NoticeBody}
    (hown : own { s with slots := .tabulate (pairedAfter s.slots lost) } =
      ({ s with slots := .tabulate (pairedAfter s.slots lost) } : State).withNotices raised) :
    s.settlePairs lost own = ({ s with slots := .tabulate (pairedAfter s.slots lost) } : State).withNotices
      (raised ++ SlotId.all.filterMap fun i =>
        if roleChanged s.slots lost i then
          some (.slot i (slotNotice (pairedAfter s.slots lost i) .role (pairedAfter s.slots lost i).handle none))
        else none) := by
  unfold State.settlePairs State.raiseRoles
  rw [hown, State.withNotices_append]
  refine State.foldl_raises ?_ _
  intro l i
  split
  · rw [State.raiseSlot_eq, State.slot]
    show State.withNotice _ (.slot i (slotNotice ((PerSlot.tabulate (pairedAfter s.slots lost)).get i) _
      ((PerSlot.tabulate (pairedAfter s.slots lost)).get i).handle _)) = _
    rw [PerSlot.get_tabulate]
    rfl
  · rfl

/-- The notices of a change made to every slot: each slot's own in slot order, then ROLE (R6, R12, R35). -/
theorem State.changeSlots_queue (f : Slot → Slot × Option SlotReason) (b : Option SlotReason) :
    let t := s.changeSlots f b
    let lost := fun i => (f (s.slot i)).2.isSome && (f (s.slot i)).2 == b
    t.notices.queue = raisedInto s.notices.queue
      ((SlotId.all.filterMap fun i =>
          (f (s.slot i)).2.map fun r => NoticeBody.slot i (slotNotice (t.slot i) r (s.slot i).handle none)) ++
        SlotId.all.filterMap fun i =>
          if roleChanged (s.slots.map fun x => (f x).1) lost i then
            some (.slot i (slotNotice (t.slot i) .role (t.slot i).handle none))
          else none) := by
  intro t lost
  have hslot : ∀ i, t.slot i = pairedAfter (s.slots.map fun x => (f x).1) lost i :=
    fun i => State.slot_changeSlots f b i
  simp only [hslot]
  show (State.changeSlots s f b).notices.queue = _
  unfold State.changeSlots
  dsimp only
  generalize hz : List.foldl (β := SlotId) (α := State) _ _ SlotId.all = z
  have hzs : z.slots = s.slots.map fun x => (f x).1 := by
    rw [← hz]
    exact foldl_keeps (fun s => s.slots) _ (by intro t i; split <;> simp) _ _
  have hzn : z.notices = s.notices := by
    rw [← hz]
    exact foldl_keeps (fun s => s.notices) _ (by intro t i; split <;> simp) _ _
  rw [State.settlePairs_eq (raised := SlotId.all.filterMap fun i => (f (s.slot i)).2.map fun r =>
    NoticeBody.slot i (slotNotice (pairedAfter z.slots lost i) r (s.slot i).handle none))]
  · rw [hzs]
    show raisedInto z.notices.queue _ = _
    rw [hzn]
  · refine State.foldl_raises ?_ _
    intro l i
    cases (f (s.slot i)).2 with
    | none => rfl
    | some r =>
      dsimp only
      rw [State.raiseSlot_eq, State.slot]
      show State.withNotice _ (.slot i (slotNotice ((PerSlot.tabulate (pairedAfter z.slots lost)).get i) _ _ _)) = _
      rw [PerSlot.get_tabulate]
      rfl

end Sys2Proof.Machine
end

