-- ==== Sys2Proof/Laws/Pairs.lean ====
section
/-!
SUPPORT. What the members of a pair share, in the words of Safety: the lead taken by R32, the shared estimate, the steps
of the two passes, and the comparison of rates.
-/
namespace Sys2Proof.Machine

variable {s : State} {i k : SlotId}

theorem State.leaderOf_eq (s : State) (i : SlotId) : s.leaderOf i = (s.slot i).leader? := by
  unfold State.leaderOf Slot.leader?
  cases (s.slot i).role <;> rfl

/-- The lead taken on entering ACTIVE (R32). -/
theorem State.takeLead_eq (h : (s.slot i).state ≠ .lost) : s.takeLead i = s.leadTaken i := by
  unfold State.takeLead State.leadTaken
  rw [State.leaderOf_eq]
  cases (s.slot i).leader? with
  | none => rfl
  | some k =>
    dsimp only
    split
    · next hl =>
      have hki : k ≠ i := by
        rintro rfl
        exact h hl
      simp only [State.modSlot, State.slot_setSlot_ne _ hki, State.raiseSlot_eq, State.slot_setSlot_ne _ hki.symm,
        State.slot_setSlot_self, slotNotice]
      rfl
    · rfl

/-- The records after the lead is taken: two roles at most have changed. -/
theorem State.slot_leadTaken (s : State) (i j : SlotId) :
    ∃ r, (s.leadTaken i).slot j = { s.slot j with role := r } := by
  have keep : ∃ r, s.slot j = { s.slot j with role := r } := ⟨(s.slot j).role, rfl⟩
  unfold State.leadTaken
  split
  · next k _ =>
    split
    · show ∃ r, ((s.setSlot i _).setSlot k _).slot j = _
      rw [State.slot_setSlot, State.slot_setSlot]
      split
      · next h => exact ⟨.follower, by rw [h]⟩
      · split
        · next h => exact ⟨.leader, by rw [h]⟩
        · exact keep
    · exact keep
  · exact keep

/-- A window opened on slot `i`, and the lead it takes, in either order. -/
theorem State.openWindow_leadTaken (h : (s.slot i).state ≠ .lost) (seq : SeqNum) (stamp : Stamp) :
    (s.leadTaken i).openWindow i seq stamp = (s.openWindow i seq stamp).leadTaken i := by
  let x : Slot := { s.slot i with window := some { startSeq := seq, startStamp := stamp } }
  have ho : s.openWindow i seq stamp = s.setSlot i x := rfl
  have hi : (s.openWindow i seq stamp).slot i = x := State.slot_setSlot_self _ _ _
  have hl : (s.openWindow i seq stamp).leaderOf i = s.leaderOf i := by
    rw [State.leaderOf_eq, State.leaderOf_eq, hi]
    rfl
  unfold State.leadTaken
  rw [hl]
  cases s.leaderOf i with
  | none => rfl
  | some k =>
    dsimp only
    by_cases hki : k = i
    · subst hki
      rw [if_neg h, if_neg (by rw [hi]; exact h)]
    · have hk : (s.openWindow i seq stamp).slot k = s.slot k := State.slot_setSlot_ne _ hki _
      rw [hk]
      split
      · unfold State.withLead
        rw [hk, hi, ho]
        dsimp only
        have he : ((s.withSlot i { s.slot i with role := .leader }).withSlot k
            { s.slot k with role := .follower }).slot i = { s.slot i with role := .leader } := by
          show ((s.setSlot i _).setSlot k _).slot i = _
          rw [State.slot_setSlot_ne _ (Ne.symm hki), State.slot_setSlot_self]
        show State.setSlot _ i { (((s.withSlot i { s.slot i with role := .leader }).withSlot k
          { s.slot k with role := .follower }).slot i) with window := _ } = _
        rw [he]
        show State.withNotice (((s.setSlot i _).setSlot k _).setSlot i _) _ =
          State.withNotice (((s.setSlot i _).setSlot i _).setSlot k _) _
        rw [State.setSlot_comm hki, State.setSlot_setSlot, State.setSlot_setSlot, ← State.setSlot_comm hki]
      · rfl

/-! ### The partner of an admission -/

/-- The partner that a profile names, in the words of Safety (R16, R23). -/
theorem State.profilePartner_eq (s : State) (profile : Option Profile) (side : Side) :
    s.profilePartner profile side = s.namedPartner profile side := by
  unfold State.profilePartner State.namedPartner
  cases profile.bind fun p => p.partnerIdentity with
  | none => rfl
  | some identity =>
    dsimp only [Option.bind_some]
    show (match s.slotOfIdentity identity with
      | none => none
      | some k => _) = (s.slotOfIdentity identity).filter _
    cases s.slotOfIdentity identity with
    | none => rfl
    | some k =>
      have key : ∀ (r : Role) (d : Side),
          (if r = .solo ∧ side.opposite = some d then some k else none) =
          if (r == .solo &&
            match side, d with
            | .left, .right => true
            | .right, .left => true
            | _, _ => false) = true then some k else none := by
        intro r d
        cases r <;> cases side <;> cases d <;> rfl
      exact key _ _

/-! ### Rates and steps (R36, R38, R96, R101 to R104) -/

theorem slotRate_eq (s : State) (i : SlotId) : slotRate s.slots s.slotStates i = s.sharedEstimate i := by
  unfold slotRate State.sharedEstimate
  rw [State.leaderOf_eq]
  show (match (s.slot i).leader? with
    | some k => _
    | none => _) = _
  cases (s.slot i).leader? with
  | none => rfl
  | some k => simp [State.slotStates, SlotState.live, State.slot_def]

theorem fillCorrection_eq (fill target : Nat) :
    fillCorrection fill target = max (-400) (min 400 (2 * ((fill : Int) - target))) := by
  unfold fillCorrection
  exact clampInt_eq (by omega)

theorem State.inboundStep_eq (s : State) (pacing : Pacing) (i : SlotId) :
    s.inboundStep s.slotStates pacing i = s.stepIn pacing i := by
  unfold State.inboundStep State.stepIn
  rw [slotRate_eq, fillCorrection_eq]
  rfl

theorem State.outboundStep_eq (s : State) (i : SlotId) : s.outboundStep i = s.stepOut i := by
  have hown : s.ownOutboundStep i =
      stepOf (-(s.sharedEstimate i - if s.call.state = .absent then 0 else s.rate.estimate) +
        max (-400) (min 400 (2 * (((s.slot i).outRing.samples.length : Int) - (s.slot i).outTarget)))) := by
    unfold State.ownOutboundStep
    rw [slotRate_eq, fillCorrection_eq]
    congr 4
    unfold State.pacing
    cases s.call.state <;> rfl
  unfold State.outboundStep State.stepOut
  rw [State.leaderOf_eq, hown]
  cases (s.slot i).leader? with
  | none => rfl
  | some k =>
    dsimp only
    cases (s.slot k).outRing.lastStep <;> cases (s.slot k).state <;> rfl

/-! ### The notices of a completed window (R39, R93) -/

theorem State.raiseRate_eq (s : State) (i : SlotId) (m : Int) (blocks : Nat) (ticks : BitVec 32) :
    s.raiseRate i m blocks ticks = s.withNotices
      (if m.natAbs ≤ s.limits.slotLimit then []
      else
        [.rate i
          { state := (s.slot i).state, measured := max (-32767) (min 32767 m), estimate := (s.slot i).estimate,
            slotLimit := s.limits.slotLimit, failCount := (s.slot i).failCount, blocks := blocks,
            ticks := ticks }]) := by
  unfold State.raiseRate withinLimit
  rw [show reportedValue m = max (-32767) (min 32767 m) from clampInt_eq (by omega)]
  simp only [decide_eq_true_eq]
  split <;> rfl

theorem State.compareRates_eq (s : State) (i : SlotId) (m : Int) :
    s.compareRates i m = s.withNotices
      (match s.leaderOf i with
      | some k =>
        let c := clampedValue m s.limits.slotLimit
        let lead := (s.slot k).estimate
        if ((s.slot k).state = .active ∨ (s.slot k).state = .stalled) ∧ s.limits.pairTolerance < (c - lead).natAbs then
          [.skew i { reason := .rate, leader := k, followerValue := c, leaderValue := lead, difference := c - lead }]
        else []
      | none => []) := by
  unfold State.compareRates
  rw [State.leaderOf_eq]
  cases (s.slot i).leader? with
  | none => rfl
  | some k =>
    dsimp only
    have hlive : ((s.slot k).state.live = true) ↔ ((s.slot k).state = .active ∨ (s.slot k).state = .stalled) := by
      simp [SlotState.live]
    simp only [hlive]
    split <;> rfl

end Sys2Proof.Machine
end

