-- ==== Sys2Proof/Laws/Radio.lean ====
section
/-!
SUPPORT. What the operations behind the radio messages do: activity, concealment, anomalies, the window's completion,
the pending list, a live slot that is lost.
-/
namespace Sys2Proof.Machine

variable {s : State} {i k : SlotId} {h : Handle}

/-! ### Which slot a message is for (R44, R46) -/

theorem isHandle_of_ne (h0 : h ≠ 0) : isHandle h = true := by simpa [isHandle] using h0

theorem exec_mic_bound (h0 : h ≠ 0) {samples : List Sample} (hl : samples.length = 80) (seq : SeqNum) (stamp : Stamp)
    (bad : Bool) (hi : s.Holds i h) :
    exec (.mic h seq stamp bad samples) s = .next (s.micOnSlot i seq stamp bad samples) := by
  simp [exec, execMic, isHandle_of_ne h0, isBlock, hl, State.takeMic, State.boundSlot_holds hi]

theorem exec_pull_bound (h0 : h ≠ 0) (seq : SeqNum) (stamp : Stamp) (hi : s.Holds i h) :
    exec (.pull h seq stamp) s = .next (s.pullOnSlot i h seq stamp) := by
  simp [exec, execPull, isHandle_of_ne h0, State.takePull, State.boundSlot_holds hi]

theorem exec_linkUp_eq (h0 : h ≠ 0) (d : Identity) (mic : Bool) :
    exec (.linkUp h d mic) s = .next (s.linkUp { handle := h, identity := d, mic := mic }) := by
  simp only [exec, execLinkUp, isHandle_of_ne h0, if_true]

/-! ### Activity (R5, R7, R10) -/

theorem State.activity_plain (h1 : (s.slot i).state ≠ .stalled) (h2 : (s.slot i).state ≠ .lost) :
    s.activity i = s.setSlot i { s.slot i with idle := 0 } := by
  unfold State.activity
  dsimp only
  rw [State.slot_modSlot_self]
  dsimp only
  split
  · contradiction
  · contradiction
  · rfl

/-! ### Anomalies (R66) -/

theorem State.anomaly_empty (hc : s.capture.record = none) (kind : AnomalyKind) (slot : Option SlotId)
    (handle : Option Handle) (message : Option (SeqNum × Stamp)) :
    s.anomaly kind slot handle message =
      { s with
        capture :=
          { record := some
              { kind := kind, slot := slot, handle := handle, message := message, mixPeriod := s.mix.period },
            further := 0 }
        notices := { s.notices with
          queue := coalesce (.capture { kind := kind, slot := slot }) s.notices.queue } } := by
  unfold State.anomaly
  rw [hc]
  rfl

theorem State.anomaly_full {a : Anomaly} (hc : s.capture.record = some a) (kind : AnomalyKind) (slot : Option SlotId)
    (handle : Option Handle) (message : Option (SeqNum × Stamp)) :
    s.anomaly kind slot handle message =
      { s with capture := { record := some a, further := min 255 (s.capture.further + 1) } } := by
  simp [State.anomaly, hc, satSucc8]

theorem State.anomaly_setSlot (kind : AnomalyKind) (slot : Option SlotId) (handle : Option Handle)
    (message : Option (SeqNum × Stamp)) (x : Slot) :
    (s.anomaly kind slot handle message).setSlot i x = (s.setSlot i x).anomaly kind slot handle message := by
  cases hc : s.capture.record <;> simp [State.anomaly, State.setSlot, State.raise, hc]

/-- The anomaly of R66 in the words of Safety. -/
theorem State.anomaly_eq (kind : AnomalyKind) (slot : Option SlotId) (handle : Option Handle)
    (message : Option (SeqNum × Stamp)) :
    s.anomaly kind slot handle message = s.recorded kind slot handle message := by
  unfold State.anomaly State.recorded
  cases hc : s.capture.record with
  | none => rfl
  | some a => simp only [hc, satSucc8]

@[simp] theorem State.recorded_slot (kind : AnomalyKind) (slot : Option SlotId) (handle : Option Handle)
    (message : Option (SeqNum × Stamp)) (j : SlotId) : (s.recorded kind slot handle message).slot j = s.slot j := by
  unfold State.recorded
  cases s.capture.record <;> rfl

/-- An anomaly touches the capture record and the notice queue alone. -/
theorem State.slotAnomaly_eq (o : Bool) (kind : AnomalyKind) (message : Option (SeqNum × Stamp)) :
    s.slotAnomaly o kind i message =
      { s with
        capture := (s.slotAnomaly o kind i message).capture
        notices := (s.slotAnomaly o kind i message).notices } := by
  unfold State.slotAnomaly State.anomaly
  split
  · split <;> rfl
  · rfl

/-! ### Concealment (R55, R57, R59) -/

theorem length_concealBlock {history : Option (List Sample)} (hh : ∀ b, history = some b → b.length = 80) (n : Nat) :
    (concealBlock history n).length = 80 := by
  cases history with
  | none => rfl
  | some b => simp [concealBlock, hh b rfl]

/-- A block that fits is appended and nothing is discarded. -/
theorem InRing.append_fits (r : InRing) (live : Bool) (block : List Sample) (hf : r.samples.length + 80 ≤ 1024) :
    r.append live block = ({ r with samples := r.samples ++ block }, 0) := by
  have : (if live then overrunDiscard r.samples.length else 0) = 0 := by
    split
    · unfold overrunDiscard
      rw [if_neg (Nat.not_lt.mpr hf)]
    · rfl
  simp [InRing.append, this]

/-- Concealment blocks that fit: each is made at the run it raises. -/
theorem InRing.conceal_fits (live : Bool) : ∀ (c : Nat) (r : InRing), r.run ≤ 255 →
    (∀ b, r.history = some b → b.length = 80) → r.samples.length + 80 * c ≤ 1024 →
    InRing.conceal live c r =
      ({ r with
          samples := r.samples ++
            (List.range c).flatMap fun j => concealBlock r.history (min 255 (r.run + j + 1))
          run := min 255 (r.run + c) }, 0)
  | 0, r, hr, _, _ => by simp [InRing.conceal, hr]
  | c + 1, r, hr, hh, hl => by
    unfold InRing.conceal
    dsimp only
    rw [InRing.append_fits]
    · rw [InRing.conceal_fits live c]
      · simp [satSucc8, List.range_succ_eq_map, List.flatMap_map]
        refine ⟨?_, ?_⟩
        · congr 1
          funext j
          congr 1
          omega
        · omega
      · simp [satSucc8]
      · exact hh
      · simp [length_concealBlock hh]
        omega
    · simp
      omega

theorem concealBlock_eq (x : Slot) (k : Nat) : concealBlock x.inRing.history k = x.fadedBlock k := by
  unfold concealBlock Slot.fadedBlock
  cases x.inRing.history <;> rfl

/-- What the inserts and the append of a MIC do to a lawful ring, in the words of Safety. -/
theorem micEffect_eq {x : Slot} (hx : x.ringsLawful) (g : Nat) (bad : Bool) {samples : List Sample}
    (hl : samples.length = 80) (hs : x.state = .active ∨ x.state = .measuring ∨ x.state = .filling) :
    micEffect x.inRing x.state.live x.inTarget g bad samples =
      { ring := { x.inRing with
          samples := (x.blockAppended g bad samples).drop (x.blockOverrun g bad samples)
          phase := if x.blockOverrun g bad samples = 0 then x.inRing.phase else 0
          history := if bad then x.inRing.history else some samples
          run := if bad then min 255 (x.inRing.run + (x.gapBlocks g + x.badBlocks g)) else 0 }
        concealed := x.gapBlocks g + if bad then x.badBlocks g else 0
        skipped := g - x.gapBlocks g
        discarded := x.blockOverrun g bad samples } := by
  obtain ⟨hf, -, -, -, -, hh, hr, -, ht, -⟩ := hx
  have hlen : ∀ n (f : Nat → Nat),
      ((List.range n).flatMap fun j => concealBlock x.inRing.history (f j)).length = 80 * n := by
    intro n f
    rw [List.length_flatMap]
    simp [length_concealBlock hh, Nat.mul_comm]
  have hfade : x.fadedBlock = concealBlock x.inRing.history := funext fun k => (concealBlock_eq x k).symm
  have hc : min g (min 8 (concealCap x.inTarget x.inRing.samples.length)) = x.gapBlocks g := rfl
  have hcap : x.inRing.samples.length + 80 * x.gapBlocks g ≤ max x.inRing.samples.length 800 := by
    unfold Slot.gapBlocks; omega
  have hcap2 : x.inRing.samples.length + 80 * (x.gapBlocks g + x.badBlocks g) ≤ max x.inRing.samples.length 800 := by
    unfold Slot.badBlocks
    dsimp only
    split <;> omega
  unfold micEffect
  dsimp only
  rw [hc, InRing.conceal_fits _ _ _ hr hh (by omega)]
  cases bad
  · simp only [Bool.false_eq_true, if_false, Nat.add_zero]
    have happ : x.blockAppended g false samples = x.inRing.samples ++
        ((List.range (x.gapBlocks g)).flatMap fun j =>
          concealBlock x.inRing.history (min 255 (x.inRing.run + j + 1))) ++ samples := by
      simp [Slot.blockAppended, hfade]
    generalize hins : x.inRing.samples ++ ((List.range (x.gapBlocks g)).flatMap fun j =>
      concealBlock x.inRing.history (min 255 (x.inRing.run + j + 1))) = ins at *
    have hi : ins.length = x.inRing.samples.length + 80 * x.gapBlocks g := by
      rw [← hins]
      simp [hlen]
    have hd : (if x.state.live then overrunDiscard ins.length else 0) = x.blockOverrun g false samples := by
      unfold Slot.blockOverrun
      rw [happ]
      rcases hs with hs | hs | hs
      · simp only [hs, SlotState.live, overrunDiscard, Config.ringCapacity, Config.blockSamples, List.length_append,
          hl]
        simp
        omega
      · simp [hs, SlotState.live]
      · simp [hs, SlotState.live]
    simp only [InRing.appendReal, InRing.append, hd, happ]
    have : x.blockOverrun g false samples ≤ ins.length := by
      rw [← hd]
      split
      · unfold overrunDiscard
        split <;> omega
      · omega
    rw [List.drop_append_of_le_length this]
    simp
  · simp only [if_true]
    have hb : (if x.gapBlocks g = 8 then 0
        else min 1 (concealCap x.inTarget (x.inRing.samples ++ (List.range (x.gapBlocks g)).flatMap fun j =>
          concealBlock x.inRing.history (min 255 (x.inRing.run + j + 1))).length)) = x.badBlocks g := by
      simp [Slot.badBlocks, concealCap, hlen, Config.blockSamples]
    rw [hb, InRing.conceal_fits]
    rotate_left
    · simp
    · exact hh
    · simp [hlen]
      omega
    have happ : x.blockAppended g true samples = x.inRing.samples ++
        ((List.range (x.gapBlocks g + x.badBlocks g)).flatMap fun j =>
          concealBlock x.inRing.history (min 255 (x.inRing.run + j + 1))) := by
      simp [Slot.blockAppended, hfade]
    have h0 : x.blockOverrun g true samples = 0 := by
      unfold Slot.blockOverrun
      rw [happ]
      split
      · rfl
      · simp [hlen]; omega
    rw [h0, happ]
    simp only [List.range_add, List.flatMap_append, List.flatMap_map, List.append_assoc, List.drop_zero, if_true]
    have hw : (List.range (x.badBlocks g)).flatMap (fun j =>
          concealBlock x.inRing.history (min 255 (min 255 (x.inRing.run + x.gapBlocks g) + j + 1))) =
        (List.range (x.badBlocks g)).flatMap fun j =>
          concealBlock x.inRing.history (min 255 (x.inRing.run + (x.gapBlocks g + j) + 1)) := by
      apply List.flatMap_congr
      intro j _
      congr 1
      omega
    rw [hw]
    congr 1
    congr 1
    omega

/-- The classification of R54, in the words of Safety. -/
theorem classifyMic_of_gapBefore {x : Slot} {seq : SeqNum} {g : Nat} (hg : x.gapBefore seq = some g) :
    classifyMic x.inRing.expected seq = .ahead g := by
  unfold Slot.gapBefore at hg
  unfold classifyMic
  cases he : x.inRing.expected with
  | none =>
    rw [he] at hg
    cases hg
    rfl
  | some e =>
    rw [he] at hg
    dsimp only at hg ⊢
    split at hg
    · cases hg
      rw [if_pos (by omega)]
    · cases hg

/-- The anomalies of an arrival leave its slot's record as the block left it. -/
theorem State.slot_blockTaken (i : SlotId) (g : Nat) (seq : SeqNum) (stamp : Stamp) (bad : Bool)
    (samples : List Sample) : (s.blockTaken i g seq stamp bad samples).slot i = (s.slot i).withBlock g seq bad samples := by
  have keeps : ∀ (l : List AnomalyKind) (handle : Option Handle) (message : Option (SeqNum × Stamp)) (t : State),
      (l.foldl (fun t kind => t.recorded kind (some i) handle message) t).slot i = t.slot i := by
    intro l handle message
    induction l with
    | nil => exact fun _ => rfl
    | cons a l ih =>
      intro t
      rw [List.foldl_cons, ih, State.recorded_slot]
  exact (keeps _ _ _ _).trans (State.slot_setSlot_self _ _ _)

/-! ### Steps (R38, R101 to R104) -/

/-- What an outbound step depends on. -/
theorem State.outboundStep_congr {t : State}
    (hx : ∀ j, (t.slot j).role = (s.slot j).role ∧ (t.slot j).partner = (s.slot j).partner ∧
      (t.slot j).state = (s.slot j).state ∧ (t.slot j).estimate = (s.slot j).estimate ∧
      (t.slot j).outRing = (s.slot j).outRing ∧ (t.slot j).outTarget = (s.slot j).outTarget)
    (hr : t.rate = s.rate) (hc : t.call = s.call) (i : SlotId) : t.outboundStep i = s.outboundStep i := by
  have hl : ∀ j, (t.slot j).leader? = (s.slot j).leader? := by
    intro j
    unfold Slot.leader?
    rw [(hx j).1, (hx j).2.1]
  have hsr : slotRate t.slots t.slotStates i = slotRate s.slots s.slotStates i := by
    unfold slotRate
    simp only [State.slotStates, PerSlot.get_map, State.slot_def, hl]
    split <;> simp [hx]
  have hown : t.ownOutboundStep i = s.ownOutboundStep i := by
    unfold State.ownOutboundStep State.pacing
    rw [hsr, hr, hc, (hx i).2.2.2.2.1, (hx i).2.2.2.2.2]
  unfold State.outboundStep
  rw [hl]
  split
  · next k hk => rw [(hx k).2.2.2.2.1, (hx k).2.2.1, hown]
  · exact hown

/-! ### Pulls on a slot (R62, R63, R113) -/

theorem State.slotAnomaly_setSlot (o : Bool) (kind : AnomalyKind) (message : Option (SeqNum × Stamp)) {x y : Slot}
    (hh : x.handle = y.handle) :
    ((s.setSlot i x).slotAnomaly o kind i message).setSlot i y = (s.setSlot i y).slotAnomaly o kind i message := by
  unfold State.slotAnomaly
  rw [State.slot_setSlot_self, State.slot_setSlot_self, hh]
  split
  · rw [State.anomaly_setSlot, State.setSlot_setSlot]
  · rw [State.setSlot_setSlot]

/-- A PULL on an ACTIVE slot: the outbound pass, then the rate window, then the SPK. -/
theorem State.pullOnSlot_active (hs : (s.slot i).state = .active) (h : Handle) (seq : SeqNum) (stamp : Stamp) :
    let r := runPass (s.stepOut i) 80 (s.slot i).outRing.samples (s.slot i).outRing.phase
    s.pullOnSlot i h seq stamp =
      (((s.setSlot i
        { s.slot i with
          idle := 0
          outRing := { samples := r.left, phase := r.phase, lastStep := some (s.stepOut i), lastServed := some seq }
          stats := { (s.slot i).stats with
            pulls := min 65535 ((s.slot i).stats.pulls + 1),
            outShort := min 65535 ((s.slot i).stats.outShort + r.short) } }).slotAnomaly (decide (0 < r.short))
          .outShort i (some (seq, stamp))).windowPull i seq stamp).withOutgoing
        [.spk h seq false (decide (0 < r.short)) r.outputs] := by
  intro r
  rw [State.pullOnSlot, State.activity_plain (by rw [hs]; decide) (by rw [hs]; decide)]
  simp only [State.count, State.modSlot, State.slot_setSlot_self, State.setSlot_setSlot]
  rw [if_pos hs]
  generalize hy : ({ s.slot i with idle := 0, stats := _ } : Slot) = y
  have hstep : (s.setSlot i y).outboundStep i = s.stepOut i := by
    rw [← State.outboundStep_eq]
    apply State.outboundStep_congr
    · intro j
      rw [State.slot_setSlot]
      split
      · next h =>
        subst h hy
        simp
      · simp
    · rfl
    · rfl
  have hpass : (s.setSlot i y).outboundPass i = r := by
    unfold State.outboundPass
    rw [hstep, State.slot_setSlot_self, ← hy]
    rfl
  unfold State.takeOutboundPass
  rw [hpass, hstep]
  simp only [State.modSlot, State.slot_setSlot_self, State.setSlot_setSlot]
  rw [← hy]
  rfl

/-- A PULL on an acquiring slot: the rate window, then the SILENT SPK. -/
theorem State.pullOnSlot_acquiring (hs : (s.slot i).state = .measuring ∨ (s.slot i).state = .filling) (h : Handle)
    (seq : SeqNum) (stamp : Stamp) :
    s.pullOnSlot i h seq stamp =
      ((s.setSlot i
        { s.slot i with
          idle := 0
          stats := { (s.slot i).stats with pulls := min 65535 ((s.slot i).stats.pulls + 1) } }).windowPull i seq
        stamp).withOutgoing [.spk h seq true false (List.replicate 80 0)] := by
  have hne : ∀ x, x = .active ∨ x = .stalled ∨ x = .lost → (s.slot i).state ≠ x := by
    rintro x (rfl | rfl | rfl) <;> rcases hs with h | h <;> rw [h] <;> decide
  rw [State.pullOnSlot, State.activity_plain (hne _ (by simp)) (hne _ (by simp))]
  simp only [State.count, State.modSlot, State.slot_setSlot_self, State.setSlot_setSlot]
  rw [if_neg (hne _ (by simp))]
  rfl

/-! ### The completion of a slot window (R8, R39, R93) -/

theorem clampedValue_eq (m : Int) {limit : Nat} (hl : limit ≤ 8000) :
    clampedValue m limit = max (-(limit : Int)) (min (limit : Int) m) := by
  unfold clampedValue
  rw [clampSym_eq, clampInt_eq (by omega)]
  omega

theorem State.measuringResult_filling {m : Int} (hs : (s.slot i).state = .measuring)
    (hb : withinLimit m s.limits.slotLimit = true) (hmic : (s.slot i).mic = true)
    (hf : (s.slot i).inRing.samples.length < (s.slot i).inTarget) :
    s.measuringResult i m = s.setSlot i { s.slot i with state := .filling } := by
  unfold State.measuringResult
  rw [if_pos hs, if_pos hb]
  unfold State.fillTest
  rw [State.slot_modSlot_self, if_neg]
  · rfl
  · dsimp only
    rintro ⟨-, h | h⟩
    · rw [hmic] at h
      cases h
    · omega

theorem State.measuringResult_stay {m : Int} (hs : (s.slot i).state = .measuring)
    (hb : withinLimit m s.limits.slotLimit = false) (hf : (s.slot i).failCount < 3) : s.measuringResult i m = s := by
  unfold State.measuringResult
  rw [if_pos hs, if_neg (by simp [hb]), if_neg (by omega)]

theorem State.measuringResult_fail {m : Int} (hs : (s.slot i).state = .measuring)
    (hb : withinLimit m s.limits.slotLimit = false) (hf : 3 ≤ (s.slot i).failCount) :
    s.measuringResult i m = (s.release (s.slot i).handle).failSlot i .failRate none := by
  unfold State.measuringResult
  rw [if_pos hs, if_neg (by simp [hb]), if_pos hf]

theorem State.measuringResult_other {m : Int} (hs : (s.slot i).state ≠ .measuring) : s.measuringResult i m = s := by
  unfold State.measuringResult
  rw [if_neg hs]

/-! ### The pending list (R13, R16, R17) -/

theorem State.dropPending_unpending (hn : s.NotPending h) : s.dropPending h = s := by
  have : s.radio.pendingLinks.filter (fun e => e.handle != h) = s.radio.pendingLinks := by
    rw [List.filter_eq_self]
    intro e he
    simpa using hn e he
  simp [State.dropPending, State.setPendingLinks, this]

theorem State.supersede_eq (d : Identity) :
    s.supersede d = { s with radio := { s.radio with
      pendingLinks := s.radio.pendingLinks.filter fun e => e.identity != d
      outgoing := s.radio.outgoing ++ (s.radio.pendingLinks.filter fun e => e.identity == d).map
        fun e : PendingLink => RadioOut.release e.handle } } := by
  have : ∀ (l : List PendingLink) (t : State), l.foldl (fun t e => t.release (some e.handle)) t =
      { t with radio := { t.radio with
        outgoing := t.radio.outgoing ++ l.map fun e : PendingLink => RadioOut.release e.handle } } := by
    intro l
    induction l with
    | nil => intro t; simp
    | cons e l ih => intro t; rw [List.foldl_cons, ih]; simp [State.release, State.send]
  rw [State.supersede, this]
  rfl

/-! ### A live slot that is lost (R11, R31) -/

theorem State.slot_lose_self (handle : Option Handle) : (s.lose i handle).slot i = (s.slot i).lost handle := by
  unfold State.lose
  rw [State.zeroIfLive_slot, State.slot_setSlot_self]

theorem State.slot_lose_ne {j : SlotId} (hj : j ≠ i) (handle : Option Handle) :
    (s.lose i handle).slot j = s.slot j := by
  unfold State.lose
  rw [State.zeroIfLive_slot, State.slot_setSlot_ne _ hj]

/-- A slot in no pair is lost: the pair rules have nothing to do. -/
theorem State.settlePairs_lose_solo (hP : s.PairsLawful) (hi : (s.slot i).partner = none) (handle : Option Handle)
    (own : State → State) : (s.lose i handle).settlePairs (fun j => j == i) own = own (s.lose i handle) := by
  have hpart : ∀ j, ((s.lose i handle).slot j).partner = (s.slot j).partner ∧
      ((s.lose i handle).slot j).role = (s.slot j).role := by
    intro j
    by_cases hj : j = i
    · subst hj
      rw [State.slot_lose_self]
      exact ⟨rfl, rfl⟩
    · rw [State.slot_lose_ne hj]
      exact ⟨rfl, rfl⟩
  have hnp : ∀ j, (s.slot j).partner ≠ some i := by
    intro j hp
    have := (hP.partner hp).2.1
    rw [hi] at this
    cases this
  apply State.settlePairs_quiet
  intro j
  refine ⟨?_, ?_, ?_⟩
  · unfold pairEnded
    rw [State.slot_def, (hpart j).1]
    cases hp : (s.slot j).partner with
    | none => rfl
    | some k =>
      have hki : k ≠ i := by
        rintro rfl
        exact hnp j hp
      dsimp only
      rw [State.slot_def, State.slot_lose_ne hki]
      simp [(hP.partner hp).2.2.2.1]
  · unfold swapsUp Slot.leader?
    rw [(hpart j).1, (hpart j).2]
    split
    · next k hk =>
      split at hk
      · have : k ≠ i := by
          rintro rfl
          exact hnp j hk
        simp [this]
      · cases hk
    · rfl
  · unfold swapsDown
    rw [State.slot_def, (hpart j).1, (hpart j).2]
    by_cases hj : j = i
    · subst hj
      rw [hi]
    · split
      · simp [hj]
      · rfl

end Sys2Proof.Machine
end

