-- ==== Sys2Proof/Laws/Audio.lean ====
section
/-!
SUPPORT. The audio stages of a mix period in the words of Safety: the command that raises it, the ramped gains, the
inbound passes, the prompt, the saturations, delivery and the fill checks, and at the end the whole of them at once.
-/
namespace Sys2Proof.Machine

variable {s t : State} {i k : SlotId} {pacing : Pacing} {d : List Sample} {c : Instr}

/-- A command that raises a mix period runs one, in a state that differs from `s` in the call port's counters and
timers and in the call window alone. -/
theorem RaisesPeriod.exec_eq (h : RaisesPeriod s c pacing d) :
    ∃ call rate, exec c s = .next (({ s with call := call, rate := rate } : State).mixPeriod pacing d) ∧
      call.playHalf = s.call.playHalf ∧ rate.estimate = s.rate.estimate := by
  cases h with
  | timer due hd =>
    refine ⟨{ s.call with lastMixTick := some due, localTimer := some (due + 122880) }, s.rate, ?_, rfl, rfl⟩
    simp only [exec, execLocalTimerExpiry, hd]
    exact congrArg _ (congrArg₂ (fun u d => State.mixPeriod u .byLocal d) rfl rfl)
  | strobe tick downlink w ha hn hw hc =>
    let call : CallPort :=
      { s.call with
        uplink := s.call.playHalf.getD 79 0, captureHalf := s.call.captureHalf.set 79 downlink, strobeCount := 0,
        strobeTimer := some (tick + 49152), lastMixTick := some tick }
    let rate : CallRate := { s.rate with window := some { w with counted := w.counted + 1 } }
    refine ⟨call, rate, ?_, rfl, rfl⟩
    have htake : s.takeStrobe tick downlink = ((s.exchange tick downlink).windowStrobe tick).endPeriod tick := by
      unfold State.takeStrobe
      split
      · next h => exact absurd h ha
      · rfl
      · rfl
    show Host.Outcome.next (s.takeStrobe tick downlink) = _
    rw [htake]
    unfold State.windowStrobe State.exchange
    dsimp only
    rw [hw]
    dsimp only
    rw [if_neg (by unfold Config.callWindowStrobes; omega)]
    unfold State.endPeriod
    dsimp only
    rw [hn, if_pos (by decide)]

theorem State.slotStates_get (s : State) (i : SlotId) : s.slotStates.get i = (s.slot i).state := by
  simp [State.slotStates, State.slot_def]

/-! ### Stage 1: the gains (R122 to R126) -/

/-- One step of the ramp, by which side of the target the gain lies on (R124). -/
theorem rampStep_eq (ramp a e : Nat) :
    rampStep ramp a e = if ramp = 0 then e else if a ≤ e then min e (a + ramp) else max e (a - ramp) := by
  unfold rampStep
  split
  · rfl
  · split
    · split <;> omega
    · split <;> split <;> omega

/-- The gains of a period after its ramp. -/
theorem State.applied_rampGains (s : State) (o : Output) (j : Input) :
    (s.rampGains s.slotStates).mix.applied.get o j = s.periodGain o j := by
  unfold State.rampGains State.periodGain
  simp only [GainMatrix.get_tabulate]
  unfold steppedPath effectiveTarget
  simp only [State.slotStates_get, rampStep_eq]
  cases o <;> cases j <;> rfl

theorem GainMatrix.row_u (m : GainMatrix) :
    m.u = { d := m.get .u .d, e := .tabulate fun k => m.get .u (.e k), p := m.get .u .p } := rfl

theorem GainMatrix.row_o (m : GainMatrix) (i : SlotId) :
    m.o.get i = { d := m.get (.o i) .d, e := .tabulate fun k => m.get (.o i) (.e k), p := m.get (.o i) .p } := by
  cases i <;> rfl

/-! ### Stage 2: the inbound passes and the prompt (R111, R129, R154) -/

/-- The record of slot `i` after its inbound pass of the period (R111). -/
def State.readSlot (s : State) (pacing : Pacing) (i : SlotId) : Slot :=
  let x := s.slot i
  let r := s.periodPass pacing i
  if x.state.live then
    { x with
      inRing := { x.inRing with samples := r.left, phase := r.phase }
      stats :=
        { x.stats with
          inStarve := if s.starves pacing i then min 65535 (x.stats.inStarve + r.short) else x.stats.inStarve } }
  else x

/-- The anomaly of slot `i`, where it starves in the period of `s` (R66, R111). -/
def State.recordStarve (s : State) (pacing : Pacing) (t : State) (i : SlotId) : State :=
  if s.starves pacing i then t.anomaly .inStarve (some i) (s.slot i).handle none else t

theorem State.recordStarve_setSlot (t : State) (i k : SlotId) (x : Slot) :
    (s.recordStarve pacing t i).setSlot k x = s.recordStarve pacing (t.setSlot k x) i := by
  unfold State.recordStarve
  split
  · rw [State.anomaly_setSlot]
  · rfl

theorem State.recordStarve_slot (t : State) (i j : SlotId) : (s.recordStarve pacing t i).slot j = t.slot j := by
  unfold State.recordStarve
  split
  · rw [State.anomaly_slot]
  · rfl

theorem State.recordStarve_rate (t : State) (i : SlotId) : (s.recordStarve pacing t i).rate = t.rate := by
  unfold State.recordStarve
  split
  · rw [State.anomaly_rate]
  · rfl

theorem State.foldl_recordStarve_setSlot (i : SlotId) (x : Slot) : ∀ (l : List SlotId) (u : State),
    (l.foldl (s.recordStarve pacing) u).setSlot i x = l.foldl (s.recordStarve pacing) (u.setSlot i x)
  | [], _ => rfl
  | a :: l, u => by
    rw [List.foldl_cons, foldl_recordStarve_setSlot i x l, State.recordStarve_setSlot]
    rfl

/-- The records after a walk that sets some slots. -/
theorem State.slot_foldl_setSlot (f : SlotId → Slot) (j : SlotId) : ∀ (l : List SlotId) (u : State),
    (l.foldl (fun u i => u.setSlot i (f i)) u).slot j = if j ∈ l then f j else u.slot j
  | [], _ => rfl
  | a :: l, u => by
    rw [List.foldl_cons, slot_foldl_setSlot f j l, State.slot_setSlot]
    by_cases h : j ∈ l
    · simp [h]
    · by_cases h2 : j = a
      · simp [h2]
      · simp [h, h2]

theorem State.readSlot_fields (s : State) (pacing : Pacing) (i : SlotId) :
    s.readSlot pacing i =
      { s.slot i with inRing := (s.readSlot pacing i).inRing, stats := (s.readSlot pacing i).stats } := by
  unfold State.readSlot
  dsimp only
  split <;> rfl

/-- The inbound pass of one slot, in a state in which the slots read so far differ from `s` in ring and counters. -/
theorem State.micInput_eq (hr : t.rate = s.rate) (hi : t.slot i = s.slot i)
    (hx : ∀ j, ∃ r st, t.slot j = { s.slot j with inRing := r, stats := st }) :
    t.micInput s.slotStates pacing i =
      (s.recordStarve pacing (t.setSlot i (s.readSlot pacing i)) i, (s.periodInputs pacing d).e.get i) := by
  have hl : ∀ j, (t.slot j).leader? = (s.slot j).leader? ∧ (t.slot j).estimate = (s.slot j).estimate := by
    intro j
    obtain ⟨r, st, h⟩ := hx j
    rw [h]
    exact ⟨rfl, rfl⟩
  have hstep : t.inboundStep s.slotStates pacing i = s.stepIn pacing i := by
    rw [← State.inboundStep_eq]
    unfold State.inboundStep slotRate
    simp only [State.slot_def, hl, hr, hi]
  have he : (s.periodInputs pacing d).e.get i =
      if (s.slot i).state.live then (s.periodPass pacing i).outputs else List.replicate 80 0 := by
    simp [State.periodInputs]
  unfold State.micInput
  rw [State.slotStates_get, he]
  by_cases hlive : (s.slot i).state.live = true
  · rw [if_pos hlive, if_pos hlive]
    unfold State.inboundPass
    rw [hstep, hi]
    have hs : s.starves pacing i = ((s.slot i).mic && decide (0 < (s.periodPass pacing i).short)) := by
      unfold State.starves
      rw [hlive, Bool.true_and]
    have hread : s.readSlot pacing i = { s.slot i with
        inRing := { (s.slot i).inRing with
          samples := (s.periodPass pacing i).left, phase := (s.periodPass pacing i).phase }
        stats :=
          if s.starves pacing i then
            { (s.slot i).stats with
              inStarve := satAdd16 (s.slot i).stats.inStarve (s.periodPass pacing i).short }
          else (s.slot i).stats } := by
      unfold State.readSlot
      dsimp only
      rw [if_pos hlive]
      split <;> rfl
    rw [hread]
    unfold State.recordStarve
    rw [hs]
    rfl
  · have hs : s.starves pacing i = false := by
      unfold State.starves
      simp only [Bool.not_eq_true] at hlive
      rw [hlive, Bool.false_and, Bool.false_and]
    have hread : s.readSlot pacing i = t.slot i := by
      unfold State.readSlot
      dsimp only
      rw [if_neg hlive, hi]
    rw [if_neg hlive, if_neg hlive, hread, State.setSlot_self, State.recordStarve, hs]
    rfl

/-- The four inbound passes: every record read, the starved slots' anomalies in slot order, the inputs E (R111,
R129). -/
theorem State.micInputs_eq (s : State) (pacing : Pacing) (d : List Sample) :
    s.micInputs s.slotStates pacing =
      (SlotId.all.foldl (s.recordStarve pacing) { s with slots := .tabulate (s.readSlot pacing) },
        (s.periodInputs pacing d).e) := by
  let read := fun l : List SlotId => l.foldl (fun u j => u.setSlot j (s.readSlot pacing j)) s
  have key : ∀ (l : List SlotId) (i : SlotId), i ∉ l →
      (l.foldl (s.recordStarve pacing) (read l)).micInput s.slotStates pacing i =
        ((l ++ [i]).foldl (s.recordStarve pacing) (read (l ++ [i])), (s.periodInputs pacing d).e.get i) := by
    intro l i hi
    have hslot : ∀ j, (l.foldl (s.recordStarve pacing) (read l)).slot j =
        if j ∈ l then s.readSlot pacing j else s.slot j := fun j =>
      (foldl_keeps (fun u => u.slot j) _ (fun u i => State.recordStarve_slot u i j) _ _).trans
        (State.slot_foldl_setSlot _ j l s)
    have hrate : (l.foldl (s.recordStarve pacing) (read l)).rate = s.rate :=
      (foldl_keeps (fun u => u.rate) _ (fun u i => State.recordStarve_rate u i) _ _).trans
        (foldl_keeps (fun u => u.rate) (fun u j => u.setSlot j (s.readSlot pacing j)) (fun _ _ => rfl) _ _)
    rw [State.micInput_eq (d := d) hrate (by rw [hslot, if_neg hi])]
    · rw [State.foldl_recordStarve_setSlot, List.foldl_append]
      show _ = (List.foldl _ (List.foldl _ (List.foldl _ s (l ++ [i])) l) [i], _)
      rw [List.foldl_append]
      rfl
    · intro j
      rw [hslot]
      split
      · exact ⟨_, _, State.readSlot_fields s pacing j⟩
      · exact ⟨_, _, rfl⟩
  have h0 := key [] .s0 (by simp)
  have h1 := key [.s0] .s1 (by simp)
  have h2 := key [.s0, .s1] .s2 (by simp)
  have h3 := key [.s0, .s1, .s2] .s3 (by simp)
  unfold State.micInputs
  simp only [List.foldl_nil, List.nil_append, List.cons_append] at h0 h1 h2 h3
  rw [show s.micInput s.slotStates pacing .s0 = _ from h0]
  dsimp only
  rw [h1]
  dsimp only
  rw [h2]
  dsimp only
  rw [h3]
  rfl

/-- Anomalies against a full capture record: each adds 1 to the further-count (R66). -/
theorem State.foldl_anomaly_full {a : Anomaly} (h : SlotId → Option Handle) : ∀ (l : List SlotId) (u : State),
    l ≠ [] → u.capture.record = some a →
      l.foldl (fun u i => u.anomaly .inStarve (some i) (h i) none) u =
        { u with capture := { record := some a, further := min 255 (u.capture.further + l.length) } }
  | [], _, hl, _ => absurd rfl hl
  | i :: [], u, _, hu => by
    rw [List.foldl_cons, State.anomaly_full hu]
    rfl
  | i :: j :: l, u, _, hu => by
    rw [List.foldl_cons, State.anomaly_full hu, foldl_anomaly_full h (j :: l) _ (by simp) rfl]
    simp only [List.length_cons]
    congr 2
    omega

/-- The anomalies of the starved slots: the capture record and the CAPTURE notice (R66, R111). -/
theorem State.foldl_recordStarve (s : State) (pacing : Pacing) (t : State) :
    ∃ capture captures,
      SlotId.all.foldl (s.recordStarve pacing) t = ({ t with capture := capture } : State).withNotices captures ∧
      (∀ b ∈ captures, b.kind = .capture) ∧
      let starved := SlotId.all.filter (s.starves pacing)
      (starved = [] → capture = t.capture ∧ captures = []) ∧
      (∀ a, starved ≠ [] → t.capture.record = some a →
        capture = { record := some a, further := min 255 (t.capture.further + starved.length) } ∧ captures = []) ∧
      ∀ i rest, starved = i :: rest → t.capture.record = none →
        capture =
          { record := some
              { kind := .inStarve, slot := some i, handle := (s.slot i).handle, message := none,
                mixPeriod := t.mix.period },
            further := min 255 rest.length } ∧
        captures = [.capture { kind := .inStarve, slot := some i }] := by
  have hf : SlotId.all.foldl (s.recordStarve pacing) t = (SlotId.all.filter (s.starves pacing)).foldl
      (fun u i => u.anomaly .inStarve (some i) (s.slot i).handle none) t := by
    rw [List.foldl_filter]
    rfl
  rw [hf]
  generalize SlotId.all.filter (s.starves pacing) = l
  cases l with
  | nil =>
    exact ⟨t.capture, [], rfl, by simp, fun _ => ⟨rfl, rfl⟩, fun _ h => absurd rfl h, fun _ _ h => (by cases h)⟩
  | cons i l =>
    cases hc : t.capture.record with
    | some a =>
      refine ⟨{ record := some a, further := min 255 (t.capture.further + (i :: l).length) }, [],
        State.foldl_anomaly_full _ (i :: l) t (by simp) hc, by simp, fun h => (by cases h), ?_,
        fun _ _ _ h => (by cases h)⟩
      intro b _ hb
      cases hb
      exact ⟨rfl, rfl⟩
    | none =>
      refine ⟨{ record := some
                  { kind := .inStarve, slot := some i, handle := (s.slot i).handle, message := none,
                    mixPeriod := t.mix.period },
                further := min 255 l.length }, [.capture { kind := .inStarve, slot := some i }], ?_,
        by simp [NoticeBody.kind], fun h => (by cases h), fun _ _ h => (by cases h), ?_⟩
      · rw [List.foldl_cons, State.anomaly_empty hc]
        cases l with
        | nil => rfl
        | cons j l =>
          rw [State.foldl_anomaly_full _ (j :: l) _ (by simp) rfl]
          simp only [Nat.zero_add]
          rfl
      · intro j rest h _
        cases h
        exact ⟨rfl, rfl⟩

/-- The prompt player's part of stage 2: the player after P, and PROMPT reason DONE where a play ends (R129, R154,
R155). -/
theorem State.promptInput_eq (s : State) :
    s.promptInput =
      (State.withNotices { s with prompt := { s.prompt with player := (formP s.prompt.memory s.prompt.player).2 } }
        (match s.prompt.player, (formP s.prompt.memory s.prompt.player).2 with
        | .playing p, .idle =>
          [.prompt { reason := .done, start := p.start, length := p.length, stateLeft := .playing, remaining := 0,
                     mixPeriod := s.mix.period }]
        | _, _ => []), (formP s.prompt.memory s.prompt.player).1) := by
  unfold State.promptInput
  dsimp only
  cases hp : s.prompt.player with
  | idle => rfl
  | gap p n =>
    unfold formP
    dsimp only [Player.play?]
    by_cases h : n - 1 = 0
    · simp only [if_pos h]
      rfl
    · simp only [if_neg h]
      rfl
  | playing p =>
    dsimp only [Player.play?]
    cases (formP s.prompt.memory (.playing p)).2 <;> rfl

/-! ### Stage 3: the saturations (R132, R133) -/

/-- MIXSAT at the close of stage 3. -/
theorem State.raiseMixsat_eq (s : State) (n : Output → Nat) (pacing : Pacing) :
    let total := n .u + n (.o .s0) + n (.o .s1) + n (.o .s2) + n (.o .s3)
    let bit := fun (o : Output) (k : Nat) => if n o = 0 then 0 else 2 ^ k
    s.raiseMixsat n pacing = s.withNotices
      (if total = 0 then []
      else
        [.mixsat
          { mask := BitVec.ofNat 5 (bit .u 0 + bit (.o .s0) 1 + bit (.o .s1) 2 + bit (.o .s2) 3 + bit (.o .s3) 4),
            mixPeriod := s.mix.period, samples := total, pacing := pacing }]) := by
  intro total bit
  have hmask : maskBit (n .u) 0 ||| maskBit (n (.o .s0)) 1 ||| maskBit (n (.o .s1)) 2 ||| maskBit (n (.o .s2)) 3 |||
      maskBit (n (.o .s3)) 4 =
        BitVec.ofNat 5 (bit .u 0 + bit (.o .s0) 1 + bit (.o .s1) 2 + bit (.o .s2) 3 + bit (.o .s3) 4) := by
    simp only [maskBit, bit]
    by_cases h0 : n .u = 0 <;> by_cases h1 : n (.o .s0) = 0 <;> by_cases h2 : n (.o .s1) = 0 <;>
      by_cases h3 : n (.o .s2) = 0 <;> by_cases h4 : n (.o .s3) = 0 <;>
      simp only [h0, h1, h2, h3, h4, if_true, if_false] <;> rfl
  unfold State.raiseMixsat
  dsimp only
  rw [hmask]
  show (if total = 0 then _ else _) = s.withNotices (if total = 0 then _ else _)
  split <;> rfl

/-! ### Stage 4 and the fill checks (R40, R41, R61, R134) -/

/-- The record of slot `i` after delivery of the period's outputs (R61, R111, R134). -/
def State.deliveredSlot (s : State) (pacing : Pacing) (d : List Sample) (i : SlotId) : Slot :=
  let x := s.slot i
  let y := s.readSlot pacing i
  if x.state = .active then
    { y with
      outRing := s.periodOut pacing d i
      stats :=
        { y.stats with outOverrun := min 65535 (x.stats.outOverrun + (x.outRing.samples.length - 944)) } }
  else y

theorem State.deliveredSlot_fields (s : State) (pacing : Pacing) (d : List Sample) (i : SlotId) :
    s.deliveredSlot pacing d i =
      { s.slot i with
        inRing := (s.deliveredSlot pacing d i).inRing, outRing := (s.deliveredSlot pacing d i).outRing
        stats := (s.deliveredSlot pacing d i).stats } := by
  unfold State.deliveredSlot
  dsimp only
  split <;> rw [State.readSlot_fields]

theorem State.deliveredSlot_active (h : (s.slot i).state = .active) :
    (s.deliveredSlot pacing d i).outRing = s.periodOut pacing d i := by
  unfold State.deliveredSlot
  dsimp only
  rw [if_pos h]

/-- Delivery, in a state whose slots have been read and whose gains have been ramped. -/
theorem State.deliver_eq {u : State} (hs : ∀ i, u.slot i = s.readSlot pacing i)
    (hg : ∀ o j, u.mix.applied.get o j = s.periodGain o j) :
    u.deliver s.slotStates pacing (s.periodInputs pacing d) =
      { u with
        call := match pacing with
          | .byCall => { u.call with playHalf := mixedBlock (s.periodRow .u) (s.periodInputs pacing d) }
          | .byLocal => u.call
        slots := .tabulate (s.deliveredSlot pacing d) } := by
  have hu : u.mix.applied.u = s.periodRow .u := by
    rw [GainMatrix.row_u]
    simp only [hg]
    rfl
  have ho : ∀ i, u.mix.applied.o.get i = s.periodRow (.o i) := by
    intro i
    rw [GainMatrix.row_o]
    simp only [hg]
    rfl
  have hslot : ∀ i,
      (if s.slotStates.get i = .active then
        (u.slot i).appendOut (mixedBlock (u.mix.applied.o.get i) (s.periodInputs pacing d))
      else u.slot i) = s.deliveredSlot pacing d i := by
    intro i
    have hover : overrunDiscard (s.slot i).outRing.samples.length = (s.slot i).outRing.samples.length - 944 := by
      unfold overrunDiscard Config.ringCapacity Config.blockSamples
      split <;> omega
    have hr : (s.readSlot pacing i).outRing = (s.slot i).outRing := by rw [State.readSlot_fields]
    have ht : (s.readSlot pacing i).stats.outOverrun = (s.slot i).stats.outOverrun := by
      unfold State.readSlot
      dsimp only
      split <;> rfl
    rw [State.slotStates_get, hs, ho]
    unfold State.deliveredSlot
    dsimp only
    split
    · unfold Slot.appendOut OutRing.append
      rw [hr]
      dsimp only
      rw [hover, ht]
      rfl
    · rfl
  unfold State.deliver
  rw [hu]
  simp only [hslot]
  cases pacing <;> rfl

/-- The record of slot `i` after the fill checks of the period (R40, R41). -/
def State.checkedSlot (s : State) (pacing : Pacing) (d : List Sample) (i : SlotId) : Slot :=
  let y := s.deliveredSlot pacing d i
  match s.resyncsTo pacing d i with
  | some k =>
    { y with
      outRing := y.outRing.resync (s.periodOut pacing d k)
      stats := { y.stats with resync := min 65535 (y.stats.resync + 1) } }
  | none => y

/-- The SKEW notice of the fill check of slot `i`, where it resynchronises (R40). -/
def State.fillSkew (s : State) (pacing : Pacing) (d : List Sample) (i : SlotId) : Option NoticeBody :=
  (s.resyncsTo pacing d i).map fun k =>
    let mine : Nat := (s.periodOut pacing d i).samples.length
    let theirs : Nat := (s.periodOut pacing d k).samples.length
    .skew i
      { reason := .fill, leader := k, followerValue := mine, leaderValue := theirs,
        difference := (mine : Int) - theirs }

theorem State.leaderOf_leader (hP : s.PairsLawful) (h : s.leaderOf i = some k) : s.leaderOf k = none := by
  have hi : (s.slot i).role = .follower ∧ (s.slot i).partner = some k := by
    unfold State.leaderOf at h
    split at h
    · next hr => exact ⟨hr, h⟩
    · cases h
  unfold State.leaderOf
  rcases (hP.partner hi.2).2.2.2.2 with ⟨h, _⟩ | ⟨_, h⟩
  · rw [hi.1] at h
    cases h
  · rw [h]

theorem State.checkedSlot_fields (s : State) (pacing : Pacing) (d : List Sample) (i : SlotId) :
    s.checkedSlot pacing d i =
      { s.slot i with
        inRing := (s.checkedSlot pacing d i).inRing, outRing := (s.checkedSlot pacing d i).outRing
        stats := (s.checkedSlot pacing d i).stats } := by
  unfold State.checkedSlot
  dsimp only
  split <;> rw [State.deliveredSlot_fields]

theorem State.checkedSlot_solo (h : s.leaderOf i = none) : s.checkedSlot pacing d i = s.deliveredSlot pacing d i := by
  unfold State.checkedSlot State.resyncsTo
  rw [h]
  rfl

/-- The fill check of one slot, in a state in which it and its LEADER stand as delivered. -/
theorem State.fillCheck_eq {u : State} (hi : u.slot i = s.deliveredSlot pacing d i)
    (hk : ∀ k, s.leaderOf i = some k → u.slot k = s.deliveredSlot pacing d k) :
    u.fillCheck s.slotStates i =
      (u.setSlot i (s.checkedSlot pacing d i)).withNotices (s.fillSkew pacing d i).toList := by
  have hl : (u.slot i).leader? = s.leaderOf i := by
    rw [State.leaderOf_eq, hi, State.deliveredSlot_fields]
    rfl
  unfold State.fillCheck
  rw [hl]
  have plain : s.resyncsTo pacing d i = none →
      u = (u.setSlot i (s.checkedSlot pacing d i)).withNotices (s.fillSkew pacing d i).toList := by
    intro hn
    unfold State.checkedSlot State.fillSkew
    rw [hn]
    dsimp only
    rw [← hi, State.setSlot_self]
    rfl
  cases hk' : s.leaderOf i with
  | none =>
    dsimp only
    apply plain
    unfold State.resyncsTo
    rw [hk']
    rfl
  | some k =>
    dsimp only
    rw [State.slotStates_get, State.slotStates_get, hi, hk k hk']
    by_cases hb : (s.slot i).state = .active ∧ (s.slot k).state = .active
    · rw [State.deliveredSlot_active hb.1, State.deliveredSlot_active hb.2]
      have hres : s.resyncsTo pacing d i =
          if (s.periodOut pacing d i).lastServed.isSome = true ∧
              (s.periodOut pacing d i).lastServed = (s.periodOut pacing d k).lastServed ∧
              40 < (((s.periodOut pacing d i).samples.length : Int) -
                (s.periodOut pacing d k).samples.length).natAbs then some k
          else none := by
        unfold State.resyncsTo
        rw [hk', Option.filter]
        simp only [hb.1, hb.2, beq_self_eq_true, Bool.true_and, Bool.and_eq_true, beq_iff_eq, decide_eq_true_eq,
          and_assoc]
      split
      · next hc =>
        rw [if_pos hc.2.2] at hres
        unfold State.checkedSlot State.fillSkew State.modSlot
        rw [hres, hi]
        dsimp only
        rw [State.deliveredSlot_active hb.1]
        rfl
      · next hc =>
        rw [if_neg (fun h => hc ⟨hb.1, hb.2, h⟩)] at hres
        exact plain hres
    · rw [if_neg (fun h => hb ⟨h.1, h.2.1⟩)]
      apply plain
      unfold State.resyncsTo
      rw [hk', Option.filter, if_neg]
      simp only [Bool.and_eq_true, beq_iff_eq]
      exact fun h => hb ⟨h.1.1.1.1, h.1.1.1.2⟩

/-- The fill checks of a period, in a state whose slots stand as delivered (R40, R41). -/
theorem State.fillChecks_eq (hP : s.PairsLawful) {u : State} (hu : ∀ i, u.slot i = s.deliveredSlot pacing d i) :
    u.fillChecks s.slotStates = State.withNotices { u with slots := .tabulate (s.checkedSlot pacing d) }
      (SlotId.all.filterMap (s.fillSkew pacing d)) := by
  let done := fun l : List SlotId => State.withNotices
    (l.foldl (fun u j => u.setSlot j (s.checkedSlot pacing d j)) u) (l.filterMap (s.fillSkew pacing d))
  have key : ∀ (l : List SlotId) (i : SlotId), i ∉ l →
      (done l).fillCheck s.slotStates i = done (l ++ [i]) := by
    intro l i hil
    have hslot : ∀ j, (done l).slot j =
        if j ∈ l then s.checkedSlot pacing d j else s.deliveredSlot pacing d j := by
      intro j
      rw [← hu]
      exact State.slot_foldl_setSlot _ j l u
    rw [State.fillCheck_eq (d := d) (pacing := pacing) (by rw [hslot, if_neg hil])]
    · show _ = State.withNotices (List.foldl _ u (l ++ [i])) (List.filterMap _ (l ++ [i]))
      rw [List.foldl_append, List.filterMap_append, State.withNotices_append]
      show _ = State.withNotices (State.withNotices (State.setSlot _ _ _) _) _
      congr 1
    · intro k hk
      rw [hslot]
      split
      · exact State.checkedSlot_solo (State.leaderOf_leader hP hk)
      · rfl
  have h0 := key [] .s0 (by simp)
  have h1 := key [.s0] .s1 (by simp)
  have h2 := key [.s0, .s1] .s2 (by simp)
  have h3 := key [.s0, .s1, .s2] .s3 (by simp)
  simp only [List.nil_append, List.cons_append] at h0 h1 h2 h3
  show State.fillCheck (State.fillCheck (State.fillCheck (State.fillCheck (done []) s.slotStates .s0) s.slotStates .s1)
    s.slotStates .s2) s.slotStates .s3 = _
  rw [h0, h1, h2, h3]
  rfl

/-- The fill checks touch the records and raise SKEW notices, in whatever state. -/
theorem State.fillChecks_raises (states : PerSlot SlotState) (s : State) :
    ∃ slots skews, s.fillChecks states = State.withNotices { s with slots := slots } skews ∧
      ∀ b ∈ skews, b.kind = .skew := by
  unfold State.fillChecks
  generalize SlotId.all = l
  induction l generalizing s with
  | nil => exact ⟨s.slots, [], rfl, by simp⟩
  | cons i l ih =>
    have one : ∃ slots skews, s.fillCheck states i = State.withNotices { s with slots := slots } skews ∧
        ∀ b ∈ skews, b.kind = .skew := by
      unfold State.fillCheck
      split
      · exact ⟨s.slots, [], rfl, by simp⟩
      · dsimp only
        split
        · exact ⟨_, [_], rfl, by simp [NoticeBody.kind]⟩
        · exact ⟨s.slots, [], rfl, by simp⟩
    obtain ⟨p, m, h, hm⟩ := one
    obtain ⟨p', m', h', hm'⟩ := ih (s.fillCheck states i)
    refine ⟨p', m ++ m', ?_, ?_⟩
    · rw [List.foldl_cons, h', h, State.withNotices_append]
      rfl
    · intro b hb
      rcases List.mem_append.mp hb with hb | hb
      · exact hm b hb
      · exact hm' b hb

/-! ### The stages together (R128) -/

/-- PROMPT reason DONE of the period, where a play ends in it (R155). -/
def State.periodPrompts (s : State) : List NoticeBody :=
  match s.prompt.player, (formP s.prompt.memory s.prompt.player).2 with
  | .playing p, .idle =>
    [.prompt { reason := .done, start := p.start, length := p.length, stateLeft := .playing, remaining := 0,
               mixPeriod := s.periodNumber }]
  | _, _ => []

/-- MIXSAT of the period, where an output saturates in it (R132, R133). -/
def State.periodMixsats (s : State) (pacing : Pacing) (d : List Sample) : List NoticeBody :=
  let n := s.periodSaturations pacing d
  let total := n .u + n (.o .s0) + n (.o .s1) + n (.o .s2) + n (.o .s3)
  let bit := fun (o : Output) (k : Nat) => if n o = 0 then 0 else 2 ^ k
  if total = 0 then []
  else
    [.mixsat
      { mask := BitVec.ofNat 5 (bit .u 0 + bit (.o .s0) 1 + bit (.o .s1) 2 + bit (.o .s2) 3 + bit (.o .s3) 4),
        mixPeriod := s.periodNumber, samples := total, pacing := pacing }]

theorem State.saturations_eq {m : GainMatrix} (hg : ∀ o j, m.get o j = s.periodGain o j) :
    saturations m s.slotStates pacing (s.periodInputs pacing d) = s.periodSaturations pacing d := by
  funext o
  unfold saturations State.periodSaturations
  cases o with
  | u =>
    rw [GainMatrix.row_u]
    simp only [hg, beq_iff_eq]
    rfl
  | o i =>
    dsimp only
    rw [GainMatrix.row_o, State.slotStates_get]
    simp only [hg, beq_iff_eq]
    rfl

/-- The prompt's part, behind the notices raised so far. -/
theorem State.promptInput_period {u : State} {l : List NoticeBody} (hp : u.prompt = s.prompt)
    (hn : u.mix.period = s.periodNumber) :
    (u.withNotices l).promptInput =
      (State.withNotices
        { u with prompt := { s.prompt with player := (formP s.prompt.memory s.prompt.player).2 } }
        (l ++ s.periodPrompts), (formP s.prompt.memory s.prompt.player).1) := by
  rw [State.promptInput_eq, State.withNotices_append]
  unfold State.periodPrompts
  rw [← hp, ← hn]
  rfl

/-- MIXSAT, behind the notices raised so far. -/
theorem State.raiseMixsat_period {u : State} {l : List NoticeBody} (hn : u.mix.period = s.periodNumber) :
    (u.withNotices l).raiseMixsat (s.periodSaturations pacing d) pacing =
      u.withNotices (l ++ s.periodMixsats pacing d) := by
  rw [State.raiseMixsat_eq, State.withNotices_append]
  unfold State.periodMixsats
  rw [← hn]
  rfl

/-- A mix period as far as the slot table's part, in full: the play half, the gains, the player, the capture record, the
records and the notices in their order (R128). -/
theorem State.mixPeriod_eq (s : State) (pacing : Pacing) (d : List Sample) :
    ∃ capture captures slots skews,
      s.mixPeriod pacing d =
        (State.withNotices
          { s with
            slots := slots, capture := capture
            call := match pacing with
              | .byCall => { s.call with playHalf := mixedBlock (s.periodRow .u) (s.periodInputs pacing d) }
              | .byLocal => s.call
            mix := (s.countPeriod.rampGains s.slotStates).mix
            prompt := { s.prompt with player := (formP s.prompt.memory s.prompt.player).2 } }
          (captures ++ s.periodPrompts ++ s.periodMixsats pacing d ++ skews)).slotPeriod.talkerClose s.slotStates
          (s.periodInputs pacing d).e ∧
      (∀ b ∈ captures, b.kind = .capture) ∧ (∀ b ∈ skews, b.kind = .skew) ∧
      (s.PairsLawful →
        slots = .tabulate (s.checkedSlot pacing d) ∧ skews = SlotId.all.filterMap (s.fillSkew pacing d)) ∧
      let starved := SlotId.all.filter (s.starves pacing)
      (starved = [] → capture = s.capture ∧ captures = []) ∧
      (∀ a, starved ≠ [] → s.capture.record = some a →
        capture = { record := some a, further := min 255 (s.capture.further + starved.length) } ∧ captures = []) ∧
      ∀ i rest, starved = i :: rest → s.capture.record = none →
        capture =
          { record := some
              { kind := .inStarve, slot := some i, handle := (s.slot i).handle, message := none,
                mixPeriod := s.periodNumber },
            further := min 255 rest.length } ∧
        captures = [.capture { kind := .inStarve, slot := some i }] := by
  let r := s.countPeriod.rampGains s.slotStates
  have hr : r.micInputs s.slotStates pacing = _ := State.micInputs_eq (s := r) pacing d
  obtain ⟨capture, captures, hf, hcap, hcases⟩ :=
    State.foldl_recordStarve s pacing { r with slots := .tabulate (s.readSlot pacing) }
  replace hr := hr.trans (congrArg (fun u => (u, (s.periodInputs pacing d).e)) hf)
  let v : State := { r with slots := .tabulate (s.readSlot pacing), capture := capture }
  let w : State := { v with prompt := { s.prompt with player := (formP s.prompt.memory s.prompt.player).2 } }
  have hg : ∀ o j, w.mix.applied.get o j = s.periodGain o j := State.applied_rampGains s.countPeriod
  let l := captures ++ s.periodPrompts ++ s.periodMixsats pacing d
  have hd : (w.withNotices l).deliver s.slotStates pacing (s.periodInputs pacing d) = _ :=
    State.deliver_eq (s := s) (fun i => by rw [State.slot]; exact PerSlot.get_tabulate _ _) hg
  let e : State := (State.withNotices { w with
    call := match pacing with
      | .byCall => { s.call with playHalf := mixedBlock (s.periodRow .u) (s.periodInputs pacing d) }
      | .byLocal => s.call
    slots := .tabulate (s.deliveredSlot pacing d) } l)
  have hd' : (w.withNotices l).deliver s.slotStates pacing (s.periodInputs pacing d) = e := by
    rw [hd]
    cases pacing <;> rfl
  have hmix : s.mixPeriod pacing d =
      (e.fillChecks s.slotStates).slotPeriod.talkerClose s.slotStates (s.periodInputs pacing d).e := by
    rw [← hd']
    unfold State.mixPeriod
    dsimp only
    rw [show s.countPeriod.rampGains s.slotStates = r from rfl, hr]
    dsimp only
    rw [State.promptInput_period (s := s) (u := v) rfl rfl]
    show ((((w.withNotices (captures ++ s.periodPrompts)).raiseMixsat
      (saturations w.mix.applied s.slotStates pacing (s.periodInputs pacing d)) pacing).deliver s.slotStates pacing
        (s.periodInputs pacing d)).fillChecks s.slotStates).slotPeriod.talkerClose _ _ = _
    rw [State.saturations_eq (s := s) hg, State.raiseMixsat_period (s := s) (u := w) rfl]
  obtain ⟨slots, skews, hfill, hskew⟩ := State.fillChecks_raises s.slotStates e
  have together : ∀ slots skews, e.fillChecks s.slotStates = State.withNotices { e with slots := slots } skews →
      s.mixPeriod pacing d =
        (State.withNotices
          { s with
            slots := slots, capture := capture
            call := match pacing with
              | .byCall => { s.call with playHalf := mixedBlock (s.periodRow .u) (s.periodInputs pacing d) }
              | .byLocal => s.call
            mix := (s.countPeriod.rampGains s.slotStates).mix
            prompt := { s.prompt with player := (formP s.prompt.memory s.prompt.player).2 } }
          (l ++ skews)).slotPeriod.talkerClose s.slotStates (s.periodInputs pacing d).e := by
    intro slots skews h
    rw [hmix, h, State.withNotices_append]
    rfl
  by_cases hP : s.PairsLawful
  · have hchecks := State.fillChecks_eq (pacing := pacing) (d := d) hP (u := e)
      (fun i => by rw [State.slot]; exact PerSlot.get_tabulate _ _)
    refine ⟨capture, captures, .tabulate (s.checkedSlot pacing d), SlotId.all.filterMap (s.fillSkew pacing d),
      together _ _ hchecks, hcap, ?_, fun _ => ⟨rfl, rfl⟩, hcases⟩
    intro b hb
    obtain ⟨i, _, hi⟩ := List.mem_filterMap.mp hb
    unfold State.fillSkew at hi
    obtain ⟨k, _, rfl⟩ := Option.map_eq_some_iff.mp hi
    rfl
  · exact ⟨capture, captures, slots, skews, together _ _ hfill, hcap, hskew, fun h => absurd h hP, hcases⟩

end Sys2Proof.Machine
end

