-- ==== Sys2Proof/Laws/Close.lean ====
section
/-!
SUPPORT. The end of a mix period: the slot table's part and the talker selector's close, with the notices of each in
their order.
-/
namespace Sys2Proof.Machine

variable {s : State} {i k : SlotId} {pacing : Pacing} {d : List Sample}

/-! ### The slot table's part (R6) -/

/-- The notices of the slot table's part: SLOT in slot order, then ROLE (R6). -/
theorem State.slotPeriod_queue (s : State) :
    let t := s.slotPeriod
    let f := Slot.idlePeriod s.limits.lossTimeout
    let lost := fun i => (f (s.slot i)).2.isSome && (f (s.slot i)).2 == some .lostTimeout
    t.notices.queue = raisedInto s.notices.queue
      ((SlotId.all.filterMap fun i =>
          (f (s.slot i)).2.map fun r => NoticeBody.slot i (slotNotice (t.slot i) r (s.slot i).handle none)) ++
        SlotId.all.filterMap fun i =>
          if roleChanged (s.slots.map fun x => (f x).1) lost i then
            some (.slot i (slotNotice (t.slot i) .role (t.slot i).handle none))
          else none) := by
  have hslots : s.releaseSilent.slots = s.slots := State.releaseSilent_slots s
  have hslot : ∀ i, s.releaseSilent.slot i = s.slot i := fun i => by rw [State.slot, hslots, State.slot]
  have h := State.changeSlots_queue (s := s.releaseSilent) (Slot.idlePeriod s.limits.lossTimeout) (some .lostTimeout)
  simp only [hslot, hslots, State.releaseSilent_notices] at h
  exact h

/-! ### The talker selector's close (R138 to R148) -/

/-- The records after S has moved (R139). -/
def State.heard (s : State) (states : PerSlot SlotState) (e : PerSlot (List Sample)) : PerSlot Slot :=
  .tabulate fun i => if (states.get i).live then (s.slot i).hear (e.get i) else s.slot i

/-- The TALK notice of slot `i`, where it receives the flag (R143). -/
def State.closeTalk (s : State) (states : PerSlot SlotState) (heard : PerSlot Slot) (i : SlotId) : Option NoticeBody :=
  match (heard.get i).partner, receivesPrimary heard states s.talk i with
  | some k, some cause =>
    some (.talk i
      { cause := cause, partner := k, level := (heard.get i).talker.level, partnerLevel := (heard.get k).talker.level,
        partnerState := states.get k, mixPeriod := s.mix.period })
  | _, _ => none

/-- The LEVEL notice of slot `i`, where its run reaches its count (R146). -/
def State.closeLevel (s : State) (states : PerSlot SlotState) (heard : PerSlot Slot) (i : SlotId) :
    Option NoticeBody :=
  let x := heard.get i
  if levelReached x.watch (states.get i) x.talker.level then
    some (.level i
      { condition := x.watch.condition, threshold := x.watch.threshold, count := x.watch.count,
        level := x.talker.level, mixPeriod := s.mix.period })
  else none

/-- The record of slot `i` after the close: flag, weight and run (R140 to R142, R145). -/
def State.closedSlot (s : State) (states : PerSlot SlotState) (heard : PerSlot Slot) (i : SlotId) : Slot :=
  let x := heard.get i
  let primary := primaryAfter heard states s.talk i
  { x with
    talker := { x.talker with
      primary := primary, weight := talkerWeight x.role primary x.talker.level s.talk }
    watch := { x.watch with run := runAfter x.watch (states.get i) x.talker.level } }

/-- The talker selector's close: the records, then TALK and LEVEL in slot order (R148). -/
theorem State.talkerClose_eq (s : State) (states : PerSlot SlotState) (e : PerSlot (List Sample)) :
    let heard := s.heard states e
    s.talkerClose states e =
      State.withNotices { s with slots := .tabulate (s.closedSlot states heard) }
        (SlotId.all.filterMap (s.closeTalk states heard) ++ SlotId.all.filterMap (s.closeLevel states heard)) := by
  intro heard
  let u : State := { s with slots := .tabulate (s.closedSlot states heard) }
  have hslot : ∀ l i, (u.withNotices l).slot i = s.closedSlot states heard i := by
    intro l i
    rw [State.slot]
    exact PerSlot.get_tabulate _ _
  let talk := fun (t : State) (i : SlotId) =>
    match receivesPrimary heard states s.talk i with
    | some cause => t.raiseTalk states i cause
    | none => t
  let level := fun (t : State) (i : SlotId) =>
    if levelReached (heard.get i).watch (states.get i) (heard.get i).talker.level then t.raiseLevel i else t
  have htalk : ∀ l i, talk (u.withNotices l) i = (u.withNotices l).withNotices (s.closeTalk states heard i).toList := by
    intro l i
    simp only [talk]
    unfold State.closeTalk
    cases hr : receivesPrimary heard states s.talk i with
    | none => cases (heard.get i).partner <;> rfl
    | some cause =>
      dsimp only
      unfold State.raiseTalk
      rw [hslot]
      show (match (heard.get i).partner with | some k => _ | none => _) = _
      cases (heard.get i).partner with
      | none => rfl
      | some k =>
        dsimp only
        rw [hslot]
        rfl
  have hlevel : ∀ l i, level (u.withNotices l) i =
      (u.withNotices l).withNotices (s.closeLevel states heard i).toList := by
    intro l i
    simp only [level]
    unfold State.closeLevel
    dsimp only
    split
    · unfold State.raiseLevel
      rw [hslot]
      rfl
    · rfl
  show SlotId.all.foldl level (SlotId.all.foldl talk u) = u.withNotices _
  rw [State.foldl_raises htalk, State.withNotices_append]
  refine State.foldl_raises (s := u.withNotices _) (fun l i => ?_) _
  rw [← State.withNotices_append]
  exact hlevel _ i

end Sys2Proof.Machine
end

