-- ==== Sys2Proof/Laws/Memory.lean ====
section
/-!
SUPPORT. The prompt memory: a read after a write, and that every write keeps the canonical form (R150, R152, log 15).
-/
namespace Sys2Proof.Machine

/-! ### The canonical form -/

theorem Memory.wfFrom_mono {lo lo' : Nat} (h : lo' ≤ lo) : ∀ {m : List PromptCell}, Memory.wfFrom lo m = true →
    Memory.wfFrom lo' m = true
  | [], _ => rfl
  | (a, v) :: rest, hm => by
    simp only [Memory.wfFrom, Bool.and_eq_true, decide_eq_true_eq] at hm ⊢
    exact ⟨⟨⟨by omega, hm.1.1.2⟩, hm.1.2⟩, hm.2⟩

/-- Below the first listed address everything reads 0. -/
theorem readPrompt_below : ∀ {m : List PromptCell} {lo a : Nat}, Memory.wfFrom lo m = true → a < lo →
    readPrompt m a = 0
  | [], _, _, _, _ => rfl
  | (b, v) :: rest, lo, a, hm, ha => by
    simp only [Memory.wfFrom, Bool.and_eq_true, decide_eq_true_eq] at hm
    rw [readPrompt, if_neg (by omega)]
    exact readPrompt_below hm.2 (by omega)

/-- A write within memory keeps the canonical form. -/
theorem wfFrom_writePrompt : ∀ {m : List PromptCell} {lo a : Nat} (v : Sample), Memory.wfFrom lo m = true → lo ≤ a →
    a < Config.promptSamples → Memory.wfFrom lo (writePrompt m a v) = true
  | [], lo, a, v, _, hlo, ha => by
    unfold writePrompt
    split
    · rfl
    · next hv =>
      simp only [Memory.wfFrom, Bool.and_eq_true, decide_eq_true_eq, and_true]
      exact ⟨⟨hlo, ha⟩, by simpa using hv⟩
  | (b, w) :: rest, lo, a, v, hm, hlo, ha => by
    have h := hm
    simp only [Memory.wfFrom, Bool.and_eq_true, decide_eq_true_eq] at h
    unfold writePrompt
    split
    · next hab =>
      split
      · exact hm
      · next hv =>
        simp only [Memory.wfFrom, Bool.and_eq_true, decide_eq_true_eq]
        exact ⟨⟨⟨hlo, ha⟩, by simpa using hv⟩, ⟨⟨⟨by omega, h.1.1.2⟩, h.1.2⟩, h.2⟩⟩
    · split
      · next _ hab =>
        subst hab
        split
        · exact Memory.wfFrom_mono (by omega) h.2
        · next hv =>
          simp only [Memory.wfFrom, Bool.and_eq_true, decide_eq_true_eq]
          exact ⟨⟨⟨hlo, ha⟩, by simpa using hv⟩, h.2⟩
      · next h1 h2 =>
        simp only [Memory.wfFrom, Bool.and_eq_true, decide_eq_true_eq]
        exact ⟨h.1, wfFrom_writePrompt v h.2 (by omega) ha⟩

theorem wf_writePrompt {m : List PromptCell} {a : Nat} (v : Sample) (h : Memory.wf m = true)
    (ha : a < Config.promptSamples) : Memory.wf (writePrompt m a v) = true :=
  wfFrom_writePrompt v h (Nat.zero_le a) ha

/-- Samples written within memory keep the canonical form. -/
theorem wf_writeSpan : ∀ {m : List PromptCell} {a : Nat} (l : List Sample), Memory.wf m = true →
    a + l.length ≤ Config.promptSamples → Memory.wf (writeSpan m a l) = true
  | _, _, [], h, _ => h
  | m, a, v :: rest, h, hl => by
    simp only [List.length_cons] at hl
    rw [writeSpan]
    exact wf_writeSpan rest (wf_writePrompt v h (by omega)) (by omega)

/-! ### Reading back -/

/-- A read after a write: the value written at its address, what was there everywhere else. -/
theorem readPrompt_writePrompt : ∀ {m : List PromptCell} {lo : Nat} (a : Nat) (v : Sample) (b : Nat),
    Memory.wfFrom lo m = true → readPrompt (writePrompt m a v) b = if b = a then v else readPrompt m b
  | [], lo, a, v, b, _ => by
    unfold writePrompt
    split
    · next hv => split <;> simp_all [readPrompt]
    · simp [readPrompt]
  | (c, w) :: rest, lo, a, v, b, hm => by
    simp only [Memory.wfFrom, Bool.and_eq_true, decide_eq_true_eq] at hm
    unfold writePrompt
    split
    · next hac =>
      have hz : readPrompt rest a = 0 := readPrompt_below hm.2 (by omega)
      split
      · next hv =>
        by_cases hb : b = a
        · subst hb; rw [if_pos rfl, readPrompt, if_neg (by omega), hz, hv]
        · rw [if_neg hb]
      · simp only [readPrompt]
    · split
      · next _ hac =>
        subst hac
        have hz : readPrompt rest a = 0 := readPrompt_below hm.2 (by omega)
        split
        · next hv =>
          by_cases hb : b = a
          · subst hb; rw [if_pos rfl, hz, hv]
          · rw [if_neg hb, readPrompt, if_neg hb]
        · by_cases hb : b = a <;> simp [readPrompt, hb]
      · next h1 h2 =>
        rw [readPrompt, readPrompt_writePrompt a v b hm.2, readPrompt]
        by_cases hbc : b = c
        · rw [if_pos hbc, if_pos hbc, if_neg (by omega)]
        · rw [if_neg hbc, if_neg hbc]

/-- A read after samples were written in order. -/
theorem readPrompt_writeSpan : ∀ {m : List PromptCell} {a : Nat} (l : List Sample) (b : Nat), Memory.wf m = true →
    a + l.length ≤ Config.promptSamples →
    readPrompt (writeSpan m a l) b = if a ≤ b ∧ b < a + l.length then l.getD (b - a) 0 else readPrompt m b
  | m, a, [], b, _, _ => by
    rw [writeSpan, if_neg (by simp)]
  | m, a, v :: rest, b, h, hl => by
    simp only [List.length_cons] at hl ⊢
    rw [writeSpan, readPrompt_writeSpan rest b (wf_writePrompt v h (by omega)) (by omega),
      readPrompt_writePrompt a v b h]
    by_cases hb : b = a
    · subst hb
      rw [if_neg (by omega), if_pos rfl, if_pos (by omega)]
      simp
    · by_cases hin : a ≤ b ∧ b < a + (rest.length + 1)
      · rw [if_pos (by omega), if_pos hin, show b - a = b - (a + 1) + 1 by omega]
        simp
      · rw [if_neg (by omega), if_neg hb, if_neg hin]

end Sys2Proof.Machine
end

