-- ==== Sys2Proof/Laws/PerInstr.lean ====
section
/-!
SUPPORT. What holds of every command as syntax, command by command.
-/
namespace Sys2Proof.Laws

/-- The frame that carries a well-formed request has a body of a length that its kind admits (R163, R180); commands
that are no request are carried by no frame. -/
def RequestShape.Statement (i : Instr) : Prop :=
  i.wellFormed = true → ∀ kind tag body, i.requestFrame = some (kind, tag, body) → kind.admits body.length = true

theorem RequestShape.powerOnReset tick : RequestShape.Statement (.powerOnReset tick) := by
  intro _ _ _ _ h
  cases h

theorem RequestShape.interByteTimeout : RequestShape.Statement .interByteTimeout := by
  intro _ _ _ _ h
  cases h

theorem RequestShape.refusedFrame kind tag body check : RequestShape.Statement (.refusedFrame kind tag body check) := by
  intro _ _ _ _ h
  cases h

theorem RequestShape.replySent : RequestShape.Statement .replySent := by
  intro _ _ _ _ h
  cases h

theorem RequestShape.ident tag : RequestShape.Statement (.ident tag) := by
  intro _ _ _ _ h
  cases h
  rfl

theorem RequestShape.status tag subject : RequestShape.Statement (.status tag subject) := by
  intro _ _ _ _ h
  cases h
  rfl

theorem RequestShape.statsRead tag slot clear : RequestShape.Statement (.statsRead tag slot clear) := by
  intro _ _ _ _ h
  cases h
  rfl

theorem RequestShape.captureRead tag : RequestShape.Statement (.captureRead tag) := by
  intro _ _ _ _ h
  cases h
  rfl

theorem RequestShape.collect tag : RequestShape.Statement (.collect tag) := by
  intro _ _ _ _ h
  cases h
  rfl

theorem RequestShape.maskSet tag mask : RequestShape.Statement (.maskSet tag mask) := by
  intro _ _ _ _ h
  cases h
  rfl

theorem RequestShape.reset tag : RequestShape.Statement (.reset tag) := by
  intro _ _ _ _ h
  cases h
  rfl

theorem RequestShape.softReset tick : RequestShape.Statement (.softReset tick) := by
  intro _ _ _ _ h
  cases h

theorem RequestShape.profilePut tag profile : RequestShape.Statement (.profilePut tag profile) := by
  intro _ _ _ _ h
  cases h
  rfl

theorem RequestShape.profileDrop tag identity : RequestShape.Statement (.profileDrop tag identity) := by
  intro _ _ _ _ h
  cases h
  rfl

theorem RequestShape.profileGet tag identity : RequestShape.Statement (.profileGet tag identity) := by
  intro _ _ _ _ h
  cases h
  rfl

theorem RequestShape.admitLink tag handle slot side partner inboundTarget outboundTarget seed : RequestShape.Statement (.admitLink tag handle slot side partner inboundTarget outboundTarget seed) := by
  intro _ _ _ _ h
  cases h
  rfl

theorem RequestShape.decline tag handle : RequestShape.Statement (.decline tag handle) := by
  intro _ _ _ _ h
  cases h
  rfl

theorem RequestShape.remove tag slot : RequestShape.Statement (.remove tag slot) := by
  intro _ _ _ _ h
  cases h
  rfl

theorem RequestShape.gainSet tag entries : RequestShape.Statement (.gainSet tag entries) := by
  intro hw _ _ _ h
  cases h
  simp only [Instr.wellFormed, gainCountOk, Bool.and_eq_true, decide_eq_true_eq] at hw
  simp only [RequestKind.admits, length_bytesOfEntries, Bool.and_eq_true, beq_iff_eq, decide_eq_true_eq]
  omega

theorem RequestShape.gainGet tag : RequestShape.Statement (.gainGet tag) := by
  intro _ _ _ _ h
  cases h
  rfl

theorem RequestShape.talkSet tag gate hysteresis duckWeight gateWeight : RequestShape.Statement (.talkSet tag gate hysteresis duckWeight gateWeight) := by
  intro _ _ _ _ h
  cases h
  rfl

theorem RequestShape.watchSet tag slot condition threshold count : RequestShape.Statement (.watchSet tag slot condition threshold count) := by
  intro _ _ _ _ h
  cases h
  rfl

theorem RequestShape.limitSet tag slotLimit callLimit pairTolerance lossTimeout ramp : RequestShape.Statement (.limitSet tag slotLimit callLimit pairTolerance lossTimeout ramp) := by
  intro _ _ _ _ h
  cases h
  rfl

theorem RequestShape.promptLoad tag offset samples : RequestShape.Statement (.promptLoad tag offset samples) := by
  intro hw _ _ _ h
  cases h
  simp only [Instr.wellFormed, loadCountOk, Bool.and_eq_true, decide_eq_true_eq] at hw
  simp only [RequestKind.admits, List.length_append, length_bytes16, length_bytesOfSamples, Bool.and_eq_true,
    beq_iff_eq, decide_eq_true_eq]
  omega

theorem RequestShape.promptPlay tag start length repeats gap : RequestShape.Statement (.promptPlay tag start length repeats gap) := by
  intro _ _ _ _ h
  cases h
  rfl

theorem RequestShape.promptMore tag n : RequestShape.Statement (.promptMore tag n) := by
  intro _ _ _ _ h
  cases h
  rfl

theorem RequestShape.promptStop tag : RequestShape.Statement (.promptStop tag) := by
  intro _ _ _ _ h
  cases h
  rfl

theorem RequestShape.radioFrame bytes : RequestShape.Statement (.radioFrame bytes) := by
  intro _ _ _ _ h
  cases h

theorem RequestShape.linkUp handle identity mic : RequestShape.Statement (.linkUp handle identity mic) := by
  intro _ _ _ _ h
  cases h

theorem RequestShape.linkDown handle reason : RequestShape.Statement (.linkDown handle reason) := by
  intro _ _ _ _ h
  cases h

theorem RequestShape.mic handle seq stamp bad samples : RequestShape.Statement (.mic handle seq stamp bad samples) := by
  intro _ _ _ _ h
  cases h

theorem RequestShape.pull handle seq stamp : RequestShape.Statement (.pull handle seq stamp) := by
  intro _ _ _ _ h
  cases h

theorem RequestShape.portReset : RequestShape.Statement .portReset := by
  intro _ _ _ _ h
  cases h

theorem RequestShape.strobe tick downlink : RequestShape.Statement (.strobe tick downlink) := by
  intro _ _ _ _ h
  cases h

theorem RequestShape.strobeTimeout : RequestShape.Statement .strobeTimeout := by
  intro _ _ _ _ h
  cases h

theorem RequestShape.localTimerExpiry : RequestShape.Statement .localTimerExpiry := by
  intro _ _ _ _ h
  cases h

theorem RequestShape.controlLinkByte tick byte : RequestShape.Statement (.controlLinkByte tick byte) := by
  intro _ _ _ _ h
  cases h

theorem RequestShape.resetAsserted : RequestShape.Statement .resetAsserted := by
  intro _ _ _ _ h
  cases h

theorem RequestShape.radioMessageSent : RequestShape.Statement .radioMessageSent := by
  intro _ _ _ _ h
  cases h

end Sys2Proof.Laws
end

