-- ==== Sys2Proof/Tests/Slice0.lean ====
section
/-!
SUPPORT. Tests: ill-formed commands, frames written out from the manual, the manual's worked values, and for every
statement with premises a state that meets them.
-/
namespace Sys2Proof.Tests

open Sys2Proof.Machine

/-! ### Small states -/

/-- A slot in no pair, in the state given, with handle and identity. -/
def slotIn (x : SlotState) (h : Handle) (d : Identity) : Slot :=
  { Slot.initial with state := x, handle := some h, identity := some d, mic := true }

/-- The part after reset with one record in slot 0. -/
def one (x : Slot) : State := State.reset.withSlot .s0 x

/-- A pair: slot 0 LEADER and LEFT with handle 5, slot 1 FOLLOWER and RIGHT with handle 6, in the states given. -/
def pairIn (x y : SlotState) : State :=
  (State.reset.withSlot .s0
      { slotIn x 5 0xA1 with
        side := .left, role := .leader, partner := some .s1, talker := { level := 0, primary := true, weight := 1024 } }).withSlot
    .s1 { slotIn y 6 0xA2 with side := .right, role := .follower, partner := some .s0 }

/-- The part after reset with a reply stream of `n` replies. -/
def replying (n : Nat) : State :=
  { State.reset with link :=
    { State.reset.link with replies := List.replicate n { tag := 0, body := .done .reset .reset } } }

/-- A receiver that expects the byte of `phase`, with `body` received of a body of `n`. -/
def receiving (phase : RxPhase) (n : Nat) (body : List Byte) : State :=
  { State.reset with link :=
    { State.reset.link with receiver :=
      { phase := phase, length := some n, kind := some 1, tag := some 2, body := body, sum := 0, timer := some 9 } } }

/-- Eighty samples of one value. -/
def block (v : Sample) : List Sample := List.replicate 80 v

/-- The part after reset with pending entries of handles 1 to `n`, their identities apart. -/
def waiting (n : Nat) : State :=
  State.reset.setPendingLinks ((List.range n).map fun k =>
    { handle := BitVec.ofNat 8 (k + 1), identity := BitVec.ofNat 48 (k + 0xB1), mic := true })

/-- A profile of a LEFT earbud. -/
def profileOf (d : Identity) : Profile :=
  { identity := d, side := .left, partnerIdentity := some 0xA2, autoAdmit := true, seed := -15, inTarget := some 800,
    outTarget := none }

/-! ### Well-formedness: each check refuses -/

theorem test_handle_zero : (Instr.linkDown 0 0).wellFormed = false := by decide
theorem test_handle_zero_up : (Instr.linkUp 0 1 true).wellFormed = false := by decide
theorem test_handle_zero_pull : (Instr.pull 0 1 0).wellFormed = false := by decide
theorem test_handle_one : (Instr.pull 1 1 0).wellFormed = true := by decide
theorem test_mic_79 : (Instr.mic 1 0 0 false (List.replicate 79 0)).wellFormed = false := by decide
theorem test_mic_81 : (Instr.mic 1 0 0 false (List.replicate 81 0)).wellFormed = false := by decide
theorem test_mic_80 : (Instr.mic 1 0 0 false (block 0)).wellFormed = true := by decide
theorem test_gain_none : (Instr.gainSet 0 []).wellFormed = false := by decide
theorem test_gain_31 : (Instr.gainSet 0 (List.replicate 31 ⟨0, 0, 0⟩)).wellFormed = false := by decide
theorem test_gain_30 : (Instr.gainSet 0 (List.replicate 30 ⟨0, 0, 0⟩)).wellFormed = true := by decide
theorem test_load_none : (Instr.promptLoad 0 0 []).wellFormed = false := by decide
theorem test_load_121 : (Instr.promptLoad 0 0 (List.replicate 121 0)).wellFormed = false := by decide +kernel
theorem test_load_120 : (Instr.promptLoad 0 0 (List.replicate 120 0)).wellFormed = true := by decide +kernel
theorem test_body_249 : (Instr.refusedFrame 1 0 (List.replicate 249 0) 0).wellFormed = false := by decide +kernel
theorem test_body_248 : (Instr.refusedFrame 1 0 (List.replicate 248 0) 0).wellFormed = true := by decide +kernel

/-! ### Frames written out from the manual -/

/-- 11.3.4: REMOVE of slot 2 with tag 0x21. -/
theorem test_remove_frame : controlFrame 0x0D 0x21 [0x02] = [0xC3, 0x01, 0x0D, 0x21, 0x02, 0xCF] := by decide

/-- 11.3.4: those bytes are that request. -/
theorem test_remove_decodes :
    (match decodeFrame 0x0D 0x21 [0x02] 0xCF with
      | .ok c => some c
      | .error _ => none) = some (.remove 0x21 0x02) := by decide

/-- 11.3.4: the reply to it. -/
theorem test_remove_reply :
    ReplyFrame.bytes ⟨0x21, .done .remove (.remove .s2 .active (some 0x0000A1B2C3D4) (some 17))⟩ =
      [0xC3, 0x0A, 0x40, 0x21, 0x0D, 0x02, 0x03, 0xD4, 0xC3, 0xB2, 0xA1, 0x00, 0x00, 0x11, 0x88] := by decide

/-- 11.5.1: a PULL frame. -/
theorem test_pull_decodes :
    decodeRadio [0x14, 0x11, 0x87, 0x03, 0xC3, 0xB2, 0xA1, 0x00, 0x3B, 0xFD] =
      some (.pull 17 903 0x00A1B2C3) := by decide

/-- 11.5.1: the SILENT answer's head and check. -/
theorem test_silent_head : ((silentSpk 17 903).frame.take 5, (silentSpk 17 903).frame.drop 165) =
    ([0x21, 0x11, 0x87, 0x03, 0x01], [0x43, 0xFF]) := by decide +kernel

theorem test_silent_length : (silentSpk 17 903).frame.length = 167 := by decide +kernel

/-- A LINK.UP by R182: kind 0x11, handle, identity least significant byte first, mic flag; 0x11+5+0xA1+1 = 0xB8. -/
theorem test_linkUp_decodes :
    decodeRadio [0x11, 0x05, 0xA1, 0, 0, 0, 0, 0, 0x01, 0x48, 0xFF] = some (.linkUp 5 0xA1 true) := by decide

/-- A radio frame whose check is one off is none. -/
theorem test_bad_check : decodeRadio [0x14, 0x11, 0x87, 0x03, 0xC3, 0xB2, 0xA1, 0x00, 0x3C, 0xFD] = none := by decide

/-- LIMIT.SET by R180: presence bits 0 and 4, slot limit 0x0960, ramp 0x0100. -/
theorem test_limit_decodes :
    bodyRequest 7 .limitSet [0x11, 0x60, 0x09, 0xFF, 0xFF, 0xFF, 0xFF, 0xFF, 0x00, 0x01] =
      some (.limitSet 7 (some 2400) none none none (some 256)) := by decide

/-- GAIN.SET by R180: output 1, input 5, gain 0x1000. -/
theorem test_gain_decodes : bodyRequest 7 .gainSet [1, 5, 0, 0x10] = some (.gainSet 7 [⟨1, 5, 4096⟩]) := by decide

/-- PROMPT.PLAY by R180. -/
theorem test_play_decodes :
    bodyRequest 7 .promptPlay [0xD0, 0x07, 0x90, 0x01, 3, 4] = some (.promptPlay 7 2000 400 3 4) := by decide

/-- The table gives no row any bits, so no word spells a command. -/
theorem test_no_table_word : decodeTableWord 8 1 = none := by decide

/-! ### The manual's worked values -/

/-- The steps of the table of R104. -/
theorem test_steps : [(-8000 : Int), -1857, -400, 0, 3, 4, 1901, 8000].map stepOf =
    [1047527, 1048333, 1048524, 1048576, 1048576, 1048577, 1048825, 1049625] := by decide

/-- 6.10: three outputs above nominal, three samples released. -/
theorem test_pass_above :
    runPass 1048825 3 [1000, -2000, -1600, -1000, -200] 786432 =
      { outputs := [-1250, -1700, -1150], left := [-1000, -200], phase := 787179, short := 0 } := by decide

/-- 6.10: a release of 2 empties the ring and the next output is short. -/
theorem test_pass_short :
    runPass 1049625 2 [8, 8] 1048000 = { outputs := [8, 0], left := [], phase := 473, short := 1 } := by decide

/-- 6.11: below nominal the first output releases nothing. -/
theorem test_pass_below : (runPass 1048333 3 [0, 0, 0, 0] 0).phase = 1047847 ∧
    (runPass 1048333 3 [0, 0, 0, 0] 0).left.length = 2 := by decide

/-- R107: a half goes away from zero, on both sides. -/
theorem test_interpolate_half : (interpolate 0 1 524288, interpolate 1 0 524288) = (1, 0) := by decide

/-- R131: a sum of 2048 gives 1, one of −2048 gives −1. -/
theorem test_round_half : (roundHalfAway 2048 4096, roundHalfAway (-2048) 4096) = (1, -1) := by decide

/-- R57: a block faded at runs 1, 4 and 5. -/
theorem test_fade : [1, 4, 5].map (fun k => fadeSample k (-31)) = [-15, -1, 0] := by decide

/-- 12.3: MIC 704 is three ahead at fill 90, target 320: two concealment blocks, one skipped. -/
theorem test_gap_of_three :
    let e := micEffect { InRing.flushed with samples := List.replicate 90 7, history := some (block 8) } true 320 3 false
      (block 1)
    e.concealed = 2 ∧ e.skipped = 1 ∧ e.discarded = 0 ∧ e.ring.run = 0 ∧ e.ring.samples.length = 330 ∧
      (e.ring.samples.drop 90).take 1 = [4] ∧ (e.ring.samples.drop 170).take 1 = [2] := by decide +kernel

/-- R59: a ring at fill 1000 discards 56. -/
theorem test_overrun : overrunDiscard 1000 = 56 ∧ overrunDiscard 944 = 0 := by decide

/-- 12.3: a FOLLOWER's ring of 390 against 230. -/
theorem test_resync_longer :
    (OutRing.resync { OutRing.flushed with samples := List.replicate 160 1 ++ List.replicate 230 2, phase := 5 }
        { OutRing.flushed with samples := List.replicate 230 0, phase := 9 }) =
      { OutRing.flushed with samples := List.replicate 230 2, phase := 9 } := by decide +kernel

/-- R140: gate, duck and gate weights at their power-on values. -/
theorem test_weights :
    let p := State.reset.talk
    (talkerWeight .solo false 300 p, talkerWeight .solo false 299 p, talkerWeight .leader true 300 p,
      talkerWeight .follower false 300 p, talkerWeight .follower false 0 p) = (4096, 1024, 4096, 512, 512) := by
  decide

/-- 12.4: the first local mix period after the timeout at 50,079,872. -/
theorem test_first_local : firstLocalDue (some 50000000) 50079872 = 50122880 := by decide

/-- R154: 12.4's prompt of 400 samples ends within the fifth period. -/
theorem test_prompt_ends :
    (formP [] (.playing { start := 2000, length := 400, position := 2320, remaining := 0, gap := 0 })).2 = .idle := by
  decide

/-- R154: with a gap the later positions are 0 and GAP is entered. -/
theorem test_prompt_gap :
    playFrom [(5, 9)] 3 { start := 5, length := 1, position := 5, remaining := 2, gap := 4 } =
      ([9, 0, 0], .gap { start := 5, length := 1, position := 5, remaining := 1, gap := 4 } 4) := by decide

/-- R173: the count of a queued notice stays at 255. -/
theorem test_count_saturates :
    (coalesce (.capture ⟨.bad, none⟩) [⟨255, .capture ⟨.late, none⟩⟩]) = [⟨255, .capture ⟨.bad, none⟩⟩] := by decide

/-- R133: masks are ORed. -/
theorem test_mask_or :
    (coalesce (.mixsat ⟨2, 8, 3, .byLocal⟩) [⟨1, .mixsat ⟨1, 7, 5, .byCall⟩⟩]) =
      [⟨2, .mixsat ⟨3, 8, 3, .byLocal⟩⟩] := by decide

/-! ### Single steps of the worked sequences -/

/-- What `f` reads of the next state, where there is one. -/
def after {α : Type} (o : Host.Outcome State Fault Refusal) (f : State → α) : Option α :=
  match o with
  | .next t => some (f t)
  | _ => none

/-- 12.1: the second ADMIT: slot 1 MEASURING as FOLLOWER of slot 0, handle 6, no notice. -/
theorem test_second_admit :
    after
      (exec (.admitLink 9 6 1 2 0 none none none)
        ((one { slotIn .measuring 5 0xA1 with side := .left }).setPendingLinks [⟨6, 0xA2, true⟩]))
      (fun t => ((t.slot .s1).state, (t.slot .s1).role, (t.slot .s1).handle, (t.slot .s0).role,
        t.notices.queue.length)) =
      some (.measuring, .follower, some 6, .leader, 1) := by decide +kernel

/-- 12.2: LINK.UP handle 14 for the identity of slot 0, LOST with handle 5: RELEASE for 5, role and partner kept. -/
theorem test_recovery :
    after
      (exec (.linkUp 14 0xA1 true)
        ((pairIn .lost .active).withSlot .s0
          { (pairIn .lost .active).slot .s0 with role := .follower, estimate := 1597 }))
      (fun t => ((t.slot .s0).state, (t.slot .s0).handle, (t.slot .s0).role, (t.slot .s0).estimate,
        t.radio.outgoing)) =
      some (.measuring, some 14, .follower, 1597, [.release 5]) := by decide +kernel

/-- 12.2: at the 40th silent period the LEADER is LOST with its handle kept and the roles swap. -/
theorem test_leader_silent :
    after
      (exec .localTimerExpiry
        ((pairIn .stalled .active).withSlot .s0 { (pairIn .stalled .active).slot .s0 with idle := 39 }))
      (fun t => ((t.slot .s0).state, (t.slot .s0).handle, (t.slot .s0).role, (t.slot .s1).role,
        (t.slot .s1).talker.primary)) =
      some (.lost, some 5, .follower, .leader, true) := by decide +kernel

/-- 12.4: the strobe timeout at 50,079,872. -/
theorem test_call_ends :
    after
      (exec .strobeTimeout
        { State.reset with call :=
          { State.reset.call with
            state := .running, strobeTimer := some 50079872, lastMixTick := some 50000000 } })
      (fun t => (t.call.state, t.call.localTimer, t.rate.estimate)) =
      some (.absent, some 50122880, 0) := by decide +kernel

/-- R66, R67: the first anomaly fills the record, the second is counted. -/
theorem test_two_anomalies :
    after (exec (.radioFrame [1]) (one (slotIn .active 5 0xA1))) (fun t =>
      after (exec (.mic 9 1 0 false (block 0)) t) fun u => (u.capture.record.map fun a => a.kind, u.capture.further)) =
      some (some (some .radioFrame, 1)) := by decide +kernel

/-! ### A state or operands that meet the premises of each statement, clause by clause -/

theorem listens_reset : State.reset.Listens := by unfold State.Listens; decide +kernel
theorem listens_seven : (replying 7).Listens := by unfold State.Listens; decide +kernel
theorem listens_waiting : (waiting 4).Listens := by unfold State.Listens; decide +kernel
theorem listens_one (x : Slot) : (one x).Listens := by
  refine ⟨?_, ?_, ?_⟩ <;> (first | rfl | (show 0 < 8; omega))
theorem listens_pair (x y : SlotState) : (pairIn x y).Listens := by
  refine ⟨?_, ?_, ?_⟩ <;> (first | rfl | (show 0 < 8; omega))

/-- Slot 0 of `one` holds its handle alone. -/
theorem holds_one (h : Handle) (y : Slot) (hy : y.handle = some h) :
    (one y).Holds .s0 h := by
  refine ⟨hy, ?_⟩
  intro j hj
  cases j
  · rfl
  all_goals cases hj

theorem pairsLawful_one (y : Slot) (h1 : y.partner = none) (h2 : y.role = .solo) (h3 : y.talker.primary = false) :
    (one y).PairsLawful := by
  intro i
  cases i
  · show (match y.partner with
      | none => _
      | some _ => _)
    rw [h1]
    exact ⟨h2, h3⟩
  all_goals exact ⟨rfl, rfl⟩

theorem pairsLawful_pair (x y : SlotState) (hx : x ≠ .empty) (hy : y ≠ .empty) : (pairIn x y).PairsLawful := by
  intro i
  cases i
  · exact ⟨by decide, rfl, hx, .inl ⟨rfl, rfl⟩, .inl ⟨rfl, rfl⟩, rfl⟩
  · exact ⟨by decide, rfl, hy, .inr ⟨rfl, rfl⟩, .inr ⟨rfl, rfl⟩, rfl⟩
  all_goals exact ⟨rfl, rfl⟩

theorem holds_pair (x y : SlotState) : (pairIn x y).Holds .s0 5 ∧ (pairIn x y).Holds .s1 6 := by
  refine ⟨⟨rfl, ?_⟩, ⟨rfl, ?_⟩⟩
  all_goals
    intro j hj
    revert hj
    cases j <;> simp [pairIn, State.withSlot, State.slot, PerSlot.set, PerSlot.get, slotIn, State.reset,
      Slot.initial, PerSlot.const]

theorem unheld_reset (h : Handle) : State.reset.Unheld h := by
  intro i
  cases i <;> exact fun h => by cases h

theorem notPending_reset (h : Handle) : State.reset.NotPending h := by
  intro e he
  cases he

theorem pairsLawful_reset : State.reset.PairsLawful := by
  intro i
  cases i <;> exact ⟨rfl, rfl⟩

/-- A clause over every slot, slot by slot. -/
theorem everySlot {P : SlotId → Prop} (h0 : P .s0) (h1 : P .s1) (h2 : P .s2) (h3 : P .s3) (i : SlotId) : P i := by
  cases i <;> assumption

/-- Commands waiting, and none. -/
theorem witness_StepRunsFrontCommand :
    ({ State.reset with pending := [.portReset, .replySent] } : State).pending = .portReset :: [.replySent] ∧
      State.reset.pending = [] := ⟨rfl, rfl⟩

/-- RESET held; RESETTING; a full reply stream; a stream with one place; a request and a refused frame. -/
theorem witness_EachTakenFrameGetsOneReply :
    (Instr.ident 7).requestFrame = some (.ident, 7, []) ∧
      ({ State.reset with resetHeld := true } : State).resetHeld = true ∧
      ({ State.reset with link := { State.reset.link with mode := .resetting } } : State).link.mode = .resetting ∧
      ((replying 8).resetHeld = false ∧ (replying 8).link.mode = .normal ∧ 8 ≤ (replying 8).link.replies.length) ∧
      (replying 7).Listens :=
  ⟨by decide, rfl, rfl, ⟨rfl, rfl, by decide⟩, listens_seven⟩

/-- A body of 248 with a wrong check; kinds 0 and 23 and a body of 2 where REMOVE takes 1, each with its check right;
a whole REMOVE. -/
theorem witness_CompleteFramesAreChecked :
    (replying 7).Listens ∧
      ((List.replicate 248 (0 : Byte)).length ≤ 248 ∧
        byteSum (frameHead 0x0D 0 (List.replicate 248 0)) + 0 ≠ (0 : Byte)) ∧
      (byteSum (frameHead 0 0 []) + frameCheck 0 0 [] = 0 ∧ ((0 : Byte).toNat = 0 ∨ 22 < (0 : Byte).toNat)) ∧
      (byteSum (frameHead 23 0 []) + frameCheck 23 0 [] = 0 ∧ 22 < (23 : Byte).toNat) ∧
      (RequestKind.remove.code = 0x0D ∧ byteSum (frameHead 0x0D 0 [2, 2]) + frameCheck 0x0D 0 [2, 2] = 0 ∧
        RequestKind.remove.admits 2 = false) ∧
      (byteSum (frameHead 0x0D 0x21 [2]) + 0xCF = (0 : Byte) ∧ RequestKind.remove.admits 1 = true) :=
  ⟨listens_seven, by decide +kernel⟩

/-- The largest bodies of the two requests of varying length. -/
theorem witness_RequestFramesDecode :
    ((Instr.gainSet 1 (List.replicate 30 ⟨4, 5, 8191⟩)).wellFormed = true ∧
      (Instr.gainSet 1 (List.replicate 30 ⟨4, 5, 8191⟩)).requestFrame.isSome = true) ∧
    (Instr.promptLoad 255 16383 (List.replicate 120 (-1))).wellFormed = true ∧
      (Instr.promptLoad 255 16383 (List.replicate 120 (-1))).requestFrame.isSome = true := by decide +kernel

/-- A well-formed MIC has a message; the frame of 11.5.1 decodes with its check, 0x2C5 + 0xFD3B; a LINK.UP whose flag byte
is 0x80 and a MIC whose flags byte is 0xFF or 0xFE, its ignored bits set, decode. -/
theorem witness_RadioFramesDecode :
    (Instr.mic 255 65535 0xFFFFFFFF true (block (-1))).wellFormed = true ∧
      (Instr.mic 255 65535 0xFFFFFFFF true (block (-1))).radioMessage.isSome = true ∧
      decodeRadio ([0x14, 0x11, 0x87, 0x03, 0xC3, 0xB2, 0xA1, 0x00] ++ [0x3B, 0xFD]) = some (.pull 17 903 0x00A1B2C3) ∧
      ((List.map BitVec.toNat [(0x14 : Byte), 0x11, 0x87, 0x03, 0xC3, 0xB2, 0xA1, 0x00]).sum + 0x3B + 256 * 0xFD) % 65536 =
        0 ∧
      decodeRadio (radioFrameBytes [0x11, 0x05, 0xA1, 0, 0, 0, 0, 0, 0x80]) = some (.linkUp 5 0xA1 true) ∧
      decodeRadio (radioFrameBytes ([0x13, 5, 2, 0, 3, 0, 0, 0, 0xFF] ++ List.replicate 160 0)) =
        some (.mic 5 2 3 true (block 0)) ∧
      decodeRadio (radioFrameBytes ([0x13, 5, 2, 0, 3, 0, 0, 0, 0xFE] ++ List.replicate 160 0)) =
        some (.mic 5 2 3 false (block 0)) := by decide +kernel

/-- The shortest and the longest frame. -/
theorem witness_BytesAssembleTheFrame :
    State.reset.resetHeld = false ∧ State.reset.link.mode = .normal ∧ State.reset.link.receiver = .idle ∧
      (List.replicate 5 0).length = ([] : List Byte).length + 5 ∧
      (List.replicate 253 0).length = (List.replicate 248 (0 : Byte)).length + 5 :=
  ⟨rfl, rfl, rfl, by decide, by decide +kernel⟩

/-- A receiver in each state; length bytes 248 and 249; the last byte of a body and one before. -/
theorem witness_ReceiverTakesBytes :
    (State.reset.resetHeld = false ∧ State.reset.link.mode = .normal ∧ State.reset.link.receiver.phase = .hunting) ∧
      ((receiving .length 0 []).link.receiver.phase = .length ∧ (248 : Byte).toNat ≤ 248 ∧ 248 < (249 : Byte).toNat) ∧
      (receiving .kind 0 []).link.receiver.phase = .kind ∧
      ((receiving .tag 0 []).link.receiver.phase = .tag ∧ (receiving .tag 0 []).link.receiver.length = some 0) ∧
      (receiving .tag 1 []).link.receiver.length ≠ some 0 ∧
      ((receiving .body 2 [5]).link.receiver.phase = .body ∧
        (receiving .body 2 [5]).link.receiver.length = some ([5].length + 1)) ∧
      (receiving .body 3 [5]).link.receiver.length ≠ some ((receiving .body 3 [5]).link.receiver.body.length + 1) ∧
      ((receiving .check 1 [5]).link.receiver.phase = .check ∧
        (receiving .check 1 [5]).link.receiver.kind = some 1 ∧ (receiving .check 1 [5]).link.receiver.tag = some 2 ∧
        (receiving .check 1 [5]).link.receiver.body.length ≤ 248) := by decide

/-- A partial frame whose timer is armed, that a byte continues. -/
theorem witness_InterByteTimeoutDiscards :
    let s := receiving .length 0 []
    s.link.receiver.timer.isSome = true ∧ s.resetHeld = false ∧ s.link.mode = .normal ∧
      s.link.receiver.phase ≠ .hunting ∧ ∃ t, exec (.controlLinkByte 7 1) s = .next t :=
  ⟨rfl, rfl, rfl, by decide, _, rfl⟩

/-- A full capture record. -/
def captured : State :=
  { State.reset with capture :=
    { record := some { kind := .window, slot := none, handle := none, message := none, mixPeriod := 0 }, further := 255 } }

/-- A frame that is none, with the record empty and full; a frame that is a PULL. -/
theorem witness_RadioFramesAreChecked :
    decodeRadio [] = none ∧ State.reset.capture.record = none ∧ captured.capture.record.isSome = true ∧
      (decodeRadio [0x14, 0x11, 0x87, 0x03, 0xC3, 0xB2, 0xA1, 0x00, 0x3B, 0xFD]).isSome = true := by decide +kernel

/-- A new kind joins; the READY of the queue coalesces. -/
theorem witness_RaisedNoticesCoalesce :
    let b := NoticeBody.ready { reason := .soft, revision := 3, mixPeriod := 9 }
    let c := NoticeBody.capture { kind := .bad, slot := none }
    (∀ n ∈ State.reset.notices.queue, n.body.key ≠ c.key) ∧
      State.reset.notices.queue = [] ++ readyNotice .power :: [] ∧ (readyNotice .power).body.key = b.key := by
  decide

theorem listens_captured : captured.Listens := by
  refine ⟨?_, ?_, ?_⟩ <;> (first | rfl | (show 0 < 8; omega))

/-- Subjects on both sides of each bound; slot 4 and flag 2, slot 3; the record full and empty. -/
theorem witness_ReadingRequestsAnswer :
    (replying 7).Listens ∧ captured.Listens ∧ (4 ≤ (4 : Byte).toNat ∧ (4 : Byte) ≠ 0x80) ∧
      (4 ≤ (0x7F : Byte).toNat ∧ (0x7F : Byte) ≠ 0x80) ∧ (4 ≤ (0x81 : Byte).toNat ∧ (0x81 : Byte) ≠ 0x80) ∧
      (0 : Byte).toNat = SlotId.s0.num ∧ (3 : Byte).toNat = SlotId.s3.num ∧ 2 ≤ (2 : Byte).toNat ∧
      captured.capture.record.isSome = true ∧ (replying 7).capture.record = none :=
  ⟨listens_seven, listens_captured, by decide⟩

/-- A queue of one and an empty queue; the least mask refused and the greatest taken. -/
theorem witness_CollectAndMaskSetAnswer :
    (replying 7).Listens ∧ (replying 7).notices.queue = readyNotice .power :: [] ∧ (replying 7).notices.Lawful ∧
      (({ State.reset with notices := { queue := [], mask := 0 } } : State).Listens ∧
        ({ State.reset with notices := { queue := [], mask := 0 } } : State).notices.queue = []) ∧
      2048 ≤ (2048 : BitVec 16).toNat ∧ (2047 : BitVec 16).toNat < 2048 := by
  refine ⟨listens_seven, rfl, ?_, ⟨⟨rfl, rfl, by decide⟩, rfl⟩, by decide, by decide⟩
  unfold NoticeQueue.Lawful
  decide

/-- RESETTING with the stream empty and not, and OPEN. -/
theorem witness_ResetRequestLeadsToSoftReset :
    let waits := fun s : State => ({ s with link := { s.link with mode := .resetting } } : State)
    (replying 7).Listens ∧ ((waits (waiting 4)).link.mode = .resetting ∧ (waits (waiting 4)).link.replies = []) ∧
      (waits (replying 1)).link.replies ≠ [] ∧ (waiting 4).link.mode = .normal :=
  ⟨listens_seven, ⟨rfl, rfl⟩, by decide, rfl⟩

/-- The part after reset with profiles of LEFT earbuds. -/
def profiled (l : List Identity) : State := { State.reset with profiles := l.map profileOf }

theorem listens_profiled (l : List Identity) : (profiled l).Listens := by
  refine ⟨?_, ?_, ?_⟩ <;> (first | rfl | (show 0 < 8; omega))

/-- Side 3; a partner that is the earbud itself; a ninth record; a new and a known one; an identity absent and held. -/
theorem witness_ProfileRequestsAnswer :
    (∀ l, (profiled l).Listens) ∧ 3 ≤ (3 : Byte).toNat ∧ (sideOfByte 2).isSome = true ∧
      (profiled [1, 2, 3, 4, 5, 6, 7, 8]).profiles.length = 8 ∧
      (∀ p ∈ (profiled [1, 2, 3, 4, 5, 6, 7, 8]).profiles, p.identity ≠ 9) ∧
      (∃ p ∈ (profiled [1, 2, 3, 4, 5, 6, 7, 8]).profiles, p.identity = 8) ∧
      (profiled [1, 2, 3, 4, 5, 6, 7]).profiles.length < 8 ∧
      (profiled [1, 2]).profiles = [profileOf 1] ++ profileOf 2 :: [] ∧ (profileOf 2).identity = 2 ∧
      (∀ q ∈ [profileOf 1], q.identity ≠ 2) :=
  ⟨listens_profiled, by decide⟩

/-- Slot 0 in the state given and handle 6 of an earbud with identity 0xA2 pending. -/
def admitting (x : SlotState) : State := (one { slotIn x 5 0xA1 with side := .left }).setPendingLinks [⟨6, 0xA2, true⟩]

theorem listens_admitting (x : SlotState) : (admitting x).Listens := by
  refine ⟨?_, ?_, ?_⟩ <;> (first | rfl | (show 0 < 8; omega))

/-- Each code in turn; an ADMIT alone; one beside an ACTIVE and one beside a LOST partner; one by profile. -/
theorem witness_AdmitAnswers :
    (∀ x, (admitting x).Listens) ∧
      (admitting .active).admitVerdict 6 4 2 0xFF = some .range ∧
      (admitting .active).admitVerdict 6 3 3 0xFF = some .range ∧
      (admitting .active).admitVerdict 6 1 2 4 = some .range ∧ (admitting .active).admitVerdict 6 1 2 1 = some .range ∧
      (admitting .active).admitVerdict 7 1 2 0 = some .noLink ∧ (admitting .active).admitVerdict 6 0 2 0xFF = some .busy ∧
      (admitting .active).admitVerdict 6 1 2 2 = some .busy ∧
      (admitting .active).admitVerdict 6 1 1 0 = some .conflict ∧
      (admitting .active).admitVerdict 6 3 0 0xFF = none ∧ (admitting .active).admitVerdict 6 1 2 0 = none ∧
      ((admitting .lost).admitVerdict 6 1 2 0 = none ∧ ((admitting .lost).slot .s0).state = .lost) ∧
      (1 : Byte).toNat = SlotId.s1.num ∧ sideOfByte 2 = some .right ∧
      (admitting .active).radio.pendingLinks.find? (fun q => q.handle == 6) = some ⟨6, 0xA2, true⟩ ∧
      ((admitting .active).namedPartner
        (some { profileOf 0xA2 with side := .right, partnerIdentity := some 0xA1 }) .right = some .s0 ∧
      (admitting .active).namedPartner
        (some { profileOf 0xA2 with side := .right, partnerIdentity := some 0xA1 }) .left = none ∧
      (admitting .empty).namedPartner
        (some { profileOf 0xA2 with side := .right, partnerIdentity := some 0xA1 }) .right = none ∧
      (pairIn .active .active).namedPartner
        (some { profileOf 0xA3 with side := .right, partnerIdentity := some 0xA1 }) .right = none) :=
  ⟨listens_admitting, by decide +kernel⟩

theorem listens_waitingAll (n : Nat) : (waiting n).Listens := by
  refine ⟨?_, ?_, ?_⟩ <;> (first | rfl | (show 0 < 8; omega))

/-- The oldest, the newest and no entry; slot 4, an EMPTY slot 3, a slot alone and a member of a pair. -/
theorem witness_DeclineAndRemoveAnswer :
    ((∀ n, (waiting n).Listens) ∧ (waiting 4).NotPending 5 ∧
      (waiting 2).radio.pendingLinks = [] ++ ⟨1, 0xB1, true⟩ :: [⟨2, 0xB2, true⟩] ∧
      (waiting 2).radio.pendingLinks = [⟨1, 0xB1, true⟩] ++ ⟨2, 0xB2, true⟩ :: [] ∧
      (∀ q ∈ [PendingLink.mk 1 0xB1 true], q.handle ≠ 2)) ∧
    (pairIn .active .lost).Listens ∧ (pairIn .active .lost).PairsLawful ∧ (one (slotIn .stalled 5 0xA1)).Listens ∧
      (one (slotIn .stalled 5 0xA1)).PairsLawful ∧ 4 ≤ (4 : Byte).toNat ∧ (3 : Byte).toNat = SlotId.s3.num ∧
      ((pairIn .active .lost).slot .s3).state = .empty ∧
      ((one (slotIn .stalled 5 0xA1)).slot .s0).state ≠ .empty ∧
      ((one (slotIn .stalled 5 0xA1)).slot .s0).partner = none ∧
      ((pairIn .active .lost).slot .s1).state ≠ .empty ∧ ((pairIn .active .lost).slot .s1).partner = some .s0 := by
  refine ⟨⟨listens_waitingAll, ?_, by decide +kernel⟩, listens_pair _ _, pairsLawful_pair _ _ (by decide) (by decide),
    listens_one _, pairsLawful_one _ rfl rfl rfl, by decide⟩
  unfold State.NotPending
  decide +kernel

/-- One entry and thirty; indices on both sides of each bound. -/
theorem witness_GainSetAnswers :
    (replying 7).Listens ∧ 1 ≤ [GainEntry.mk 4 5 9000].length ∧ (List.replicate 30 (GainEntry.mk 4 5 0)).length ≤ 30 ∧
      (∃ e ∈ [GainEntry.mk 5 0 0], 5 ≤ e.output.toNat ∨ 6 ≤ e.input.toNat) ∧
      (∃ e ∈ [GainEntry.mk 0 6 0], 5 ≤ e.output.toNat ∨ 6 ≤ e.input.toNat) ∧
      (∀ e ∈ List.replicate 30 (GainEntry.mk 4 5 0), e.output.toNat < 5 ∧ e.input.toNat < 6) :=
  ⟨listens_seven, by decide +kernel⟩

/-- Slot 4, condition 3; slot 3 with condition BELOW. -/
theorem witness_SettingRequestsAnswer :
    (replying 7).Listens ∧ 4 ≤ (4 : Byte).toNat ∧ 3 ≤ (3 : Byte).toNat ∧ (3 : Byte).toNat = SlotId.s3.num ∧
      (2 : Byte) = WatchCondition.below.byte :=
  ⟨listens_seven, by decide⟩

/-- The part after reset with its player holding the region of the last two addresses. -/
def playing : State :=
  { State.reset with prompt :=
    { memory := [(5, 1)], player := .gap { start := 16382, length := 2, position := 16382, remaining := 3, gap := 4 } 2 } }

theorem listens_playing : playing.Listens := by
  refine ⟨?_, ?_, ?_⟩ <;> (first | rfl | (show 0 < 8; omega))

/-- The part after reset playing a region of one sample. -/
def playingNow : State :=
  { State.reset with prompt := { memory := [], player := .playing ⟨0, 1, 0, 65535, 0⟩ } }

theorem listens_playingNow : playingNow.Listens := by
  refine ⟨?_, ?_, ?_⟩ <;> (first | rfl | (show 0 < 8; omega))

/-- Offset 16384; the last address of the region; the two addresses before it. -/
theorem witness_PromptLoadAnswers :
    playing.Listens ∧ Memory.wf playing.prompt.memory = true ∧ 1 ≤ [(7 : Sample)].length ∧
      (List.replicate 120 (7 : Sample)).length ≤ 120 ∧ 16384 ≤ (16384 : BitVec 16).toNat ∧
      (∃ p, playing.prompt.player.play? = some p ∧
        ∃ a, p.start ≤ a ∧ a < p.start + p.length ∧ (16383 : BitVec 16).toNat ≤ a ∧
          a < (16383 : BitVec 16).toNat + min 120 (16384 - (16383 : BitVec 16).toNat)) ∧
      (∀ p, playing.prompt.player.play? = some p →
        ¬∃ a, p.start ≤ a ∧ a < p.start + p.length ∧ (16380 : BitVec 16).toNat ≤ a ∧
          a < (16380 : BitVec 16).toNat + min 2 (16384 - (16380 : BitVec 16).toNat)) := by
  refine ⟨listens_playing, by decide, by decide, by decide +kernel, by decide,
    ⟨_, rfl, 16383, by decide, by decide, by decide, by decide⟩, ?_⟩
  rintro p hp ⟨a, h1, -, -, h4⟩
  cases hp
  have h1' : 16382 ≤ a := h1
  have h4' : a < 16380 + 2 := h4
  omega

/-- Length 0 and start 16384; start 16383 with a play held and with none; n = 0. -/
theorem witness_PromptPlayRequestsAnswer :
    playing.Listens ∧ (replying 7).Listens ∧ 16384 ≤ (16384 : BitVec 16).toNat ∧ (16383 : BitVec 16).toNat < 16384 ∧
      playing.prompt.player ≠ .idle ∧ (replying 7).prompt.player = .idle ∧ (1 : BitVec 16) ≠ 0 ∧
      playing.prompt.player = .gap { start := 16382, length := 2, position := 16382, remaining := 3, gap := 4 } 2 ∧
      playingNow.Listens ∧ playingNow.prompt.player = .playing ⟨0, 1, 0, 65535, 0⟩ :=
  ⟨listens_playing, listens_seven, by decide, by decide, by decide, by decide, by decide, rfl, listens_playingNow, rfl⟩

/-- A reply and a message waiting, and none; the longest gain list of a reply; an SPK of 80 samples. -/
theorem witness_DeparturesLeaveTheStreams :
    (replying 1).link.replies = ⟨0, .done .reset .reset⟩ :: [] ∧ State.reset.link.replies = [] ∧
      (State.reset.withOutgoing [.release 5]).radio.outgoing = .release 5 :: [] ∧ State.reset.radio.outgoing = [] ∧
      (List.replicate 30 (GainEntry.mk 4 5 8191)).length ≤ 30 ∧ (block 0).length = 80 := by
  decide

/-- A state with the slots of reset holds no handle, and what its pending list does not hold is not pending. -/
theorem unheld_waiting (n : Nat) (h : Handle) : (waiting n).Unheld h := unheld_reset h

theorem noIdentity_waiting (n : Nat) (d : Identity) (i : SlotId) (h : ((waiting n).slot i).state ≠ .empty) :
    ((waiting n).slot i).identity ≠ some d := by
  cases i <;> exact absurd rfl h

/-- Four slots held, by earbuds 1 to 4 with handles 1 to 4. -/
def crowded : State :=
  ((((State.reset.withSlot .s0 (slotIn .lost 1 1)).withSlot .s1 (slotIn .lost 2 2)).withSlot .s2
    (slotIn .lost 3 3)).withSlot .s3 (slotIn .lost 4 4))

/-- Three entries beside the new one and four; the three grounds for no auto-admission. -/
theorem witness_LinkUpJoinsPendingList :
    (∀ n, (waiting n).Unheld 9) ∧ (waiting 4).NotPending 9 ∧
      (∀ n i, ((waiting n).slot i).state ≠ .empty → ((waiting n).slot i).identity ≠ some 0x99) ∧
      ((waiting 3).radio.pendingLinks.filter fun e => e.identity != 0x99).length < 4 ∧
      4 ≤ ((waiting 4).radio.pendingLinks.filter fun e => e.identity != 0x99).length ∧
      ((waiting 4).radio.pendingLinks.filter fun e => e.identity != 0xB1).length < 4 ∧
      (∀ p ∈ [{ profileOf 0x99 with autoAdmit := false }], p.identity = 0x99 → p.autoAdmit = false) ∧
      (∀ i, (crowded.slot i).state ≠ .empty) ∧
      (SlotId.all.find? fun j =>
        ((State.reset.withNotice (.slot .s0 ⟨.failDown, .empty, .solo, none, none, none, none⟩)).slot j).state == .empty) =
          some .s0 ∧
      ∃ n ∈ (State.reset.withNotice (.slot .s0 ⟨.failDown, .empty, .solo, none, none, none, none⟩)).notices.queue,
        n.body.subject = .slot .s0 := by
  refine ⟨fun n => unheld_waiting n 9, ?_, fun n i => noIdentity_waiting n 0x99 i, by decide +kernel, by decide +kernel,
    by decide +kernel, by decide, everySlot (by decide) (by decide) (by decide) (by decide), by decide, by decide⟩
  unfold State.NotPending
  decide +kernel

/-- A flagged LEFT earbud 0xA1 and slot 0 in the state given, held by its RIGHT partner 0xA2. -/
def flagged (x : SlotState) : State :=
  { one { slotIn x 6 0xA2 with side := .right } with profiles := [profileOf 0xA1] }

theorem flagged_unheld (x : SlotState) (h : Handle) (hh : h ≠ 6) : (flagged x).Unheld h :=
  everySlot (fun e => hh (by cases e; rfl)) (fun e => by cases e) (fun e => by cases e) (fun e => by cases e)

/-- No partner present; a partner present and one LOST. -/
theorem witness_LinkUpAutoAdmits :
    (∀ x, (flagged x).Unheld 9 ∧ (flagged x).NotPending 9) ∧
      (∀ j, ((flagged .active).slot j).state ≠ .empty → ((flagged .active).slot j).identity ≠ some 0xA1) ∧
      (flagged .active).profiles.find? (fun q => q.identity == 0xA1) = some (profileOf 0xA1) ∧
      (profileOf 0xA1).autoAdmit = true ∧
      (SlotId.all.find? fun j => ((flagged .active).slot j).state == .empty) = some .s1 ∧ (∀ n ∈ (flagged .active).notices.queue, n.body.subject ≠ .slot .s1) ∧
      (flagged .active).namedPartner (some (profileOf 0xA1)) .left = some .s0 ∧
      ((flagged .lost).namedPartner (some (profileOf 0xA1)) .left = some .s0 ∧
        ((flagged .lost).slot .s0).state = .lost) ∧
      (flagged .empty).namedPartner (some (profileOf 0xA1)) .left = none := by
  refine ⟨fun x => ⟨flagged_unheld x 9 (by decide), fun e he => by cases he⟩,
    everySlot (by decide) (by decide) (by decide) (by decide), by decide⟩

theorem unheld_one (y : Slot) (h : Handle) (hy : y.handle ≠ some h) : (one y).Unheld h :=
  everySlot hy (fun e => by cases e) (fun e => by cases e) (fun e => by cases e)

/-- A new handle for the identity of slot 0; a pending handle; the slot's own handle. -/
theorem witness_LinkUpReturnsToItsSlot :
    let s := one (slotIn .lost 5 0xA1)
    s.Unheld 14 ∧ s.NotPending 14 ∧ (s.slot .s0).state ≠ .empty ∧ (s.slot .s0).identity = some 0xA1 ∧
      (∀ j, (s.slot j).state ≠ .empty → (s.slot j).identity = some 0xA1 → j = .s0) ∧
      ((waiting 4).Unheld 4 ∧ ¬(waiting 4).NotPending 4) ∧ s.Holds .s0 5 ∧ s.NotPending 5 := by
  refine ⟨unheld_one _ 14 (by decide), fun e he => (by cases he), by decide, rfl,
    everySlot (fun _ _ => rfl) (fun h => absurd rfl h) (fun h => absurd rfl h) (fun h => absurd rfl h),
    ⟨unheld_waiting 4 4, ?_⟩, holds_one 5 _ rfl, fun e he => by cases he⟩
  unfold State.NotPending
  decide +kernel

/-- A slot in no pair and members of a pair, in every state that holds a handle; a handle that no slot holds. -/
theorem witness_LinkDownEndsTheLink :
    (∀ x, (one (slotIn x 5 0xA1)).PairsLawful ∧ (one (slotIn x 5 0xA1)).Holds .s0 5 ∧
      ((one (slotIn x 5 0xA1)).slot .s0).partner = none ∧ ((one (slotIn x 5 0xA1)).slot .s0).state = x) ∧
      (∀ x y, x ≠ .empty → y ≠ .empty → (pairIn x y).PairsLawful ∧ (pairIn x y).Holds .s1 6 ∧
        ((pairIn x y).slot .s1).partner = some .s0 ∧ ((pairIn x y).slot .s1).state = y) ∧
      (waiting 4).Unheld 4 :=
  ⟨fun _ => ⟨pairsLawful_one _ rfl rfl rfl, holds_one 5 _ rfl, rfl, rfl⟩,
    fun x y hx hy => ⟨pairsLawful_pair x y hx hy, (holds_pair x y).2, rfl, rfl⟩, unheld_waiting 4 4⟩

/-- A LEADER beside a live and beside a LOST FOLLOWER; a FOLLOWER. -/
theorem witness_LeaderLossSwapsRoles :
    (∀ x y, x ≠ .empty → y ≠ .empty → (pairIn x y).PairsLawful ∧ (pairIn x y).Holds .s0 5 ∧ (pairIn x y).Holds .s1 6 ∧
      ((pairIn x y).slot .s0).partner = some .s1 ∧ ((pairIn x y).slot .s1).partner = some .s0 ∧
      ((pairIn x y).slot .s0).state = x ∧ ((pairIn x y).slot .s1).state = y ∧
      ((pairIn x y).slot .s0).role = .leader ∧ ((pairIn x y).slot .s1).role = .follower) ∧
      SlotState.lost ≠ .active ∧ SlotState.lost ≠ .stalled :=
  ⟨fun x y hx hy => ⟨pairsLawful_pair x y hx hy, (holds_pair x y).1, (holds_pair x y).2, rfl, rfl, rfl, rfl, rfl, rfl⟩,
    by decide⟩

/-- A pair of two live members, and a LOST LEADER beside an acquiring FOLLOWER, with EMPTY slots beside both; a LOST slot
alone, and an acquiring one. -/
theorem witness_PortResetEndsEveryLink :
    let s := pairIn .active .stalled
    let u := pairIn .lost .filling
    ((∀ i, (s.slot i).state = .empty → (s.slot i).handle = none) ∧ s.PairsLawful ∧
      (s.slot .s0).partner = some .s1 ∧ (s.slot .s0).state.live = true ∧ (s.slot .s1).state.live = true) ∧
    (∀ i, (u.slot i).state = .empty → (u.slot i).handle = none) ∧ u.PairsLawful ∧ (u.slot .s0).partner = some .s1 ∧
      (u.slot .s1).state = .filling ∧ (u.slot .s0).state = .lost ∧ (u.slot .s2).state = .empty ∧
      ∀ x, x ≠ .empty → (∀ i, ((one (slotIn x 5 0xA1)).slot i).state = .empty →
        ((one (slotIn x 5 0xA1)).slot i).handle = none) ∧ (one (slotIn x 5 0xA1)).PairsLawful :=
  ⟨⟨everySlot (fun h => by cases h) (fun h => by cases h) (fun _ => rfl) (fun _ => rfl),
    pairsLawful_pair _ _ (by decide) (by decide), rfl, rfl, rfl⟩,
    everySlot (fun h => by cases h) (fun h => by cases h) (fun _ => rfl) (fun _ => rfl),
    pairsLawful_pair _ _ (by decide) (by decide), rfl, rfl, rfl, rfl, fun _ hx =>
      ⟨everySlot (fun h => absurd h hx) (fun _ => rfl) (fun _ => rfl) (fun _ => rfl), pairsLawful_one _ rfl rfl rfl⟩⟩

/-- A slot alone with `n` samples in its inbound ring, that expects `e`. -/
def filled (x : SlotState) (n : Nat) (e : Option SeqNum) : Slot :=
  { slotIn x 5 0xA1 with inRing := { samples := List.replicate n 7, phase := 3, expected := e, history := none, run := 2 } }

/-- The fullest ring that takes a block, and one fuller; the first block and the expected one. -/
theorem witness_MicBlockInOrder :
    (∀ n e, (one (filled .active n e)).Holds .s0 5 ∧ ((one (filled .active n e)).slot .s0).state = .active ∧
      ((one (filled .active n e)).slot .s0).stats.Bounded ∧ ((one (filled .active n e)).slot .s0).inRing.expected = e) ∧
      944 + 80 - 1024 = 0 ∧ 945 + 80 - 1024 = 1 ∧ (block 1).length = 80 := by
  refine ⟨fun n e => ⟨holds_one 5 _ rfl, rfl, ?_, rfl⟩, rfl, rfl, rfl⟩
  show Stats.zero.Bounded
  unfold Stats.Bounded
  decide

/-- A slot that expects 700, with target `t` and `n` samples of its inbound ring. -/
def gapped (x : SlotState) (t n : Nat) : Slot :=
  { slotIn x 5 0xA1 with
    inTarget := t
    inRing := { samples := List.replicate n 7, phase := 0, expected := some 700, history := some (block 8), run := 2 } }

theorem lawful_gapped {x : SlotState} {t n : Nat} (hx : x ≠ .empty) (hl : x ≠ .lost) (ht : 160 ≤ t ∧ t ≤ 800)
    (hn : n ≤ 1024) (ha : x.acquiring = true → n ≤ t) : (gapped x t n).ringsLawful := by
  have hlen : (gapped x t n).inRing.samples.length = n := List.length_replicate
  refine ⟨hlen.trans_le hn, show 0 ≤ 1024 by decide, show 0 < 1048576 by decide, show 0 < 1048576 by decide,
    fun _ h => (by cases h), fun _ h => ?_, show 2 ≤ 255 by decide, ht.1, ht.2, show 160 ≤ 240 by decide,
    show 240 ≤ 800 by decide, fun h => ⟨hlen.trans_le (ha h), rfl⟩, fun h => ?_, fun h => absurd h hx⟩
  · cases h
    rfl
  · exact h.elim (fun h => absurd h hx) fun h => absurd h hl

/-- Gaps of 0, 1, 8, 9 and 32767; BAD in order, behind 7 and behind 8 concealed blocks; the fullest ring that takes a block
behind a gap and one fuller; the capture record empty and full. -/
theorem witness_MicGapsAreConcealed :
    let s := fun n => one (gapped .active 800 n)
    (∀ n, (s n).Holds .s0 5 ∧ ((s n).slot .s0).state = .active ∧ (n ≤ 1024 → ((s n).slot .s0).ringsLawful) ∧
      (s n).capture.record = none ∧ ({ s n with capture := captured.capture } : State).Holds .s0 5) ∧
      ([700, 701, 708, 709, 700 + 32767].map fun q : SeqNum => (gapped .active 800 90).gapBefore q) =
        [some 0, some 1, some 8, some 9, some 32767] ∧
      ((gapped .active 800 90).gapBlocks 7 = 7 ∧ (gapped .active 800 90).badBlocks 7 = 1 ∧
        (gapped .active 800 90).gapBlocks 9 = 8 ∧ (gapped .active 800 90).badBlocks 9 = 0) ∧
      (gapped .active 800 944).blockOverrun 1 false (block 1) = 0 ∧
      (gapped .active 800 945).blockOverrun 1 false (block 1) = 1 := by
  refine ⟨fun n => ⟨holds_one 5 _ rfl, rfl,
    fun hn => lawful_gapped (by decide) (by decide) (by decide) hn fun h => (by cases h), rfl, holds_one 5 _ rfl⟩,
    by decide +kernel, by decide +kernel, by decide +kernel, by decide +kernel⟩

/-- MEASURING and FILLING; in order and good one sample short of the target and at it; behind a gap of 2 and of 5; BAD one
sample above the last fill that conceals, and at it; FILLING with no microphone; the FILLING FOLLOWER of a LOST LEADER. -/
theorem witness_MicWhileAcquiring :
    (∀ x, x = .measuring ∨ x = .filling → ∀ n, n ≤ 320 → (one (gapped x 320 n)).Holds .s0 5 ∧
      ((one (gapped x 320 n)).slot .s0).state = x ∧ ((one (gapped x 320 n)).slot .s0).ringsLawful ∧
      ((one (gapped x 320 n)).slot .s0).mic = true ∧ ((one (gapped x 320 n)).slot .s0).inTarget = 320) ∧
      ([700, 702, 705].map fun q : SeqNum => (gapped .filling 320 0).gapBefore q) = [some 0, some 2, some 5] ∧
      ((gapped .filling 320 239).withBlock 0 700 false (block 1)).inRing.samples.length = 319 ∧
      ((gapped .filling 320 240).withBlock 0 700 false (block 1)).inRing.samples.length = 320 ∧
      ((gapped .filling 320 0).withBlock 2 702 false (block 1)).inRing.samples.length = 240 ∧
      ((gapped .filling 320 0).withBlock 5 705 false (block 1)).inRing.samples.length = 320 ∧
      ((gapped .filling 320 241).withBlock 0 700 true (block 1)).inRing.samples.length = 241 ∧
      ((gapped .filling 320 240).withBlock 0 700 true (block 1)).inRing.samples.length = 320 ∧
      ({ gapped .filling 320 0 with mic := false } : Slot).mic = false ∧
      ((pairIn .lost .filling).Holds .s1 6 ∧ ((pairIn .lost .filling).slot .s1).state = .filling ∧
        ((pairIn .lost .filling).slot .s1).gapBefore 9 = some 0 ∧
        (pairIn .lost .filling).leaderOf .s1 = some .s0 ∧ ((pairIn .lost .filling).slot .s0).state = .lost) := by
  refine ⟨fun x hx n hn => ⟨holds_one 5 _ rfl, rfl, ?_, rfl, rfl⟩, by decide +kernel, by decide +kernel,
    by decide +kernel, by decide +kernel, by decide +kernel, by decide +kernel, by decide +kernel, rfl,
    (holds_pair _ _).2, rfl, rfl, rfl, rfl⟩
  rcases hx with rfl | rfl <;>
    exact lawful_gapped (by decide) (by decide) (by decide) (by omega) fun _ => hn

/-- The nearest and the farthest late block; a pending and an unbound handle; handle 0; 79 and 81 samples. -/
theorem witness_MicNotTaken :
    (∀ x, (one (filled x 90 (some 700))).Holds .s0 5 ∧ ((one (filled x 90 (some 700))).slot .s0).state = x ∧
      ((one (filled x 90 (some 700))).slot .s0).inRing.expected = some 700) ∧
      32768 ≤ ((700 : SeqNum) + 32768 - 700).toNat ∧ 32768 ≤ ((699 : SeqNum) - 700).toNat ∧
      ((waiting 4).Unheld 4 ∧ ¬(waiting 4).NotPending 4) ∧ (State.reset.Unheld 4 ∧ State.reset.NotPending 4) ∧
      (List.replicate 79 (0 : Sample)).length ≠ 80 ∧ (List.replicate 81 (0 : Sample)).length ≠ 80 := by
  refine ⟨fun _ => ⟨holds_one 5 _ rfl, rfl, rfl⟩, by decide, by decide, ⟨unheld_waiting 4 4, ?_⟩, ⟨unheld_reset 4, notPending_reset 4⟩,
    by decide, by decide⟩
  unfold State.NotPending
  decide +kernel

/-- A STALLED and a LOST slot in no pair, and the STALLED FOLLOWER of a LOST LEADER, with a PULL and a MIC. -/
theorem witness_TrafficRevivesSlots :
    (∀ x, (one (slotIn x 5 0xA1)).Holds .s0 5 ∧ ((one (slotIn x 5 0xA1)).slot .s0).state = x) ∧
      ((pairIn .lost .stalled).Holds .s1 6 ∧ ((pairIn .lost .stalled).slot .s1).state = .stalled ∧
        (pairIn .lost .stalled).leaderOf .s1 = some .s0 ∧ ((pairIn .lost .stalled).slot .s0).state = .lost) ∧
      (∃ seq stamp, Instr.pull 5 1 2 = .pull 5 seq stamp) ∧
      ∃ seq stamp bad samples, samples.length = 80 ∧ Instr.mic 5 1 2 false (block 0) = .mic 5 seq stamp bad samples :=
  ⟨fun _ => ⟨holds_one 5 _ rfl, rfl⟩, ⟨(holds_pair _ _).2, rfl, rfl, rfl⟩, ⟨_, _, rfl⟩, ⟨_, _, _, _, rfl, rfl⟩⟩

/-- A slot alone with an OPEN window from sequence number 65500 and stamp 9. -/
def windowed (x : SlotState) (firstWindow : Bool) (failCount : Nat) : Slot :=
  { slotIn x 5 0xA1 with window := some ⟨65500, 9⟩, firstWindow := firstWindow, failCount := failCount }

/-- A pending and an unbound handle; no window; a window at each bound of R86, past the wrap of the number. -/
theorem witness_PullAnsweredSilent :
    ((waiting 4).Unheld 4 ∧ ¬(waiting 4).NotPending 4) ∧ (State.reset.Unheld 4 ∧ State.reset.NotPending 4) ∧
      (∀ x, (one (slotIn x 5 0xA1)).Holds .s0 5 ∧ ((one (slotIn x 5 0xA1)).slot .s0).state = x ∧
        ((one (slotIn x 5 0xA1)).slot .s0).window = none) ∧
      (∀ x, (one (windowed x true 0)).Holds .s0 5 ∧ ((one (windowed x true 0)).slot .s0).state = x ∧
        ((one (windowed x true 0)).slot .s0).window = some ⟨65500, 9⟩) ∧
      ((27 : SeqNum) - 65500).toNat = 63 ∧ ((28 : SeqNum) - 65500).toNat = 64 ∧ ((91 : SeqNum) - 65500).toNat = 127 ∧
      ((92 : SeqNum) - 65500).toNat = 128 ∧ ((32731 : SeqNum) - 65500).toNat = 32767 ∧
      ((32732 : SeqNum) - 65500).toNat = 32768 := by
  refine ⟨⟨unheld_waiting 4 4, ?_⟩, ⟨unheld_reset 4, notPending_reset 4⟩, fun _ => ⟨holds_one 5 _ rfl, rfl, rfl⟩,
    fun _ => ⟨holds_one 5 _ rfl, rfl, rfl⟩, by decide⟩
  unfold State.NotPending
  decide +kernel

/-- No window, and one left open at each bound; one overshot at each bound, and one closed with no ticks between; the
FOLLOWER of a live LEADER. -/
theorem witness_PullAnsweredWithData :
    (one (windowed .active true 0)).Holds .s0 5 ∧ ((one (windowed .active true 0)).slot .s0).state = .active ∧
      (∀ w, ((one (windowed .active true 0)).slot .s0).window = some w →
        ((27 : SeqNum) - w.startSeq).toNat ≤ 63 ∨ 32768 ≤ ((27 : SeqNum) - w.startSeq).toNat) ∧
      (∀ w, ((one (slotIn .active 5 0xA1)).slot .s0).window = some w → ((27 : SeqNum) - w.startSeq).toNat ≤ 63) ∧
      ((one (windowed .active true 0)).slot .s0).window = some ⟨65500, 9⟩ ∧ ((92 : SeqNum) - 65500).toNat = 128 ∧
      ((32731 : SeqNum) - 65500).toNat = 32767 ∧ (((28 : SeqNum) - 65500).toNat = 64 ∧ (9 : Stamp) = 9) ∧
      ((pairIn .stalled .active).Holds .s1 6 ∧ ((pairIn .stalled .active).slot .s1).state = .active ∧
        (pairIn .stalled .active).leaderOf .s1 = some .s0) := by
  refine ⟨holds_one 5 _ rfl, rfl, ?_, fun w h => (by cases h), rfl, by decide, by decide, by decide,
    (holds_pair _ _).2, rfl, rfl⟩
  intro w h
  cases h
  exact .inl (by decide)

/-- The FOLLOWER of `pairIn` with that window, two failures before it. -/
def pairWindowed (x y : SlotState) : State :=
  (pairIn x y).withSlot .s1 { (pairIn x y).slot .s1 with window := some ⟨65500, 9⟩, failCount := 2 }

theorem pairsLawful_pairWindowed (x y : SlotState) (hx : x ≠ .empty) (hy : y ≠ .empty) :
    (pairWindowed x y).PairsLawful := by
  intro i
  cases i
  · exact ⟨by decide, rfl, hx, .inl ⟨rfl, rfl⟩, .inl ⟨rfl, rfl⟩, rfl⟩
  · exact ⟨by decide, rfl, hy, .inr ⟨rfl, rfl⟩, .inr ⟨rfl, rfl⟩, rfl⟩
  all_goals exact ⟨rfl, rfl⟩

theorem holds_pairWindowed (x y : SlotState) : (pairWindowed x y).Holds .s1 6 := by
  refine ⟨rfl, fun j hj => ?_⟩
  have := (holds_pair x y).2.2 j
  revert hj this
  cases j <;> exact fun h f => f h

/-- Windows of 64 and 127 blocks; a value within the limit and one outside it; one, two and three failures; a ring below
the target, at it, and no microphone; a FOLLOWER beside a live, a LOST and an acquiring LEADER. -/
theorem witness_PullClosesTheWindow :
    (∀ x b n, (one (windowed x b n)).Holds .s0 5 ∧ (one (windowed x b n)).PairsLawful ∧
      ((one (windowed x b n)).slot .s0).partner = none ∧
      ((one (windowed x b n)).slot .s0).window = some ⟨65500, 9⟩ ∧ ((one (windowed x b n)).slot .s0).state = x ∧
      ((one (windowed x b n)).slot .s0).firstWindow = b ∧ ((one (windowed x b n)).slot .s0).failCount = n ∧
      ((one (windowed x b n)).slot .s0).mic = true ∧ ((one (windowed x b n)).slot .s0).inRing.samples.length = 0 ∧
      (one (windowed x b n)).limits.slotLimit = 2400) ∧
      (∀ x y, x ≠ .empty → y ≠ .empty → (pairWindowed x y).Holds .s1 6 ∧ (pairWindowed x y).PairsLawful ∧
        ((pairWindowed x y).slot .s1).window = some ⟨65500, 9⟩ ∧ ((pairWindowed x y).slot .s1).partner = some .s0 ∧
        ((pairWindowed x y).slot .s1).failCount = 2 ∧ ((pairWindowed x y).slot .s1).state = y ∧
        (pairWindowed x y).leaderOf .s1 = some .s0 ∧ ((pairWindowed x y).slot .s0).state = x) ∧
      ({ windowed .measuring true 0 with mic := false } : Slot).mic = false ∧
      (filled .measuring 320 none).inTarget ≤ (filled .measuring 320 none).inRing.samples.length ∧
      (((28 : SeqNum) - 65500).toNat = 64 ∧ ((91 : SeqNum) - 65500).toNat = 127 ∧ (7864329 : Stamp) ≠ 9) ∧
      (roundHalfAway (((122880 * 64 : Nat) - (((7864329 : Stamp) - 9).toNat : Int)) * 8000000)
        ((7864329 : Stamp) - 9).toNat).natAbs ≤ 2400 ∧
      2400 < (roundHalfAway (((122880 * 127 : Nat) - (((7864329 : Stamp) - 9).toNat : Int)) * 8000000)
        ((7864329 : Stamp) - 9).toNat).natAbs ∧ 80 ≤ 2400 ∧ 2400 ≤ 8000 :=
  ⟨fun _ _ _ => ⟨holds_one 5 _ rfl, pairsLawful_one _ rfl rfl rfl, rfl, rfl, rfl, rfl, rfl, rfl, rfl, rfl⟩,
    fun x y hx hy => ⟨holds_pairWindowed x y, pairsLawful_pairWindowed x y hx hy, rfl, rfl, rfl, rfl, rfl, rfl⟩,
    rfl, by decide +kernel, by decide⟩

/-- A call in the state given that has taken `n` strobes of a period and counted `k` of its window. -/
def calling (x : CallState) (n k : Nat) : State :=
  { State.reset with
    call := { State.reset.call with state := x, strobeCount := n, strobeTimer := some 99, localTimer := none }
    rate := { estimate := 40, window := some ⟨0, k⟩ } }

/-- ABSENT; the last strobe that ends no period; an expiry with and without a last mix tick, and none due. -/
theorem witness_StrobesStartAndFeedTheCall :
    State.reset.call.state = .absent ∧
      ((calling .running 78 5118).call.state ≠ .absent ∧ (calling .running 78 5118).call.strobeCount < 79 ∧
        (calling .running 78 5118).rate.window = some ⟨0, 5118⟩) ∧
      (calling .running 78 5118).call.strobeTimer = some 99 ∧ (calling .running 78 5118).call.lastMixTick = none ∧
      State.reset.call.strobeTimer = none := by decide

/-- A window that closes LOCKING and RUNNING, within the limit and outside it. -/
theorem witness_StrobeClosesCallWindow :
    (∀ x, x ≠ .absent → (calling x 78 5119).call.state = x ∧ (calling x 78 5119).call.strobeCount < 79 ∧
      (calling x 78 5119).rate.window = some ⟨0, 5119⟩ ∧ (calling x 78 5119).limits.callLimit = 1600) ∧
      (roundHalfAway ((7864320 - ((7864320 : Nat) : Int)) * 8000000) 7864320).natAbs ≤ 1600 ∧
      1600 < (roundHalfAway ((7864320 - ((7800000 : Nat) : Int)) * 8000000) 7800000).natAbs :=
  ⟨fun x _ => ⟨rfl, (show 78 < 79 by decide), rfl, rfl⟩, by decide⟩

/-- The expiry of the local timer raises a mix period, with 80 zeros as D. -/
theorem raises_local (s : State) (h : s.call.localTimer = some 122880) :
    RaisesPeriod s .localTimerExpiry .byLocal (List.replicate 80 0) := .timer 122880 h

/-- The eightieth strobe raises a mix period, with the capture half as D. -/
theorem raises_strobe :
    RaisesPeriod (calling .locking 79 5118) (.strobe 7 9) .byCall ((calling .locking 79 5118).call.captureHalf.set 79 9) :=
  .strobe 7 9 ⟨0, 5118⟩ (by decide) rfl rfl (by decide)

/-- A local timer and none; the strobe that ends a period; the two commands that raise one. -/
theorem witness_MixPeriodsAreRaised :
    (State.reset.call.localTimer = some 122880 ∧ (calling .locking 79 5118).call.localTimer = none ∧
      (calling .locking 79 5118).call.state ≠ .absent ∧ (calling .locking 79 5118).call.strobeCount = 79 ∧
      (calling .locking 79 5118).rate.window = some ⟨0, 5118⟩) ∧
    RaisesPeriod State.reset .localTimerExpiry .byLocal (List.replicate 80 0) ∧
    RaisesPeriod (calling .locking 79 5118) (.strobe 7 9) .byCall ((calling .locking 79 5118).call.captureHalf.set 79 9) :=
  ⟨by decide, raises_local _ rfl, raises_strobe⟩

/-- A pair, both members ACTIVE and served PULL 7, the LEADER's outbound ring 41 samples the fuller; both starve. -/
def apart : State :=
  let s := pairIn .active .active
  (s.withSlot .s0
      { s.slot .s0 with outRing := { OutRing.flushed with samples := List.replicate 41 7, lastServed := some 7 } }).withSlot
    .s1 { s.slot .s1 with outRing := { OutRing.flushed with lastServed := some 7 } }

theorem pairsLawful_apart : apart.PairsLawful := by
  intro i
  cases i
  · exact ⟨by decide, rfl, by decide, .inl ⟨rfl, rfl⟩, .inl ⟨rfl, rfl⟩, rfl⟩
  · exact ⟨by decide, rfl, by decide, .inr ⟨rfl, rfl⟩, .inr ⟨rfl, rfl⟩, rfl⟩
  all_goals exact ⟨rfl, rfl⟩

/-- A period of each source in a lawful state; slots in every state; a FOLLOWER that is resynchronised and two slots that
starve; nothing that starves, with the capture record empty and full. -/
theorem witness_MixPeriodsFormTheAudio :
    (RaisesPeriod apart .localTimerExpiry .byLocal (List.replicate 80 0) ∧ apart.PairsLawful ∧
      apart.resyncsTo .byLocal (List.replicate 80 0) .s1 = some .s0 ∧
      SlotId.all.filter (apart.starves .byLocal) = [.s0, .s1] ∧ apart.capture.record = none) ∧
    (RaisesPeriod (calling .locking 79 5118) (.strobe 7 9) .byCall
        ((calling .locking 79 5118).call.captureHalf.set 79 9) ∧
      (calling .locking 79 5118).PairsLawful ∧ SlotId.all.filter ((calling .locking 79 5118).starves .byCall) = []) ∧
    (RaisesPeriod { apart with capture := captured.capture } .localTimerExpiry .byLocal (List.replicate 80 0) ∧
      captured.capture.record.isSome = true) ∧
    ((pairIn .active .stalled).slot .s1).state = .stalled ∧ ((pairIn .active .stalled).slot .s2).state.live = false :=
  ⟨⟨raises_local _ rfl, pairsLawful_apart, by decide +kernel, by decide +kernel, rfl⟩,
    ⟨raises_strobe, pairsLawful_reset, by decide +kernel⟩, ⟨raises_local _ rfl, rfl⟩, rfl, rfl⟩

/-- Slots ACTIVE, STALLED and EMPTY. -/
theorem witness_MixPeriodsRampTheGains :
    RaisesPeriod (pairIn .active .stalled) .localTimerExpiry .byLocal (List.replicate 80 0) ∧
      RaisesPeriod (calling .locking 79 5118) (.strobe 7 9) .byCall
        ((calling .locking 79 5118).call.captureHalf.set 79 9) ∧
      ((pairIn .active .stalled).slot .s0).state.live = true ∧
      ((pairIn .active .stalled).slot .s1).state = .stalled :=
  ⟨raises_local _ rfl, raises_strobe, rfl, rfl⟩

/-- Slots in every state, in no pair and in one; the last period before the loss timeout and the one at it. -/
theorem witness_MixPeriodsTimeSilence :
    (∀ x, RaisesPeriod (one (slotIn x 5 0xA1)) .localTimerExpiry .byLocal (List.replicate 80 0) ∧
      (one (slotIn x 5 0xA1)).PairsLawful ∧ ((one (slotIn x 5 0xA1)).slot .s0).state = x) ∧
    (∀ x y, x ≠ .empty → y ≠ .empty →
      RaisesPeriod (pairIn x y) .localTimerExpiry .byLocal (List.replicate 80 0) ∧ (pairIn x y).PairsLawful ∧
        ((pairIn x y).slot .s0).state = x ∧ ((pairIn x y).slot .s1).state = y ∧
        (pairIn x y).leaderOf .s1 = some .s0) ∧
      State.reset.limits.lossTimeout ≤ min 255 (39 + 1) ∧ ¬State.reset.limits.lossTimeout ≤ min 255 (38 + 1) ∧
      4 ≤ min 255 (3 + 1) :=
  ⟨fun _ => ⟨raises_local _ rfl, pairsLawful_one _ rfl rfl rfl, rfl⟩,
    fun x y hx hy => ⟨raises_local _ rfl, pairsLawful_pair x y hx hy, rfl, rfl, rfl⟩, by decide⟩

/-- A play that ends no region in the period, one that ends exactly at its last position, one that repeats within it, one
with a gap; a gap's last period and one before. -/
theorem witness_PromptsPlayInMixPeriods :
    ((Play.mk 0 81 0 0 0).Lawful ∧ (0 - 0 + 80) / 81 = 0) ∧ ((Play.mk 16304 80 16304 0 0).Lawful ∧ (0 + 80) / 80 = 1) ∧
      ((Play.mk 0 3 1 65535 0).Lawful ∧ (1 - 0 + 80) / 3 ≤ 65535) ∧ (Play.mk 0 1 0 1 255).Lawful ∧ 1 ≤ (1 : Nat) ∧
      RaisesPeriod playingNow .localTimerExpiry .byLocal (List.replicate 80 0) ∧
      playingNow.prompt.player = .playing ⟨0, 1, 0, 65535, 0⟩ ∧
      RaisesPeriod (calling .locking 79 5118) (.strobe 7 9) .byCall
        ((calling .locking 79 5118).call.captureHalf.set 79 9) := by
  refine ⟨⟨?_, by decide⟩, ⟨?_, by decide⟩, ⟨?_, by decide⟩, ?_, by decide, raises_local _ rfl, rfl, raises_strobe⟩
  all_goals
    unfold Play.Lawful
    decide

/-- The FOLLOWER of `pairIn` ACTIVE and louder than its LEADER, with a watch that holds and reaches its count. -/
def talking (x : SlotState) : State :=
  (pairIn x .active).withSlot .s1
    { (pairIn x .active).slot .s1 with
      talker := { level := 32768, primary := false, weight := 512 }
      watch := { condition := .above, threshold := 0, count := 255, run := 254 } }

/-- A FOLLOWER that takes the flag from an ACTIVE and from a LOST LEADER, whose run reaches 255. -/
theorem witness_MixPeriodsCloseTheTalkers :
    ∀ x, x ≠ .empty →
      RaisesPeriod (talking x) .localTimerExpiry .byLocal (List.replicate 80 0) ∧ (talking x).PairsLawful ∧
        ((talking x).slot .s1).partner = some .s0 ∧ ((talking x).slot .s0).talker.primary = true ∧
        ((talking x).slot .s1).state = .active ∧ ((talking x).slot .s0).state = x ∧
        (talking x).talk.gate ≤ 28672 ∧ ((talking x).slot .s1).watch.run + 1 = ((talking x).slot .s1).watch.count := by
  refine fun x hx => ⟨raises_local _ rfl, ?_, rfl, rfl, rfl, rfl, ?_, rfl⟩
  · intro i
    cases i
    · exact ⟨by decide, rfl, hx, .inl ⟨rfl, rfl⟩, .inl ⟨rfl, rfl⟩, rfl⟩
    · exact ⟨by decide, rfl, fun h => (by cases h), .inr ⟨rfl, rfl⟩, .inr ⟨rfl, rfl⟩, rfl⟩
    all_goals exact ⟨rfl, rfl⟩
  · show TalkParams.powerOn.gate ≤ 28672
    decide

/-- The ends of each range. -/
theorem witness_StepsAndMeasuredValues :
    ((-8000 : Int) ≤ -8000 ∧ (8000 : Int) ≤ 8000) ∧ ((-3 : Int) ≤ -3 ∧ (3 : Int) ≤ 3) ∧ 0 < (1 : Nat) := by decide

/-- The last formed output of a whole pass and of a pass that starves, at both ends of the phase; no short output, some,
and all; rings of 1 and 81 samples. -/
theorem witness_PassesReadTheRing :
    (79 < 80 - (runPass 1048576 80 (block 7 ++ [7]) 1048575).short ∧
      78 < 80 - (runPass 1048576 80 (block 7) 0).short) ∧
    (runPass 1048576 80 (block 7 ++ [7]) 1048575).short = 0 ∧ 0 < (runPass 1048576 80 (block 7) 0).short ∧
      [(7 : Sample)].length < 2 ∧ 81 ≤ (block 7 ++ [7]).length := by decide +kernel

/-- A distance at the ramp and one beyond it; a level at the gate and one below. -/
theorem witness_RampLevelsAndWeights :
    (((356 : Nat) : Int) - (100 : Nat)).natAbs ≤ 256 ∧ 100 + 256 < 357 ∧ (100 : Nat) < 357 ∧
      TalkParams.powerOn.gate ≤ 300 ∧ 299 < TalkParams.powerOn.gate := by decide

/-- Gains at the top of their range; a period of each source. -/
theorem witness_OutputsAreRoundedSums :
    (∀ j, (GainRow.mk 8191 (.const 8191) 8191).get j ≤ 8191) ∧
      RaisesPeriod (pairIn .active .stalled) .localTimerExpiry .byLocal (List.replicate 80 0) ∧
      RaisesPeriod (calling .locking 79 5118) (.strobe 7 9) .byCall
        ((calling .locking 79 5118).call.captureHalf.set 79 9) := by
  refine ⟨fun j => ?_, raises_local _ rfl, raises_strobe⟩
  cases j with
  | d => decide
  | p => decide
  | e i => cases i <;> decide

/-! ### A state that meets every law of a step, with a step from it -/

/-- An ACTIVE LEADER beside a STALLED FOLLOWER, a pending entry, a reply, a partial frame, a profile, a play at its last
sample, and the local timer's expiry waiting. -/
def rich : State :=
  { pairIn .active .stalled with
    pending := [.localTimerExpiry, .radioMessageSent]
    radio := { pendingLinks := [⟨9, 0xB1, true⟩], outgoing := [.release 3], line := [] }
    link := { receiver := { phase := .kind, length := some 2, kind := none, tag := none, body := [], sum := 2, timer := some 9 },
              replies := [⟨0, .done .reset .reset⟩], mode := .resetting, line := [] }
    profiles := [profileOf 0xC1]
    prompt :=
      { memory := [(16383, 5)],
        player := .playing { start := 16382, length := 2, position := 16383, remaining := 65535, gap := 255 } } }

/-- The step from it: the premise of each statement about what steps keep. -/
theorem witness_rich_steps : ∃ t, step rich = .next t := ⟨_, rfl⟩

theorem witness_StepsKeepTheNoticeQueueLawful : rich.notices.Lawful := by
  unfold NoticeQueue.Lawful
  decide

theorem witness_StepsKeepTheControlLinkLawful : rich.link.Lawful :=
  ⟨by decide, ⟨⟨2, by decide, rfl⟩, rfl, rfl, rfl, rfl⟩, by decide⟩

theorem witness_StepsKeepThePromptPlayerLawful : rich.prompt.Lawful := by
  refine ⟨by decide, ?_⟩
  show Play.Lawful _
  unfold Play.Lawful
  decide

theorem witness_StepsKeepTheGainsLawful : rich.GainsLawful ∧ rich.DeadSlotsSilent := by
  refine ⟨⟨?_, ?_, everySlot (by decide) (by decide) (by decide) (by decide), by decide, by decide⟩, ?_⟩
  · intro o j
    cases o with
    | u =>
      cases j with
      | e i => cases i <;> decide
      | _ => decide
    | o k =>
      cases j with
      | e i => cases k <;> cases i <;> decide
      | _ => cases k <;> decide
  · intro o j
    cases o with
    | u =>
      cases j with
      | e i => cases i <;> decide
      | _ => decide
    | o k =>
      cases j with
      | e i => cases k <;> cases i <;> decide
      | _ => cases k <;> decide
  · intro i _
    refine ⟨fun o => ?_, fun j => ?_⟩
    · cases o with
      | u => cases i <;> rfl
      | o k => cases k <;> cases i <;> rfl
    · cases j with
      | e k => cases k <;> cases i <;> rfl
      | _ => cases i <;> rfl

theorem witness_StepsKeepPairsLawful : rich.PairsLawful := pairsLawful_pair _ _ (by decide) (by decide)

theorem witness_StepsKeepBindingsLawful : rich.BindingsLawful := by
  refine ⟨everySlot ?_ ?_ ?_ ?_, fun i j h => ?_, fun i j d => ?_, by decide, by decide, by decide, ?_⟩
  · exact ⟨⟨rfl, rfl⟩, by decide⟩
  · exact ⟨⟨rfl, rfl⟩, by decide⟩
  · exact ⟨⟨rfl, rfl⟩, by decide⟩
  · exact ⟨⟨rfl, rfl⟩, by decide⟩
  · cases i <;> cases j <;> intro h1 h2 <;> first | rfl | (cases h1; done) | (cases h2; done) | (cases h1; cases h2)
  · cases i <;> cases j <;> intro h1 h2 <;> first | rfl | (cases h1; done) | (cases h2; done) | (cases h1; cases h2)
  · intro e he
    obtain rfl := List.mem_singleton.mp he
    exact ⟨by decide, everySlot (by decide) (by decide) (by decide) (by decide)⟩

theorem witness_StepsKeepRingsLawful : rich.RingsLawful := by
  have h : ∀ i, (rich.slot i).inRing = .flushed ∧ (rich.slot i).outRing = .flushed ∧ (rich.slot i).window = none ∧
      (rich.slot i).inTarget = 320 ∧ (rich.slot i).outTarget = 240 ∧
      ((rich.slot i).state = .empty → (rich.slot i).handle = none) :=
    everySlot ⟨rfl, rfl, rfl, rfl, rfl, fun h => by cases h⟩ ⟨rfl, rfl, rfl, rfl, rfl, fun h => by cases h⟩
      ⟨rfl, rfl, rfl, rfl, rfl, fun _ => rfl⟩ ⟨rfl, rfl, rfl, rfl, rfl, fun _ => rfl⟩
  intro i
  obtain ⟨h1, h2, h3, h4, h5, h6⟩ := h i
  unfold Slot.ringsLawful
  rw [h1, h2, h3, h4, h5]
  refine ⟨by decide, by decide, by decide, by decide, fun _ h => (by cases h), fun _ h => (by cases h), by decide, by decide,
    by decide, by decide, by decide, fun _ => by decide, fun _ => ⟨rfl, rfl, rfl⟩, h6⟩

theorem witness_StepsKeepRatesAndCallLawful : rich.RatesLawful ∧ rich.CallLawful := by
  refine ⟨⟨by unfold Limits.Lawful; decide, everySlot (by decide) (by decide) (by decide) (by decide), by decide⟩, ?_⟩
  exact ⟨by decide +kernel, by decide +kernel, by decide, rfl, rfl, rfl, rfl, rfl, rfl, rfl⟩

theorem witness_StepsKeepCountsAndProfilesLawful : rich.CountsLawful ∧ rich.ProfilesLawful := by
  refine ⟨⟨everySlot ?_ ?_ ?_ ?_, by decide⟩, by decide, by decide, ?_⟩
  iterate 4
    · unfold Slot.countsLawful Stats.Bounded
      decide
  · intro p hp
    obtain rfl := List.mem_singleton.mp hp
    refine ⟨by decide, by decide, fun t ht => ?_, fun t ht => ?_, fun h => (by cases h), by decide⟩
    · cases ht
      decide
    · cases ht

/-- A request that sets none of the settings, taken. -/
theorem witness_SettingsMoveOnlyByTheirRequest :
    (∃ t, exec (.collect 0) rich = .next t) ∧ (∀ tick, Instr.collect 0 ≠ .powerOnReset tick) ∧
      (∀ tick byte, Instr.collect 0 ≠ .controlLinkByte tick byte) ∧
      ∀ kind tag body check, Instr.collect 0 ≠ .refusedFrame kind tag body check :=
  ⟨⟨_, rfl⟩, by nofun, by nofun, by nofun⟩

end Sys2Proof.Tests
end

section
/-!
SUPPORT. The resampling arithmetic of chapter 6: what the rounding of a quotient lies between, the step and the measured
value it gives (R88, R104), and one interpolated output (R107).
-/
namespace Sys2Proof.Machine

/-! ### Bounds of a rounded quotient -/

variable {p m : Int} {q : Nat}

/-- A quotient less than a half above `m` rounds to `m` or below. -/
theorem roundHalfAway_le (hq : 0 < q) (h : 2 * p < (2 * m + 1) * q) : roundHalfAway p q ≤ m := by
  have near := abs_le.mp (roundHalfAway_near p hq)
  have below : roundHalfAway p q * q < (m + 1) * q := by linarith [near.2]
  have := lt_of_mul_lt_mul_right below (Int.natCast_nonneg q)
  omega

/-- A quotient less than a half below `m` rounds to `m` or above. -/
theorem le_roundHalfAway (hq : 0 < q) (h : (2 * m - 1) * q < 2 * p) : m ≤ roundHalfAway p q := by
  have near := abs_le.mp (roundHalfAway_near p hq)
  have above : (m - 1) * q < roundHalfAway p q * q := by linarith [near.1]
  have := lt_of_mul_lt_mul_right above (Int.natCast_nonneg q)
  omega

theorem roundHalfAway_zero (q : Nat) : roundHalfAway 0 q = 0 :=
  le_antisymm (roundHalfAway_nonpos q le_rfl) (roundHalfAway_nonneg q le_rfl)

/-- The rounding is symmetric. -/
theorem roundHalfAway_neg (p : Int) (q : Nat) : roundHalfAway (-p) q = -roundHalfAway p q := by
  rcases lt_trichotomy p 0 with hp | rfl | hp
  · rw [roundHalfAway_eq, roundHalfAway_eq p, if_neg (by omega), if_pos hp, neg_neg]
  · rw [neg_zero, roundHalfAway_zero, neg_zero]
  · rw [roundHalfAway_eq, roundHalfAway_eq p, if_pos (by omega), if_neg (by omega), neg_neg]

/-! ### The step (R104) -/

/-- The rounded term of the step lies within ±1049. -/
theorem stepTerm_bounds {d : Int} (lo : -8000 ≤ d) (hi : d ≤ 8000) :
    -1049 ≤ roundHalfAway (1048576 * d) 8000000 ∧ roundHalfAway (1048576 * d) 8000000 ≤ 1049 :=
  ⟨le_roundHalfAway (by decide) (by push_cast; omega), roundHalfAway_le (by decide) (by push_cast; omega)⟩

/-- The step over the integers, for every deviation. -/
theorem stepOf_clamped (t8 : Int) :
    (stepOf t8 : Int) = 1048576 + roundHalfAway (1048576 * max (-8000) (min 8000 t8)) 8000000 := by
  have bounds := stepTerm_bounds (d := max (-8000) (min 8000 t8)) (by omega) (by omega)
  have unfolded : stepOf t8 = (1048576 + roundHalfAway (1048576 * max (-8000) (min 8000 t8)) 8000000).toNat := by
    rw [← clampInt_eq (by decide)]
    rfl
  omega

/-- The step of a deviation that the clamp of R103 leaves alone. -/
theorem stepOf_eq {t8 : Int} (lo : -8000 ≤ t8) (hi : t8 ≤ 8000) :
    (stepOf t8 : Int) = 1048576 + roundHalfAway (1048576 * t8) 8000000 := by
  rw [stepOf_clamped, min_eq_right hi, max_eq_right lo]

theorem stepOf_range (t8 : Int) : 1047527 ≤ stepOf t8 ∧ stepOf t8 ≤ 1049625 := by
  have := stepTerm_bounds (d := max (-8000) (min 8000 t8)) (by omega) (by omega)
  have := stepOf_clamped t8
  omega

theorem stepOf_add_stepOf_neg {t8 : Int} (lo : -8000 ≤ t8) (hi : t8 ≤ 8000) : stepOf t8 + stepOf (-t8) = 2097152 := by
  have h := stepOf_eq lo hi
  have hneg := stepOf_eq (t8 := -t8) (by omega) (by omega)
  rw [mul_neg, roundHalfAway_neg] at hneg
  omega

theorem stepOf_near {t8 : Int} (lo : -8000 ≤ t8) (hi : t8 ≤ 8000) :
    |2 * (((stepOf t8 : Int) - 1048576) * 8000000 - 1048576 * t8)| ≤ 8000000 := by
  rw [stepOf_eq lo hi, add_sub_cancel_left]
  exact roundHalfAway_near (1048576 * t8) (q := 8000000) (by decide)

/-- A deviation within 3 moves the step by less than a half. -/
theorem stepOf_nominal {t8 : Int} (lo : -3 ≤ t8) (hi : t8 ≤ 3) : stepOf t8 = 1048576 := by
  have h := stepOf_eq (t8 := t8) (by omega) (by omega)
  have above : 0 ≤ roundHalfAway (1048576 * t8) 8000000 := le_roundHalfAway (by decide) (by push_cast; omega)
  have below : roundHalfAway (1048576 * t8) 8000000 ≤ 0 := roundHalfAway_le (by decide) (by push_cast; omega)
  omega

/-! ### The measured value (R88) -/

theorem measuredValue_nonneg {e n : Nat} (h : n ≤ e) : 0 ≤ measuredValue e n :=
  roundHalfAway_nonneg n (by omega)

theorem measuredValue_nonpos {e n : Nat} (h : e ≤ n) : measuredValue e n ≤ 0 :=
  roundHalfAway_nonpos n (by omega)

/-- Settles O46: the bounds come from the clamp, the symmetry and the distance from those of the rounding. -/
theorem stepsAndMeasuredValues : Obligations.StepsAndMeasuredValues :=
  ⟨stepOf_range, fun _ => stepOf_add_stepOf_neg, fun _ => stepOf_near, fun _ => stepOf_nominal, fun e n hn =>
    ⟨roundHalfAway_near (((e : Int) - n) * 8000000) hn, fun h => measuredValue_nonneg h.le,
      fun h => measuredValue_nonpos h.le, le_antisymm (measuredValue_nonpos le_rfl) (measuredValue_nonneg le_rfl)⟩⟩

/-! ### One interpolated output (R107) -/

/-- The rounded share of a difference lies between 0 and the difference. -/
theorem roundHalfAway_share (d : Int) {f : Nat} (hq : 0 < q) (hf : f ≤ q) :
    min 0 d ≤ roundHalfAway (d * f) q ∧ roundHalfAway (d * f) q ≤ max 0 d := by
  have hq' : (0 : Int) < q := by omega
  have hf' : (f : Int) ≤ q := by omega
  rcases le_total 0 d with hd | hd
  · rw [min_eq_left hd, max_eq_right hd]
    exact ⟨roundHalfAway_nonneg q (by positivity), roundHalfAway_le hq (by nlinarith)⟩
  · rw [min_eq_right hd, max_eq_left hd]
    exact ⟨le_roundHalfAway hq (by nlinarith), roundHalfAway_nonpos q (by nlinarith)⟩

/-- The output before it is held as a sample lies between its two samples, so that no bit of it is lost. -/
theorem toInt_interpolate (s0 s1 : Sample) {f : Nat} (hf : f < 1048576) :
    (interpolate s0 s1 f).toInt = s0.toInt + roundHalfAway ((s1.toInt - s0.toInt) * f) 1048576 := by
  have between := roundHalfAway_share (s1.toInt - s0.toInt) (q := 1048576) (by decide) hf.le
  have h0 := s0.le_toInt
  have h0' := s0.toInt_lt
  have h1 := s1.le_toInt
  have h1' := s1.toInt_lt
  have fits : (s0.toInt + roundHalfAway ((s1.toInt - s0.toInt) * f) 1048576).bmod (2 ^ 16) =
      s0.toInt + roundHalfAway ((s1.toInt - s0.toInt) * f) 1048576 := Int.bmod_eq_of_le (by omega) (by omega)
  exact (BitVec.toInt_ofInt ..).trans fits

theorem interpolate_between (s0 s1 : Sample) {f : Nat} (hf : f < 1048576) :
    min s0.toInt s1.toInt ≤ (interpolate s0 s1 f).toInt ∧ (interpolate s0 s1 f).toInt ≤ max s0.toInt s1.toInt := by
  have between := roundHalfAway_share (s1.toInt - s0.toInt) (q := 1048576) (by decide) hf.le
  rw [toInt_interpolate s0 s1 hf]
  omega

@[simp] theorem interpolate_zero (s0 s1 : Sample) : interpolate s0 s1 0 = s0 := by
  apply BitVec.eq_of_toInt_eq
  rw [toInt_interpolate s0 s1 (by decide), Nat.cast_zero, mul_zero, roundHalfAway_zero, add_zero]

end Sys2Proof.Machine
end

section
/-!
SUPPORT. The pass in closed form (R108 to R110): which outputs are formed from the ring, what each reads, and what the
pass leaves.
-/
namespace Sys2Proof.Machine

variable (step n : Nat) (ring : List Sample) (f : Nat)

/-! ### One output of a pass -/

/-- A formed output releases the whole samples of the advanced phase and keeps the rest of it (R107, R108). -/
theorem runPass_succ_of_two_le (h : 2 ≤ ring.length) :
    runPass step (n + 1) ring f =
      let after := runPass step n (ring.drop ((f + step) / 1048576)) ((f + step) % 1048576)
      { after with outputs := interpolate (ring.getD 0 0) (ring.getD 1 0) f :: after.outputs } := by
  match ring, h with
  | s0 :: s1 :: rest, _ => rfl

/-- A ring of fewer than 2 samples gives short outputs alone, and they move nothing (R109). -/
theorem runPass_of_length_lt_two (h : ring.length < 2) :
    runPass step n ring f = { outputs := List.replicate n 0, left := ring, phase := f, short := n } := by
  induction n with
  | zero => rfl
  | succ n ih =>
    have short : runPass step (n + 1) ring f =
        { runPass step n ring f with
          outputs := 0 :: (runPass step n ring f).outputs, short := (runPass step n ring f).short + 1 } := by
      match ring, h with
      | [], _ => rfl
      | [s], _ => rfl
    rw [short, ih]
    rfl

/-! ### The pass as a whole -/

/-- The formed output `j` of a pass: `j` advances by the step at once, then the interpolation (R107, R110). -/
def formedOutput (j : Nat) : Sample :=
  interpolate (ring.getD ((f + j * step) / 1048576) 0) (ring.getD ((f + j * step) / 1048576 + 1) 0)
    ((f + j * step) % 1048576)

/-- A pass of `n` outputs whose first `k` are formed and whose others are short (R109, R110). -/
def passForming (k : Nat) : PassResult where
  outputs := (List.range k).map (formedOutput step ring f) ++ List.replicate (n - k) 0
  left := ring.drop ((f + k * step) / 1048576)
  phase := (f + k * step) % 1048576
  short := n - k

/-- An advance by the step and `j` more release what `j + 1` advances at once release. -/
theorem release_advance (j : Nat) :
    (f + step) / 1048576 + ((f + step) % 1048576 + j * step) / 1048576 = (f + (j + 1) * step) / 1048576 := by
  rw [add_one_mul]
  omega

theorem phase_advance (j : Nat) :
    ((f + step) % 1048576 + j * step) % 1048576 = (f + (j + 1) * step) % 1048576 := by
  rw [add_one_mul]
  omega

/-- After one formed output the outputs to come are those of the advanced ring and phase. -/
theorem formedOutput_advance (j : Nat) :
    formedOutput step (ring.drop ((f + step) / 1048576)) ((f + step) % 1048576) j = formedOutput step ring f (j + 1) := by
  unfold formedOutput
  simp only [List.getD_eq_getElem?_getD, List.getElem?_drop, ← add_assoc, release_advance, phase_advance]

theorem passForming_succ (k : Nat) (hf : f < 1048576) :
    passForming step (n + 1) ring f (k + 1) =
      let after := passForming step n (ring.drop ((f + step) / 1048576)) ((f + step) % 1048576) k
      { after with outputs := interpolate (ring.getD 0 0) (ring.getD 1 0) f :: after.outputs } := by
  have first : formedOutput step ring f 0 = interpolate (ring.getD 0 0) (ring.getD 1 0) f := by
    unfold formedOutput
    rw [zero_mul, add_zero, Nat.div_eq_of_lt hf, Nat.mod_eq_of_lt hf]
  have others : ((List.range k).map (formedOutput step (ring.drop ((f + step) / 1048576)) ((f + step) % 1048576))) =
      (List.range k).map (formedOutput step ring f ∘ Nat.succ) :=
    List.map_congr_left fun j _ => formedOutput_advance step ring f j
  simp only [passForming, List.range_succ_eq_map, List.map_cons, List.map_map, List.cons_append, List.drop_drop,
    Nat.add_sub_add_right, release_advance, phase_advance, first, others]

/-- Every pass forms its first `k` outputs for some `k`, each from two samples that the ring then holds, and is short
from there on only when fewer than 2 are left (R109, R110). -/
theorem runPass_eq_passForming (hf : f < 1048576) :
    ∃ k ≤ n, runPass step n ring f = passForming step n ring f k ∧
      (∀ j < k, (f + j * step) / 1048576 + 1 < ring.length) ∧
      (k < n → (ring.drop ((f + k * step) / 1048576)).length < 2) := by
  induction n generalizing ring f with
  | zero =>
    refine ⟨0, le_rfl, ?_, by omega, by omega⟩
    simp [runPass, passForming, Nat.div_eq_of_lt hf, Nat.mod_eq_of_lt hf]
  | succ n ih =>
    rcases Nat.lt_or_ge ring.length 2 with short | formed
    · refine ⟨0, by omega, ?_, by omega, fun _ => ?_⟩
      · simp [runPass_of_length_lt_two step _ ring f short, passForming, Nat.div_eq_of_lt hf, Nat.mod_eq_of_lt hf]
      · simpa [Nat.div_eq_of_lt hf] using short
    · obtain ⟨k, hk, eq, reads, ends⟩ := ih (ring.drop ((f + step) / 1048576)) ((f + step) % 1048576) (by omega)
      refine ⟨k + 1, by omega, ?_, fun j hj => ?_, fun hlt => ?_⟩
      · rw [runPass_succ_of_two_le step n ring f formed, eq, passForming_succ step n ring f k hf]
      · cases j with
        | zero => omega
        | succ j =>
          have := reads j (by omega)
          rw [List.length_drop] at this
          have := release_advance step f j
          omega
      · have := ends (by omega)
        rwa [List.drop_drop, release_advance] at this

/-! ### What a pass forms, leaves and finds short -/

/-- The formed output within the pass. -/
theorem passForming_outputs_getD {j k : Nat} (h : j < k) :
    (passForming step n ring f k).outputs.getD j 0 = formedOutput step ring f j := by
  simp [passForming, List.getD_eq_getElem?_getD, List.getElem?_append_left, h]

/-- At the nominal step from phase 0 each output is the next sample of the ring as it is (R110). -/
theorem formedOutput_nominal (j : Nat) : formedOutput 1048576 ring 0 j = ring.getD j 0 := by
  simp [formedOutput]

/-- 81 samples suffice for 80 outputs at the nominal step from phase 0, and the outputs are the first 80 (R110). -/
theorem runPass_nominal (h : 81 ≤ ring.length) :
    (runPass 1048576 80 ring 0).short = 0 ∧ (runPass 1048576 80 ring 0).outputs = ring.take 80 := by
  obtain ⟨k, hk, eq, -, ends⟩ := runPass_eq_passForming 1048576 80 ring 0 (by decide)
  rw [List.length_drop] at ends
  obtain rfl : k = 80 := by omega
  rw [eq]
  refine ⟨rfl, List.ext_getElem (by simp [passForming]; omega) fun j h1 h2 => ?_⟩
  have hj : j < 80 := by simpa [passForming] using h1
  simp [passForming, formedOutput_nominal, List.getD_eq_getElem?_getD, show j < ring.length by omega]

/-- An output before the short ones is formed, from two samples that the ring then holds. -/
theorem runPass_output (hf : f < 1048576) {j : Nat} (hj : j < n - (runPass step n ring f).short) :
    (f + j * step) / 1048576 + 1 < ring.length ∧
      (runPass step n ring f).outputs.getD j 0 = formedOutput step ring f j := by
  obtain ⟨k, -, eq, reads, -⟩ := runPass_eq_passForming step n ring f hf
  have short : (runPass step n ring f).short = n - k := by rw [eq]; rfl
  have hk : j < k := by omega
  exact ⟨reads j hk, by rw [eq, passForming_outputs_getD step n ring f hk]⟩

/-- What a pass gives beside the values of its formed outputs (R108, R109, R110). -/
theorem runPass_result (hf : f < 1048576) :
    let r := runPass step n ring f
    let k := n - r.short
    r.outputs.length = n ∧ r.short ≤ n ∧ r.outputs.drop k = List.replicate r.short 0 ∧
      r.left = ring.drop ((f + k * step) / 1048576) ∧ r.phase = (f + k * step) % 1048576 ∧
      (0 < r.short → r.left.length < 2) := by
  obtain ⟨k, hk, eq, -, ends⟩ := runPass_eq_passForming step n ring f hf
  have count : n - (passForming step n ring f k).short = k := Nat.sub_sub_self hk
  simp only [eq, count]
  exact ⟨by simp [passForming]; omega, Nat.sub_le .., by simp [passForming], rfl, rfl,
    fun short => ends (Nat.lt_of_sub_pos short)⟩

/-- Settles O47, from the closed form of a pass and the bounds of one interpolated output. -/
theorem passesReadTheRing : Obligations.PassesReadTheRing := by
  refine ⟨fun step ring f0 k hf hk => ?_, fun step ring f0 hf => ?_⟩
  · obtain ⟨reads, out⟩ := runPass_output step 80 ring f0 hf hk
    have hphase : (f0 + k * step) % 1048576 < 1048576 := Nat.mod_lt _ (by decide)
    dsimp only
    rw [out]
    unfold formedOutput
    refine ⟨reads, ?_, (interpolate_between _ _ hphase).1, (interpolate_between _ _ hphase).2, fun h0 => ?_⟩
    · rw [toInt_interpolate _ _ hphase, roundHalfAway_eq]
      rfl
    · rw [h0, interpolate_zero]
  · obtain ⟨length, le, drop, left, phase, ends⟩ := runPass_result step 80 ring f0 hf
    refine ⟨length, le, drop, left, phase, ends, fun h => ?_, runPass_nominal ring⟩
    rw [runPass_of_length_lt_two step 80 ring f0 h]

end Sys2Proof.Machine
end

section
/-!
SUPPORT. The requests that set parameters: the parameters they leave in the words of the manual's clamps (R94, R95, R144),
and the byte that names a watch condition (R147).
-/
namespace Sys2Proof.Machine

/-! ### A request that answers DONE -/

/-- A request that is performed as on `t` leaves `t` with its DONE reply. -/
theorem State.request_answeredDone {s t : State} {tag : Byte} {kind : RequestKind} {r : Result}
    {perform : State → Except RefusalCode (State × Result)} (h : s.Listens) (hp : perform s.hunt = .ok (t.hunt, r)) :
    s.request tag kind perform = t.answeredDone tag kind r :=
  State.request_ok h hp

/-! ### Talker parameters and limits (R94, R95, R144) -/

/-- A setting whose range begins at 0 is clamped from above alone. -/
theorem settingOr_zero {w : Nat} (x : Option (BitVec w)) (hi held : Nat) :
    settingOr x 0 hi held = (x.map fun v => min hi v.toNat).getD held := by
  simp only [settingOr_eq x (Nat.zero_le hi), Nat.zero_max]

theorem TalkParams.updated_eq (p : TalkParams) (g h d w : Option (BitVec 16)) :
    p.updated g h d w =
      { gate := (g.map fun v => min 32768 v.toNat).getD p.gate
        hysteresis := (h.map fun v => min 32768 v.toNat).getD p.hysteresis
        duckWeight := (d.map fun v => min 4096 v.toNat).getD p.duckWeight
        gateWeight := (w.map fun v => min 4096 v.toNat).getD p.gateWeight } := by
  simp only [TalkParams.updated, settingOr_zero]

theorem Limits.updated_eq (l : Limits) (slotL callL pairT : Option (BitVec 16)) (loss : Option Byte)
    (ramp : Option (BitVec 16)) :
    l.updated slotL callL pairT loss ramp =
      { slotLimit := (slotL.map fun v => max 80 (min 8000 v.toNat)).getD l.slotLimit
        callLimit := (callL.map fun v => max 80 (min 8000 v.toNat)).getD l.callLimit
        pairTolerance := (pairT.map fun v => min 8000 v.toNat).getD l.pairTolerance
        lossTimeout := (loss.map fun v => max 8 v.toNat).getD l.lossTimeout
        ramp := (ramp.map fun v => min 8191 v.toNat).getD l.ramp } := by
  simp only [Limits.updated, settingOr_zero, settingOr_byte loss (show 8 ≤ 255 by decide),
    settingOr_eq slotL (show 80 ≤ 8000 by decide), settingOr_eq callL (show 80 ≤ 8000 by decide)]

/-- New limits slot by slot, each clamp as the nearer of the limit and its negative (R95). -/
theorem State.withLimits_eq (s : State) (l : Limits) (newSlot newCall : Bool) :
    s.withLimits l newSlot newCall =
      { s with
        limits := l
        slots := .tabulate fun i =>
          if newSlot then
            { s.slot i with estimate := max (-(l.slotLimit : Int)) (min (l.slotLimit : Int) (s.slot i).estimate) }
          else s.slot i
        rate :=
          if newCall then
            { s.rate with estimate := max (-(l.callLimit : Int)) (min (l.callLimit : Int) s.rate.estimate) }
          else s.rate } := by
  simp only [State.withLimits, clampSym_eq]
  cases newSlot <;> rfl

/-! ### Watch conditions and settings (R147) -/

@[simp] theorem conditionOfByte_byte (c : WatchCondition) : conditionOfByte c.byte = some c := by cases c <;> rfl

theorem conditionOfByte_none {b : Byte} (h : 3 ≤ b.toNat) : conditionOfByte b = none := by
  have ne : ∀ k : Byte, k.toNat < 3 → b ≠ k := by
    rintro k hk rfl
    omega
  rw [conditionOfByte, if_neg (ne 0 (by decide)), if_neg (ne 1 (by decide)), if_neg (ne 2 (by decide))]

/-- A slot or a condition out of range is refused before anything is set. -/
theorem performWatchSet_range {slot condition : Byte} (h : 4 ≤ slot.toNat ∨ 3 ≤ condition.toNat) (threshold : BitVec 16)
    (count : Byte) (s : State) : performWatchSet slot condition threshold count s = .error .range := by
  unfold performWatchSet
  rcases h with h | h
  · rw [slotOfByte_none.mpr h]
  · rw [conditionOfByte_none h]
    cases slotOfByte slot <;> rfl

/-- A slot and a condition in range: the watch is set, its threshold at most 32768, its count at least 1, its run 0. -/
theorem performWatchSet_ok {slot : Byte} {i : SlotId} (h : slot.toNat = i.num) (c : WatchCondition)
    (threshold : BitVec 16) (count : Byte) (s : State) :
    performWatchSet slot c.byte threshold count s =
      .ok (s.withSlot i { s.slot i with
          watch := { condition := c, threshold := min 32768 threshold.toNat, count := max 1 count.toNat, run := 0 } },
        .watchSet i c (min 32768 threshold.toNat) (max 1 count.toNat)) := by
  have threshold_eq : clampNat threshold.toNat 0 32768 = min 32768 threshold.toNat := by
    rw [clampNat_eq (by decide), Nat.zero_max]
  have count_eq : clampNat count.toNat 1 255 = max 1 count.toNat := by
    rw [clampNat_eq (by decide), min_eq_right (Nat.le_of_lt_succ count.isLt)]
  unfold performWatchSet
  rw [slotOfByte_some.mpr h, conditionOfByte_byte]
  dsimp only
  rw [threshold_eq, count_eq]
  rfl

/-! ### The three requests -/

theorem exec_talkSet_of_listens {s : State} (hs : s.Listens) (tag : Byte) (g h d w : Option (BitVec 16)) :
    exec (.talkSet tag g h d w) s =
      .next ({ s with talk := s.talk.updated g h d w }.answeredDone tag .talkSet (.talkSet (s.talk.updated g h d w))) :=
  congrArg Host.Outcome.next (State.request_answeredDone hs rfl)

theorem exec_watchSet_range {s : State} (hs : s.Listens) (tag : Byte) {slot condition : Byte}
    (h : 4 ≤ slot.toNat ∨ 3 ≤ condition.toNat) (threshold : BitVec 16) (count : Byte) :
    exec (.watchSet tag slot condition threshold count) s = .next (s.answeredRefused tag .watchSet .range) :=
  congrArg Host.Outcome.next (State.request_error hs (performWatchSet_range h threshold count s.hunt))

theorem exec_watchSet_ok {s : State} (hs : s.Listens) (tag : Byte) {slot : Byte} {i : SlotId} (h : slot.toNat = i.num)
    (c : WatchCondition) (threshold : BitVec 16) (count : Byte) :
    exec (.watchSet tag slot c.byte threshold count) s =
      .next ((s.withSlot i { s.slot i with
          watch := { condition := c, threshold := min 32768 threshold.toNat, count := max 1 count.toNat, run := 0 }
        }).answeredDone tag .watchSet (.watchSet i c (min 32768 threshold.toNat) (max 1 count.toNat))) :=
  congrArg Host.Outcome.next (State.request_answeredDone hs (performWatchSet_ok h c threshold count s.hunt))

theorem exec_limitSet_of_listens {s : State} (hs : s.Listens) (tag : Byte) (slotL callL pairT : Option (BitVec 16))
    (loss : Option Byte) (ramp : Option (BitVec 16)) :
    let l := s.limits.updated slotL callL pairT loss ramp
    exec (.limitSet tag slotL callL pairT loss ramp) s =
      .next ((s.withLimits l slotL.isSome callL.isSome).answeredDone tag .limitSet (.limitSet l)) :=
  congrArg Host.Outcome.next (State.request_answeredDone hs rfl)

/-- Settles O20: each request answers what it performs, and what it performs is read in the words of the clamps. -/
theorem settingRequestsAnswer : Obligations.SettingRequestsAnswer := by
  refine ⟨fun tag s hs => ⟨fun g h d w => ?_, fun slot condition threshold count => ⟨fun out => ?_, ?_⟩⟩,
    fun tag slotL callL pairT loss ramp s hs => ?_⟩
  · rw [exec_talkSet_of_listens hs, TalkParams.updated_eq]
  · exact exec_watchSet_range hs tag out threshold count
  · rintro i c hslot rfl
    exact exec_watchSet_ok hs tag hslot c threshold count
  · rw [exec_limitSet_of_listens hs, State.withLimits_eq, Limits.updated_eq]

end Sys2Proof.Machine
end

section
/-!
SUPPORT. The requests that read the part (R167 to R171): the subject and the clear flag that a byte names, the step, the
pacing source and ATTN in the words of the manual, and each answer as it stands when the request is taken.
-/
namespace Sys2Proof.Machine

/-! ### Subjects and clear flags (R168, R170, R179) -/

theorem subjectOfByte_slot {b : Byte} {i : SlotId} (h : b.toNat = i.num) : subjectOfByte b = some (.slot i) := by
  have notDevice : b ≠ 0x80 := by
    rintro rfl
    cases i <;> exact absurd h (by decide)
  rw [subjectOfByte, if_neg notDevice, slotOfByte_some.mpr h]
  rfl

theorem subjectOfByte_none {b : Byte} (h : 4 ≤ b.toNat) (notDevice : b ≠ 0x80) : subjectOfByte b = none := by
  rw [subjectOfByte, if_neg notDevice, slotOfByte_none.mpr h]
  rfl

theorem clearFlagOfByte_none {b : Byte} (h : 2 ≤ b.toNat) : clearFlagOfByte b = none := by
  have notZero : b ≠ 0 := by rintro rfl; exact absurd h (by decide)
  have notOne : b ≠ 1 := by rintro rfl; exact absurd h (by decide)
  rw [clearFlagOfByte, if_neg notZero, if_neg notOne]

/-! ### What STATUS forms for its answer (R76, R115, R168, R169, R175) -/

theorem State.pacing_eq (s : State) : s.pacing = if s.call.state = .absent then .byLocal else .byCall := by
  unfold State.pacing
  cases s.call.state <;> rfl

/-- A live slot reports the step that an inbound pass would form now (R115). -/
theorem State.reportedInStep_eq (s : State) (i : SlotId) :
    s.reportedInStep i =
      if (s.slot i).state = .active ∨ (s.slot i).state = .stalled then
        some (s.stepIn (if s.call.state = .absent then .byLocal else .byCall) i)
      else none := by
  unfold State.reportedInStep
  rw [State.inboundStep_eq, State.pacing_eq]
  simp only [SlotState.live, Bool.or_eq_true, beq_iff_eq]

/-- With RESET released, ATTN is high exactly when a notice of an unmasked kind is queued (R175). -/
theorem State.attn_released {s : State} (h : s.resetHeld = false) :
    s.attn = s.notices.queue.any fun n => !(s.notices.mask.getLsbD n.body.kind.maskBit) := by
  rw [State.attn, h]
  rfl

theorem State.deviceStatus_released {s : State} (h : s.resetHeld = false) :
    s.deviceStatus =
      { callState := s.call.state
        pacing := if s.call.state = .absent then .byLocal else .byCall
        estimate := s.rate.estimate, rateFailures := s.call.rateFailures, period := s.mix.period
        player := s.prompt.player, pendingLinks := s.radio.pendingLinks, queued := s.notices.queue.length
        attn := s.notices.queue.any fun n => !(s.notices.mask.getLsbD n.body.kind.maskBit)
        captureFull := s.capture.record.isSome } := by
  rw [State.deviceStatus, State.pacing_eq, State.attn_released h]

/-! ### The requests -/

variable {s : State}

theorem exec_ident_of_listens (hs : s.Listens) (tag : Byte) :
    exec (.ident tag) s =
      .next (s.answeredDone tag .ident (.ident Config.vendorCode Config.partCode Config.revision)) :=
  congrArg Host.Outcome.next (State.request_answeredDone hs rfl)

theorem exec_gainGet_of_listens (hs : s.Listens) (tag : Byte) :
    exec (.gainGet tag) s = .next (s.answeredDone tag .gainGet (.gainGet s.mix.targets s.mix.applied)) :=
  congrArg Host.Outcome.next (State.request_answeredDone hs rfl)

theorem exec_status_range (hs : s.Listens) (tag : Byte) {subject : Byte} (h : subjectOfByte subject = none) :
    exec (.status tag subject) s = .next (s.answeredRefused tag .status .range) :=
  congrArg Host.Outcome.next (State.request_error hs (by rw [h]))

theorem exec_status_slot (hs : s.Listens) (tag : Byte) {subject : Byte} {i : SlotId}
    (h : subjectOfByte subject = some (.slot i)) :
    exec (.status tag subject) s = .next (s.answeredDone tag .status (.statusSlot (s.slotStatus i))) :=
  congrArg Host.Outcome.next (State.request_answeredDone hs (by rw [h]; rfl))

theorem exec_status_device (hs : s.Listens) (tag : Byte) {subject : Byte} (h : subjectOfByte subject = some .device) :
    exec (.status tag subject) s = .next (s.answeredDone tag .status (.statusDevice s.deviceStatus)) :=
  congrArg Host.Outcome.next (State.request_answeredDone hs (by rw [h]; rfl))

/-- A slot or a clear flag out of range is refused before anything is read or cleared. -/
theorem exec_statsRead_range (hs : s.Listens) (tag : Byte) {slot clear : Byte}
    (h : slotOfByte slot = none ∨ clearFlagOfByte clear = none) :
    exec (.statsRead tag slot clear) s = .next (s.answeredRefused tag .statsRead .range) := by
  refine congrArg Host.Outcome.next (State.request_error hs ?_)
  rcases h with h | h
  · rw [h]
  · rw [h]
    cases slotOfByte slot <;> rfl

/-- The answer holds the counters from before the clear. -/
theorem exec_statsRead_ok (hs : s.Listens) (tag : Byte) {slot clear : Byte} {i : SlotId} {c : Bool}
    (hslot : slotOfByte slot = some i) (hclear : clearFlagOfByte clear = some c) :
    exec (.statsRead tag slot clear) s =
      .next ((if c then s.withSlot i { s.slot i with stats := .zero } else s).answeredDone tag .statsRead
        (.stats i (s.slot i).state (s.slot i).stats)) := by
  refine congrArg Host.Outcome.next (State.request_answeredDone hs ?_)
  rw [hslot, hclear]
  cases c <;> rfl

theorem exec_captureRead_of_listens (hs : s.Listens) (tag : Byte) :
    exec (.captureRead tag) s =
      .next ({ s with capture := { record := none, further := 0 } }.answeredDone tag .captureRead
        (.capture (s.capture.record.map fun a => (a, s.capture.further)))) :=
  congrArg Host.Outcome.next (State.request_answeredDone hs rfl)

/-- Settles O12: each byte names its subject, slot or flag, and the answer is read in the words of the manual. -/
theorem readingRequestsAnswer : Obligations.ReadingRequestsAnswer := by
  refine ⟨fun tag subject s hs => ⟨exec_ident_of_listens hs tag, exec_gainGet_of_listens hs tag, ?_, ?_, ?_⟩,
    fun tag slot clear s hs => ⟨fun out => ?_, fun i hslot => ⟨?_, ?_⟩⟩,
    fun tag s hs => ⟨fun a full => ?_, fun empty => ?_⟩⟩
  · exact fun h notDevice => exec_status_range hs tag (subjectOfByte_none h notDevice)
  · intro i hslot
    dsimp only
    rw [exec_status_slot hs tag (subjectOfByte_slot hslot), State.slotStatus, State.reportedInStep_eq]
  · rintro rfl
    rw [exec_status_device hs tag rfl, State.deviceStatus_released hs.1]
  · exact exec_statsRead_range hs tag (out.imp slotOfByte_none.mpr clearFlagOfByte_none)
  · rintro rfl
    exact exec_statsRead_ok (c := false) hs tag (slotOfByte_some.mpr hslot) rfl
  · rintro rfl
    exact exec_statsRead_ok (c := true) hs tag (slotOfByte_some.mpr hslot) rfl
  · rw [exec_captureRead_of_listens hs, full]
    rfl
  · rw [exec_captureRead_of_listens hs, empty]
    rfl

end Sys2Proof.Machine
end

section
/-!
SUPPORT. What one step can do to the blocks of the part, said once: every law that steps keep is derived from
`step_moves` by a case for each kind of change.
-/
namespace Sys2Proof.Machine

/-! ### The changes a command can make -/

/-- The settings of the part (R18, R94, R117, R136, R150, R175): none of them, one, or all at a power-on reset. -/
inductive Setting
  | nothing | profiles | limits | targets | talk | memory | mask | everything

/-- What a request that sets a setting does, with the checks that were passed before it. -/
inductive Sets (s : State) : Setting → State → Prop
  | profilePut (f : ProfileFields) (side : Side) (own : f.partnerIdentity ≠ some f.identity)
    (mono : ¬(side = .mono ∧ f.partnerIdentity.isSome))
    (room : ¬((s.profileOf f.identity).isNone ∧ Config.profileCapacity ≤ s.profiles.length)) :
    Sets s .profiles { s with profiles := putProfile s.profiles (profileStored f side) }
  | profileDrop (identity : Identity) :
    Sets s .profiles { s with profiles := s.profiles.filter fun p => p.identity != identity }
  | limitSet (slotL callL pairT : Option (BitVec 16)) (loss : Option Byte) (ramp : Option (BitVec 16)) :
    Sets s .limits (s.withLimits (s.limits.updated slotL callL pairT loss ramp) slotL.isSome callL.isSome)
  | gainsSet (entries : List GainEntry) (paths : List (Output × Input × Nat)) (h : entryPaths entries = some paths) :
    Sets s .targets { s with mix := { s.mix with targets := writeGains s.mix.targets paths } }
  | talkSet (g h d w : Option (BitVec 16)) : Sets s .talk { s with talk := s.talk.updated g h d w }
  | promptLoad (offset : Nat) (samples : List Sample) (h : offset < Config.promptSamples) :
    Sets s .memory { s with prompt := { s.prompt with
      memory := writeSpan s.prompt.memory offset (clipSpan offset samples) } }
  | masked (mask : BitVec 11) : Sets s .mask { s with notices := { s.notices with mask := mask } }

/-- What a request to the prompt player does. -/
inductive Plays (s : State) : State → Prop
  | promptPlay (start length : BitVec 16) (repeats gap : Byte) (h : length ≠ 0)
    (hs : start.toNat < Config.promptSamples) :
    Plays s (s.setPlayer (.playing
      { start := start.toNat, length := min length.toNat (Config.promptSamples - start.toNat),
        position := start.toNat, remaining := repeats.toNat, gap := gap.toNat }))
  | promptMore (n : Nat) :
    Plays s (s.setPlayer (s.prompt.player.withRemaining (satAdd16 s.prompt.player.remaining n)))
  | promptStop (p : Play) (left : PromptState) (remaining : Nat) :
    Plays s ((s.setPlayer .idle).raisePrompt .stopped p left remaining)

/-- What the clocks of the part do. -/
inductive Ticks (s : State) : State → Prop
  | strobe (tick : Nat) (downlink : Sample) : Ticks s (s.takeStrobe tick downlink)
  | strobeTimeout (due : Nat) : Ticks s (s.endCall due)
  | localTimer (due : Nat) (h : s.call.localTimer = some due) :
    Ticks s (({ s with call := { s.call with
      lastMixTick := some due, localTimer := some (due + Config.mixPeriodTicks) } } : State).mixPeriod .byLocal silence)

/-- What the links, their traffic and the other requests do: slots, radio unit, queue and capture record alone. -/
inductive Links (s : State) : State → Prop
  | nothing : Links s s
  | collected (n : Notice) (rest : List Notice) (h : s.notices.queue = n :: rest) :
    Links s { s with notices := { s.notices with queue := rest } }
  | countersCleared (i : SlotId) : Links s (s.count i fun _ => .zero)
  | captureEmptied : Links s { s with capture := { record := none, further := 0 } }
  | accepted (h : Handle) (e : PendingLink) (i : SlotId) (side : Side) (named : Option SlotId)
    (inT outT : Option (BitVec 16)) (seed : Option Byte) (found : s.pendingEntry h = some e)
    (passed : s.admitRefusal (some e) i side named = none) : Links s (s.accept e i side named inT outT seed).1
  | declined (h : Handle) : Links s ((s.dropPending h).release (some h))
  | removed (i : SlotId) : Links s (s.removeSlot i)
  | watchSet (i : SlotId) (c : WatchCondition) (threshold count : Nat) :
    Links s (s.modSlot i fun x => { x with
      watch :=
        { condition := c, threshold := clampNat threshold 0 32768, count := clampNat count 1 255, run := 0 } })
  | badRadioFrame : Links s s.badRadioFrame
  | linkUp (link : PendingLink) (h : link.handle ≠ 0) : Links s (s.linkUp link)
  | linkDown (h : Handle) (reason : Option Byte) : Links s (s.linkDown h reason)
  | mic (h : Handle) (seq : SeqNum) (stamp : Stamp) (bad : Bool) (samples : List Sample) (hl : samples.length = 80) :
    Links s (s.takeMic h seq stamp bad samples)
  | pull (h : Handle) (seq : SeqNum) (stamp : Stamp) : Links s (s.takePull h seq stamp)
  | portReset : Links s ((s.changeSlots Slot.portReset none).setPendingLinks [])
  | resetAsserted : Links s { s with resetHeld := true }
  | radioSent (m : RadioOut) (rest : List RadioOut) :
    Links s { s with radio := { s.radio with outgoing := rest, line := m.frame } }

/-- What a command can do beside the control link and the queue of commands, and the setting it may move. -/
inductive Changes (s : State) : Setting → State → Prop
  | powerOn (tick : Nat) : Changes s .everything { State.reset with call := .afterReset tick 0, pending := s.pending }
  | softReset (tick : Nat) : Changes s .nothing (s.softReset tick)
  | sets {k : Setting} {t : State} (h : Sets s k t) : Changes s k t
  | plays {t : State} (h : Plays s t) : Changes s .nothing t
  | ticks {t : State} (h : Ticks s t) : Changes s .nothing t
  | links {t : State} (h : Links s t) : Changes s .nothing t

/-- Two states that differ at most in the control link unit and the queue of commands. -/
def SameBlocks (s t : State) : Prop := ∃ link pending, t = { s with link := link, pending := pending }

/-- What one command does: a change, the control link unit and the queue of commands apart. -/
def Moves (k : Setting) (s t : State) : Prop := ∃ a b, SameBlocks s a ∧ Changes a k b ∧ SameBlocks b t

/-- The setting that a command may move: a request its own, and a power-on reset and a frame taken as bytes any. -/
inductive MaySet : Instr → Setting → Prop
  | profilePut (tag : Byte) (f : ProfileFields) : MaySet (.profilePut tag f) .profiles
  | profileDrop (tag : Byte) (d : Identity) : MaySet (.profileDrop tag d) .profiles
  | limitSet (tag : Byte) (slotL callL pairT : Option (BitVec 16)) (loss : Option Byte) (ramp : Option (BitVec 16)) :
    MaySet (.limitSet tag slotL callL pairT loss ramp) .limits
  | gainSet (tag : Byte) (entries : List GainEntry) : MaySet (.gainSet tag entries) .targets
  | talkSet (tag : Byte) (g h d w : Option (BitVec 16)) : MaySet (.talkSet tag g h d w) .talk
  | promptLoad (tag : Byte) (offset : BitVec 16) (samples : List Sample) :
    MaySet (.promptLoad tag offset samples) .memory
  | maskSet (tag : Byte) (mask : BitVec 16) : MaySet (.maskSet tag mask) .mask
  | powerOnReset (tick : Nat) (k : Setting) : MaySet (.powerOnReset tick) k
  | controlLinkByte (tick : Nat) (byte : Byte) (k : Setting) : MaySet (.controlLinkByte tick byte) k
  | refusedFrame (kind tag : Byte) (body : List Byte) (check : Byte) (k : Setting) :
    MaySet (.refusedFrame kind tag body check) k
  | nothing (c : Instr) : MaySet c .nothing

/-- What a command does to the part that may move one of these settings. -/
def MovesIn (K : Setting → Prop) (s t : State) : Prop := ∃ k, K k ∧ Moves k s t

/-! ### The three kinds of command -/

/-- A property of the requests, one by one (11.3); no other command has a request's frame. -/
theorem request_cases {motive : (c : Instr) → c.requestFrame.isSome = true → Prop}
    (ident : ∀ tag, motive (.ident tag) rfl) (status : ∀ tag subject, motive (.status tag subject) rfl)
    (statsRead : ∀ tag slot clear, motive (.statsRead tag slot clear) rfl)
    (captureRead : ∀ tag, motive (.captureRead tag) rfl) (collect : ∀ tag, motive (.collect tag) rfl)
    (maskSet : ∀ tag mask, motive (.maskSet tag mask) rfl) (reset : ∀ tag, motive (.reset tag) rfl)
    (profilePut : ∀ tag f, motive (.profilePut tag f) rfl) (profileDrop : ∀ tag d, motive (.profileDrop tag d) rfl)
    (profileGet : ∀ tag d, motive (.profileGet tag d) rfl)
    (admitLink : ∀ tag h slot side partner inT outT seed, motive (.admitLink tag h slot side partner inT outT seed) rfl)
    (decline : ∀ tag h, motive (.decline tag h) rfl) (remove : ∀ tag slot, motive (.remove tag slot) rfl)
    (gainSet : ∀ tag entries, motive (.gainSet tag entries) rfl) (gainGet : ∀ tag, motive (.gainGet tag) rfl)
    (talkSet : ∀ tag g h d w, motive (.talkSet tag g h d w) rfl)
    (watchSet : ∀ tag slot condition threshold count, motive (.watchSet tag slot condition threshold count) rfl)
    (limitSet : ∀ tag slotL callL pairT loss ramp, motive (.limitSet tag slotL callL pairT loss ramp) rfl)
    (promptLoad : ∀ tag offset samples, motive (.promptLoad tag offset samples) rfl)
    (promptPlay : ∀ tag start length repeats gap, motive (.promptPlay tag start length repeats gap) rfl)
    (promptMore : ∀ tag n, motive (.promptMore tag n) rfl) (promptStop : ∀ tag, motive (.promptStop tag) rfl)
    (c : Instr) (hc : c.requestFrame.isSome = true) : motive c hc :=
  c.casesOn (motive := fun c => ∀ hc, motive c hc)
    (powerOnReset := fun _ h => absurd h Bool.false_ne_true)
    (interByteTimeout := fun h => absurd h Bool.false_ne_true)
    (refusedFrame := fun _ _ _ _ h => absurd h Bool.false_ne_true)
    (replySent := fun h => absurd h Bool.false_ne_true) (ident := fun _ _ => ident _)
    (status := fun _ _ _ => status ..) (statsRead := fun _ _ _ _ => statsRead ..)
    (captureRead := fun _ _ => captureRead _) (collect := fun _ _ => collect _) (maskSet := fun _ _ _ => maskSet ..)
    (reset := fun _ _ => reset _) (softReset := fun _ h => absurd h Bool.false_ne_true)
    (profilePut := fun _ _ _ => profilePut ..) (profileDrop := fun _ _ _ => profileDrop ..)
    (profileGet := fun _ _ _ => profileGet ..) (admitLink := fun _ _ _ _ _ _ _ _ _ => admitLink ..)
    (decline := fun _ _ _ => decline ..) (remove := fun _ _ _ => remove ..) (gainSet := fun _ _ _ => gainSet ..)
    (gainGet := fun _ _ => gainGet _) (talkSet := fun _ _ _ _ _ _ => talkSet ..)
    (watchSet := fun _ _ _ _ _ _ => watchSet ..) (limitSet := fun _ _ _ _ _ _ _ => limitSet ..)
    (promptLoad := fun _ _ _ _ => promptLoad ..) (promptPlay := fun _ _ _ _ _ _ => promptPlay ..)
    (promptMore := fun _ _ _ => promptMore ..) (promptStop := fun _ _ => promptStop _)
    (radioFrame := fun _ h => absurd h Bool.false_ne_true) (linkUp := fun _ _ _ h => absurd h Bool.false_ne_true)
    (linkDown := fun _ _ h => absurd h Bool.false_ne_true) (mic := fun _ _ _ _ _ h => absurd h Bool.false_ne_true)
    (pull := fun _ _ _ h => absurd h Bool.false_ne_true) (portReset := fun h => absurd h Bool.false_ne_true)
    (strobe := fun _ _ h => absurd h Bool.false_ne_true) (strobeTimeout := fun h => absurd h Bool.false_ne_true)
    (localTimerExpiry := fun h => absurd h Bool.false_ne_true)
    (controlLinkByte := fun _ _ h => absurd h Bool.false_ne_true)
    (resetAsserted := fun h => absurd h Bool.false_ne_true)
    (radioMessageSent := fun h => absurd h Bool.false_ne_true) hc

/-- A property of the radio messages, one by one (11.5). -/
theorem message_cases {motive : (c : Instr) → c.radioMessage.isSome = true → Prop}
    (linkUp : ∀ h d mic, motive (.linkUp h d mic) rfl) (linkDown : ∀ h reason, motive (.linkDown h reason) rfl)
    (mic : ∀ h seq stamp bad samples, motive (.mic h seq stamp bad samples) rfl)
    (pull : ∀ h seq stamp, motive (.pull h seq stamp) rfl) (portReset : motive .portReset rfl)
    (c : Instr) (hc : c.radioMessage.isSome = true) : motive c hc :=
  c.casesOn (motive := fun c => ∀ hc, motive c hc)
    (powerOnReset := fun _ h => absurd h Bool.false_ne_true)
    (interByteTimeout := fun h => absurd h Bool.false_ne_true)
    (refusedFrame := fun _ _ _ _ h => absurd h Bool.false_ne_true)
    (replySent := fun h => absurd h Bool.false_ne_true) (ident := fun _ h => absurd h Bool.false_ne_true)
    (status := fun _ _ h => absurd h Bool.false_ne_true) (statsRead := fun _ _ _ h => absurd h Bool.false_ne_true)
    (captureRead := fun _ h => absurd h Bool.false_ne_true) (collect := fun _ h => absurd h Bool.false_ne_true)
    (maskSet := fun _ _ h => absurd h Bool.false_ne_true) (reset := fun _ h => absurd h Bool.false_ne_true)
    (softReset := fun _ h => absurd h Bool.false_ne_true) (profilePut := fun _ _ h => absurd h Bool.false_ne_true)
    (profileDrop := fun _ _ h => absurd h Bool.false_ne_true)
    (profileGet := fun _ _ h => absurd h Bool.false_ne_true)
    (admitLink := fun _ _ _ _ _ _ _ _ h => absurd h Bool.false_ne_true)
    (decline := fun _ _ h => absurd h Bool.false_ne_true) (remove := fun _ _ h => absurd h Bool.false_ne_true)
    (gainSet := fun _ _ h => absurd h Bool.false_ne_true) (gainGet := fun _ h => absurd h Bool.false_ne_true)
    (talkSet := fun _ _ _ _ _ h => absurd h Bool.false_ne_true)
    (watchSet := fun _ _ _ _ _ h => absurd h Bool.false_ne_true)
    (limitSet := fun _ _ _ _ _ _ h => absurd h Bool.false_ne_true)
    (promptLoad := fun _ _ _ h => absurd h Bool.false_ne_true)
    (promptPlay := fun _ _ _ _ _ h => absurd h Bool.false_ne_true)
    (promptMore := fun _ _ h => absurd h Bool.false_ne_true) (promptStop := fun _ h => absurd h Bool.false_ne_true)
    (radioFrame := fun _ h => absurd h Bool.false_ne_true) (linkUp := fun _ _ _ _ => linkUp ..)
    (linkDown := fun _ _ _ => linkDown ..) (mic := fun _ _ _ _ _ _ => mic ..) (pull := fun _ _ _ _ => pull ..)
    (portReset := fun _ => portReset) (strobe := fun _ _ h => absurd h Bool.false_ne_true)
    (strobeTimeout := fun h => absurd h Bool.false_ne_true)
    (localTimerExpiry := fun h => absurd h Bool.false_ne_true)
    (controlLinkByte := fun _ _ h => absurd h Bool.false_ne_true)
    (resetAsserted := fun h => absurd h Bool.false_ne_true)
    (radioMessageSent := fun h => absurd h Bool.false_ne_true) hc

/-- A property of the commands that are neither request nor radio message, one by one. -/
theorem event_cases {motive : (c : Instr) → c.requestFrame = none → c.radioMessage = none → Prop}
    (powerOnReset : ∀ tick, motive (.powerOnReset tick) rfl rfl) (interByteTimeout : motive .interByteTimeout rfl rfl)
    (refusedFrame : ∀ k tag body check, motive (.refusedFrame k tag body check) rfl rfl)
    (replySent : motive .replySent rfl rfl) (softReset : ∀ tick, motive (.softReset tick) rfl rfl)
    (radioFrame : ∀ bytes, motive (.radioFrame bytes) rfl rfl)
    (strobe : ∀ tick downlink, motive (.strobe tick downlink) rfl rfl) (strobeTimeout : motive .strobeTimeout rfl rfl)
    (localTimerExpiry : motive .localTimerExpiry rfl rfl)
    (controlLinkByte : ∀ tick byte, motive (.controlLinkByte tick byte) rfl rfl)
    (resetAsserted : motive .resetAsserted rfl rfl) (radioMessageSent : motive .radioMessageSent rfl rfl)
    (c : Instr) (hr : c.requestFrame = none) (hm : c.radioMessage = none) : motive c hr hm :=
  c.casesOn (motive := fun c => ∀ hr hm, motive c hr hm)
    (powerOnReset := fun _ _ _ => powerOnReset _) (interByteTimeout := fun _ _ => interByteTimeout)
    (refusedFrame := fun _ _ _ _ _ _ => refusedFrame ..) (replySent := fun _ _ => replySent)
    (ident := fun _ h _ => absurd h (Option.some_ne_none _))
    (status := fun _ _ h _ => absurd h (Option.some_ne_none _))
    (statsRead := fun _ _ _ h _ => absurd h (Option.some_ne_none _))
    (captureRead := fun _ h _ => absurd h (Option.some_ne_none _))
    (collect := fun _ h _ => absurd h (Option.some_ne_none _))
    (maskSet := fun _ _ h _ => absurd h (Option.some_ne_none _))
    (reset := fun _ h _ => absurd h (Option.some_ne_none _)) (softReset := fun _ _ _ => softReset _)
    (profilePut := fun _ _ h _ => absurd h (Option.some_ne_none _))
    (profileDrop := fun _ _ h _ => absurd h (Option.some_ne_none _))
    (profileGet := fun _ _ h _ => absurd h (Option.some_ne_none _))
    (admitLink := fun _ _ _ _ _ _ _ _ h _ => absurd h (Option.some_ne_none _))
    (decline := fun _ _ h _ => absurd h (Option.some_ne_none _))
    (remove := fun _ _ h _ => absurd h (Option.some_ne_none _))
    (gainSet := fun _ _ h _ => absurd h (Option.some_ne_none _))
    (gainGet := fun _ h _ => absurd h (Option.some_ne_none _))
    (talkSet := fun _ _ _ _ _ h _ => absurd h (Option.some_ne_none _))
    (watchSet := fun _ _ _ _ _ h _ => absurd h (Option.some_ne_none _))
    (limitSet := fun _ _ _ _ _ _ h _ => absurd h (Option.some_ne_none _))
    (promptLoad := fun _ _ _ h _ => absurd h (Option.some_ne_none _))
    (promptPlay := fun _ _ _ _ _ h _ => absurd h (Option.some_ne_none _))
    (promptMore := fun _ _ h _ => absurd h (Option.some_ne_none _))
    (promptStop := fun _ h _ => absurd h (Option.some_ne_none _)) (radioFrame := fun _ _ _ => radioFrame _)
    (linkUp := fun _ _ _ _ h => absurd h (Option.some_ne_none _))
    (linkDown := fun _ _ _ h => absurd h (Option.some_ne_none _))
    (mic := fun _ _ _ _ _ _ h => absurd h (Option.some_ne_none _))
    (pull := fun _ _ _ _ h => absurd h (Option.some_ne_none _))
    (portReset := fun _ h => absurd h (Option.some_ne_none _)) (strobe := fun _ _ _ _ => strobe ..)
    (strobeTimeout := fun _ _ => strobeTimeout) (localTimerExpiry := fun _ _ => localTimerExpiry)
    (controlLinkByte := fun _ _ _ _ => controlLinkByte ..) (resetAsserted := fun _ _ => resetAsserted)
    (radioMessageSent := fun _ _ => radioMessageSent) hr hm

/-! ### What `exec` runs for the commands that are no request -/

theorem exec_refusedFrame_eq (k tag : Byte) (body : List Byte) (check : Byte) (s : State) :
    exec (.refusedFrame k tag body check) s = execRefusedFrame k tag body check s := rfl

theorem exec_controlLinkByte_eq (tick : Nat) (byte : Byte) (s : State) :
    exec (.controlLinkByte tick byte) s = execControlLinkByte tick byte s := rfl

theorem exec_radioFrame_eq (bytes : List Byte) (s : State) : exec (.radioFrame bytes) s = execRadioFrame bytes s := rfl

theorem exec_interByteTimeout_eq (s : State) : exec .interByteTimeout s = execInterByteTimeout s := rfl

theorem exec_replySent_eq (s : State) : exec .replySent s = execReplySent s := rfl

theorem exec_radioMessageSent_eq (s : State) : exec .radioMessageSent s = execRadioMessageSent s := rfl

theorem exec_softReset_eq (tick : Nat) (s : State) : exec (.softReset tick) s = execSoftReset tick s := rfl

theorem exec_localTimerExpiry_eq (s : State) : exec .localTimerExpiry s = execLocalTimerExpiry s := rfl

theorem exec_strobeTimeout_eq (s : State) : exec .strobeTimeout s = execStrobeTimeout s := rfl

theorem exec_linkDown (h : Handle) (reason : Byte) (s : State) :
    exec (.linkDown h reason) s = execLinkDown h reason s := rfl

variable {s t u : State} {k : Setting} {K : Setting → Prop} {tag : Byte} {kind : RequestKind}
  {perform : State → Except RefusalCode (State × Result)}

theorem SameBlocks.rfl : SameBlocks s s := ⟨_, _, Eq.refl s⟩

theorem SameBlocks.trans (h : SameBlocks s t) (k : SameBlocks t u) : SameBlocks s u := by
  obtain ⟨l, p, rfl⟩ := h
  obtain ⟨l', p', rfl⟩ := k
  exact ⟨l', p', Eq.refl _⟩

theorem State.sameBlocks_hunt : SameBlocks s s.hunt := ⟨_, _, rfl⟩

theorem State.sameBlocks_reply (b : ReplyBody) : SameBlocks s (s.reply tag b) := ⟨_, _, rfl⟩

theorem Changes.moves (h : Changes s k t) : Moves k s t := ⟨s, t, .rfl, h, .rfl⟩

theorem Changes.of (hk : K k) (h : Changes s k t) : MovesIn K s t := ⟨k, hk, h.moves⟩

theorem Links.of (h0 : K .nothing) (h : Links s t) : MovesIn K s t := (Changes.links h).of h0

theorem SameBlocks.of (h0 : K .nothing) (h : SameBlocks s t) : MovesIn K s t :=
  ⟨.nothing, h0, t, t, h, .links .nothing, .rfl⟩

theorem MovesIn.before (h : SameBlocks s t) (m : MovesIn K t u) : MovesIn K s u := by
  obtain ⟨k, hk, a, b, ha, hc, hb⟩ := m
  exact ⟨k, hk, a, b, h.trans ha, hc, hb⟩

theorem MovesIn.after (m : MovesIn K s t) (h : SameBlocks t u) : MovesIn K s u := by
  obtain ⟨k, hk, a, b, ha, hc, hb⟩ := m
  exact ⟨k, hk, a, b, ha, hc, hb.trans h⟩

/-! ### Requests (R163) -/

/-- What a request performs has the property, where it is not refused. -/
def Yields (P : State → Prop) : Except RefusalCode (State × Result) → Prop
  | .ok v => P v.1
  | .error _ => True

theorem State.completeFrame_moves (h0 : K .nothing) {taken : State → State} (h : MovesIn K s.hunt (taken s.hunt)) :
    MovesIn K s (s.completeFrame taken) := by
  unfold State.completeFrame
  split
  · exact SameBlocks.rfl.of h0
  split
  · exact State.sameBlocks_hunt.of h0
  · exact h.before State.sameBlocks_hunt

/-- A request moves the part as what it performs does. -/
theorem State.request_moves (h0 : K .nothing) (h : Yields (MovesIn K s.hunt) (perform s.hunt)) :
    MovesIn K s (s.request tag kind perform) := by
  refine State.completeFrame_moves h0 ?_
  cases hp : perform s.hunt with
  | error c => exact (State.sameBlocks_reply _).of h0
  | ok v =>
    rewrite [hp] at h
    exact h.after (State.sameBlocks_reply _)

theorem moves_of_request {c : Instr}
    (h : (.next (s.request tag kind perform) : Host.Outcome State Fault Refusal) = .next t)
    (hp : Yields (MovesIn (MaySet c) s.hunt) (perform s.hunt)) : MovesIn (MaySet c) s t := by
  cases h
  exact State.request_moves (.nothing c) hp

theorem performProfilePut_moves {f : ProfileFields} :
    Yields (MovesIn (MaySet (.profilePut tag f)) s) (performProfilePut f s) := by
  unfold performProfilePut
  split
  · trivial
  split
  · trivial
  next own =>
    split
    · trivial
    next mono =>
      split
      · trivial
      next room => exact (Changes.sets (.profilePut f _ own mono room)).of (.profilePut tag f)

theorem performAdmit_moves (h0 : K .nothing) {h : Handle} {slot side partner : Byte} {inT outT : Option (BitVec 16)}
    {seed : Option Byte} : Yields (MovesIn K s) (performAdmit h slot side partner inT outT seed s) := by
  unfold performAdmit
  split
  · next i sd named _ _ _ =>
    split
    · next e passed found => exact (Links.accepted h e i sd named inT outT seed found (found ▸ passed)).of h0
    · trivial
    · trivial
  · trivial

theorem performGainSet_moves {entries : List GainEntry} :
    Yields (MovesIn (MaySet (.gainSet tag entries)) s) (performGainSet entries s) := by
  unfold performGainSet
  split
  · split
    · trivial
    · next paths hp => exact (Changes.sets (.gainsSet entries paths hp)).of (.gainSet tag entries)
  · trivial

theorem performWatchSet_moves (h0 : K .nothing) {slot condition count : Byte} {threshold : BitVec 16} :
    Yields (MovesIn K s) (performWatchSet slot condition threshold count s) := by
  unfold performWatchSet
  split
  · exact (Links.watchSet ..).of h0
  · trivial

theorem performPromptLoad_moves {offset : BitVec 16} {samples : List Sample} :
    Yields (MovesIn (MaySet (.promptLoad tag offset samples)) s) (performPromptLoad offset samples s) := by
  unfold performPromptLoad
  split
  · split
    · trivial
    · next inside =>
      dsimp only
      split
      · trivial
      · exact (Changes.sets (.promptLoad _ _ (Nat.lt_of_not_le inside))).of (.promptLoad tag offset samples)
  · trivial

theorem performPromptPlay_moves (h0 : K .nothing) {start length : BitVec 16} {repeats gap : Byte} :
    Yields (MovesIn K s) (performPromptPlay start length repeats gap s) := by
  unfold performPromptPlay
  split
  · trivial
  next hlen =>
    split
    · trivial
    next hstart =>
      split
      · exact (Changes.plays (.promptPlay start length repeats gap hlen (Nat.lt_of_not_le hstart))).of h0
      · trivial

theorem performPromptMore_moves (h0 : K .nothing) {n : BitVec 16} : Yields (MovesIn K s) (performPromptMore n s) := by
  unfold performPromptMore
  split
  · trivial
  split
  · trivial
  · exact (Changes.plays (.promptMore _)).of h0

theorem performPromptStop_moves (h0 : K .nothing) : Yields (MovesIn K s) (performPromptStop s) := by
  unfold performPromptStop
  dsimp only
  split
  · exact (Links.nothing).of h0
  · exact (Changes.plays (.promptStop _ _ _)).of h0

/-- The command that carries a request moves the part, and of the settings its own at most. -/
theorem exec_moves_of_request {c : Instr} (hc : c.requestFrame.isSome = true) (h : exec c s = .next t) :
    MovesIn (MaySet c) s t := by
  induction c, hc using request_cases
  all_goals refine moves_of_request h ?_
  case status =>
    split
    · trivial
    all_goals exact Links.nothing.of (.nothing _)
  case statsRead =>
    split
    · dsimp only [Yields]
      split
      · exact (Links.countersCleared _).of (.nothing _)
      · exact Links.nothing.of (.nothing _)
    · trivial
  case captureRead => exact Links.captureEmptied.of (.nothing _)
  case collect =>
    split
    · exact Links.nothing.of (.nothing _)
    · next hq => exact (Links.collected _ _ hq).of (.nothing _)
  case maskSet =>
    split
    · trivial
    · exact (Changes.sets (.masked _)).of (.maskSet _ _)
  case reset => exact SameBlocks.of (.nothing _) ⟨_, _, rfl⟩
  case profilePut => exact performProfilePut_moves
  case profileDrop =>
    split
    · trivial
    · exact (Changes.sets (.profileDrop _)).of (.profileDrop _ _)
  case profileGet =>
    split
    · trivial
    · exact Links.nothing.of (.nothing _)
  case admitLink => exact performAdmit_moves (.nothing _)
  case decline =>
    split
    · trivial
    · exact (Links.declined _).of (.nothing _)
  case remove =>
    split
    · trivial
    split
    · trivial
    · exact (Links.removed _).of (.nothing _)
  case gainSet => exact performGainSet_moves
  case talkSet => exact (Changes.sets (.talkSet _ _ _ _)).of (.talkSet ..)
  case watchSet => exact performWatchSet_moves (.nothing _)
  case limitSet => exact (Changes.sets (.limitSet _ _ _ _ _)).of (.limitSet ..)
  case promptLoad => exact performPromptLoad_moves
  case promptPlay => exact performPromptPlay_moves (.nothing _)
  case promptMore => exact performPromptMore_moves (.nothing _)
  case promptStop => exact performPromptStop_moves (.nothing _)
  all_goals exact Links.nothing.of (.nothing _)

/-! ### Frames -/

/-- A frame is refused, or it is its request. -/
theorem takeFrame_moves {k tag check : Byte} {body : List Byte} (h : takeFrame k tag body check s = .next t) :
    MovesIn (fun _ => True) s t := by
  unfold takeFrame at h
  split at h
  · cases h
    exact State.completeFrame_moves trivial ((State.sameBlocks_reply _).of trivial)
  · next c hd =>
    obtain ⟨q, bytes, -, hc⟩ := requestFrame_of_decodeFrame hd
    rewrite [requestOutcome_eq, hc] at h
    obtain ⟨k, -, moves⟩ := exec_moves_of_request (by rewrite [hc]; rfl) h
    exact ⟨k, trivial, moves⟩

theorem State.takeByte_moves {tick : Nat} {byte : Byte} (h : s.takeByte tick byte = .next t) :
    MovesIn (fun _ => True) s t := by
  unfold State.takeByte at h
  dsimp only at h
  split at h
  case h_6 => exact takeFrame_moves h
  all_goals obtain rfl := Host.Outcome.next.inj h
  case h_1 =>
    split
    · exact SameBlocks.of trivial ⟨_, _, rfl⟩
    · exact SameBlocks.rfl.of trivial
  case h_2 =>
    split
    · exact State.sameBlocks_hunt.of trivial
    · exact SameBlocks.of trivial ⟨_, _, rfl⟩
  all_goals exact SameBlocks.of trivial ⟨_, _, rfl⟩

/-- The command of a radio message changes the part, as the message or as a malformed frame (R45). -/
theorem exec_links {c : Instr} (hc : c.radioMessage.isSome = true) (h : exec c s = .next t) : Links s t := by
  induction c, hc using message_cases <;> obtain rfl := Host.Outcome.next.inj h
  case linkUp h d mic =>
    split
    · next hh => exact .linkUp _ (by simpa [isHandle] using hh)
    · exact .badRadioFrame
  case linkDown =>
    split
    · exact .linkDown _ _
    · exact .badRadioFrame
  case mic =>
    split
    · next hh => exact .mic _ _ _ _ _ (by simp only [isBlock, Bool.and_eq_true, beq_iff_eq] at hh; exact hh.2)
    · exact .badRadioFrame
  case pull =>
    split
    · exact .pull _ _ _
    · exact .badRadioFrame
  case portReset => exact .portReset

/-- A radio frame is in error, or it is its message. -/
theorem execRadioFrame_links {bytes : List Byte} (h : execRadioFrame bytes s = .next t) : Links s t := by
  unfold execRadioFrame at h
  split at h
  · obtain rfl := Host.Outcome.next.inj h
    exact .badRadioFrame
  · next c _ =>
    rewrite [radioOutcome_eq] at h
    cases hc : c.radioMessage with
    | none =>
      rewrite [hc] at h
      obtain rfl := Host.Outcome.next.inj h
      exact .nothing
    | some m =>
      rewrite [hc] at h
      exact exec_links (by rewrite [hc]; rfl) h

/-! ### Every command -/

/-- A command that is neither a request nor a radio message. -/
theorem exec_moves_of_event {c : Instr} (hr : c.requestFrame = none) (hm : c.radioMessage = none)
    (h : exec c s = .next t) : MovesIn (MaySet c) s t := by
  induction c, hr, hm using event_cases
  case radioFrame => exact (execRadioFrame_links h).of (.nothing _)
  case refusedFrame k tag body check =>
    simp only [exec_refusedFrame_eq, execRefusedFrame] at h
    split at h
    · cases h
      split
      · exact SameBlocks.rfl.of (.nothing _)
      · exact State.sameBlocks_hunt.of (.nothing _)
    · obtain ⟨q, -, moves⟩ := takeFrame_moves h
      exact ⟨q, .refusedFrame k tag body check q, moves⟩
  case controlLinkByte tick byte =>
    simp only [exec_controlLinkByte_eq, execControlLinkByte] at h
    split at h
    · obtain rfl := Host.Outcome.next.inj h
      exact SameBlocks.rfl.of (.nothing _)
    · obtain ⟨q, -, moves⟩ := State.takeByte_moves h
      exact ⟨q, .controlLinkByte tick byte q, moves⟩
  all_goals obtain rfl := Host.Outcome.next.inj h
  case powerOnReset tick => exact (Changes.powerOn tick).of (.powerOnReset tick _)
  case strobe => exact (Changes.ticks (.strobe _ _)).of (.nothing _)
  case resetAsserted => exact Links.resetAsserted.of (.nothing _)
  case interByteTimeout =>
    split
    · exact State.sameBlocks_hunt.of (.nothing _)
    · exact SameBlocks.rfl.of (.nothing _)
  case replySent =>
    split
    · exact SameBlocks.rfl.of (.nothing _)
    · exact SameBlocks.of (.nothing _) ⟨_, _, rfl⟩
  case softReset =>
    split
    · exact (Changes.softReset _).of (.nothing _)
    · exact SameBlocks.rfl.of (.nothing _)
  case strobeTimeout =>
    split
    · exact (Changes.ticks (.strobeTimeout _)).of (.nothing _)
    · exact SameBlocks.rfl.of (.nothing _)
  case localTimerExpiry =>
    split
    · next hd => exact (Changes.ticks (.localTimer _ hd)).of (.nothing _)
    · exact SameBlocks.rfl.of (.nothing _)
  case radioMessageSent =>
    split
    · exact SameBlocks.rfl.of (.nothing _)
    · exact (Links.radioSent _ _).of (.nothing _)

theorem exec_moves {c : Instr} (h : exec c s = .next t) : MovesIn (MaySet c) s t := by
  cases hr : c.requestFrame with
  | some f => exact exec_moves_of_request (by rewrite [hr]; rfl) h
  | none =>
    cases hm : c.radioMessage with
    | some m => exact (exec_links (by rewrite [hm]; rfl) h).of (.nothing c)
    | none => exact exec_moves_of_event hr hm h

/-! ### What the kinds of change leave alone -/

/-- What the links and their traffic leave alone. -/
def State.calm (s : State) :
    List Profile × Limits × GainMatrix × TalkParams × PromptPlayer × BitVec 11 × ControlLink × CallPort × CallRate :=
  (s.profiles, s.limits, s.mix.targets, s.talk, s.prompt, s.notices.mask, s.link, s.call, s.rate)

theorem Links.calm (h : Links s t) : t.calm = s.calm := by
  induction h
  case accepted => simp [State.calm, State.accept]
  case declined | removed | badRadioFrame | linkUp | linkDown | mic | pull | portReset => simp [State.calm]
  all_goals rfl

theorem Links.profiles (h : Links s t) : t.profiles = s.profiles := congrArg (fun x => x.1) h.calm

theorem Links.limits (h : Links s t) : t.limits = s.limits := congrArg (fun x => x.2.1) h.calm

theorem Links.targets (h : Links s t) : t.mix.targets = s.mix.targets := congrArg (fun x => x.2.2.1) h.calm

theorem Links.talk (h : Links s t) : t.talk = s.talk := congrArg (fun x => x.2.2.2.1) h.calm

theorem Links.prompt (h : Links s t) : t.prompt = s.prompt := congrArg (fun x => x.2.2.2.2.1) h.calm

theorem Links.mask (h : Links s t) : t.notices.mask = s.notices.mask := congrArg (fun x => x.2.2.2.2.2.1) h.calm

theorem Links.link (h : Links s t) : t.link = s.link := congrArg (fun x => x.2.2.2.2.2.2.1) h.calm

theorem Links.call (h : Links s t) : t.call = s.call := congrArg (fun x => x.2.2.2.2.2.2.2.1) h.calm

theorem Links.rate (h : Links s t) : t.rate = s.rate := congrArg (fun x => x.2.2.2.2.2.2.2.2) h.calm

/-- What a clock leaves alone. -/
theorem Ticks.calm (h : Ticks s t) : t.profiles = s.profiles ∧ t.limits = s.limits ∧ t.mix.targets = s.mix.targets ∧
    t.talk = s.talk ∧ t.prompt.memory = s.prompt.memory ∧ t.notices.mask = s.notices.mask ∧ t.link = s.link := by
  induction h
  case strobe | localTimer => simp
  case strobeTimeout => exact ⟨rfl, rfl, rfl, rfl, rfl, rfl, rfl⟩

/-- A law of the blocks that every change keeps is a law that every step keeps. -/
theorem step_keeps {law : State → Prop}
    (blind : ∀ (s : State) link pending, law s → law { s with link := link, pending := pending })
    (kept : ∀ s k t, law s → Changes s k t → law t) (hs : law s) (h : step s = .next t) : law t := by
  unfold step at h
  split at h
  · obtain rfl := Host.Outcome.next.inj h
    exact hs
  · obtain ⟨k, -, a, b, ⟨l, p, rfl⟩, hc, l', p', rfl⟩ := exec_moves h
    exact blind _ _ _ (kept _ _ _ (blind _ _ _ (blind _ s.link _ hs)) hc)

end Sys2Proof.Machine
end

section
/-!
SUPPORT. The notice queue: what a raise does to it (R173), and that every step only raises into it, takes its oldest
notice, or resets it, so that it stays lawful (R172).
-/
namespace Sys2Proof.Machine

/-! ### One raise (R133, R173) -/

/-- A notice of a kind and subject that the queue does not hold joins the tail. -/
theorem coalesce_new {b : NoticeBody} : ∀ {q : List Notice}, (∀ n ∈ q, n.body.key ≠ b.key) →
    coalesce b q = q ++ [{ count := 1, body := b }]
  | [], _ => rfl
  | n :: q, h => by
    rewrite [coalesce_cons, if_neg (h n List.mem_cons_self), coalesce_new fun m hm => h m (List.mem_cons_of_mem _ hm)]
    rfl

/-- A notice coalesces with the first of its kind and subject. -/
theorem coalesce_old {b : NoticeBody} {n : Notice} {r : List Notice} (hn : n.body.key = b.key) :
    ∀ {l : List Notice}, (∀ m ∈ l, m.body.key ≠ b.key) →
      coalesce b (l ++ n :: r) = l ++ { count := satSucc8 n.count, body := b.over n.body } :: r
  | [], _ => by rewrite [List.nil_append, coalesce_cons, if_pos hn]; rfl
  | m :: l, h => by
    rewrite [List.cons_append, coalesce_cons, if_neg (h m List.mem_cons_self),
      coalesce_old hn fun m hm => h m (List.mem_cons_of_mem _ hm)]
    rfl

/-- Settles O11: a raise walks the queue to the first notice of its kind and subject. -/
theorem raisedNoticesCoalesce : Obligations.RaisedNoticesCoalesce := by
  refine fun b s => ⟨fun h => ?_, fun l n r hq hl hn => ?_⟩
  · rw [State.raise, coalesce_new h]
  · rewrite [State.raise, hq, coalesce_old hn hl, satSucc8]
    cases b
    case mixsat => cases n.body <;> rfl
    all_goals rfl

/-! ### The law of the queue (R172, R173) -/

theorem NoticeBody.over_key {b c : NoticeBody} (h : c.key = b.key) : (b.over c).key = b.key := by
  unfold NoticeBody.over
  split
  · rfl
  · rfl

/-- A raise adds no second notice of a kind and subject. -/
theorem keys_coalesce (b : NoticeBody) : ∀ q : List Notice,
    (coalesce b q).map (fun n => n.body.key) =
      if b.key ∈ q.map fun n => n.body.key then q.map fun n => n.body.key
      else q.map (fun n => n.body.key) ++ [b.key]
  | [] => rfl
  | n :: q => by
    rewrite [coalesce_cons]
    by_cases h : n.body.key = b.key
    · simp [h, NoticeBody.over_key h]
    · have h' : ¬b.key = n.body.key := fun e => h e.symm
      rewrite [if_neg h, List.map_cons, keys_coalesce b q]
      by_cases hm : b.key ∈ q.map fun n => n.body.key <;> simp [h', hm]

theorem counts_coalesce (b : NoticeBody) : ∀ {q : List Notice}, (∀ n ∈ q, 1 ≤ n.count ∧ n.count ≤ 255) →
    ∀ n ∈ coalesce b q, 1 ≤ n.count ∧ n.count ≤ 255
  | [], _ => by simp [coalesce]
  | m :: q, h => by
    obtain ⟨hm, hq⟩ := List.forall_mem_cons.mp h
    rewrite [coalesce_cons]
    split
    · refine List.forall_mem_cons.mpr ⟨?_, hq⟩
      simp only [satSucc8]
      omega
    · exact List.forall_mem_cons.mpr ⟨hm, counts_coalesce b hq⟩

theorem NoticeQueue.Lawful.coalesce {q : NoticeQueue} (h : q.Lawful) (b : NoticeBody) :
    NoticeQueue.Lawful { q with queue := coalesce b q.queue } := by
  refine ⟨?_, counts_coalesce b h.2⟩
  rewrite [keys_coalesce]
  split
  · exact h.1
  · next hb =>
    rewrite [← List.concat_eq_append]
    exact List.Nodup.concat hb h.1

theorem NoticeQueue.Lawful.raisedInto {q : NoticeQueue} (h : q.Lawful) (l : List NoticeBody) :
    NoticeQueue.Lawful { q with queue := raisedInto q.queue l } := by
  induction l generalizing q with
  | nil => exact h
  | cons b l ih => exact ih (h.coalesce b)

/-- The kinds of notice about a slot (R172). -/
def NoticeBody.slotKinds : List NoticeKind := [.slot, .rate, .level, .talk, .skew]

/-- The kinds of notice about the device (R172). -/
def NoticeBody.deviceKinds : List NoticeKind := [.ready, .call, .join, .prompt, .capture, .mixsat]

/-- Every key that a notice can have: five kinds about each of the four slots, six about the device (R172). -/
def NoticeBody.keys : List (NoticeKind × Subject) :=
  (NoticeBody.slotKinds.flatMap fun k => SlotId.all.map fun i => (k, Subject.slot i)) ++
    NoticeBody.deviceKinds.map fun k => (k, Subject.device)

theorem NoticeBody.key_mem (b : NoticeBody) : b.key ∈ NoticeBody.keys := by
  have slot (i : SlotId) : ∀ k ∈ NoticeBody.slotKinds, (k, Subject.slot i) ∈ NoticeBody.keys := fun k hk =>
    List.mem_append_left _ (List.mem_flatMap.mpr ⟨k, hk, List.mem_map_of_mem i.mem_all⟩)
  have device : ∀ k ∈ NoticeBody.deviceKinds, (k, Subject.device) ∈ NoticeBody.keys := fun k hk =>
    List.mem_append_right _ (List.mem_map_of_mem hk)
  cases b with
  | slot i _ => exact slot i .slot (by decide)
  | rate i _ => exact slot i .rate (by decide)
  | level i _ => exact slot i .level (by decide)
  | talk i _ => exact slot i .talk (by decide)
  | skew i _ => exact slot i .skew (by decide)
  | ready _ => exact device .ready (by decide)
  | call _ => exact device .call (by decide)
  | join _ => exact device .join (by decide)
  | prompt _ => exact device .prompt (by decide)
  | capture _ => exact device .capture (by decide)
  | mixsat _ => exact device .mixsat (by decide)

theorem NoticeQueue.Lawful.length_le {q : NoticeQueue} (h : q.Lawful) : q.queue.length ≤ 26 := by
  have sub : (q.queue.map fun n => n.body.key) ⊆ NoticeBody.keys := by
    intro k hk
    obtain ⟨n, _, rfl⟩ := List.mem_map.mp hk
    exact n.body.key_mem
  have := (List.subperm_of_subset h.1 sub).length_le
  rwa [List.length_map] at this

/-! ### What raises and nothing else (R173) -/

/-- The notices of `t` are those of `s` after a list of raises. -/
def Raises (s t : State) : Prop :=
  ∃ l, t.notices = { s.notices with queue := raisedInto s.notices.queue l }

variable {q : Setting} {s t u : State} {i : SlotId}

theorem Raises.of_eq (h : t.notices = s.notices) : Raises s t := ⟨[], h⟩

theorem Raises.trans (h : Raises s t) (k : Raises t u) : Raises s u := by
  obtain ⟨l, hl⟩ := h
  obtain ⟨m, hm⟩ := k
  exact ⟨l ++ m, by rw [hm, hl, raisedInto_append]⟩

/-- What comes after an operation that leaves the notices alone. -/
theorem Raises.from (k : Raises t u) (h : t.notices = s.notices) : Raises s u := (Raises.of_eq h).trans k

/-- An operation that leaves the notices alone, after raises. -/
theorem Raises.then (h : Raises s t) (k : u.notices = t.notices) : Raises s u := h.trans (.of_eq k)

theorem Raises.of_withNotices (l : List NoticeBody) : Raises s (s.withNotices l) := ⟨l, rfl⟩

theorem Raises.of_queue {l : List NoticeBody} (hq : t.notices.queue = raisedInto s.notices.queue l)
    (hm : t.notices.mask = s.notices.mask) : Raises s t := by
  refine ⟨l, ?_⟩
  rewrite [← hq]
  exact congrArg (NoticeQueue.mk _) hm

theorem State.raise_raises (b : NoticeBody) : Raises s (s.raise b) := ⟨[b], rfl⟩

theorem State.raiseSlot_raises (r : SlotReason) (h : Option Handle) (l : Option Byte) :
    Raises s (s.raiseSlot i r h l) := State.raise_raises _

theorem Raises.foldl {α : Type} {op : State → α → State} (h : ∀ s a, Raises s (op s a)) (l : List α) :
    Raises s (l.foldl op s) := by
  induction l generalizing s with
  | nil => exact .of_eq rfl
  | cons a l ih => exact (h s a).trans ih

theorem State.anomaly_raises (kind : AnomalyKind) (slot : Option SlotId) (h : Option Handle)
    (m : Option (SeqNum × Stamp)) : Raises s (s.anomaly kind slot h m) := by
  unfold State.anomaly
  split
  · exact (State.raise_raises _).from rfl
  · exact .of_eq rfl

theorem State.slotAnomaly_raises (o : Bool) (kind : AnomalyKind) (m : Option (SeqNum × Stamp)) :
    Raises s (s.slotAnomaly o kind i m) := by
  unfold State.slotAnomaly
  split
  · exact State.anomaly_raises ..
  · exact .of_eq rfl

theorem State.raiseRoles_raises (who : SlotId → Bool) : Raises s (s.raiseRoles who) := by
  refine Raises.foldl (fun s i => ?_) _
  split
  · exact State.raiseSlot_raises ..
  · exact .of_eq rfl

theorem State.settlePairs_raises (lost : SlotId → Bool) {own : State → State} (h : ∀ t, Raises t (own t)) :
    Raises s (s.settlePairs lost own) :=
  ((h _).trans (State.raiseRoles_raises _)).from rfl

theorem State.failSlot_raises (r : SlotReason) (l : Option Byte) : Raises s (s.failSlot i r l) :=
  (State.settlePairs_raises _ fun _ => State.raiseSlot_raises ..).from (State.vacate_notices ..)

theorem State.changeSlots_raises (f : Slot → Slot × Option SlotReason) (b : Option SlotReason) :
    Raises s (s.changeSlots f b) :=
  .of_queue (State.changeSlots_queue f b) (State.changeSlots_notices_mask s f b)

theorem State.takeLead_raises : Raises s (s.takeLead i) := by
  unfold State.takeLead
  split
  · split
    · exact (State.raiseSlot_raises ..).from rfl
    · exact .of_eq rfl
  · exact .of_eq rfl

theorem State.activate_raises : Raises s (s.activate i) :=
  ((State.raiseSlot_raises ..).trans State.takeLead_raises).from rfl

theorem State.fillTest_raises : Raises s (s.fillTest i) := by
  unfold State.fillTest
  split
  · exact State.activate_raises
  · exact .of_eq rfl

theorem State.activity_raises : Raises s (s.activity i) := by
  unfold State.activity
  dsimp only
  split
  · exact ((State.raiseSlot_raises ..).trans State.takeLead_raises).from rfl
  · exact (State.raiseSlot_raises ..).from rfl
  · exact .of_eq rfl

/-! ### Microphone blocks and pulls -/

theorem State.takeBlock_raises (g : Nat) (seq : SeqNum) (stamp : Stamp) (bad : Bool) (samples : List Sample) :
    Raises s (s.takeBlock i g seq stamp bad samples) :=
  ((((State.slotAnomaly_raises ..).trans (State.slotAnomaly_raises ..)).trans (State.slotAnomaly_raises ..)).trans
    State.fillTest_raises).from rfl

theorem State.micOnSlot_raises (seq : SeqNum) (stamp : Stamp) (bad : Bool) (samples : List Sample) :
    Raises s (s.micOnSlot i seq stamp bad samples) := by
  unfold State.micOnSlot
  dsimp only
  refine Raises.trans (t := s.activity i) State.activity_raises ?_
  split
  · exact (State.slotAnomaly_raises ..).from rfl
  · exact (State.takeBlock_raises ..).from rfl

theorem State.takeMic_raises (h : Handle) (seq : SeqNum) (stamp : Stamp) (bad : Bool) (samples : List Sample) :
    Raises s (s.takeMic h seq stamp bad samples) := by
  unfold State.takeMic
  split
  · exact State.micOnSlot_raises ..
  · split
    · exact .of_eq rfl
    · exact State.anomaly_raises ..

theorem State.discardWindow_raises (seq : SeqNum) (stamp : Stamp) : Raises s (s.discardWindow i seq stamp) :=
  (State.anomaly_raises ..).then (State.openWindow_notices ..)

theorem State.measuringResult_raises (m : Int) : Raises s (s.measuringResult i m) := by
  unfold State.measuringResult
  split
  · split
    · exact State.fillTest_raises.from rfl
    split
    · exact (State.failSlot_raises ..).from (State.release_notices ..)
    · exact .of_eq rfl
  · exact .of_eq rfl

theorem State.completeWindow_raises (d : Nat) (n : BitVec 32) (seq : SeqNum) (stamp : Stamp) :
    Raises s (s.completeWindow i d n seq stamp) := by
  have result : ∀ (t : State) (m : Int), Raises t (((t.raiseRate i m d n).compareRates i m).measuringResult i m) := by
    intro t m
    rewrite [State.raiseRate_eq, State.compareRates_eq]
    exact ((Raises.of_withNotices _).trans (.of_withNotices _)).trans (State.measuringResult_raises m)
  unfold State.completeWindow
  dsimp only
  generalize hu : s.modSlot i _ = u
  have hn : u.notices = s.notices := by rw [← hu, State.modSlot_notices]
  split
  · exact (result u _).from hn
  · exact ((result u _).from hn).then (State.openWindow_notices ..)

theorem State.windowPull_raises (seq : SeqNum) (stamp : Stamp) : Raises s (s.windowPull i seq stamp) := by
  unfold State.windowPull
  split
  · exact .of_eq (State.openWindow_notices ..)
  split
  · exact .of_eq rfl
  · split
    · exact State.discardWindow_raises ..
    · exact State.completeWindow_raises ..
  · exact State.discardWindow_raises ..
  · exact .of_eq rfl

theorem State.pullOnSlot_raises (h : Handle) (seq : SeqNum) (stamp : Stamp) :
    Raises s (s.pullOnSlot i h seq stamp) := by
  unfold State.pullOnSlot
  dsimp only
  refine Raises.trans (t := s.activity i) State.activity_raises ?_
  split
  · exact (((State.slotAnomaly_raises ..).trans (State.windowPull_raises ..)).then (State.send_notices ..)).from rfl
  · exact ((State.windowPull_raises ..).then (State.send_notices ..)).from rfl

theorem State.takePull_raises (h : Handle) (seq : SeqNum) (stamp : Stamp) : Raises s (s.takePull h seq stamp) := by
  unfold State.takePull
  split
  · exact State.pullOnSlot_raises ..
  split
  · exact .of_eq rfl
  · exact (State.anomaly_raises ..).then (State.send_notices ..)

/-! ### Links -/

theorem State.linkDown_raises (h : Handle) (r : Option Byte) : Raises s (s.linkDown h r) := by
  unfold State.linkDown
  split
  · unfold State.linkDownSlot
    split
    · exact State.failSlot_raises ..
    · exact State.failSlot_raises ..
    · exact (State.settlePairs_raises _ fun _ => State.raiseSlot_raises ..).from (State.lose_notices ..)
    · exact (State.settlePairs_raises _ fun _ => State.raiseSlot_raises ..).from (State.lose_notices ..)
    · exact .of_eq rfl
    · exact .of_eq rfl
  · exact .of_eq rfl

theorem State.rebind_raises (link : PendingLink) : Raises s (s.rebind i link) := by
  unfold State.rebind
  dsimp only
  split
  · exact (State.raiseSlot_raises ..).from (by simp)
  · exact (State.raiseSlot_raises ..).from (by simp)

theorem State.placeLink_raises (link : PendingLink) : Raises s (s.placeLink link) := by
  unfold State.placeLink
  split
  · exact State.rebind_raises link
  split
  · exact (State.raiseSlot_raises ..).from (by simp)
  · exact (State.raise_raises _).from (by simp)

theorem State.linkUp_raises (link : PendingLink) : Raises s (s.linkUp link) :=
  (State.linkDown_raises ..).trans (State.placeLink_raises link)

theorem State.removeSlot_raises : Raises s (s.removeSlot i) :=
  (State.settlePairs_raises _ fun _ => .of_eq rfl).from (by simp)

/-! ### Mix periods and the call -/

theorem State.talkerClose_raises (states : PerSlot SlotState) (e : PerSlot (List Sample)) :
    Raises s (s.talkerClose states e) := by
  rewrite [State.talkerClose_eq]
  exact ⟨_, rfl⟩

theorem State.mixPeriod_raises (pacing : Pacing) (d : List Sample) : Raises s (s.mixPeriod pacing d) := by
  obtain ⟨capture, captures, slots, skews, heq, _⟩ := s.mixPeriod_eq pacing d
  rewrite [heq]
  generalize hu : State.withNotices _ _ = u
  have audio : Raises s u := by
    rewrite [← hu]
    exact ⟨_, rfl⟩
  have slots : Raises u u.slotPeriod := (State.changeSlots_raises ..).from (State.releaseSilent_notices u)
  exact (audio.trans slots).trans (State.talkerClose_raises ..)

theorem State.callResult_raises (m : Int) : Raises s (s.callResult m) := by
  unfold State.callResult
  dsimp only
  split
  · split
    · exact (State.raise_raises _).from rfl
    · exact .of_eq rfl
  · exact (State.raise_raises _).from rfl

theorem State.windowStrobe_raises (tick : Nat) : Raises s (s.windowStrobe tick) := by
  unfold State.windowStrobe
  split
  · exact .of_eq rfl
  split
  · exact (State.callResult_raises _).from rfl
  · exact .of_eq rfl

theorem State.endPeriod_raises (tick : Nat) : Raises s (s.endPeriod tick) := by
  unfold State.endPeriod
  split
  · exact (State.mixPeriod_raises ..).from rfl
  · exact .of_eq rfl

theorem State.takeStrobe_raises (tick : Nat) (d : Sample) : Raises s (s.takeStrobe tick d) := by
  unfold State.takeStrobe
  split
  · have start : Raises s (s.startCall tick) := (State.raise_raises _).from rfl
    exact (start.then (State.exchange_notices ..)).trans (State.endPeriod_raises tick)
  all_goals exact ((State.windowStrobe_raises tick).trans (State.endPeriod_raises tick)).from (State.exchange_notices ..)

/-! ### Every step -/

theorem Raises.lawful (h : Raises s t) (hs : s.notices.Lawful) : t.notices.Lawful := by
  obtain ⟨l, hl⟩ := h
  rewrite [hl]
  exact hs.raisedInto l

theorem readyNotice_lawful (r : ReadyReason) (mask : BitVec 11) :
    NoticeQueue.Lawful { queue := [readyNotice r], mask := mask } := by
  refine ⟨List.nodup_singleton _, ?_⟩
  simp [readyNotice]

theorem Links.notices_lawful (hs : s.notices.Lawful) (h : Links s t) : t.notices.Lawful := by
  induction h
  case collected n rest hq =>
    obtain ⟨keys, counts⟩ := hs
    rewrite [hq] at keys counts
    exact ⟨(List.nodup_cons.mp keys).2, (List.forall_mem_cons.mp counts).2⟩
  case accepted => simpa [State.accept] using hs
  case declined => simpa using hs
  case removed => exact State.removeSlot_raises.lawful hs
  case badRadioFrame => exact (State.anomaly_raises ..).lawful hs
  case linkUp link _ => exact (State.linkUp_raises link).lawful hs
  case linkDown => exact (State.linkDown_raises ..).lawful hs
  case mic => exact (State.takeMic_raises ..).lawful hs
  case pull => exact (State.takePull_raises ..).lawful hs
  case portReset => exact ((State.changeSlots_raises ..).then (State.setPendingLinks_notices ..)).lawful hs
  all_goals exact hs

theorem Changes.notices_lawful (hs : s.notices.Lawful) (h : Changes s q t) : t.notices.Lawful := by
  induction h
  case powerOn | softReset => exact readyNotice_lawful _ _
  case sets h => induction h <;> exact hs
  case plays h =>
    induction h
    case promptStop => exact ((State.raise_raises _).from rfl).lawful hs
    all_goals exact hs
  case ticks h =>
    induction h
    case strobe => exact (State.takeStrobe_raises ..).lawful hs
    case strobeTimeout => exact ((State.raise_raises _).from rfl).lawful hs
    case localTimer => exact ((State.mixPeriod_raises ..).from rfl).lawful hs
  case links h => exact h.notices_lawful hs

/-- Settles O50: a step raises, takes the oldest notice or resets the queue, and the keys number 26. -/
theorem stepsKeepTheNoticeQueueLawful : Obligations.StepsKeepTheNoticeQueueLawful :=
  ⟨fun _ _ hs h => step_keeps (law := fun s => s.notices.Lawful) (fun _ _ _ h => h) (fun _ _ _ => Changes.notices_lawful)
    hs h, fun _ h => h.length_le⟩

end Sys2Proof.Machine
end

section
/-!
SUPPORT. The control link: frames taken and not taken (R163 to R165, R177), the receiver byte by byte (R161, R162), and
the law of the control link unit (R160, R164).
-/
namespace Sys2Proof.Machine

variable {s t : State} {tag : Byte} {kind : RequestKind} {perform : State → Except RefusalCode (State × Result)}

/-- Settles O1: the two arms of the step. -/
theorem stepRunsFrontCommand : Obligations.StepRunsFrontCommand := by
  refine fun s => ⟨fun c rest h => ?_, fun h => ?_⟩
  · rw [step, h]
  · rw [step, h]

/-! ### Every command answers (log 20) -/

theorem State.completeFrame_pending {taken : State → State} (h : (taken s.hunt).pending = s.hunt.pending) :
    (s.completeFrame taken).pending = s.pending := by
  unfold State.completeFrame
  split
  · rfl
  split
  · rfl
  · exact h

/-- A request answers a next state and leaves the waiting commands. -/
theorem exec_request_answers {c : Instr} (hc : c.requestFrame.isSome = true) (s : State) :
    ∃ t, exec c s = .next t ∧ t.pending = s.pending := by
  obtain ⟨⟨kind, tag, body⟩, hf⟩ := Option.isSome_iff_exists.mp hc
  obtain ⟨perform, performs, he⟩ := exec_request hf
  refine ⟨_, he s, State.request_keeps State.pending State.hunt_pending State.reply_pending fun t t' r h => ?_⟩
  obtain ⟨_, _, _, _, hpending⟩ := performs t t' r h
  exact hpending

theorem takeFrame_answers (k tag : Byte) (body : List Byte) (check : Byte) (s : State) :
    ∃ t, takeFrame k tag body check s = .next t ∧ t.pending = s.pending := by
  unfold takeFrame
  split
  · exact ⟨_, rfl, State.completeFrame_pending rfl⟩
  · next c hd =>
    obtain ⟨q, bytes, -, hc⟩ := requestFrame_of_decodeFrame hd
    rewrite [requestOutcome_eq, hc]
    exact exec_request_answers (by rewrite [hc]; rfl) s

/-- The command of a radio message answers a next state and leaves the waiting commands. -/
theorem exec_message_answers {c : Instr} (hc : c.radioMessage.isSome = true) (s : State) :
    ∃ t, exec c s = .next t ∧ t.pending = s.pending := by
  induction c, hc using message_cases <;> refine ⟨_, rfl, ?_⟩
  case portReset => simp
  all_goals split <;> simp

/-- A command that is neither a request nor a radio message answers a next state and leaves the waiting commands. -/
theorem exec_event_answers {c : Instr} (hr : c.requestFrame = none) (hm : c.radioMessage = none) (s : State) :
    ∃ t, exec c s = .next t ∧ t.pending = s.pending := by
  induction c, hr, hm using event_cases
  case refusedFrame k tag body check =>
    simp only [exec_refusedFrame_eq, execRefusedFrame]
    split
    · refine ⟨_, rfl, ?_⟩
      split <;> rfl
    · exact takeFrame_answers ..
  case controlLinkByte tick byte =>
    simp only [exec_controlLinkByte_eq, execControlLinkByte]
    split
    · exact ⟨_, rfl, rfl⟩
    unfold State.takeByte
    dsimp only
    split
    case h_6 => exact takeFrame_answers ..
    case h_1 | h_2 =>
      refine ⟨_, rfl, ?_⟩
      split <;> rfl
    all_goals exact ⟨_, rfl, rfl⟩
  case radioFrame bytes =>
    simp only [exec_radioFrame_eq, execRadioFrame]
    split
    · exact ⟨_, rfl, State.badRadioFrame_pending s⟩
    · next c hd =>
      rewrite [radioOutcome_eq]
      cases hc : c.radioMessage with
      | none => exact ⟨_, rfl, rfl⟩
      | some m => exact exec_message_answers (by rewrite [hc]; rfl) s
  case strobe => exact ⟨_, rfl, State.takeStrobe_pending ..⟩
  case replySent | interByteTimeout | radioMessageSent | strobeTimeout =>
    refine ⟨_, rfl, ?_⟩
    split <;> rfl
  case softReset =>
    refine ⟨_, rfl, ?_⟩
    split
    · exact State.releaseAll_pending s
    · rfl
  case localTimerExpiry =>
    refine ⟨_, rfl, ?_⟩
    split <;> simp
  all_goals exact ⟨_, rfl, rfl⟩

/-- Settles O2: requests, radio messages and every other command in their own lemmas. -/
theorem everyCommandAnswers : Obligations.EveryCommandAnswers := by
  intro c s
  by_cases hr : c.requestFrame.isSome = true
  · exact exec_request_answers hr s
  by_cases hm : c.radioMessage.isSome = true
  · exact exec_message_answers hm s
  · exact exec_event_answers (Option.not_isSome_iff_eq_none.mp hr) (Option.not_isSome_iff_eq_none.mp hm) s

/-! ### Requests that are taken (R163 to R165) -/

/-- A request that is taken answers once, at the tail of the replies. -/
theorem State.request_listens (hs : s.Listens) (performs : Performs perform) :
    ∃ b, (s.request tag kind perform).link.replies = s.link.replies ++ [{ tag := tag, body := b }] ∧
      (s.request tag kind perform).link.receiver = .idle ∧
      ((∃ r, b = .done kind r) ∨ ∃ code, b = .refused code kind.code ∧ s.request tag kind perform = s.answered tag b) := by
  cases hp : perform s.hunt with
  | error c =>
    rewrite [State.request_error hs hp]
    exact ⟨.refused c kind.code, rfl, rfl, .inr ⟨c, rfl, rfl⟩⟩
  | ok v =>
    obtain ⟨t, r⟩ := v
    obtain ⟨hreceiver, hreplies, _⟩ := performs _ _ _ hp
    rewrite [State.request_ok hs hp]
    refine ⟨.done kind r, ?_, hreceiver, .inl ⟨r, rfl⟩⟩
    show t.link.replies ++ _ = _
    rewrite [hreplies]
    rfl

theorem State.deaf_iff : s.deaf = true ↔ s.resetHeld = true ∨ s.link.mode = .resetting := by
  simp [State.deaf]

theorem State.deaf_false (hr : s.resetHeld = false) (hm : s.link.mode = .normal) : s.deaf = false := by
  simp [State.deaf, hr, hm]

/-- A frame of either kind is a completed frame, or one too long to be taken. -/
theorem exec_frame {c : Instr}
    (hc : c.requestFrame.isSome = true ∨ ∃ kind tag body check, c = .refusedFrame kind tag body check) (s : State) :
    (∃ taken, exec c s = .next (s.completeFrame taken)) ∨ exec c s = .next (if s.deaf then s else s.hunt) := by
  have request : ∀ {c : Instr}, c.requestFrame.isSome = true → ∃ taken, exec c s = .next (s.completeFrame taken) := by
    intro c h
    obtain ⟨⟨kind, tag, body⟩, hf⟩ := Option.isSome_iff_exists.mp h
    obtain ⟨perform, _, he⟩ := exec_request hf
    exact ⟨_, he s⟩
  rcases hc with h | ⟨k, tag, body, check, rfl⟩
  · exact .inl (request h)
  simp only [exec_refusedFrame_eq, execRefusedFrame]
  split
  · exact .inr rfl
  refine .inl ?_
  unfold takeFrame
  split
  · exact ⟨_, rfl⟩
  · next c hd =>
    obtain ⟨q, bytes, -, hq⟩ := requestFrame_of_decodeFrame hd
    rewrite [requestOutcome_eq, hq]
    exact request (by rewrite [hq]; rfl)

/-- Settles O3: a frame is a completed frame, and a request that is taken answers once. -/
theorem eachTakenFrameGetsOneReply : Obligations.EachTakenFrameGetsOneReply := by
  refine ⟨fun c s hc => ⟨fun hd => ?_, fun hr hm full => ?_⟩, fun c kind tag body s hf hs => ?_⟩
  · have deaf : s.deaf = true := State.deaf_iff.mpr hd
    rcases exec_frame hc s with ⟨taken, h⟩ | h
    · rw [h, State.completeFrame_deaf deaf]
    · rw [h, if_pos deaf]
  · have hears : s.deaf = false := State.deaf_false hr hm
    rcases exec_frame hc s with ⟨taken, h⟩ | h
    · rewrite [h, State.completeFrame_full hears full]
      rfl
    · rewrite [h, hears]
      rfl
  · obtain ⟨perform, performs, he⟩ := exec_request hf
    obtain ⟨b, hreplies, hreceiver, hb⟩ := State.request_listens (tag := tag) (kind := kind) hs performs
    exact ⟨_, b, he s, hreplies, hreceiver, hb⟩

/-! ### The checks of a complete frame (R163) -/

theorem exec_refusedFrame {body : List Byte} (h : body.length ≤ 248) (k tag check : Byte) (s : State) :
    exec (.refusedFrame k tag body check) s = takeFrame k tag body check s := by
  simp only [exec_refusedFrame_eq, execRefusedFrame]
  rw [if_neg (by simpa using h)]

theorem takeFrame_error (hs : s.Listens) {k check : Byte} {body : List Byte} {c : RefusalCode}
    (h : decodeFrame k tag body check = .error c) :
    takeFrame k tag body check s = .next (s.answered tag (.refused c k)) := by
  rewrite [takeFrame, h]
  dsimp only
  rewrite [State.completeFrame_listens hs]
  rfl

theorem takeFrame_ok {k check : Byte} {body : List Byte} {c : Instr} (h : decodeFrame k tag body check = .ok c)
    (s : State) : takeFrame k tag body check s = exec c s := by
  obtain ⟨q, bytes, -, hc⟩ := requestFrame_of_decodeFrame h
  rewrite [takeFrame, h]
  dsimp only
  rewrite [requestOutcome_eq, hc]
  rfl

/-- The kind bytes are 1 to 22 (R180). -/
theorem RequestKind.code_toNat (k : RequestKind) : 1 ≤ k.code.toNat ∧ k.code.toNat ≤ 22 := by
  cases k <;> decide

theorem RequestKind.ofCode_none {b : Byte} (h : b.toNat = 0 ∨ 22 < b.toNat) : RequestKind.ofCode b = none := by
  cases hk : RequestKind.ofCode b with
  | none => rfl
  | some k =>
    have hb : k.code = b := RequestKind.ofCode_eq_some.mp hk
    have := RequestKind.code_toNat k
    rewrite [hb] at this
    omega

/-- Settles O4: the checks of `decodeFrame` in their order. -/
theorem completeFramesAreChecked : Obligations.CompleteFramesAreChecked := by
  intro k tag body check s hl
  rewrite [exec_refusedFrame hl]
  refine ⟨fun hs hsum => takeFrame_error hs ?_, fun hs hsum hk => takeFrame_error hs ?_, ?_⟩
  · rw [decodeFrame, if_neg hsum]
  · rw [decodeFrame, if_pos hsum, decodeRequest, RequestKind.ofCode_none hk]
  · rintro q rfl hsum
    have read := bodyRequest_isSome (tag := tag) (kind := q) body
    refine ⟨fun hs hlen => takeFrame_error hs ?_, fun hlen => ?_⟩
    · rewrite [hlen] at read
      rewrite [decodeFrame, if_pos hsum, decodeRequest, RequestKind.ofCode_code]
      dsimp only
      rw [Option.isNone_iff_eq_none.mp (Option.isSome_eq_false_iff.mp read)]
    · rewrite [hlen] at read
      obtain ⟨c, hc⟩ := Option.isSome_iff_exists.mp read
      have decoded : decodeRequest q.code tag body = .ok c := by
        rewrite [decodeRequest, RequestKind.ofCode_code]
        dsimp only
        rw [hc]
      exact ⟨c, decoded, takeFrame_ok (by rw [decodeFrame, if_pos hsum, decoded]) s⟩

/-! ### The receiver (R161, R162) -/

theorem exec_controlLinkByte (hr : s.resetHeld = false) (hm : s.link.mode = .normal) (tick : Nat) (byte : Byte) :
    exec (.controlLinkByte tick byte) s = s.takeByte tick byte := by
  simp only [exec_controlLinkByte_eq, execControlLinkByte]
  rewrite [State.deaf_false hr hm]
  rfl

/-- Settles O8: what the receiver's state makes of a byte. -/
theorem receiverTakesBytes : Obligations.ReceiverTakesBytes := by
  refine fun tick byte s => ⟨fun hd => ?_, fun hr hm => ?_⟩
  · simp only [exec_controlLinkByte_eq, execControlLinkByte]
    rw [if_pos (State.deaf_iff.mpr hd)]
  simp only [exec_controlLinkByte hr hm]
  refine ⟨fun hp hb => ?_, fun hp hb => ?_, fun hp hb => ?_, fun hp hb => ?_, fun hp => ?_, fun hp hl => ?_,
    fun hp hl => ?_, fun hp hl => ?_, fun hp hl => ?_, fun kind tag hp hk ht hl => ?_⟩ <;>
    unfold State.takeByte <;> simp only [hp]
  · rw [if_neg (show byte ≠ startByte from hb)]
  · rewrite [if_pos (show byte = startByte from hb)]
    rfl
  · rewrite [if_neg (by simpa using hb)]
    rfl
  · rewrite [if_pos (by simpa using hb)]
    rfl
  · rfl
  · rewrite [Receiver.afterBody, if_pos hl]
    rfl
  · rewrite [Receiver.afterBody, if_neg hl]
    rfl
  · rewrite [Receiver.afterBody, if_pos hl]
    rfl
  · rewrite [Receiver.afterBody, if_neg hl]
    rfl
  · rewrite [hk, ht, exec_refusedFrame hl]
    rfl

/-- A completed frame leaves the receiver HUNTING, or its part as it was. -/
theorem exec_request_receiver {c : Instr} (hc : c.requestFrame.isSome = true) (hs : s.deaf = false)
    (h : exec c s = .next t) : t.link.receiver = .idle := by
  obtain ⟨⟨kind, tag, body⟩, hf⟩ := Option.isSome_iff_exists.mp hc
  obtain ⟨perform, performs, he⟩ := exec_request hf
  rewrite [he s] at h
  cases h
  unfold State.request State.completeFrame
  rewrite [hs]
  simp only [Bool.false_eq_true, if_false]
  split
  · rfl
  split
  · next h =>
    obtain ⟨hreceiver, _⟩ := performs _ _ _ h
    exact hreceiver
  · rfl

theorem takeFrame_receiver {k check : Byte} {body : List Byte} (hs : s.deaf = false)
    (h : takeFrame k tag body check s = .next t) : t.link.receiver = .idle := by
  unfold takeFrame at h
  split at h
  · cases h
    unfold State.completeFrame
    rewrite [hs]
    simp only [Bool.false_eq_true, if_false]
    split <;> rfl
  · next c hd =>
    obtain ⟨q, bytes, -, hc⟩ := requestFrame_of_decodeFrame hd
    rewrite [requestOutcome_eq, hc] at h
    exact exec_request_receiver (by rewrite [hc]; rfl) hs h

/-- Settles O9: the expiry makes the receiver hunt, and a byte before it re-arms the timer or completes the frame. -/
theorem interByteTimeoutDiscards : Obligations.InterByteTimeoutDiscards := by
  intro s ht
  obtain ⟨due, hdue⟩ := Option.isSome_iff_exists.mp ht
  refine ⟨?_, fun hr hm tick byte => ⟨fun t hp h => ?_, fun hb => ?_, fun hb => ?_⟩⟩
  · simp only [exec_interByteTimeout_eq, execInterByteTimeout, hdue]
    rfl
  · rewrite [exec_controlLinkByte hr hm] at h
    unfold State.takeByte at h
    dsimp only at h
    split at h
    case h_1 hunting => exact absurd hunting hp
    case h_2 =>
      cases h
      split
      · exact .inr rfl
      · exact .inl rfl
    case h_6 => exact .inr (takeFrame_receiver (State.deaf_false hr hm) h)
    all_goals
      cases h
      exact .inl rfl
  · rewrite [exec_controlLinkByte (s := { s with link := { s.link with receiver := .idle } }) hr hm]
    show Host.Outcome.next (if byte = startByte then _ else _) = _
    rw [if_neg (show byte ≠ startByte from hb)]
  · rewrite [exec_controlLinkByte (s := { s with link := { s.link with receiver := .idle } }) hr hm]
    show Host.Outcome.next (if byte = startByte then _ else _) = _
    rewrite [if_pos (show byte = startByte from hb)]
    rfl

/-! ### A frame byte by byte (R161, R163) -/

/-- A completed frame does not depend on the receiver that it completes in. -/
theorem takeFrame_receiver_free (hr : s.resetHeld = false) (hm : s.link.mode = .normal) (r : Receiver) (k tag : Byte)
    (body : List Byte) (check : Byte) :
    takeFrame k tag body check (s.withReceiver r) = takeFrame k tag body check s := by
  have complete : ∀ taken, (s.withReceiver r).completeFrame taken = s.completeFrame taken := by
    intro taken
    unfold State.completeFrame
    rewrite [State.deaf_false hr hm, State.deaf_false (s := s.withReceiver r) hr hm]
    rfl
  unfold takeFrame
  split
  · rw [complete]
  · next c hd =>
    obtain ⟨q, bytes, -, hc⟩ := requestFrame_of_decodeFrame hd
    obtain ⟨perform, _, he⟩ := exec_request hc
    rewrite [requestOutcome_eq, requestOutcome_eq, hc]
    show exec c _ = exec c _
    rw [he, he, State.request, State.request, complete]

theorem State.takeByte_body (h : s.link.receiver.phase = .body) (tick : Nat) (byte : Byte) :
    s.takeByte tick byte =
      let r := s.link.receiver
      .next (s.withReceiver
        { r.advance tick byte (Receiver.afterBody r.length (r.body.length + 1)) with body := r.body ++ [byte] }) := by
  unfold State.takeByte
  simp only [h]

theorem State.takeByte_check (h : s.link.receiver.phase = .check) (tick : Nat) (byte : Byte) :
    s.takeByte tick byte =
      takeFrame (s.link.receiver.kind.getD 0) (s.link.receiver.tag.getD 0) s.link.receiver.body byte s := by
  unfold State.takeByte
  simp only [h]

theorem feed_cons (hr : s.resetHeld = false) (hm : s.link.mode = .normal) {r : Receiver} {tick : Nat} {byte : Byte}
    (ht : (s.withReceiver r).takeByte tick byte = .next t) (rest : List (Nat × Byte)) :
    feed ((tick, byte) :: rest) (s.withReceiver r) = feed rest t := by
  rw [feed, exec_controlLinkByte (s := s.withReceiver r) hr hm, ht]

theorem feed_one (hr : s.resetHeld = false) (hm : s.link.mode = .normal) (r : Receiver) (tick : Nat) (byte : Byte) :
    feed [(tick, byte)] (s.withReceiver r) = (s.withReceiver r).takeByte tick byte := by
  rewrite [feed, exec_controlLinkByte (s := s.withReceiver r) hr hm]
  cases (s.withReceiver r).takeByte tick byte <;> rfl

/-- The receiver once the tag has come and `held` of the `n` body bytes. -/
def Receiver.inBody (kind tag : Byte) (n : Nat) (held : List Byte) (sum : Byte) (timer : Option Nat) : Receiver :=
  { phase := Receiver.afterBody (some n) held.length, length := some n, kind := some kind, tag := some tag, body := held,
    sum := sum, timer := timer }

/-- The body bytes still to come and the check complete the frame. -/
theorem feed_body (hr : s.resetHeld = false) (hm : s.link.mode = .normal) (k tag check : Byte) :
    ∀ (rest held : List Byte) (ticks : List Nat) (sum : Byte) (timer : Option Nat), ticks.length = rest.length + 1 →
      feed (ticks.zip (rest ++ [check]))
          (s.withReceiver (.inBody k tag (held.length + rest.length) held sum timer)) =
        takeFrame k tag (held ++ rest) check s
  | [], held, [], sum, timer, h => by cases h
  | [], held, [tick], sum, timer, _ => by
    rewrite [List.append_nil]
    refine (feed_one hr hm _ tick check).trans ?_
    rewrite [State.takeByte_check (if_pos rfl)]
    exact takeFrame_receiver_free hr hm _ _ _ _ _
  | b :: rest, held, tick :: ticks, sum, timer, h => by
    have more : (some (held.length + (b :: rest).length) : Option Nat) ≠ some held.length := by simp
    have next : (s.withReceiver (.inBody k tag (held.length + (b :: rest).length) held sum timer)).takeByte tick b =
        .next (s.withReceiver (.inBody k tag ((held ++ [b]).length + rest.length) (held ++ [b]) (sum + b)
          (some (tick + Config.interByteTicks)))) := by
      have count : (held ++ [b]).length + rest.length = held.length + (b :: rest).length := by
        simp only [List.length_append, List.length_cons, List.length_nil]
        omega
      rewrite [State.takeByte_body (if_neg more), count, Receiver.inBody, Receiver.inBody, List.length_append]
      rfl
    rewrite [List.cons_append, List.zip_cons_cons, feed_cons hr hm next,
      feed_body hr hm k tag check rest (held ++ [b]) ticks _ _ (by simpa using h), List.append_assoc]
    rfl

/-- Settles O7: the start, length, kind and tag bytes lead to the body, whose bytes and check complete the frame. -/
theorem bytesAssembleTheFrame : Obligations.BytesAssembleTheFrame := by
  intro k tag body check ticks s hl hr hm hidle ht
  rewrite [exec_refusedFrame hl]
  obtain ⟨t0, t1, t2, t3, ticks, rfl⟩ : ∃ t0 t1 t2 t3 rest, ticks = t0 :: t1 :: t2 :: t3 :: rest := by
    match ticks, ht with
    | t0 :: t1 :: t2 :: t3 :: rest, _ => exact ⟨t0, t1, t2, t3, rest, rfl⟩
  have length : (BitVec.ofNat 8 body.length).toNat = body.length := by simp; omega
  let r1 : Receiver := .begin t0
  let r2 : Receiver :=
    { r1.advance t1 (BitVec.ofNat 8 body.length) .kind with length := some body.length }
  let r3 : Receiver := { r2.advance t2 k .tag with kind := some k }
  let r4 : Receiver := .inBody k tag body.length [] (r3.sum + tag) (some (t3 + Config.interByteTicks))
  have hs : s = s.withReceiver .idle := by rw [State.withReceiver, ← hidle]
  have start : (s.withReceiver .idle).takeByte t0 startByte = .next (s.withReceiver r1) :=
    congrArg Host.Outcome.next (if_pos rfl)
  have lengthByte : (s.withReceiver r1).takeByte t1 (BitVec.ofNat 8 body.length) = .next (s.withReceiver r2) := by
    show Host.Outcome.next (if _ then _ else _) = _
    rewrite [length, if_neg (by simpa using hl)]
    rfl
  have tagByte : (s.withReceiver r3).takeByte t3 tag = .next (s.withReceiver r4) := rfl
  simp only [frameHead, List.cons_append, List.zip_cons_cons]
  conv_lhs => rw [hs]
  rewrite [feed_cons hr hm start, feed_cons hr hm lengthByte, feed_cons (r := r2) (t := s.withReceiver r3) hr hm rfl,
    feed_cons hr hm tagByte]
  have rest := feed_body hr hm k tag check body [] ticks (r3.sum + tag) (some (t3 + Config.interByteTicks))
    (by simpa using ht)
  rwa [List.length_nil, Nat.zero_add] at rest

end Sys2Proof.Machine
end

section
/-!
SUPPORT. The law of the control link unit (R160, R161, R164), and the requests and resets that are answered by the queue and
the link alone (R174 to R177).
-/
namespace Sys2Proof.Machine

variable {s t : State} {tag : Byte} {kind : RequestKind} {perform : State → Except RefusalCode (State × Result)}

/-! ### The law of the control link unit -/

theorem ControlLink.lawful_idle {replies : List ReplyFrame} (h : replies.length ≤ 8) (mode : LinkMode)
    (line : List Byte) :
    ControlLink.Lawful { receiver := .idle, replies := replies, mode := mode, line := line } :=
  ⟨h, rfl, rfl⟩

theorem State.completeFrame_link_lawful (hs : s.link.Lawful) {taken : State → State}
    (h : s.link.replies.length < 8 → (taken s.hunt).link.Lawful) : (s.completeFrame taken).link.Lawful := by
  unfold State.completeFrame
  split
  · exact hs
  split
  · exact ControlLink.lawful_idle hs.1 _ _
  · next room => exact h (Nat.lt_of_not_le room)

theorem State.reply_link_lawful (hreceiver : s.link.receiver = .idle) (room : s.link.replies.length < 8)
    (b : ReplyBody) : (s.reply tag b).link.Lawful := by
  show ControlLink.Lawful { s.link with replies := s.link.replies ++ [_] }
  rewrite [show s.link = { s.link with receiver := .idle } by rw [← hreceiver]]
  exact ControlLink.lawful_idle (by simpa using room) _ _

theorem exec_request_link_lawful {c : Instr} (hc : c.requestFrame.isSome = true) (hs : s.link.Lawful)
    (h : exec c s = .next t) : t.link.Lawful := by
  obtain ⟨⟨kind, tag, body⟩, hf⟩ := Option.isSome_iff_exists.mp hc
  obtain ⟨perform, performs, he⟩ := exec_request hf
  rewrite [he s] at h
  cases h
  refine State.completeFrame_link_lawful hs fun room => ?_
  split
  · next hp =>
    obtain ⟨hreceiver, hreplies, _⟩ := performs _ _ _ hp
    refine State.reply_link_lawful hreceiver ?_ _
    rewrite [hreplies]
    exact room
  · exact State.reply_link_lawful (s := s.hunt) rfl room _

theorem takeFrame_link_lawful {k check : Byte} {body : List Byte} (hs : s.link.Lawful)
    (h : takeFrame k tag body check s = .next t) : t.link.Lawful := by
  unfold takeFrame at h
  split at h
  · cases h
    exact State.completeFrame_link_lawful hs fun room => State.reply_link_lawful (s := s.hunt) rfl room _
  · next c hd =>
    obtain ⟨q, bytes, -, hc⟩ := requestFrame_of_decodeFrame hd
    rewrite [requestOutcome_eq, hc] at h
    exact exec_request_link_lawful (by rewrite [hc]; rfl) hs h

/-- A byte added at the end of what has been received keeps the running sum. -/
theorem ControlLink.lawful_advance {l : ControlLink} (hs : ControlLink.Lawful l) {byte : Byte} {r : Receiver} (holds : r.holds)
    (sum : r.sum = l.receiver.sum + byte) (received : r.received = l.receiver.received ++ [byte]) :
    ControlLink.Lawful { l with receiver := r } := by
  obtain ⟨room, _, hsum⟩ := hs
  refine ⟨room, holds, ?_⟩
  rw [sum, received, byteSum_append, hsum]

theorem State.takeByte_link_lawful {tick : Nat} {byte : Byte} (hs : s.link.Lawful)
    (h : s.takeByte tick byte = .next t) : t.link.Lawful := by
  have holds : s.link.receiver.holds := hs.2.1
  unfold Receiver.holds at holds
  unfold State.takeByte at h
  dsimp only at h
  split at h <;> rename_i phase <;> simp only [phase] at holds
  case h_1 =>
    cases h
    split
    · exact ⟨hs.1, ⟨rfl, rfl, rfl, rfl, rfl⟩, rfl⟩
    · exact hs
  case h_2 =>
    obtain ⟨hlength, hkind, htag, hbody, _⟩ := holds
    cases h
    split
    · exact ControlLink.lawful_idle hs.1 _ _
    · next hle =>
      refine ControlLink.lawful_advance hs ⟨⟨_, Nat.le_of_not_lt hle, rfl⟩, hkind, htag, hbody, rfl⟩ rfl ?_
      simp [Receiver.received, Receiver.advance, hlength, hkind, htag, hbody]
  case h_3 =>
    obtain ⟨⟨n, hn, hlength⟩, hkind, htag, hbody, _⟩ := holds
    cases h
    refine ControlLink.lawful_advance hs ⟨⟨n, hn, hlength⟩, rfl, htag, hbody, rfl⟩ rfl ?_
    simp [Receiver.received, Receiver.advance, hlength, hkind, htag, hbody]
  case h_4 =>
    obtain ⟨⟨n, hn, hlength⟩, hkind, htag, hbody, _⟩ := holds
    obtain ⟨k, hk⟩ := Option.isSome_iff_exists.mp hkind
    cases h
    refine ControlLink.lawful_advance hs ?_ rfl (by simp [Receiver.received, Receiver.advance, hlength, hk, htag, hbody])
    rewrite [Receiver.afterBody]
    split
    · next h0 =>
      rewrite [hlength] at h0
      refine ⟨⟨n, hn, hlength, ?_⟩, hkind, rfl, rfl⟩
      show s.link.receiver.body.length = n
      rewrite [hbody, Option.some.inj h0]
      rfl
    · next h0 =>
      rewrite [hlength] at h0
      refine ⟨⟨n, hn, hlength, ?_⟩, hkind, rfl, rfl⟩
      show s.link.receiver.body.length < n
      rewrite [hbody]
      exact Nat.pos_of_ne_zero fun hz => h0 (congrArg some hz)
  case h_5 =>
    obtain ⟨⟨n, hn, hlength, hless⟩, hkind, htag, _⟩ := holds
    obtain ⟨k, hk⟩ := Option.isSome_iff_exists.mp hkind
    obtain ⟨g, hg⟩ := Option.isSome_iff_exists.mp htag
    cases h
    refine ControlLink.lawful_advance hs ?_ rfl (by simp [Receiver.received, Receiver.advance, hlength, hk, hg])
    rewrite [Receiver.afterBody]
    split
    · next h0 =>
      rewrite [hlength] at h0
      refine ⟨⟨n, hn, hlength, ?_⟩, hkind, htag, rfl⟩
      rewrite [List.length_append]
      exact (Option.some.inj h0).symm
    · next h0 =>
      rewrite [hlength] at h0
      refine ⟨⟨n, hn, hlength, ?_⟩, hkind, htag, rfl⟩
      have : n ≠ s.link.receiver.body.length + 1 := fun e => h0 (congrArg some e)
      rewrite [List.length_append, List.length_singleton]
      omega
  case h_6 => exact takeFrame_link_lawful hs h

theorem exec_event_link_lawful {c : Instr} (hr : c.requestFrame = none) (hm : c.radioMessage = none)
    (hs : s.link.Lawful) (h : exec c s = .next t) : t.link.Lawful := by
  have keep : t.link = s.link → t.link.Lawful := fun he => he ▸ hs
  induction c, hr, hm using event_cases
  case radioFrame => exact keep (execRadioFrame_links h).link
  case refusedFrame =>
    simp only [exec_refusedFrame_eq, execRefusedFrame] at h
    split at h
    · obtain rfl := Host.Outcome.next.inj h
      split
      · exact hs
      · exact ControlLink.lawful_idle hs.1 _ _
    · exact takeFrame_link_lawful hs h
  case controlLinkByte =>
    simp only [exec_controlLinkByte_eq, execControlLinkByte] at h
    split at h
    · obtain rfl := Host.Outcome.next.inj h
      exact hs
    · exact State.takeByte_link_lawful hs h
  all_goals obtain rfl := Host.Outcome.next.inj h
  case powerOnReset => exact ControlLink.lawful_idle (replies := []) (Nat.zero_le 8) _ _
  case strobe => exact keep (State.takeStrobe_link ..)
  case resetAsserted => exact hs
  case interByteTimeout =>
    split
    · exact ControlLink.lawful_idle hs.1 _ _
    · exact hs
  case replySent =>
    split
    · exact hs
    · next hq =>
      obtain ⟨room, received⟩ := hs
      rewrite [hq, List.length_cons] at room
      exact ⟨Nat.le_of_succ_le room, received⟩
  case softReset =>
    split
    · exact ControlLink.lawful_idle (replies := []) (Nat.zero_le 8) _ _
    · exact hs
  case localTimerExpiry =>
    split
    · rewrite [State.mixPeriod_link]
      exact hs
    · exact hs
  case strobeTimeout | radioMessageSent => split <;> exact hs

theorem exec_link_lawful {c : Instr} (hs : s.link.Lawful) (h : exec c s = .next t) : t.link.Lawful := by
  by_cases hr : c.requestFrame.isSome = true
  · exact exec_request_link_lawful hr hs h
  by_cases hm : c.radioMessage.isSome = true
  · exact (exec_links hm h).link ▸ hs
  · exact exec_event_link_lawful (Option.not_isSome_iff_eq_none.mp hr) (Option.not_isSome_iff_eq_none.mp hm) hs h

/-- Settles O51: a frame that completes leaves the receiver HUNTING and adds a reply where there is room, and a byte
extends what the receiver holds. -/
theorem stepsKeepTheControlLinkLawful : Obligations.StepsKeepTheControlLinkLawful := by
  intro s t hs h
  unfold step at h
  split at h
  · obtain rfl := Host.Outcome.next.inj h
    exact hs
  · next c rest _ => exact exec_link_lawful (s := { s with pending := rest }) hs h

/-! ### COLLECT and MASK.SET (R174, R175) -/

/-- A mask in range is read as it was sent. -/
theorem getLsbD_maskBit (mask : BitVec 16) (k : NoticeKind) :
    (mask.setWidth 11).getLsbD k.maskBit = mask.getLsbD k.maskBit := by
  have : k.maskBit < 11 := by cases k <;> decide
  simp [this]

/-- Settles O13: the queue gives its oldest notice, and ATTN is read under the new mask. -/
theorem collectAndMaskSetAnswer : Obligations.CollectAndMaskSetAnswer := by
  refine ⟨fun tag s hs => ⟨fun n rest hq => ⟨?_, fun lawful => ?_⟩, fun hq => ?_⟩, fun tag mask s hs => ⟨fun h => ?_,
    fun h => ?_⟩⟩
  · exact congrArg Host.Outcome.next
      (State.request_answeredDone (t := { s with notices := { s.notices with queue := rest } }) hs (by
        rewrite [show s.hunt.notices.queue = n :: rest from hq]; rfl))
  · have := lawful.length_le
    rewrite [hq, List.length_cons] at this
    omega
  · exact congrArg Host.Outcome.next (State.request_answeredDone hs (by
      rw [show s.hunt.notices.queue = [] from hq]))
  · exact congrArg Host.Outcome.next (State.request_error hs (if_pos h))
  · let t : State := { s with notices := { s.notices with mask := mask.setWidth 11 } }
    have attn : t.hunt.attn = s.notices.queue.any fun n => !(mask.getLsbD n.body.kind.maskBit) := by
      rewrite [State.attn_released (s := t.hunt) hs.1]
      simp only [← getLsbD_maskBit mask]
      rfl
    rewrite [← attn]
    exact congrArg Host.Outcome.next (State.request_answeredDone (t := t) hs (if_neg (Nat.not_le_of_lt h)))

/-! ### Resets (R176, R177) -/

/-- RELEASE for the handles of a list joins the stream in the list's order. -/
theorem State.foldl_release {α : Type} (f : α → Option Handle) (l : List α) :
    l.foldl (fun t a => t.release (f a)) s = s.withOutgoing ((l.filterMap f).map RadioOut.release) := by
  induction l generalizing s with
  | nil => simp [State.withOutgoing]
  | cons a l ih =>
    rewrite [List.foldl_cons, ih, State.release_eq]
    cases h : f a <;> simp [State.withOutgoing, h]

theorem State.releaseAll_eq (s : State) : s.releaseAll = s.withOutgoing
    ((SlotId.all.filterMap fun i => (s.slot i).handle).map RadioOut.release ++
      s.radio.pendingLinks.map fun e => RadioOut.release e.handle) := by
  unfold State.releaseAll
  rewrite [State.foldl_release (fun i => (s.slot i).handle), State.foldl_release fun e : PendingLink => some e.handle]
  simp [State.withOutgoing, List.map_map, Function.comp_def]

/-- The weight of a SOLO slot with S at 0: the gate's weight where the gate is above 0 (R140). -/
theorem talkerWeight_silent (p : TalkParams) :
    talkerWeight .solo false 0 p = if 0 < p.gate then min 4096 p.gateWeight else 4096 := by
  simp [talkerWeight]

theorem GainMatrix.zero_eq : GainMatrix.zero = .tabulate fun _ _ => 0 := rfl

/-- Settles O14: RESET is a request that sets the mode, and the soft reset is read field by field. -/
theorem resetRequestLeadsToSoftReset : Obligations.ResetRequestLeadsToSoftReset := by
  refine ⟨fun tag s hs => ?_, fun tick s => ⟨fun hm hq => ?_, fun h => ?_⟩⟩
  · refine congrArg Host.Outcome.next ?_
    rewrite [State.request_ok hs rfl]
    rfl
  · have run : exec (.softReset tick) s = .next (s.softReset tick) := by
      simp only [exec_softReset_eq, execSoftReset]
      rw [if_pos ⟨hm, hq⟩]
    rewrite [run, State.softReset, State.releaseAll_eq, ← talkerWeight_silent]
    rfl
  · simp only [exec_softReset_eq, execSoftReset]
    rw [if_neg]
    rintro ⟨hm, hq⟩
    rcases h with h | h
    · rewrite [hm] at h; cases h
    · exact h hq

/-- Settles O15: the power-on values, and RESET held. -/
theorem resetPinEffects : Obligations.ResetPinEffects := by
  refine fun tick s => ⟨rfl, rfl, rfl, fun byte => ?_⟩
  · simp only [exec_controlLinkByte_eq, execControlLinkByte]
    exact if_pos rfl

end Sys2Proof.Machine
end

section
/-!
SUPPORT. What a step can do to a slot's record, said once: `SlotLaw` lists the changes, and a law of one record that is closed
under them holds of every slot after every change of the part.
-/
namespace Sys2Proof.Machine

/-! ### The changes of a record -/

/-- A law of a slot's record that every change of a record keeps, under the slot limit `limit` and the talker parameters
`p`. -/
structure SlotLaw (limit : Nat) (p : TalkParams) (law : Slot → Prop) : Prop where
  initial : law .initial
  afterReset : ∀ {x}, law x → law (x.softReset p)
  paired : ∀ {x} role partner primary, law x →
    law { x with role := role, partner := partner, talker := { x.talker with primary := primary } }
  touched : ∀ {x}, law x → law { x with idle := 0 }
  counted : ∀ {x} stats, (x.stats.Bounded → stats.Bounded) → law x → law { x with stats := stats }
  resumed : ∀ {x}, x.state = .stalled → law x → law { x with state := .active }
  recovered : ∀ {x}, x.state = .lost → x.handle.isSome → law x → law x.measuring
  activated : ∀ {x}, x.state = .filling → law x → law { x with state := .active }
  passed : ∀ {x}, x.state = .measuring → law x → law { x with state := .filling }
  block : ∀ {x} (g : Nat) (seq : SeqNum) (bad : Bool) (samples : List Sample), x.handle.isSome → x.state ≠ .lost →
    samples.length = 80 → law x →
    law { x with
      inRing :=
        let ring := { (micEffect x.inRing x.state.live x.inTarget g bad samples).ring with expected := some (seq + 1) }
        if x.state.acquiring then ring.trim x.inTarget else ring
      stats := x.stats.afterMic (micEffect x.inRing x.state.live x.inTarget g bad samples) bad }
  served : ∀ {x} (step : Nat) (seq : SeqNum) (stats : Stats), x.state = .active →
    ((∃ t8, step = stepOf t8) ∨ ∃ y, law y ∧ y.outRing.lastStep = some step) → (x.stats.Bounded → stats.Bounded) →
    law x →
    law { x with
      outRing :=
        { samples := (fullPass step x.outRing.samples x.outRing.phase).left
          phase := (fullPass step x.outRing.samples x.outRing.phase).phase
          lastStep := some step, lastServed := some seq }
      stats := stats }
  opened : ∀ {x} window, x.handle.isSome → x.state ≠ .lost → law x → law { x with window := some window }
  closed : ∀ {x} m, (x.state = .measuring → (x.afterWindow m limit).failCount < 3) → law x →
    law (x.afterWindow m limit)
  emptied : ∀ {x}, law x → law x.emptied
  lost : ∀ {x} handle, x.state.live = true → law x → law (x.lost handle)
  unbound : ∀ {x}, x.state = .lost → law x → law { x with handle := none }
  relinked : ∀ {x} h mic, x.state ≠ .empty → law x → law { x.measuring with handle := some h, mic := mic }
  admitted : ∀ {x} link (v : AdmissionValues), 160 ≤ v.inTarget ∧ v.inTarget ≤ 800 → 160 ≤ v.outTarget ∧ v.outTarget ≤ 800 →
    x.state = .empty → law x → law (admittedRecord x link v limit)
  idled : ∀ {x}, x.state ≠ .empty → x.state ≠ .lost → law x → law { x with idle := satSucc8 x.idle }
  stalled : ∀ {x}, x.state = .active → law x → law { x with state := .stalled }
  watched : ∀ {x} c threshold count, threshold ≤ 32768 → 1 ≤ count ∧ count ≤ 255 → law x →
    law { x with watch := { condition := c, threshold := threshold, count := count, run := 0 } }
  read : ∀ {x} (step : Nat) (stats : Stats), x.state.live = true → (x.stats.Bounded → stats.Bounded) → law x →
    law { x with
      inRing :=
        { x.inRing with
          samples := (fullPass step x.inRing.samples x.inRing.phase).left
          phase := (fullPass step x.inRing.samples x.inRing.phase).phase }
      stats := stats }
  delivered : ∀ {x} block, x.state = .active → block.length = 80 → law x → law (x.appendOut block)
  resynced : ∀ {x y}, x.state = .active → law x → law y →
    law { x with
      outRing := x.outRing.resync y.outRing
      stats := { x.stats with resync := satAdd16 x.stats.resync 1 } }
  heard : ∀ {x} block, law x → law (x.hear block)
  closedTalk : ∀ {x} primary state, law x →
    law { x with
      talker :=
        { x.talker with primary := primary, weight := talkerWeight x.role primary x.talker.level p }
      watch := { x.watch with run := runAfter x.watch state x.talker.level } }

/-- Every slot's record meets a law. -/
def State.All (s : State) (law : Slot → Prop) : Prop := ∀ i, law (s.slot i)

variable {q : Setting} {limit : Nat} {p : TalkParams} {law : Slot → Prop} {s t : State} {i k : SlotId}

theorem State.All.of_slots (hs : s.All law) (h : t.slots = s.slots) : t.All law := by
  intro j
  rewrite [State.slot, h]
  exact hs j

theorem State.All.setSlot (hs : s.All law) {x : Slot} (hx : law x) : (s.setSlot i x).All law := by
  intro j
  rewrite [State.slot_setSlot]
  split
  · exact hx
  · exact hs j

theorem State.All.modSlot (hs : s.All law) {f : Slot → Slot} (hx : law (f (s.slot i))) : (s.modSlot i f).All law :=
  hs.setSlot hx

/-! ### Roles and pairs (R25, R31 to R33) -/

theorem SlotLaw.led (hL : SlotLaw limit p law) {x : Slot} (role : Role) (hx : law x) : law { x with role := role } :=
  hL.paired role x.partner x.talker.primary hx

theorem SlotLaw.settlePairs (hL : SlotLaw limit p law) {lost : SlotId → Bool} {own : State → State}
    (hown : ∀ t, (own t).slots = t.slots) (hs : s.All law) : (s.settlePairs lost own).All law := by
  intro j
  rewrite [State.slot_settlePairs hown]
  obtain ⟨role, partner, primary, hj⟩ := pairedAfter_eq s.slots lost j
  rewrite [hj]
  exact hL.paired role partner primary (hs j)

/-- The lead taken changes roles alone. -/
theorem State.slot_takeLead (s : State) (i j : SlotId) : ∃ r, (s.takeLead i).slot j = { s.slot j with role := r } := by
  have keep : ∃ r, s.slot j = { s.slot j with role := r } := ⟨(s.slot j).role, rfl⟩
  unfold State.takeLead
  split
  · next k _ =>
    split
    · dsimp only
      rewrite [State.raiseSlot_slot, State.slot_modSlot, State.slot_modSlot, State.slot_modSlot]
      split
      · next h =>
        subst h
        refine ⟨.follower, ?_⟩
        split
        · next h => rw [h]
        · rfl
      · split
        · next h => exact ⟨.leader, by rw [h]⟩
        · exact keep
    · exact keep
  · exact keep

theorem SlotLaw.takeLead (hL : SlotLaw limit p law) (hs : s.All law) : (s.takeLead i).All law := by
  intro j
  obtain ⟨r, hr⟩ := s.slot_takeLead i j
  rewrite [hr]
  exact hL.led r (hs j)

theorem SlotLaw.formPair (hL : SlotLaw limit p law) (hs : s.All law) : (s.formPair i k).All law :=
  State.All.modSlot (State.All.modSlot hs (hL.paired _ _ _ (hs i)))
    (hL.paired _ _ _ (State.All.modSlot hs (hL.paired _ _ _ (hs i)) k))

/-! ### The ways into EMPTY, LOST and ACTIVE -/

theorem SlotLaw.vacate (hL : SlotLaw limit p law) (hs : s.All law) : (s.vacate i).All law :=
  (hs.setSlot (hL.emptied (hs i))).of_slots (State.zeroIfLive_slots ..)

theorem SlotLaw.failSlot (hL : SlotLaw limit p law) (hs : s.All law) (r : SlotReason) (l : Option Byte) :
    (s.failSlot i r l).All law :=
  hL.settlePairs (fun _ => rfl) (hL.vacate hs)

theorem SlotLaw.removeSlot (hL : SlotLaw limit p law) (hs : s.All law) : (s.removeSlot i).All law :=
  hL.settlePairs (fun _ => rfl) (hL.vacate (hs.of_slots (State.release_slots ..)))

theorem SlotLaw.lose (hL : SlotLaw limit p law) (hs : s.All law) (hlive : (s.slot i).state.live = true)
    (h : Option Handle) : (s.lose i h).All law :=
  (hs.setSlot (hL.lost h hlive (hs i))).of_slots (State.zeroIfLive_slots ..)

theorem SlotLaw.activate (hL : SlotLaw limit p law) (hs : s.All law) (h : (s.slot i).state = .filling) :
    (s.activate i).All law :=
  hL.takeLead (State.All.of_slots (hs.modSlot (f := fun x => { x with state := .active }) (hL.activated h (hs i))) rfl)

theorem SlotLaw.fillTest (hL : SlotLaw limit p law) (hs : s.All law) : (s.fillTest i).All law := by
  unfold State.fillTest
  split
  · next h => exact hL.activate hs h.1
  · exact hs

theorem SlotLaw.changeSlots (hL : SlotLaw limit p law) {f : Slot → Slot × Option SlotReason} (b : Option SlotReason)
    (hf : ∀ x, law x → law (f x).1) (hs : s.All law) : (s.changeSlots f b).All law := by
  intro j
  rewrite [State.slot_changeSlots]
  obtain ⟨role, partner, primary, hj⟩ := pairedAfter_eq (s.slots.map fun x => (f x).1)
    (fun i => (f (s.slot i)).2.isSome && (f (s.slot i)).2 == b) j
  rewrite [hj]
  refine hL.paired role partner primary ?_
  rewrite [PerSlot.get_map]
  exact hf _ (hs j)

/-! ### Traffic (R5, R7, R10, R53, R62) -/

theorem SlotLaw.activity (hL : SlotLaw limit p law) (hs : s.All law) (hh : (s.slot i).handle.isSome) :
    (s.activity i).All law := by
  have touched : (s.modSlot i fun x => { x with idle := 0 }).All law := hs.modSlot (hL.touched (hs i))
  unfold State.activity
  dsimp only
  split
  · next h =>
    exact hL.takeLead (State.All.of_slots
      (State.All.modSlot (f := fun x => { x with state := .active }) touched (hL.resumed h (touched i))) rfl)
  · next h =>
    exact State.All.of_slots (State.All.modSlot (f := Slot.measuring) touched (hL.recovered h (by simpa using hh) (touched i))) rfl
  · exact touched

/-- After activity a slot is not LOST, and it holds the handle it held. -/
theorem State.activity_self (s : State) (i : SlotId) :
    ((s.activity i).slot i).state ≠ .lost ∧ ((s.activity i).slot i).handle = (s.slot i).handle := by
  unfold State.activity
  dsimp only
  split
  · obtain ⟨r, hr⟩ := State.slot_takeLead
      (((s.modSlot i fun x => { x with idle := 0 }).modSlot i fun x => { x with state := .active }).raiseSlot i
        .resumed ((s.modSlot i fun x => { x with idle := 0 }).slot i).handle none) i i
    rewrite [hr]
    simp
  · simp [Slot.measuring, Slot.flush]
  · next h => exact ⟨h, by simp⟩

theorem Stats.Bounded.afterMic {c : Stats} (h : c.Bounded) (e : MicEffect) (bad : Bool) : (c.afterMic e bad).Bounded := by
  obtain ⟨hmic, _, _, hlate, hbad, _, hstarve, hpulls, hshort, houtOver, hresync⟩ := h
  refine ⟨hmic, satAdd16_le _ _, satAdd16_le _ _, hlate, ?_, satAdd16_le _ _, hstarve, hpulls, hshort, houtOver, hresync⟩
  unfold Stats.afterMic
  dsimp only
  split
  · exact satAdd16_le _ _
  · exact hbad

theorem SlotLaw.takeBlock (hL : SlotLaw limit p law) (hs : s.All law) (hh : (s.slot i).handle.isSome)
    (hlost : (s.slot i).state ≠ .lost) (g : Nat) (seq : SeqNum) (stamp : Stamp) (bad : Bool) {samples : List Sample}
    (hl : samples.length = 80) : (s.takeBlock i g seq stamp bad samples).All law := by
  let e := micEffect (s.slot i).inRing (s.slot i).state.live (s.slot i).inTarget g bad samples
  have taken : (s.modSlot i fun x => { x with
      inRing :=
        if x.state.acquiring then InRing.trim { e.ring with expected := some (seq + 1) } x.inTarget
        else { e.ring with expected := some (seq + 1) }
      stats := x.stats.afterMic e bad }).All law :=
    hs.modSlot (hL.block g seq bad samples hh hlost hl (hs i))
  exact hL.fillTest (taken.of_slots (by simp [e]))

theorem SlotLaw.takeMic (hL : SlotLaw limit p law) (hs : s.All law) (h : Handle) (seq : SeqNum) (stamp : Stamp)
    (bad : Bool) {samples : List Sample} (hl : samples.length = 80) : (s.takeMic h seq stamp bad samples).All law := by
  unfold State.takeMic
  split
  · next i hi =>
    obtain ⟨hlost, hhandle⟩ := s.activity_self i
    have hbound : (s.slot i).handle.isSome := by rewrite [State.boundSlot_some hi]; rfl
    have active := hL.activity hs hbound
    have bound : ((s.activity i).slot i).handle.isSome := hhandle ▸ hbound
    have counted : ((s.activity i).count i fun c => { c with micIn := satAdd16 c.micIn 1 }).All law :=
      active.modSlot (hL.counted _ (fun b => ⟨satAdd16_le _ _, b.2⟩) (active i))
    unfold State.micOnSlot
    dsimp only
    split
    · refine State.All.of_slots (State.All.modSlot counted (hL.counted _ ?_ (counted i))) (State.slotAnomaly_slots ..)
      rintro ⟨hmic, hconc, hskip, _, rest⟩
      exact ⟨hmic, hconc, hskip, satAdd16_le _ _, rest⟩
    · refine hL.takeBlock counted ?_ ?_ _ _ _ _ hl
      · simpa [State.count] using bound
      · simpa [State.count] using hlost
  split
  · exact hs
  · exact hs.of_slots (State.anomaly_slots ..)

/-- The step of an outbound pass is computed, or is one that a LEADER holds (R38). -/
theorem State.outboundStep_cases (s : State) (i : SlotId) :
    (∃ t8, s.outboundStep i = stepOf t8) ∨ ∃ k, (s.slot k).outRing.lastStep = some (s.outboundStep i) := by
  unfold State.outboundStep
  split
  · next k _ =>
    split
    · next step hk =>
      split
      · exact .inr ⟨k, hk⟩
      · exact .inl ⟨_, rfl⟩
    · exact .inl ⟨_, rfl⟩
  · exact .inl ⟨_, rfl⟩

theorem SlotLaw.takeOutboundPass (hL : SlotLaw limit p law) (hs : s.All law) (ha : (s.slot i).state = .active)
    (seq : SeqNum) (stamp : Stamp) : (s.takeOutboundPass i seq stamp).All law := by
  refine State.All.of_slots (hs.modSlot (hL.served (s.outboundStep i) seq _ ha ?_ ?_ (hs i)))
    (State.slotAnomaly_slots ..)
  · rcases s.outboundStep_cases i with h | ⟨k, hk⟩
    · exact .inl h
    · exact .inr ⟨_, hs k, hk⟩
  · rintro ⟨hmic, hconc, hskip, hlate, hbad, hover, hstarve, hpulls, _, rest⟩
    exact ⟨hmic, hconc, hskip, hlate, hbad, hover, hstarve, hpulls, satAdd16_le _ _, rest⟩

/-! ### Slot windows (R84 to R86, R92) -/

theorem SlotLaw.openWindow (hL : SlotLaw limit p law) (hs : s.All law) (hh : (s.slot i).handle.isSome)
    (hlost : (s.slot i).state ≠ .lost) (seq : SeqNum) (stamp : Stamp) : (s.openWindow i seq stamp).All law :=
  hs.modSlot (hL.opened _ hh hlost (hs i))

/-- The slot of a window's result is EMPTY, or it holds its handle and is not LOST. -/
theorem State.measuringResult_self (hlost : (s.slot i).state ≠ .lost) (m : Int) :
    ((s.measuringResult i m).slot i).state = .empty ∨
      (((s.measuringResult i m).slot i).handle = (s.slot i).handle ∧
        ((s.measuringResult i m).slot i).state ≠ .lost) := by
  have keep : (s.slot i).handle = (s.slot i).handle ∧ (s.slot i).state ≠ .lost := ⟨rfl, hlost⟩
  unfold State.measuringResult
  split
  · split
    · refine .inr ?_
      unfold State.fillTest
      split
      · unfold State.activate
        obtain ⟨r, hr⟩ := State.slot_takeLead ((((s.modSlot i fun x => { x with state := .filling }).modSlot i fun x =>
          { x with state := .active }).zeroGains i).raiseSlot i .active
            ((s.modSlot i fun x => { x with state := .filling }).slot i).handle none) i i
        rewrite [hr]
        simp
      · simp
    split
    · refine .inl ?_
      rewrite [State.failSlot, State.slot_settlePairs (fun _ => State.raiseSlot_slots ..)]
      obtain ⟨role, partner, primary, hj⟩ :=
        pairedAfter_eq ((s.release (s.slot i).handle).vacate i).slots (fun _ => false) i
      rewrite [hj, State.slot_def, State.slot_vacate_self]
      rfl
    · exact .inr keep
  · exact .inr keep

/-- A completed window leaves every record lawful: one that fails for the third time is emptied (R8, R92). -/
theorem SlotLaw.completeWindow (hL : SlotLaw limit p law) (hlim : s.limits.slotLimit = limit) (hs : s.All law)
    (hh : (s.slot i).handle.isSome) (hlost : (s.slot i).state ≠ .lost) (d : Nat) (n : BitVec 32) (seq : SeqNum)
    (stamp : Stamp) : (s.completeWindow i d n seq stamp).All law := by
  unfold State.completeWindow
  dsimp only
  generalize measuredValue (Config.mixPeriodTicks * d) n.toNat = m
  let x := (s.slot i).afterWindow m limit
  let u := ((s.modSlot i fun x => x.afterWindow m s.limits.slotLimit).raiseRate i m d n).compareRates i m
  have hu : u.slots = (s.setSlot i x).slots := by
    simp only [u, x, State.compareRates_slots, State.raiseRate_slots, State.modSlot, hlim]
  have hui : u.slot i = x := by rw [State.slot, hu, State.slot_def, State.slot_setSlot_self]
  have hul : u.limits.slotLimit = limit := by simp [u, hlim]
  have result : (u.measuringResult i m).All law := by
    by_cases hfail : (s.slot i).state = .measuring ∧ 3 ≤ x.failCount
    · obtain ⟨hm, h3⟩ := hfail
      have outside : withinLimit m u.limits.slotLimit = false := by
        rewrite [hul]
        by_contra hw
        have hw' : withinLimit m limit = true := by simpa using hw
        simp [x, Slot.afterWindow, hm, hw'] at h3
      rewrite [State.measuringResult_fail (by rewrite [hui]; exact hm) outside (by rewrite [hui]; exact h3)]
      refine hL.settlePairs (fun _ => rfl) (State.All.of_slots ?_ (State.zeroIfLive_slots ..))
      have vacated : ((u.release (u.slot i).handle).setSlot i ((u.release (u.slot i).handle).slot i).emptied).slots =
          (s.setSlot i (s.slot i).emptied).slots := by
        refine State.slots_ext fun j => ?_
        rewrite [State.slot_setSlot, State.slot_setSlot, State.release_slot, State.release_slot, hui, State.slot, hu,
          State.slot_def, State.slot_setSlot]
        split
        · rfl
        · rfl
      exact (hs.setSlot (hL.emptied (hs i))).of_slots vacated
    · have hx : law x := hL.closed m (fun hm => Nat.lt_of_not_le fun h3 => hfail ⟨hm, h3⟩) (hs i)
      have hu' : u.All law := (hs.setSlot hx).of_slots hu
      unfold State.measuringResult
      split
      · next hm =>
        split
        · exact hL.fillTest (State.All.modSlot hu' (hL.passed hm (hu' i)))
        split
        · exact hL.failSlot (hu'.of_slots (State.release_slots ..)) _ _
        · exact hu'
      · exact hu'
  split
  · exact result
  · next hempty =>
    have hui' : (u.slot i).state ≠ .lost := by rewrite [hui]; exact hlost
    rcases State.measuringResult_self hui' m with h | ⟨hhandle, hl⟩
    · exact absurd h hempty
    · refine hL.openWindow result ?_ hl seq stamp
      rewrite [hhandle, hui]
      exact hh

theorem SlotLaw.windowPull (hL : SlotLaw limit p law) (hlim : s.limits.slotLimit = limit) (hs : s.All law)
    (hh : (s.slot i).handle.isSome) (hlost : (s.slot i).state ≠ .lost) (seq : SeqNum) (stamp : Stamp) :
    (s.windowPull i seq stamp).All law := by
  have discard : (s.discardWindow i seq stamp).All law :=
    hL.openWindow (hs.of_slots (State.anomaly_slots ..)) (by simpa using hh) (by simpa using hlost) seq stamp
  unfold State.windowPull
  split
  · exact hL.openWindow hs hh hlost seq stamp
  split
  · exact hs
  · split
    · exact discard
    · exact hL.completeWindow hlim hs hh hlost _ _ seq stamp
  · exact discard
  · exact hs

theorem SlotLaw.takePull (hL : SlotLaw limit p law) (hlim : s.limits.slotLimit = limit) (hs : s.All law) (h : Handle)
    (seq : SeqNum) (stamp : Stamp) : (s.takePull h seq stamp).All law := by
  unfold State.takePull
  split
  · next i hi =>
    obtain ⟨hlost, hhandle⟩ := s.activity_self i
    have hbound : (s.slot i).handle.isSome := by rewrite [State.boundSlot_some hi]; rfl
    have active := hL.activity hs hbound
    unfold State.pullOnSlot
    dsimp only
    let u := (s.activity i).count i fun c => { c with pulls := satAdd16 c.pulls 1 }
    have counted : u.All law := by
      refine active.modSlot (hL.counted _ ?_ (active i))
      rintro ⟨hmic, hconc, hskip, hlate, hbad, hover, hstarve, _, rest⟩
      exact ⟨hmic, hconc, hskip, hlate, hbad, hover, hstarve, satAdd16_le _ _, rest⟩
    have hu : (u.slot i).handle.isSome ∧ (u.slot i).state ≠ .lost := by
      simp only [u, State.count, State.slot_modSlot_self]
      exact ⟨hhandle ▸ hbound, hlost⟩
    show State.All (if (u.slot i).state = .active then _ else _) law
    split
    · next ha =>
      refine State.All.of_slots (hL.windowPull ?_ (hL.takeOutboundPass counted ha seq stamp) ?_ ?_ seq stamp)
        (State.send_slots ..)
      · simpa [u] using hlim
      · simpa [State.takeOutboundPass] using hu.1
      · simpa [State.takeOutboundPass] using hu.2
    · refine State.All.of_slots (hL.windowPull ?_ counted hu.1 hu.2 seq stamp) (State.send_slots ..)
      simpa [u] using hlim
  split
  · exact hs
  · exact hs.of_slots (State.anomaly_slots ..)

/-! ### Links (R11 to R17) -/

theorem SlotLaw.linkDown (hL : SlotLaw limit p law) (hs : s.All law) (h : Handle) (r : Option Byte) :
    (s.linkDown h r).All law := by
  unfold State.linkDown
  split
  · unfold State.linkDownSlot
    split
    · exact hL.failSlot hs _ _
    · exact hL.failSlot hs _ _
    · next ha => exact hL.settlePairs (fun _ => rfl) (hL.lose hs (by rewrite [ha]; rfl) none)
    · next ha => exact hL.settlePairs (fun _ => rfl) (hL.lose hs (by rewrite [ha]; rfl) none)
    · next hl => exact hs.modSlot (hL.unbound hl (hs _))
    · exact hs
  · exact hs

theorem SlotLaw.rebind (hL : SlotLaw limit p law) (hs : s.All law) (hne : (s.slot i).state ≠ .empty)
    (link : PendingLink) : (s.rebind i link).All law := by
  have bound : ((s.release (s.slot i).handle).setSlot i
      { (s.slot i).measuring with handle := some link.handle, mic := link.mic }).All law :=
    (hs.of_slots (State.release_slots ..)).setSlot (hL.relinked link.handle link.mic hne (hs i))
  unfold State.rebind
  dsimp only
  split
  · exact bound.of_slots rfl
  · exact bound.of_slots (State.zeroIfLive_slots ..)

theorem SlotLaw.admitInto (hL : SlotLaw limit p law) (hlim : s.limits.slotLimit = limit) (hs : s.All law)
    (hempty : (s.slot i).state = .empty) (link : PendingLink) {v : AdmissionValues}
    (hin : 160 ≤ v.inTarget ∧ v.inTarget ≤ 800) (hout : 160 ≤ v.outTarget ∧ v.outTarget ≤ 800)
    (partner : Option SlotId) : (s.admitInto i link v partner).All law := by
  have admitted : (s.modSlot i fun x => admittedRecord x link v s.limits.slotLimit).All law := by
    rewrite [hlim]
    exact hs.modSlot (hL.admitted link v hin hout hempty (hs i))
  cases partner with
  | none => exact admitted
  | some k => exact hL.formPair admitted

theorem resolveTarget_range (requested : Option (BitVec 16)) (ofProfile : Option Nat) (default : Nat) :
    160 ≤ resolveTarget requested ofProfile default ∧ resolveTarget requested ofProfile default ≤ 800 := by
  unfold resolveTarget
  rewrite [clampTarget_eq]
  omega

theorem SlotLaw.linkUp (hL : SlotLaw limit p law) (hlim : s.limits.slotLimit = limit) (hs : s.All law)
    (link : PendingLink) : (s.linkUp link).All law := by
  have down : (s.linkDown link.handle none).All law := hL.linkDown hs link.handle none
  unfold State.linkUp State.placeLink
  split
  · next i hi => exact hL.rebind down (State.slotOfIdentity_some hi).1 link
  split
  · next i prof hauto _ =>
    unfold State.autoAdmit
    dsimp only
    refine State.All.of_slots (hL.admitInto ?_ (State.All.of_slots down (State.supersede_slots ..)) ?_ link
      (resolveTarget_range none prof.inTarget 320) (resolveTarget_range none prof.outTarget 240) _)
      (State.raiseSlot_slots ..)
    · simpa using hlim
    · unfold State.autoSlot at hauto
      split at hauto
      · next hlow =>
        split at hauto <;> cases hauto
        rewrite [State.supersede_slot]
        exact State.lowestEmpty_some hlow
      · cases hauto
  · exact State.All.of_slots down (State.appendPending_slots ..)

/-! ### Mix periods (R128, R134, R148) -/

theorem SlotLaw.micInput (hL : SlotLaw limit p law) {states : PerSlot SlotState} {c : Pacing} (hs : s.All law)
    (hi : (s.slot i).state = states.get i) : (s.micInput states c i).1.All law := by
  unfold State.micInput
  split
  · next hlive =>
    let r := fullPass (s.inboundStep states c i) (s.slot i).inRing.samples (s.slot i).inRing.phase
    let x : Slot := { s.slot i with
        inRing := { (s.slot i).inRing with samples := r.left, phase := r.phase }
        stats :=
          if (s.slot i).mic && decide (0 < r.short) then
            { (s.slot i).stats with inStarve := satAdd16 (s.slot i).stats.inStarve r.short }
          else (s.slot i).stats }
    have slots : (s.inboundPass states c i).1.slots = (s.setSlot i x).slots := by
      by_cases starved : ((s.slot i).mic && decide (0 < r.short)) = true
      · simp only [State.inboundPass, x, r, if_pos starved, State.anomaly_slots]
      · simp only [State.inboundPass, x, r, if_neg starved]
    refine State.All.of_slots (hs.setSlot (x := x) ?_) slots
    · refine hL.read _ _ (by rewrite [hi]; exact hlive) (fun hb => ?_) (hs i)
      obtain ⟨hmic, hconc, hskip, hlate, hbad, hover, _, rest⟩ := id hb
      split
      · exact ⟨hmic, hconc, hskip, hlate, hbad, hover, satAdd16_le _ _, rest⟩
      · exact hb
  · exact hs

theorem AudioOnly.state {states : PerSlot SlotState} (h : AudioOnly states s t) (i : SlotId) :
    (t.slot i).state = (s.slot i).state := by
  rw [(h i).1]

theorem SlotLaw.micInputs (hL : SlotLaw limit p law) {states : PerSlot SlotState} {c : Pacing} (hs : s.All law)
    (hi : ∀ i, (s.slot i).state = states.get i) : (s.micInputs states c).1.All law := by
  have next : ∀ {t : State} (k : SlotId), AudioOnly states s t → t.All law → (t.micInput states c k).1.All law :=
    fun k ha ht => hL.micInput ht ((ha.state k).trans (hi k))
  let t1 := (s.micInput states c .s0).1
  let t2 := (t1.micInput states c .s1).1
  let t3 := (t2.micInput states c .s2).1
  have a1 : AudioOnly states s t1 := s.micInput_audioOnly states c .s0
  have a2 : AudioOnly states s t2 := a1.trans (State.micInput_audioOnly _ states c .s1)
  have a3 : AudioOnly states s t3 := a2.trans (State.micInput_audioOnly _ states c .s2)
  have h1 : t1.All law := next .s0 (.of_slots rfl) hs
  have h2 : t2.All law := next .s1 a1 h1
  have h3 : t3.All law := next .s2 a2 h2
  exact next .s3 a3 h3

theorem length_mixedBlock (g : GainRow) (x : MixInputs) : (mixedBlock g x).length = 80 := by
  simp [mixedBlock, positions]

theorem SlotLaw.deliver (hL : SlotLaw limit p law) {states : PerSlot SlotState} (hs : s.All law)
    (hi : ∀ i, (s.slot i).state = states.get i) (c : Pacing) (x : MixInputs) : (s.deliver states c x).All law := by
  intro j
  rewrite [State.slot, State.deliver, PerSlot.get_tabulate]
  split
  · next h => exact hL.delivered _ (by rw [hi, h]) (length_mixedBlock ..) (hs j)
  · exact hs j

theorem SlotLaw.fillCheck (hL : SlotLaw limit p law) {states : PerSlot SlotState} (hs : s.All law)
    (hi : (s.slot i).state = states.get i) : (s.fillCheck states i).All law := by
  unfold State.fillCheck
  split
  · exact hs
  · dsimp only
    split
    · next k _ h =>
      exact State.All.of_slots (hs.modSlot (hL.resynced (by rw [hi, h.1]) (hs i) (hs k))) (State.raise_slots ..)
    · exact hs

theorem SlotLaw.fillChecks (hL : SlotLaw limit p law) {states : PerSlot SlotState} (hs : s.All law)
    (hi : ∀ i, (s.slot i).state = states.get i) : (s.fillChecks states).All law := by
  unfold State.fillChecks
  generalize SlotId.all = l
  induction l generalizing s with
  | nil => exact hs
  | cons i l ih =>
    exact ih (hL.fillCheck hs (hi i)) fun j => ((s.fillCheck_audioOnly states i).state j).trans (hi j)

theorem SlotLaw.idlePeriod (hL : SlotLaw limit p law) (timeout : Nat) {x : Slot} (hx : law x) :
    law (x.idlePeriod timeout).1 := by
  have idled : x.state ≠ .empty → x.state ≠ .lost → law { x with idle := satSucc8 x.idle } :=
    fun he hl => hL.idled he hl hx
  unfold Slot.idlePeriod
  dsimp only
  split
  · exact hx
  · exact hx
  · next ha =>
    have h := idled (by rewrite [ha]; decide) (by rewrite [ha]; decide)
    split
    · exact hL.stalled (x := { x with idle := satSucc8 x.idle }) ha h
    · exact h
  · next ha =>
    have h := idled (by rewrite [ha]; decide) (by rewrite [ha]; decide)
    split
    · exact hL.lost (x := { x with idle := satSucc8 x.idle }) _ (by show x.state.live = true; rewrite [ha]; rfl) h
    · exact h
  all_goals
    next ha =>
      have h := idled (by rewrite [ha]; decide) (by rewrite [ha]; decide)
      split
      · exact hL.emptied h
      · exact h

theorem SlotLaw.slotPeriod (hL : SlotLaw limit p law) (hs : s.All law) : s.slotPeriod.All law :=
  hL.changeSlots _ (fun _ hx => hL.idlePeriod _ hx) (hs.of_slots (State.releaseSilent_slots _))

theorem SlotLaw.talkerClose (hL : SlotLaw limit p law) (hp : s.talk = p) (hs : s.All law) (states : PerSlot SlotState)
    (e : PerSlot (List Sample)) : (s.talkerClose states e).All law := by
  intro j
  rewrite [State.talkerClose_eq, State.slot]
  show law ((PerSlot.tabulate (s.closedSlot states (s.heard states e))).get j)
  rewrite [PerSlot.get_tabulate, State.closedSlot, hp]
  refine hL.closedTalk _ _ ?_
  rewrite [State.heard, PerSlot.get_tabulate]
  split
  · exact hL.heard _ (hs j)
  · exact hs j

theorem SlotLaw.mixPeriod (hL : SlotLaw limit p law) (hp : s.talk = p) (hs : s.All law) (c : Pacing) (d : List Sample) :
    (s.mixPeriod c d).All law := by
  unfold State.mixPeriod
  dsimp only
  let states := s.slotStates
  let ramped := s.countPeriod.rampGains states
  let mics := ramped.micInputs states c
  let x : MixInputs := { d := d, e := mics.2, p := mics.1.promptInput.2 }
  let n := saturations mics.1.promptInput.1.mix.applied states c x
  let mixed := mics.1.promptInput.1.raiseMixsat n c
  have raised : ∀ i, (s.slot i).state = states.get i := fun i => (s.slotStates_get i).symm
  have audio : AudioOnly states s mics.1 :=
    (AudioOnly.of_slots (by simp [ramped])).trans (State.micInputs_audioOnly ramped states c)
  have hmics : mics.1.All law := hL.micInputs (s := ramped) (hs.of_slots (by simp [ramped])) fun i => by
    simpa [ramped] using raised i
  have slots : mixed.slots = mics.1.slots := by simp [mixed]
  have audio' : AudioOnly states s mixed := audio.trans (.of_slots slots)
  have hdelivered : (mixed.deliver states c x).All law :=
    hL.deliver (hmics.of_slots slots) (fun i => (audio'.state i).trans (raised i)) c x
  have hchecked : ((mixed.deliver states c x).fillChecks states).All law :=
    hL.fillChecks hdelivered fun i => ((audio'.trans (mixed.deliver_audioOnly states c x)).state i).trans (raised i)
  refine hL.talkerClose ?_ (hL.slotPeriod hchecked) states mics.2
  simpa [mixed, mics, ramped] using hp

theorem SlotLaw.takeStrobe (hL : SlotLaw limit p law) (hp : s.talk = p) (hs : s.All law) (tick : Nat) (d : Sample) :
    (s.takeStrobe tick d).All law := by
  have period : ∀ {t : State}, t.talk = p → t.All law → (t.endPeriod tick).All law := by
    intro t ht hall
    unfold State.endPeriod
    split
    · refine hL.mixPeriod ?_ ?_ _ _
      · exact ht
      · exact hall
    · exact hall
  unfold State.takeStrobe
  split
  · exact period (by simpa using hp) (hs.of_slots (by simp))
  · exact period (by simpa using hp) (hs.of_slots (by simp))
  · exact period (by simpa using hp) (hs.of_slots (by simp))

/-! ### Every change -/

/-- A law of a record that is closed under the changes of a record holds of every slot after every change of the part but
LIMIT.SET. -/
theorem SlotLaw.links (hL : SlotLaw s.limits.slotLimit s.talk law) (hs : s.All law) (h : Links s t) : t.All law := by
  induction h
  case countersCleared i => exact hs.modSlot (hL.counted _ (fun _ => by simp [Stats.Bounded, Stats.zero]) (hs i))
  case accepted hd e i side named inT outT seed found passed =>
    have hin := resolveTarget_range inT ((s.profileOf e.identity).bind fun p => p.inTarget) 320
    have hout := resolveTarget_range outT ((s.profileOf e.identity).bind fun p => p.outTarget) 240
    refine hL.admitInto ?_ (hs.of_slots ?_) ?_ e hin hout _
    · rfl
    · rfl
    by_contra hne
    have hne' : (s.slot i).state ≠ .empty := hne
    simp [State.admitRefusal, hne'] at passed
  case declined => exact hs.of_slots (by simp)
  case removed => exact hL.removeSlot hs
  case watchSet i c threshold count =>
    refine hs.modSlot (hL.watched c _ _ ?_ ?_ (hs i))
    · rewrite [clampNat_eq (by decide)]
      omega
    · rewrite [clampNat_eq (by decide)]
      omega
  case badRadioFrame => exact hs.of_slots (by simp)
  case linkUp link _ => exact hL.linkUp rfl hs link
  case linkDown => exact hL.linkDown hs _ _
  case mic hl => exact hL.takeMic hs _ _ _ _ hl
  case pull => exact hL.takePull rfl hs _ _ _
  case portReset =>
    refine State.All.of_slots (hL.changeSlots _ (fun x hx => ?_) hs) (State.setPendingLinks_slots ..)
    unfold Slot.portReset
    split
    · exact hx
    · exact hL.emptied hx
    · exact hL.emptied hx
    · next ha => exact hL.lost none (by rewrite [ha]; rfl) hx
    · next ha => exact hL.lost none (by rewrite [ha]; rfl) hx
    · next hl => exact hL.unbound hl hx
  all_goals exact hs

theorem SlotLaw.changes (hL : SlotLaw s.limits.slotLimit s.talk law) (hs : s.All law) (h : Changes s q t) :
    t.All law ∨ ∃ slotL callL pairT loss ramp,
      t = s.withLimits (s.limits.updated slotL callL pairT loss ramp) slotL.isSome callL.isSome := by
  induction h
  case powerOn => exact .inl fun i => by cases i <;> exact hL.initial
  case softReset =>
    refine .inl fun i => ?_
    show law ((PerSlot.map (fun x => x.softReset s.talk) (s.releaseAll.setPendingLinks []).slots).get i)
    rewrite [PerSlot.get_map, State.setPendingLinks_slots, State.releaseAll_slots]
    exact hL.afterReset (hs i)
  case sets h =>
    induction h
    case limitSet slotL callL pairT loss ramp => exact .inr ⟨slotL, callL, pairT, loss, ramp, rfl⟩
    all_goals exact .inl hs
  case plays h => induction h <;> exact .inl hs
  case ticks h =>
    refine .inl ?_
    induction h
    case strobe => exact hL.takeStrobe rfl hs _ _
    case strobeTimeout => exact hs
    case localTimer due _ =>
      refine hL.mixPeriod ?_ ?_ _ _
      · rfl
      · exact hs
  case links h => exact .inl (hL.links hs h)

end Sys2Proof.Machine
end

section
/-!
SUPPORT. The laws of one slot's record, each closed under the changes of a record: counters and levels (R65, R136), rate
estimates (R91), rings (R50), talker weights (R136); with the arithmetic of smoothed levels and passes that they turn on.
-/
namespace Sys2Proof.Machine

variable {q : Setting} {limit : Nat} {p : TalkParams} {s t : State} {i k : SlotId}

/-! ### Levels and weights (R138 to R140) -/

/-- A truncated share of the way between two values stays between them. -/
theorem share_between (x y : Int) (k : Nat) : min x y ≤ x + Int.tdiv (y - x) k ∧ x + Int.tdiv (y - x) k ≤ max x y := by
  have share : ∀ {d : Int}, 0 ≤ d → 0 ≤ d / k ∧ d / k ≤ d := fun h =>
    ⟨Int.ediv_nonneg h (Int.natCast_nonneg k), Int.ediv_le_self _ h⟩
  rcases Int.le_total x y with h | h
  · obtain ⟨low, high⟩ := share (Int.sub_nonneg_of_le h)
    rewrite [Int.tdiv_eq_ediv_of_nonneg (Int.sub_nonneg_of_le h), min_eq_left h, max_eq_right h]
    exact ⟨Int.le_add_of_nonneg_right low, Int.add_le_of_le_sub_left high⟩
  · obtain ⟨low, high⟩ := share (Int.sub_nonneg_of_le h)
    rewrite [← Int.neg_sub, Int.neg_tdiv, Int.tdiv_eq_ediv_of_nonneg (Int.sub_nonneg_of_le h), min_eq_right h, max_eq_left h]
    exact ⟨Int.le_sub_left_of_add_le (Int.add_le_of_le_sub_right high), Int.sub_le_self _ low⟩

/-- The smoothed level moves an eighth of the way, truncated. -/
theorem smoothLevel_eq (s l : Nat) : (smoothLevel s l : Int) = s + Int.tdiv ((l : Int) - s) 8 :=
  Int.toNat_of_nonneg ((le_min (Int.natCast_nonneg s) (Int.natCast_nonneg l)).trans (share_between s l 8).1)

theorem smoothLevel_between (s l : Nat) : min s l ≤ smoothLevel s l ∧ smoothLevel s l ≤ max s l := by
  have h : min (s : Int) l ≤ s + Int.tdiv ((l : Int) - s) 8 ∧ (s : Int) + Int.tdiv ((l : Int) - s) 8 ≤ max (s : Int) l :=
    share_between s l 8
  rewrite [← smoothLevel_eq] at h
  exact_mod_cast h

theorem peakLevel_le (block : List Sample) : peakLevel block ≤ 32768 := by
  have walk : ∀ (l : List Sample) (m : Nat), m ≤ 32768 → l.foldl (fun m x => max m x.toInt.natAbs) m ≤ 32768 := by
    intro l
    induction l with
    | nil => exact fun m h => h
    | cons x l ih =>
      intro m h
      refine ih _ (max_le h ?_)
      have := BitVec.le_toInt x
      have := BitVec.toInt_lt (x := x)
      omega
  exact walk block 0 (by omega)

theorem talkerWeight_le (hp : p.duckWeight ≤ 4096) (role : Role) (primary : Bool) (level : Nat) :
    talkerWeight role primary level p ≤ 4096 := by
  unfold talkerWeight
  dsimp only
  have table : (if role = .solo ∨ primary then 4096 else p.duckWeight) ≤ 4096 := by
    split
    · exact Nat.le_refl 4096
    · exact hp
  split
  · exact (min_le_left ..).trans table
  · exact table

/-! ### Counters, levels and watches (R5, R65, R66, R136) -/

theorem Stats.zero_bounded : Stats.zero.Bounded := by simp [Stats.Bounded, Stats.zero]

theorem runAfter_le (w : LevelWatch) (state : SlotState) (level : Nat) : runAfter w state level ≤ 255 := by
  unfold runAfter
  split
  · exact satSucc8_le _
  · omega

theorem Slot.countsLawful_of {x y : Slot} (hx : x.countsLawful) (hstats : x.stats.Bounded → y.stats.Bounded)
    (hidle : y.idle ≤ 255) (hfail : y.failCount ≤ 3) (hlevel : y.talker.level ≤ 32768)
    (hwatch : y.watch = { x.watch with run := y.watch.run }) (hrun : y.watch.run ≤ 255) : y.countsLawful := by
  obtain ⟨stats, _, _, _, threshold, count, count', _⟩ := hx
  refine ⟨hstats stats, hidle, hfail, hlevel, ?_⟩
  rewrite [hwatch]
  exact ⟨threshold, count, count', hrun⟩

theorem countsLawful_slotLaw (limit : Nat) (p : TalkParams) : SlotLaw limit p Slot.countsLawful where
  initial := ⟨Stats.zero_bounded, by decide⟩
  afterReset h := Slot.countsLawful_of h (fun _ => Stats.zero_bounded) (Nat.zero_le _) (Nat.zero_le _) (Nat.zero_le _) rfl
    (Nat.zero_le _)
  paired _ _ _ h := h
  touched h := Slot.countsLawful_of h id (Nat.zero_le _) h.2.2.1 h.2.2.2.1 rfl h.2.2.2.2.2.2.2
  counted _ hb h := ⟨hb h.1, h.2⟩
  resumed _ h := h
  recovered _ _ h := Slot.countsLawful_of h id (Nat.zero_le _) (Nat.zero_le _) (Nat.zero_le _) rfl (Nat.zero_le _)
  activated _ h := h
  passed _ h := h
  block _ _ _ _ _ _ _ h := ⟨h.1.afterMic _ _, h.2⟩
  served _ _ _ _ _ hb h := ⟨hb h.1, h.2⟩
  opened _ _ _ h := h
  closed m hf h := by
    refine Slot.countsLawful_of h id h.2.1 ?_ h.2.2.2.1 rfl h.2.2.2.2.2.2.2
    unfold Slot.afterWindow at hf ⊢
    dsimp only at hf ⊢
    split
    · next hm => exact Nat.le_of_lt (by simpa [hm] using hf hm)
    · exact h.2.2.1
  emptied h := Slot.countsLawful_of h id (Nat.zero_le _) (Nat.zero_le _) (Nat.zero_le _) rfl (Nat.zero_le _)
  lost _ _ h := h
  unbound _ h := h
  relinked _ _ _ h := Slot.countsLawful_of h id (Nat.zero_le _) (Nat.zero_le _) (Nat.zero_le _) rfl (Nat.zero_le _)
  admitted _ _ _ _ _ h := Slot.countsLawful_of h (fun _ => Stats.zero_bounded) (Nat.zero_le _) (Nat.zero_le _)
    (Nat.zero_le _) rfl (Nat.zero_le _)
  idled _ _ h := Slot.countsLawful_of h id (satSucc8_le _) h.2.2.1 h.2.2.2.1 rfl h.2.2.2.2.2.2.2
  stalled _ h := h
  watched _ _ _ ht hc h := ⟨h.1, h.2.1, h.2.2.1, h.2.2.2.1, ht, hc.1, hc.2, Nat.zero_le 255⟩
  read _ _ _ hb h := ⟨hb h.1, h.2⟩
  delivered block _ _ h := by
    unfold Slot.appendOut
    dsimp only
    obtain ⟨⟨hmic, hconc, hskip, hlate, hbad, hover, hstarve, hpulls, hshort, _, hresync⟩, rest⟩ := h
    exact ⟨⟨hmic, hconc, hskip, hlate, hbad, hover, hstarve, hpulls, hshort, satAdd16_le _ _, hresync⟩, rest⟩
  resynced _ h _ := by
    obtain ⟨⟨hmic, hconc, hskip, hlate, hbad, hover, hstarve, hpulls, hshort, hout, _⟩, rest⟩ := h
    exact ⟨⟨hmic, hconc, hskip, hlate, hbad, hover, hstarve, hpulls, hshort, hout, satAdd16_le _ _⟩, rest⟩
  heard block h := by
    refine Slot.countsLawful_of h id h.2.1 h.2.2.1 ?_ rfl h.2.2.2.2.2.2.2
    exact (smoothLevel_between _ _).2.trans (max_le h.2.2.2.1 (peakLevel_le block))
  closedTalk _ _ h := Slot.countsLawful_of h id h.2.1 h.2.2.1 h.2.2.2.1 rfl (runAfter_le _ _ _)

/-! ### Rate estimates (R91) -/

theorem seedEstimate_le (seed : Int) (limit : Nat) : (seedEstimate seed limit).natAbs ≤ limit := clampSym_natAbs _ _

theorem clampedValue_le (m : Int) (limit : Nat) : (clampedValue m limit).natAbs ≤ limit := clampSym_natAbs _ _

/-- A quarter of the way between two values within a limit stays within it. -/
theorem quarterStep_le {e c : Int} {limit : Nat} (he : e.natAbs ≤ limit) (hc : c.natAbs ≤ limit) :
    (quarterStep e c).natAbs ≤ limit := by
  have between : min e c ≤ quarterStep e c ∧ quarterStep e c ≤ max e c := share_between e c 4
  obtain ⟨he₁, he₂⟩ := abs_le.mp (Int.abs_eq_natAbs e ▸ Int.ofNat_le.mpr he)
  obtain ⟨hc₁, hc₂⟩ := abs_le.mp (Int.abs_eq_natAbs c ▸ Int.ofNat_le.mpr hc)
  have := abs_le.mpr ⟨(le_min he₁ hc₁).trans between.1, between.2.trans (max_le he₂ hc₂)⟩
  rwa [Int.abs_eq_natAbs, Int.ofNat_le] at this

/-- A slot's estimate lies within a limit. -/
def Slot.estimateWithin (limit : Nat) (x : Slot) : Prop := x.estimate.natAbs ≤ limit

theorem estimateWithin_slotLaw (limit : Nat) (p : TalkParams) : SlotLaw limit p (Slot.estimateWithin limit) where
  initial := Nat.zero_le _
  afterReset _ := Nat.zero_le _
  paired _ _ _ h := h
  touched h := h
  counted _ _ h := h
  resumed _ h := h
  recovered _ _ h := h
  activated _ h := h
  passed _ h := h
  block _ _ _ _ _ _ _ h := h
  served _ _ _ _ _ _ h := h
  opened _ _ _ h := h
  closed m _ h := by
    unfold Slot.estimateWithin Slot.afterWindow
    dsimp only
    split
    · exact clampedValue_le m limit
    · exact quarterStep_le h (clampedValue_le m limit)
  emptied _ := Nat.zero_le _
  lost _ _ h := h
  unbound _ h := h
  relinked _ _ _ h := h
  admitted _ _ _ _ _ _ := seedEstimate_le _ _
  idled _ _ h := h
  stalled _ h := h
  watched _ _ _ _ _ h := h
  read _ _ _ _ h := h
  delivered _ _ _ h := h
  resynced _ h _ := h
  heard _ h := h
  closedTalk _ _ h := h

/-! ### Talker weights (R136, R140) -/

/-- A slot's talker weight lies within 0..4096. -/
def Slot.weightWithin (x : Slot) : Prop := x.talker.weight ≤ 4096

theorem weightWithin_slotLaw (limit : Nat) (hp : p.duckWeight ≤ 4096) : SlotLaw limit p Slot.weightWithin where
  initial := (by decide : 1024 ≤ 4096)
  afterReset _ := talkerWeight_le hp _ _ _
  paired _ _ _ h := h
  touched h := h
  counted _ _ h := h
  resumed _ h := h
  recovered _ _ h := h
  activated _ h := h
  passed _ h := h
  block _ _ _ _ _ _ _ h := h
  served _ _ _ _ _ _ h := h
  opened _ _ _ h := h
  closed _ _ h := h
  emptied h := h
  lost _ _ h := h
  unbound _ h := h
  relinked _ _ _ h := h
  admitted _ _ _ _ _ h := h
  idled _ _ h := h
  stalled _ h := h
  watched _ _ _ _ _ h := h
  read _ _ _ _ h := h
  delivered _ _ _ h := h
  resynced _ h _ := h
  heard _ h := h
  closedTalk _ _ _ := talkerWeight_le hp _ _ _

/-! ### Rings (R50, R52, R58, R59, R104) -/

/-- A pass leaves no more than it found, at a phase below one sample. -/
theorem runPass_left (step : Nat) : ∀ (n : Nat) (ring : List Sample) (f : Nat), f < 1048576 →
    (runPass step n ring f).left.length ≤ ring.length ∧ (runPass step n ring f).phase < 1048576
  | 0, _, _, hf => ⟨Nat.le_refl _, hf⟩
  | n + 1, s0 :: s1 :: rest, f, _ => by
    obtain ⟨hleft, hphase⟩ := runPass_left step n ((s0 :: s1 :: rest).drop ((f + step) / Config.phaseOne))
      ((f + step) % Config.phaseOne) (Nat.mod_lt _ (by decide))
    refine ⟨hleft.trans ?_, hphase⟩
    rewrite [List.length_drop]
    exact Nat.sub_le _ _
  | n + 1, [], f, hf => runPass_left step n [] f hf
  | n + 1, [a], f, hf => runPass_left step n [a] f hf

/-- What a ring law asks of an inbound ring and of a history. -/
def InRing.fits (r : InRing) : Prop :=
  r.samples.length ≤ 1024 ∧ r.phase < 1048576 ∧ (∀ h, r.history = some h → h.length = 80) ∧ r.run ≤ 255

/-- The overrun rule makes room for a block and leaves a phase below one sample (R59, R61). -/
theorem overrun_fits (fill : Nat) {phase : Nat} (hphase : phase < 1048576) :
    fill - overrunDiscard fill + 80 ≤ 1024 ∧ (if overrunDiscard fill = 0 then phase else 0) < 1048576 := by
  have hover : overrunDiscard fill = if 1024 < fill + 80 then fill - 944 else 0 := rfl
  rewrite [hover]
  refine ⟨?_, ?_⟩
  · split
    · exact Nat.add_le_add_right (tsub_tsub_le : fill - (fill - 944) ≤ 944) 80
    · next h => exact Nat.le_of_not_lt h
  · generalize (if 1024 < fill + 80 then fill - 944 else 0) = n
    split
    · exact hphase
    · decide

/-- A block appended under the overrun rule (R59). -/
theorem InRing.append_live {r : InRing} (h : r.fits) {block : List Sample} (hb : block.length = 80) :
    (r.append true block).1.fits := by
  obtain ⟨-, hphase, hhist, hrun⟩ := h
  obtain ⟨fits, hphase'⟩ := overrun_fits r.samples.length hphase
  unfold InRing.append
  rewrite [if_pos rfl]
  refine ⟨?_, hphase', hhist, hrun⟩
  rewrite [List.length_append, List.length_drop, hb]
  exact fits

theorem length_conceal_block {r : InRing} (h : r.fits) (n : Nat) : (concealBlock r.history n).length = 80 :=
  length_concealBlock h.2.2.1 n

theorem InRing.conceal_live : ∀ (c : Nat) {r : InRing}, r.fits → (InRing.conceal true c r).1.fits
  | 0, _, h => h
  | c + 1, r, h => by
    have h' : ({ r with run := satSucc8 r.run } : InRing).fits := ⟨h.1, h.2.1, h.2.2.1, satSucc8_le _⟩
    exact conceal_live c (InRing.append_live h' (length_conceal_block h _))

/-- An acquiring slot's ring at phase 0, whatever its fill, with a lawful history and run. -/
def InRing.fresh (r : InRing) : Prop := r.phase = 0 ∧ (∀ h, r.history = some h → h.length = 80) ∧ r.run ≤ 255

theorem InRing.append_fresh {r : InRing} (h : r.fresh) (block : List Sample) : (r.append false block).1.fresh := by
  obtain ⟨hphase, hhist, hrun⟩ := h
  refine ⟨?_, hhist, hrun⟩
  simp [InRing.append, hphase]

theorem InRing.conceal_fresh : ∀ (c : Nat) {r : InRing}, r.fresh → (InRing.conceal false c r).1.fresh
  | 0, _, h => h
  | c + 1, r, h => by
    have h' : ({ r with run := satSucc8 r.run } : InRing).fresh := ⟨h.1, h.2.1, satSucc8_le _⟩
    exact conceal_fresh c (InRing.append_fresh h' _)

theorem InRing.appendReal_live {r : InRing} (h : r.fits) {block : List Sample} (hb : block.length = 80) :
    (r.appendReal true block).1.fits := by
  refine InRing.append_live (r := { r with history := some block, run := 0 }) ⟨h.1, h.2.1, ?_, Nat.zero_le _⟩ hb
  rintro b ⟨⟩
  exact hb

theorem InRing.appendReal_fresh {r : InRing} (h : r.fresh) {block : List Sample} (hb : block.length = 80) :
    (r.appendReal false block).1.fresh := by
  refine InRing.append_fresh (r := { r with history := some block, run := 0 }) ⟨h.1, ?_, Nat.zero_le _⟩ block
  rintro b ⟨⟩
  exact hb

theorem micEffect_live {r : InRing} (h : r.fits) (target g : Nat) (bad : Bool) {samples : List Sample}
    (hl : samples.length = 80) : (micEffect r true target g bad samples).ring.fits := by
  unfold micEffect
  dsimp only
  split
  · exact InRing.conceal_live _ (InRing.conceal_live _ h)
  · exact InRing.appendReal_live (InRing.conceal_live _ h) hl

theorem micEffect_fresh {r : InRing} (h : r.fresh) (target g : Nat) (bad : Bool) {samples : List Sample}
    (hl : samples.length = 80) : (micEffect r false target g bad samples).ring.fresh := by
  unfold micEffect
  dsimp only
  split
  · exact InRing.conceal_fresh _ (InRing.conceal_fresh _ h)
  · exact InRing.appendReal_fresh (InRing.conceal_fresh _ h) hl

theorem SlotState.acquiring_or {x : SlotState} (he : x ≠ .empty) (hl : x ≠ .lost) :
    (x.acquiring = true ∧ x.live = false) ∨ (x.acquiring = false ∧ x.live = true) := by
  cases x <;> simp_all [SlotState.acquiring, SlotState.live]

/-- The ring of an acquiring slot within its target, and rings flushed outside (R52, R58). -/
theorem Slot.ringsLawful_of {x y : Slot} (hx : x.ringsLawful) (hin : y.inRing.fits)
    (hout : y.outRing.samples.length ≤ 1024 ∧ y.outRing.phase < 1048576)
    (hstep : ∀ step, y.outRing.lastStep = some step → 1047527 ≤ step ∧ step ≤ 1049625)
    (htargets : y.inTarget = x.inTarget ∧ y.outTarget = x.outTarget)
    (hacq : y.state.acquiring = true → y.inRing.samples.length ≤ y.inTarget ∧ y.inRing.phase = 0)
    (hdead : y.state ≠ .empty ∧ y.state ≠ .lost) : y.ringsLawful := by
  obtain ⟨hinLen, hinPhase, hhist, hrun⟩ := hin
  obtain ⟨_, _, _, _, _, _, _, hin1, hin2, hout1, hout2, _⟩ := hx
  refine ⟨hinLen, hout.1, hinPhase, hout.2, hstep, hhist, hrun, ?_, ?_, ?_, ?_, hacq, ?_, ?_⟩
  · rewrite [htargets.1]; exact hin1
  · rewrite [htargets.1]; exact hin2
  · rewrite [htargets.2]; exact hout1
  · rewrite [htargets.2]; exact hout2
  · rintro (h | h)
    · exact absurd h hdead.1
    · exact absurd h hdead.2
  · exact fun h => absurd h hdead.1

/-- What a lawful record says of its inbound ring. -/
theorem Slot.ringsLawful.fits {x : Slot} (hx : x.ringsLawful) : x.inRing.fits := by
  obtain ⟨hlen, _, hphase, _, _, hhist, hrun, _⟩ := hx
  exact ⟨hlen, hphase, hhist, hrun⟩

theorem Slot.ringsLawful.out {x : Slot} (hx : x.ringsLawful) :
    (x.outRing.samples.length ≤ 1024 ∧ x.outRing.phase < 1048576) ∧
      ∀ step, x.outRing.lastStep = some step → 1047527 ≤ step ∧ step ≤ 1049625 := by
  obtain ⟨_, hlen, _, hphase, hstep, _⟩ := hx
  exact ⟨⟨hlen, hphase⟩, hstep⟩

theorem Slot.ringsLawful.acquiring {x : Slot} (hx : x.ringsLawful) (h : x.state.acquiring = true) :
    x.inRing.samples.length ≤ x.inTarget ∧ x.inRing.phase = 0 := by
  obtain ⟨_, _, _, _, _, _, _, _, _, _, _, hacq, _⟩ := hx
  exact hacq h

theorem Slot.ringsLawful.targets {x : Slot} (hx : x.ringsLawful) :
    160 ≤ x.inTarget ∧ x.inTarget ≤ 800 ∧ 160 ≤ x.outTarget ∧ x.outTarget ≤ 800 := by
  obtain ⟨_, _, _, _, _, _, _, hin1, hin2, hout1, hout2, _⟩ := hx
  exact ⟨hin1, hin2, hout1, hout2⟩

theorem Slot.ringsLawful.unheld {x : Slot} (hx : x.ringsLawful) (hh : x.handle.isSome) : x.state ≠ .empty := by
  obtain ⟨_, _, _, _, _, _, _, _, _, _, _, _, _, hempty⟩ := hx
  intro h
  rewrite [hempty h] at hh
  cases hh

/-- A record with its rings flushed and no window is lawful whatever its state, where an EMPTY one binds no handle. -/
theorem Slot.ringsLawful_flushed {x : Slot} (hin : 160 ≤ x.inTarget ∧ x.inTarget ≤ 800)
    (hout : 160 ≤ x.outTarget ∧ x.outTarget ≤ 800) (hi : x.inRing = .flushed) (ho : x.outRing = .flushed)
    (hw : x.window = none) (hh : x.state = .empty → x.handle = none) : x.ringsLawful := by
  unfold Slot.ringsLawful
  rewrite [hi, ho]
  exact ⟨Nat.zero_le _, Nat.zero_le _, Nat.zero_lt_succ _, Nat.zero_lt_succ _, fun _ h => absurd h.symm (Option.some_ne_none _),
    fun _ h => absurd h.symm (Option.some_ne_none _), Nat.zero_le _, hin.1, hin.2, hout.1, hout.2, fun _ => ⟨Nat.zero_le _, rfl⟩,
    fun _ => ⟨rfl, rfl, hw⟩, hh⟩

theorem OutRing.append_lawful {r : OutRing} (h : r.samples.length ≤ 1024 ∧ r.phase < 1048576) {block : List Sample}
    (hb : block.length = 80) : (r.append block).1.samples.length ≤ 1024 ∧ (r.append block).1.phase < 1048576 := by
  obtain ⟨hlen, hphase⟩ := overrun_fits r.samples.length h.2
  unfold OutRing.append
  dsimp only
  rewrite [List.length_append, List.length_drop, hb]
  exact ⟨hlen, hphase⟩

theorem OutRing.resync_lawful (r : OutRing) {leader : OutRing} (h : leader.samples.length ≤ 1024 ∧ leader.phase < 1048576) :
    (r.resync leader).samples.length ≤ 1024 ∧ (r.resync leader).phase < 1048576 := by
  refine ⟨?_, h.2⟩
  simp only [OutRing.resync, List.length_append, List.length_replicate, List.length_drop]
  rewrite [Nat.sub_sub_eq_min, Nat.min_comm, Nat.sub_add_min_cancel]
  exact h.1

/-- A change that leaves rings and targets alone, and does not make a live slot an acquiring one. -/
theorem Slot.ringsLawful_same {x y : Slot} (h : x.ringsLawful)
    (same : y.inRing = x.inRing ∧ y.outRing = x.outRing ∧ y.inTarget = x.inTarget ∧ y.outTarget = x.outTarget)
    (hacq : y.state.acquiring = true → x.state.acquiring = true) (hdead : y.state ≠ .empty ∧ y.state ≠ .lost) :
    y.ringsLawful := by
  obtain ⟨hin, hout, targets⟩ := same
  refine Slot.ringsLawful_of h ?_ ?_ ?_ targets ?_ hdead
  · rewrite [hin]; exact Slot.ringsLawful.fits h
  · rewrite [hout]; exact (Slot.ringsLawful.out h).1
  · rewrite [hout]; exact (Slot.ringsLawful.out h).2
  · rewrite [hin, targets.1]; exact fun ha => Slot.ringsLawful.acquiring h (hacq ha)

theorem Slot.ringsLawful_measuring {x y : Slot} (h : x.ringsLawful)
    (hy : y = { x.measuring with handle := y.handle, mic := y.mic }) : y.ringsLawful := by
  obtain ⟨hin1, hin2, hout⟩ := Slot.ringsLawful.targets h
  rewrite [hy]
  exact Slot.ringsLawful_flushed ⟨hin1, hin2⟩ hout rfl rfl rfl (by simp [Slot.measuring])

theorem Slot.ringsLawful_block {x : Slot} (h : x.ringsLawful) (g : Nat) (seq : SeqNum) (bad : Bool)
    {samples : List Sample} (stats : Stats) (hdead : x.state ≠ .empty ∧ x.state ≠ .lost) (hl : samples.length = 80) :
    Slot.ringsLawful
      { x with
        inRing :=
          let ring := { (micEffect x.inRing x.state.live x.inTarget g bad samples).ring with expected := some (seq + 1) }
          if x.state.acquiring then ring.trim x.inTarget else ring
        stats := stats } := by
  obtain ⟨hout, hstep⟩ := Slot.ringsLawful.out h
  rcases SlotState.acquiring_or hdead.1 hdead.2 with ⟨hacq, hlive⟩ | ⟨hacq, hlive⟩
  · have hfresh : x.inRing.fresh := ⟨(Slot.ringsLawful.acquiring h hacq).2, (Slot.ringsLawful.fits h).2.2⟩
    obtain ⟨hphase, hhist, hrun⟩ := micEffect_fresh hfresh x.inTarget g bad hl
    obtain ⟨_, htarget, _⟩ := Slot.ringsLawful.targets h
    refine Slot.ringsLawful_of h ?_ hout hstep ⟨rfl, rfl⟩ (fun _ => ?_) hdead
    all_goals
      simp only [hacq, hlive, if_true, InRing.trim, InRing.fits, List.length_drop, hphase]
    · exact ⟨tsub_tsub_le.trans (htarget.trans (by decide)), by decide, hhist, hrun⟩
    · exact ⟨tsub_tsub_le, trivial⟩
  · have hfits := micEffect_live (Slot.ringsLawful.fits h) x.inTarget g bad hl
    refine Slot.ringsLawful_of h ?_ hout hstep ⟨rfl, rfl⟩ (fun hacq' => ?_) hdead
    · simp only [hacq, hlive]
      exact hfits
    · exact absurd (hacq.symm.trans hacq') (by decide)

theorem SlotState.acquiring_of_live {x : SlotState} (h : x.live = true) : x.acquiring = false := by
  cases x <;> simp_all [SlotState.live, SlotState.acquiring]

theorem SlotState.dead_of_live {x : SlotState} (h : x.live = true) : x ≠ .empty ∧ x ≠ .lost := by
  cases x <;> simp_all [SlotState.live]

theorem SlotState.active_only {x : SlotState} (hs : x = .active) :
    (x.acquiring = false) ∧ x ≠ .empty ∧ x ≠ .lost := by
  subst hs
  decide

/-- A change of an ACTIVE slot's outbound ring that keeps it within its bounds. -/
theorem Slot.ringsLawful_active {x : Slot} (h : x.ringsLawful) (hs : x.state = .active) {r : OutRing} (stats : Stats)
    (hout : r.samples.length ≤ 1024 ∧ r.phase < 1048576)
    (hstep : ∀ step, r.lastStep = some step → 1047527 ≤ step ∧ step ≤ 1049625) :
    Slot.ringsLawful { x with outRing := r, stats := stats } := by
  obtain ⟨hacq, hdead⟩ := SlotState.active_only hs
  have hin := Slot.ringsLawful.fits h
  exact Slot.ringsLawful_of h hin hout hstep ⟨rfl, rfl⟩
    (fun hacq' => absurd (hacq.symm.trans hacq') (by decide)) hdead

/-- The targets of the initial values (R2). -/
theorem default_targets : (160 ≤ Slot.initial.inTarget ∧ Slot.initial.inTarget ≤ 800) ∧
    160 ≤ Slot.initial.outTarget ∧ Slot.initial.outTarget ≤ 800 := by decide

theorem ringsLawful_slotLaw (limit : Nat) (p : TalkParams) : SlotLaw limit p Slot.ringsLawful where
  initial := Slot.ringsLawful_flushed (by decide) (by decide) rfl rfl rfl fun _ => rfl
  afterReset _ := Slot.ringsLawful_flushed (x := Slot.softReset _ _) default_targets.1 default_targets.2 rfl rfl rfl fun _ => rfl
  paired _ _ _ h := h
  touched h := h
  counted _ _ h := h
  resumed _ h := Slot.ringsLawful_same h ⟨rfl, rfl, rfl, rfl⟩ (fun h => Bool.noConfusion h)
    ⟨(SlotState.noConfusion ·), (SlotState.noConfusion ·)⟩
  recovered _ _ h := Slot.ringsLawful_measuring h rfl
  activated _ h := Slot.ringsLawful_same h ⟨rfl, rfl, rfl, rfl⟩ (fun h => Bool.noConfusion h)
    ⟨(SlotState.noConfusion ·), (SlotState.noConfusion ·)⟩
  passed hs h := Slot.ringsLawful_same h ⟨rfl, rfl, rfl, rfl⟩ (fun _ => by rewrite [hs]; rfl) ⟨(SlotState.noConfusion ·), (SlotState.noConfusion ·)⟩
  block g seq bad samples hh hlost hl h := Slot.ringsLawful_block h g seq bad _ ⟨Slot.ringsLawful.unheld h hh, hlost⟩ hl
  served step seq stats hs hstep _ h := by
    obtain ⟨hout, _⟩ := Slot.ringsLawful.out h
    obtain ⟨hleft, hphase⟩ := runPass_left step Config.blockSamples _ _ hout.2
    refine Slot.ringsLawful_active h hs stats ⟨hleft.trans hout.1, hphase⟩ ?_
    rintro _ ⟨⟩
    rcases hstep with ⟨t8, rfl⟩ | ⟨y, hy, hlast⟩
    · exact stepOf_range t8
    · exact (Slot.ringsLawful.out hy).2 _ hlast
  opened _ hh hlost h := by
    have hempty := Slot.ringsLawful.unheld h hh
    exact Slot.ringsLawful_same h ⟨rfl, rfl, rfl, rfl⟩ id ⟨hempty, hlost⟩
  closed _ _ h := h
  emptied _ := Slot.ringsLawful_flushed (x := Slot.emptied _) default_targets.1 default_targets.2 rfl rfl rfl fun _ => rfl
  lost _ _ h := by
    obtain ⟨hin1, hin2, hout⟩ := Slot.ringsLawful.targets h
    exact Slot.ringsLawful_flushed ⟨hin1, hin2⟩ hout rfl rfl rfl fun h => SlotState.noConfusion h
  unbound hs h := by
    obtain ⟨h1, h2, h3, h4, h5, h6, h7, h8, h9, h10, h11, h12, h13, _⟩ := h
    exact ⟨h1, h2, h3, h4, h5, h6, h7, h8, h9, h10, h11, h12, h13, fun _ => rfl⟩
  relinked _ _ _ h := Slot.ringsLawful_measuring h rfl
  admitted _ _ hin hout _ _ := Slot.ringsLawful_flushed hin hout rfl rfl rfl fun h => SlotState.noConfusion h
  idled _ _ h := h
  stalled _ h := Slot.ringsLawful_same h ⟨rfl, rfl, rfl, rfl⟩ (fun h => Bool.noConfusion h)
    ⟨(SlotState.noConfusion ·), (SlotState.noConfusion ·)⟩
  watched _ _ _ _ _ h := h
  read step _ hlive _ h := by
    obtain ⟨hlen, hphase, hrest⟩ := Slot.ringsLawful.fits h
    obtain ⟨hout, hstep⟩ := Slot.ringsLawful.out h
    obtain ⟨hleft, hphase'⟩ := runPass_left step Config.blockSamples _ _ hphase
    refine Slot.ringsLawful_of h ⟨hleft.trans hlen, hphase', hrest⟩ hout hstep ⟨rfl, rfl⟩ (fun hacq => ?_) ?_
    · exact absurd hacq (by rewrite [SlotState.acquiring_of_live hlive]; decide)
    · exact SlotState.dead_of_live hlive
  delivered block hs hb h :=
    Slot.ringsLawful_active h hs _ (OutRing.append_lawful (Slot.ringsLawful.out h).1 hb) (Slot.ringsLawful.out h).2
  resynced hs h hy :=
    Slot.ringsLawful_active h hs _ (OutRing.resync_lawful _ (Slot.ringsLawful.out hy).1) (Slot.ringsLawful.out h).2
  heard _ h := h
  closedTalk _ _ h := h

/-! ### New limits (R94, R95) -/

theorem settingOr_range {w : Nat} (x : Option (BitVec w)) {lo hi held : Nat} (hlo : lo ≤ hi)
    (h : lo ≤ held ∧ held ≤ hi) : lo ≤ settingOr x lo hi held ∧ settingOr x lo hi held ≤ hi := by
  rewrite [settingOr_eq x hlo]
  cases x with
  | none => exact h
  | some v =>
    exact ⟨le_max_left .., max_le hlo (min_le_left ..)⟩

theorem Limits.Lawful.updated {l : Limits} (h : l.Lawful) (slotL callL pairT : Option (BitVec 16)) (loss : Option Byte)
    (ramp : Option (BitVec 16)) : (l.updated slotL callL pairT loss ramp).Lawful := by
  obtain ⟨slot1, slot2, call1, call2, pair, loss1, loss2, hramp⟩ := h
  have slot := settingOr_range slotL (show 80 ≤ 8000 by decide) ⟨slot1, slot2⟩
  have call := settingOr_range callL (show 80 ≤ 8000 by decide) ⟨call1, call2⟩
  have timeout := settingOr_range loss (show 8 ≤ 255 by decide) ⟨loss1, loss2⟩
  exact ⟨slot.1, slot.2, call.1, call.2, (settingOr_range pairT (by decide) ⟨Nat.zero_le _, pair⟩).2, timeout.1, timeout.2,
    (settingOr_range ramp (by decide) ⟨Nat.zero_le _, hramp⟩).2⟩

theorem State.slot_withLimits (s : State) (l : Limits) (newSlot newCall : Bool) (i : SlotId) :
    (s.withLimits l newSlot newCall).slot i =
      { s.slot i with
        estimate := if newSlot then clampSym (s.slot i).estimate l.slotLimit else (s.slot i).estimate } := by
  rewrite [State.slot, State.withLimits]
  cases newSlot with
  | false => rfl
  | true => exact PerSlot.get_map _ _ _

/-- A law that does not look at the estimate is kept by LIMIT.SET too. -/
theorem SlotLaw.kept {law : Slot → Prop} (hL : SlotLaw s.limits.slotLimit s.talk law)
    (blind : ∀ x e, law x → law { x with estimate := e }) (hs : s.All law) (h : Changes s q t) : t.All law := by
  rcases hL.changes hs h with ht | ⟨slotL, callL, pairT, loss, ramp, rfl⟩
  · exact ht
  · intro i
    rewrite [State.slot_withLimits]
    exact blind _ _ (hs i)

/-- Settles O56: rings, targets and windows are closed under the changes of a record. -/
theorem stepsKeepRingsLawful : Obligations.StepsKeepRingsLawful := fun _ _ hs h =>
  step_keeps (law := State.RingsLawful) (fun _ _ _ h => h)
    (fun _ _ _ hs h => (ringsLawful_slotLaw _ _).kept (fun _ _ h => h) hs h) hs h

end Sys2Proof.Machine
end

section
/-!
SUPPORT. The laws of the capture record, the profile table, the rates, the call port and the prompt player, each by the
kinds of change a step can make; and which request moves which setting.
-/
namespace Sys2Proof.Machine

variable {q : Setting} {s t : State} {i : SlotId}

/-! ### The further-count (R66) -/

/-- The further-count of the capture record lies within its range (R66). -/
def State.furtherWithin (s : State) : Prop := s.capture.further ≤ 255

theorem State.furtherWithin.of_capture (h : s.furtherWithin) (he : t.capture = s.capture) : t.furtherWithin := by
  unfold State.furtherWithin
  rewrite [he]
  exact h

theorem State.anomaly_further (s : State) (kind : AnomalyKind) (slot : Option SlotId)
    (handle : Option Handle) (m : Option (SeqNum × Stamp)) : (s.anomaly kind slot handle m).furtherWithin := by
  unfold State.anomaly
  split
  · exact Nat.zero_le 255
  · exact satSucc8_le _

theorem State.furtherWithin.slotAnomaly (h : s.furtherWithin) (o : Bool) (kind : AnomalyKind)
    (m : Option (SeqNum × Stamp)) : (s.slotAnomaly o kind i m).furtherWithin := by
  unfold State.slotAnomaly
  split
  · exact State.anomaly_further ..
  · exact h

theorem State.furtherWithin.takeMic (h : s.furtherWithin) (hd : Handle) (seq : SeqNum) (stamp : Stamp) (bad : Bool)
    (samples : List Sample) : (s.takeMic hd seq stamp bad samples).furtherWithin := by
  unfold State.takeMic State.micOnSlot State.takeBlock
  split
  · next i _ =>
    have active : ((s.activity i).count i fun c => { c with micIn := satAdd16 c.micIn 1 }).furtherWithin :=
      h.of_capture (by simp)
    dsimp only
    split
    · exact (active.of_capture (State.count_capture ..)).slotAnomaly ..
    · refine State.furtherWithin.of_capture ?_ (State.fillTest_capture ..)
      exact (((active.of_capture (State.modSlot_capture ..)).slotAnomaly ..).slotAnomaly ..).slotAnomaly ..
  · split
    · exact h
    · exact State.anomaly_further ..

theorem State.furtherWithin.windowPull (h : s.furtherWithin) (seq : SeqNum) (stamp : Stamp) :
    (s.windowPull i seq stamp).furtherWithin := by
  have discard : (s.discardWindow i seq stamp).furtherWithin :=
    (State.anomaly_further ..).of_capture (State.openWindow_capture ..)
  unfold State.windowPull
  split
  · exact h.of_capture (State.openWindow_capture ..)
  split
  · exact h
  · split
    · exact discard
    · exact h.of_capture (State.completeWindow_capture ..)
  · exact discard
  · exact h

theorem State.furtherWithin.takePull (h : s.furtherWithin) (hd : Handle) (seq : SeqNum) (stamp : Stamp) :
    (s.takePull hd seq stamp).furtherWithin := by
  unfold State.takePull State.pullOnSlot
  split
  · next i _ =>
    have active : ((s.activity i).count i fun c => { c with pulls := satAdd16 c.pulls 1 }).furtherWithin :=
      h.of_capture (by simp)
    dsimp only
    split
    · refine State.furtherWithin.of_capture (State.furtherWithin.windowPull ?_ seq stamp) (State.send_capture ..)
      exact (active.of_capture (State.modSlot_capture ..)).slotAnomaly ..
    · exact (active.windowPull seq stamp).of_capture (State.send_capture ..)
  split
  · exact h.of_capture (State.send_capture ..)
  · exact (State.anomaly_further ..).of_capture (State.send_capture ..)

theorem State.furtherWithin.micInput (h : s.furtherWithin) (states : PerSlot SlotState) (c : Pacing) :
    (s.micInput states c i).1.furtherWithin := by
  unfold State.micInput State.inboundPass
  split
  · dsimp only
    split
    · exact State.anomaly_further ..
    · exact h.of_capture (State.setSlot_capture ..)
  · exact h

theorem State.furtherWithin.mixPeriod (h : s.furtherWithin) (c : Pacing) (d : List Sample) :
    (s.mixPeriod c d).furtherWithin := by
  have ramped : (s.countPeriod.rampGains s.slotStates).furtherWithin := h.of_capture (by simp)
  have mics : ((s.countPeriod.rampGains s.slotStates).micInputs s.slotStates c).1.furtherWithin :=
    (((ramped.micInput ..).micInput ..).micInput ..).micInput ..
  refine mics.of_capture ?_
  simp [State.mixPeriod]

theorem State.furtherWithin.takeStrobe (h : s.furtherWithin) (tick : Nat) (d : Sample) :
    (s.takeStrobe tick d).furtherWithin := by
  have period : ∀ {t : State}, t.furtherWithin → (t.endPeriod tick).furtherWithin := by
    intro t ht
    unfold State.endPeriod
    split
    · refine State.furtherWithin.mixPeriod ?_ _ _
      exact ht.of_capture rfl
    · exact ht
  unfold State.takeStrobe
  split <;> exact period (h.of_capture (by simp))

theorem Links.further (hs : s.furtherWithin) (h : Links s t) : t.furtherWithin := by
  induction h
  case captureEmptied => exact Nat.zero_le 255
  case badRadioFrame => exact State.anomaly_further ..
  case mic => exact hs.takeMic ..
  case pull => exact hs.takePull ..
  case accepted => exact hs.of_capture (by simp [State.accept])
  case declined | removed | linkUp | linkDown | portReset => exact hs.of_capture (by simp)
  all_goals exact hs

theorem Changes.further (hs : s.furtherWithin) (h : Changes s q t) : t.furtherWithin := by
  induction h
  case powerOn | softReset => exact Nat.zero_le 255
  case sets h => induction h <;> exact hs
  case plays h => induction h <;> exact hs
  case ticks h =>
    induction h
    case strobe => exact hs.takeStrobe ..
    case strobeTimeout => exact hs
    case localTimer =>
      refine State.furtherWithin.mixPeriod ?_ _ _
      exact hs.of_capture rfl
  case links h => exact h.further hs

/-! ### The profile table (R18 to R20) -/

/-- What the table's law asks of one record (R19). -/
def Profile.lawful (p : Profile) : Prop :=
  -15 ≤ p.seed ∧ p.seed ≤ 15 ∧ (∀ t, p.inTarget = some t → 160 ≤ t ∧ t ≤ 800) ∧
    (∀ t, p.outTarget = some t → 160 ≤ t ∧ t ≤ 800) ∧ (p.side = .mono → p.partnerIdentity = none) ∧
    p.partnerIdentity ≠ some p.identity

theorem clampedTarget_range {x : Option (BitVec 16)} {t : Nat} (h : (x.map fun t => clampTarget t.toNat) = some t) :
    160 ≤ t ∧ t ≤ 800 := by
  obtain ⟨v, _, rfl⟩ := Option.map_eq_some_iff.mp h
  rewrite [clampTarget_eq]
  omega

theorem profileStored_lawful {f : ProfileFields} {side : Side} (own : f.partnerIdentity ≠ some f.identity)
    (mono : ¬(side = .mono ∧ f.partnerIdentity.isSome)) : (profileStored f side).lawful := by
  refine ⟨?_, ?_, fun _ => clampedTarget_range, fun _ => clampedTarget_range, fun h => ?_, own⟩
  · simp only [profileStored, clampSeed_eq]
    omega
  · simp only [profileStored, clampSeed_eq]
    omega
  · simpa [profileStored] using fun hp => mono ⟨h, hp⟩

/-- The identities of the table after a PROFILE.PUT: the same, or the new one behind them. -/
theorem identities_putProfile (table : List Profile) (p : Profile) :
    ((putProfile table p).map fun q => q.identity) =
      if table.any (fun q => q.identity == p.identity) then table.map fun q => q.identity
      else table.map (fun q => q.identity) ++ [p.identity] := by
  unfold putProfile
  split
  · rewrite [List.map_map]
    refine List.map_congr_left fun q _ => ?_
    by_cases h : q.identity = p.identity <;> simp [h]
  · simp

theorem mem_putProfile {table : List Profile} {p q : Profile} (h : q ∈ putProfile table p) : q ∈ table ∨ q = p := by
  unfold putProfile at h
  split at h
  · obtain ⟨r, hr, hq⟩ := List.mem_map.mp h
    split at hq
    · exact .inr hq.symm
    · exact .inl (hq ▸ hr)
  · simpa using h

theorem putProfile_lawful {f : ProfileFields} {side : Side} (hs : s.ProfilesLawful)
    (own : f.partnerIdentity ≠ some f.identity) (mono : ¬(side = .mono ∧ f.partnerIdentity.isSome))
    (room : ¬((s.profileOf f.identity).isNone ∧ Config.profileCapacity ≤ s.profiles.length)) :
    State.ProfilesLawful { s with profiles := putProfile s.profiles (profileStored f side) } := by
  obtain ⟨len, nodup, each⟩ := hs
  have ids := identities_putProfile s.profiles (profileStored f side)
  refine ⟨?_, ?_, fun q hq => ?_⟩
  · have := congrArg List.length ids
    rewrite [List.length_map] at this
    rewrite [this]
    split
    · rwa [List.length_map]
    · next absent =>
      have none : (s.profileOf f.identity).isNone := by simpa [State.profileOf, profileStored] using absent
      have : s.profiles.length < 8 := Nat.lt_of_not_le fun h => room ⟨none, h⟩
      simpa using this
  · show List.Nodup ((putProfile s.profiles (profileStored f side)).map fun q => q.identity)
    rewrite [ids]
    split
    · exact nodup
    · next absent =>
      rewrite [← List.concat_eq_append]
      refine List.Nodup.concat ?_ nodup
      simpa using absent
  · rcases mem_putProfile hq with hq | rfl
    · exact each q hq
    · exact profileStored_lawful own mono

theorem Changes.profiles_lawful (hs : s.ProfilesLawful) (h : Changes s q t) : t.ProfilesLawful := by
  have keep : t.profiles = s.profiles → t.ProfilesLawful := by
    intro he
    unfold State.ProfilesLawful
    rewrite [he]
    exact hs
  induction h
  case powerOn => exact ⟨Nat.zero_le 8, List.nodup_nil, fun _ h => absurd h List.not_mem_nil⟩
  case softReset => exact keep (by simp [State.softReset])
  case sets h =>
    induction h
    case profilePut own mono room => exact putProfile_lawful hs own mono room
    case profileDrop identity =>
      obtain ⟨len, nodup, each⟩ := hs
      refine ⟨(List.length_filter_le _ _).trans len, ?_, fun q hq => each q (List.mem_of_mem_filter hq)⟩
      exact nodup.sublist (List.filter_sublist.map _)
    all_goals exact hs
  case plays h => induction h <;> exact hs
  case ticks h => exact keep h.calm.1
  case links h => exact keep h.profiles

/-- Settles O58: the counters of a record, the further-count and the profile table, each by the kinds of change. -/
theorem stepsKeepCountsAndProfilesLawful : Obligations.StepsKeepCountsAndProfilesLawful := by
  refine ⟨fun _ _ hs h => ?_, fun _ _ hs h => ?_⟩
  · exact step_keeps (law := State.CountsLawful) (fun _ _ _ h => h)
      (fun _ _ _ hs h => ⟨(countsLawful_slotLaw _ _).kept (fun _ _ h => h) hs.1 h, h.further hs.2⟩) hs h
  · exact step_keeps (law := State.ProfilesLawful) (fun _ _ _ h => h) (fun _ _ _ hs h => h.profiles_lawful hs) hs h

end Sys2Proof.Machine
end

section
/-!
SUPPORT. The laws of the rates, of the call port and of the prompt player, each by the kinds of change a step can make.
-/
namespace Sys2Proof.Machine

variable {q : Setting} {s t : State} {i : SlotId}

/-! ### Rate estimates and limits (R91, R94, R95) -/

theorem powerOn_limits_lawful : Limits.powerOn.Lawful := by
  unfold Limits.Lawful
  decide

/-- The call estimate lies within the call limit. -/
def State.callWithin (s : State) : Prop := s.rate.estimate.natAbs ≤ s.limits.callLimit

theorem State.callWithin.of_eq (h : s.callWithin) (hr : t.rate = s.rate) (hl : t.limits = s.limits) : t.callWithin := by
  unfold State.callWithin
  rewrite [hr, hl]
  exact h

theorem State.windowStrobe_callWithin (h : s.callWithin) (tick : Nat) : (s.windowStrobe tick).callWithin := by
  unfold State.windowStrobe
  split
  · exact h
  · next w _ =>
    split
    · have hc := clampedValue_le (callMeasured w.startTick tick) s.limits.callLimit
      unfold State.completeCallWindow
      refine State.callWithin.of_eq ?_ (State.callResult_rate ..) (State.callResult_limits ..)
      show Int.natAbs (if s.call.state = .running then _ else _) ≤ s.limits.callLimit
      split
      · exact quarterStep_le h hc
      · exact hc
    · exact h

theorem State.takeStrobe_callWithin (h : s.callWithin) (tick : Nat) (d : Sample) :
    (s.takeStrobe tick d).callWithin := by
  have exchanged : (s.exchange tick d).callWithin := h.of_eq (State.exchange_rate ..) (State.exchange_limits ..)
  have windowed := (State.windowStrobe_callWithin exchanged tick).of_eq
    (State.endPeriod_rate _ tick) (State.endPeriod_limits _ tick)
  unfold State.takeStrobe
  split
  · have started : (s.startCall tick).callWithin := Nat.zero_le _
    exact started.of_eq (by simp) (by simp)
  · exact windowed
  · exact windowed

theorem Changes.callWithin (hs : s.callWithin) (h : Changes s q t) : t.callWithin := by
  induction h
  case powerOn | softReset => exact Nat.zero_le _
  case sets h =>
    induction h
    case limitSet slotL callL pairT loss ramp =>
      show Int.natAbs (State.withLimits ..).rate.estimate ≤ (s.limits.updated slotL callL pairT loss ramp).callLimit
      unfold State.withLimits
      cases callL with
      | none => exact hs
      | some v => exact clampSym_natAbs _ _
    all_goals exact hs
  case plays h => induction h <;> exact hs
  case ticks h =>
    induction h
    case strobe => exact State.takeStrobe_callWithin hs _ _
    case strobeTimeout => exact Nat.zero_le _
    case localTimer => exact hs.of_eq (State.mixPeriod_rate ..) (State.mixPeriod_limits ..)
  case links h => exact hs.of_eq h.rate h.limits

/-- The limits change at a power-on reset and at LIMIT.SET alone. -/
theorem Changes.limits (h : Changes s q t) :
    t.limits = s.limits ∨ (t.limits = .powerOn ∧ ∀ i, (t.slot i).estimate = 0) ∨
      ∃ slotL callL pairT loss ramp,
        t = s.withLimits (s.limits.updated slotL callL pairT loss ramp) slotL.isSome callL.isSome := by
  induction h
  case powerOn => exact .inr (.inl ⟨rfl, fun i => by cases i <;> rfl⟩)
  case softReset => exact .inl (by simp [State.softReset])
  case sets h =>
    induction h
    case limitSet slotL callL pairT loss ramp => exact .inr (.inr ⟨slotL, callL, pairT, loss, ramp, rfl⟩)
    all_goals exact .inl rfl
  case plays h => induction h <;> exact .inl rfl
  case ticks h => exact .inl h.calm.2.1
  case links h => exact .inl h.limits

theorem Changes.rates_lawful (hs : s.RatesLawful) (h : Changes s q t) : t.RatesLawful := by
  obtain ⟨limits, slots, call⟩ := hs
  have call' : t.callWithin := h.callWithin call
  rcases h.limits with hl | ⟨hl, zero⟩ | ⟨slotL, callL, pairT, loss, ramp, rfl⟩
  · refine ⟨hl ▸ limits, ?_, call'⟩
    rewrite [hl]
    rcases (estimateWithin_slotLaw s.limits.slotLimit s.talk).changes slots h with
      within | ⟨slotL, callL, pairT, loss, ramp, rfl⟩
    · exact within
    · intro i
      rewrite [State.slot_withLimits]
      have hl' : s.limits.updated slotL callL pairT loss ramp = s.limits := hl
      cases slotL with
      | none => exact slots i
      | some v => exact hl' ▸ clampSym_natAbs _ _
  · refine ⟨hl ▸ powerOn_limits_lawful, fun i => ?_, call'⟩
    rewrite [zero i]
    exact Nat.zero_le _
  · refine ⟨limits.updated .., fun i => ?_, call'⟩
    rewrite [State.slot_withLimits]
    cases slotL with
    | none => exact slots i
    | some v => exact clampSym_natAbs _ _

/-! ### The call port (R68, R69, R87) -/

/-- The call port while a strobe is taken: as R69 has it outside ABSENT, but for a strobe count that may stand at 80
before the period is raised. -/
def State.callBusy (s : State) : Prop :=
  s.call.captureHalf.length = 80 ∧ s.call.playHalf.length = 80 ∧ s.call.rateFailures ≤ 255 ∧ s.call.state ≠ .absent ∧
    s.call.strobeTimer.isSome ∧ s.call.localTimer = none ∧ s.call.strobeCount ≤ 80 ∧
    ∃ w, s.rate.window = some w ∧ w.counted < 5120

theorem State.CallLawful.of_eq (h : s.CallLawful) (hc : t.call = s.call) (hr : t.rate = s.rate) : t.CallLawful := by
  unfold State.CallLawful
  rewrite [hc, hr]
  exact h

theorem State.CallLawful.absent (h : s.CallLawful) (ha : s.call.state = .absent) :
    s.call.strobeTimer = none ∧ s.call.localTimer.isSome ∧ s.rate.window = none ∧ s.rate.estimate = 0 ∧
      s.call.strobeCount = 0 ∧ s.call.captureHalf = silence ∧ s.call.playHalf = silence := by
  obtain ⟨_, _, _, h⟩ := h
  rwa [ha] at h

theorem State.CallLawful.present (h : s.CallLawful) (ha : s.call.state ≠ .absent) :
    s.call.strobeTimer.isSome ∧ s.call.localTimer = none ∧ s.call.strobeCount < 80 ∧
      ∃ w, s.rate.window = some w ∧ w.counted < 5120 := by
  obtain ⟨_, _, _, h⟩ := h
  split at h
  · next he => exact absurd he ha
  · exact h

theorem State.callLawful_of_absent (ha : s.call.state = .absent) (hf : s.call.rateFailures ≤ 255)
    (hc : s.call.captureHalf = silence) (hp : s.call.playHalf = silence)
    (h : s.call.strobeTimer = none ∧ s.call.localTimer.isSome ∧ s.rate.window = none ∧ s.rate.estimate = 0 ∧
      s.call.strobeCount = 0) : s.CallLawful := by
  obtain ⟨h1, h2, h3, h4, h5⟩ := h
  unfold State.CallLawful
  rewrite [ha, hc, hp]
  exact ⟨rfl, rfl, hf, h1, h2, h3, h4, h5, rfl, rfl⟩

theorem State.callLawful_of_present (h : s.callBusy) (hn : s.call.strobeCount < 80) : s.CallLawful := by
  obtain ⟨hc, hp, hf, hstate, timer, due, _, window⟩ := h
  refine ⟨hc, hp, hf, ?_⟩
  split
  · next ha => exact absurd ha hstate
  · exact ⟨timer, due, hn, window⟩

/-- What a mix period does to the call port: under CALL pacing the play half, under LOCAL pacing nothing (R134). -/
theorem State.mixPeriod_call (s : State) (c : Pacing) (d : List Sample) :
    ∃ play, (s.mixPeriod c d).call = { s.call with playHalf := play } ∧ (c = .byCall → play.length = 80) ∧
      (c = .byLocal → play = s.call.playHalf) := by
  obtain ⟨u, e, hm, -, -, -, -, play, hcall, hbyCall, hbyLocal⟩ := s.mixPeriod_parts c d
  exact ⟨play, by rw [hm, State.talkerClose_call, State.slotPeriod_call, hcall], hbyCall, hbyLocal⟩

theorem State.exchange_busy {tick : Nat} {d : Sample} (hc : s.call.captureHalf.length = 80)
    (hp : s.call.playHalf.length = 80) (hf : s.call.rateFailures ≤ 255) (hstate : s.call.state ≠ .absent)
    (hl : s.call.localTimer = none) (hn : s.call.strobeCount < 80)
    (hw : ∃ w, s.rate.window = some w ∧ w.counted < 5120) : (s.exchange tick d).callBusy :=
  ⟨(List.length_set ..).trans hc, hp, hf, hstate, rfl, hl, hn, hw⟩

theorem State.windowStrobe_busy (h : s.callBusy) (tick : Nat) : (s.windowStrobe tick).callBusy := by
  obtain ⟨hc, hp, hf, hstate, timer, due, count, w, hw, hcounted⟩ := h
  have fresh : (0 : Nat) < 5120 := by decide
  unfold State.windowStrobe
  rewrite [hw]
  dsimp only
  split
  · unfold State.completeCallWindow State.callResult
    dsimp only
    split
    · split
      · exact ⟨hc, hp, Nat.zero_le _, nofun, timer, due, count, _, rfl, fresh⟩
      · exact ⟨hc, hp, Nat.zero_le _, nofun, timer, due, count, _, rfl, fresh⟩
    · exact ⟨hc, hp, satSucc8_le _, hstate, timer, due, count, _, rfl, fresh⟩
  · next open5120 => exact ⟨hc, hp, hf, hstate, timer, due, count, _, rfl, Nat.lt_of_not_le open5120⟩

theorem State.endPeriod_callLawful (h : s.callBusy) (tick : Nat) : (s.endPeriod tick).CallLawful := by
  unfold State.endPeriod
  split
  · obtain ⟨hc, hp, hf, hstate, timer, due, _, window⟩ := h
    generalize hu : ({ s with call := { s.call with strobeCount := 0, lastMixTick := some tick } } : State) = u
    obtain ⟨play, hcall, hplay, -⟩ := u.mixPeriod_call .byCall s.call.captureHalf
    have hrate : (u.mixPeriod .byCall s.call.captureHalf).rate = u.rate := State.mixPeriod_rate ..
    subst hu
    refine State.callLawful_of_present ?_ ?_
    · unfold State.callBusy
      rewrite [hcall, hrate]
      exact ⟨hc, hplay rfl, hf, hstate, timer, due, Nat.zero_le _, window⟩
    · rewrite [hcall]
      exact Nat.zero_lt_succ 79
  · next below => exact State.callLawful_of_present h (Nat.lt_of_not_le below)

theorem State.takeStrobe_callLawful (h : s.CallLawful) (tick : Nat) (d : Sample) :
    (s.takeStrobe tick d).CallLawful := by
  obtain ⟨hc, hp, hf, _⟩ := id h
  have windowed : s.call.state ≠ .absent →
      (((s.exchange tick d).windowStrobe tick).endPeriod tick).CallLawful := by
    intro ha
    obtain ⟨_, hl, hn, hw⟩ := h.present ha
    exact State.endPeriod_callLawful (State.windowStrobe_busy (State.exchange_busy hc hp hf ha hl hn hw) tick) tick
  unfold State.takeStrobe
  split
  · refine State.endPeriod_callLawful (State.exchange_busy ?_ ?_ ?_ ?_ ?_ ?_ ?_) tick
    · rfl
    · rfl
    · exact Nat.zero_le 255
    · exact nofun
    · rfl
    · exact Nat.zero_lt_succ 79
    · exact ⟨_, rfl, Nat.zero_lt_succ 5119⟩
  · next ha => exact windowed (by rewrite [ha]; decide)
  · next ha => exact windowed (by rewrite [ha]; decide)

theorem clampSym_zero (limit : Nat) : clampSym 0 limit = 0 := by
  rewrite [clampSym_eq]
  omega

/-- The call port after LIMIT.SET, which clamps its estimate. -/
theorem State.withLimits_callLawful (hs : s.CallLawful) (l : Limits) (newSlot : Bool) (callL : Option (BitVec 16)) :
    (s.withLimits l newSlot callL.isSome).CallLawful := by
  obtain ⟨hc, hp, hf, _⟩ := id hs
  by_cases ha : s.call.state = .absent
  · obtain ⟨h1, h2, h3, h4, h5, h6, h7⟩ := hs.absent ha
    refine State.callLawful_of_absent ha hf h6 h7 ⟨h1, h2, ?_, ?_, h5⟩
    · unfold State.withLimits
      cases callL <;> exact h3
    · unfold State.withLimits
      cases callL with
      | none => exact h4
      | some v =>
        show clampSym s.rate.estimate _ = 0
        rw [h4, clampSym_zero]
  · obtain ⟨timer, due, hn, window⟩ := hs.present ha
    refine State.callLawful_of_present ⟨hc, hp, hf, ha, timer, due, hn.le, ?_⟩ hn
    unfold State.withLimits
    cases callL <;> exact window

theorem Ticks.call_lawful (hs : s.CallLawful) (h : Ticks s t) : t.CallLawful := by
  obtain ⟨_, _, hf, _⟩ := id hs
  induction h
  case strobe => exact State.takeStrobe_callLawful hs _ _
  case strobeTimeout => exact State.callLawful_of_absent rfl hf rfl rfl ⟨rfl, rfl, rfl, rfl, rfl⟩
  case localTimer due hdue =>
    have ha : s.call.state = .absent := by
      by_contra ha
      obtain ⟨_, hl, _⟩ := hs.present ha
      rewrite [hl] at hdue
      cases hdue
    obtain ⟨h1, h2, h3, h4, h5, h6, h7⟩ := hs.absent ha
    generalize hu : ({ s with call := { s.call with
      lastMixTick := some due, localTimer := some (due + Config.mixPeriodTicks) } } : State) = u
    obtain ⟨play, hcall, -, hplay⟩ := u.mixPeriod_call .byLocal silence
    have hrate : (u.mixPeriod .byLocal silence).rate = u.rate := State.mixPeriod_rate ..
    have hplay' := hplay rfl
    subst hu
    refine State.callLawful_of_absent ?_ ?_ ?_ ?_ ?_
    all_goals rewrite [hcall]
    · exact ha
    · exact hf
    · exact h6
    · exact hplay'.trans h7
    · rewrite [hrate]
      exact ⟨h1, rfl, h3, h4, h5⟩

theorem Changes.call_lawful (hs : s.CallLawful) (h : Changes s q t) : t.CallLawful := by
  induction h
  case powerOn | softReset =>
    exact State.callLawful_of_absent rfl (Nat.zero_le 255) rfl rfl ⟨rfl, rfl, rfl, rfl, rfl⟩
  case sets h =>
    induction h
    case limitSet => exact State.withLimits_callLawful hs ..
    all_goals exact hs
  case plays h => induction h <;> exact hs
  case ticks h => exact h.call_lawful hs
  case links h => exact hs.of_eq h.call h.rate

/-- Settles O57: the rates and limits, and the call port by its state, by the kinds of change. -/
theorem stepsKeepRatesAndCallLawful : Obligations.StepsKeepRatesAndCallLawful :=
  ⟨fun _ _ hs h => step_keeps (law := State.RatesLawful) (fun _ _ _ h => h) (fun _ _ _ hs h => h.rates_lawful hs) hs h,
    fun _ _ hs h => step_keeps (law := State.CallLawful) (fun _ _ _ h => h) (fun _ _ _ hs h => h.call_lawful hs) hs h⟩

/-! ### The prompt player (R150, R151) -/

/-- What a period leaves of a lawful play (R154). -/
theorem playFrom_lawful (memory : List PromptCell) : ∀ (n : Nat) {p : Play}, p.Lawful →
    (playFrom memory n p).2.Lawful
  | 0, _, h => h
  | n + 1, p, h => by
    obtain ⟨hlen, hend, hlow, hpos, hrem, hgap⟩ := id h
    have again : ({ p with position := p.start, remaining := p.remaining - 1 } : Play).Lawful :=
      ⟨hlen, hend, Nat.le_refl _, Nat.lt_add_of_pos_right hlen, (Nat.sub_le _ _).trans hrem, hgap⟩
    rewrite [playFrom]
    dsimp only
    split
    · split
      · trivial
      split
      · exact playFrom_lawful memory n again
      · next hg => exact ⟨again, rfl, Nat.pos_of_ne_zero hg, Nat.le_refl _⟩
    · next hne =>
      exact playFrom_lawful memory n ⟨hlen, hend, hlow.trans (Nat.le_succ _), Nat.lt_of_le_of_ne hpos hne, hrem, hgap⟩

theorem formP_lawful (memory : List PromptCell) {p : Player} (h : p.Lawful) : (formP memory p).2.Lawful := by
  cases p with
  | idle => trivial
  | playing p => exact playFrom_lawful memory _ h
  | gap p n =>
    obtain ⟨hp, hpos, hlow, hhigh⟩ := h
    show Player.Lawful (if n - 1 = 0 then .playing p else .gap p (n - 1))
    split
    · exact hp
    · next hn => exact ⟨hp, hpos, Nat.pos_of_ne_zero hn, (Nat.sub_le _ _).trans hhigh⟩

/-- What a mix period does to the prompt player (R154). -/
theorem State.mixPeriod_prompt (s : State) (c : Pacing) (d : List Sample) :
    (s.mixPeriod c d).prompt = { s.prompt with player := (formP s.prompt.memory s.prompt.player).2 } := by
  obtain ⟨_, _, _, _, hm, _⟩ := s.mixPeriod_eq c d
  rewrite [hm]
  simp [State.withNotices]

theorem State.mixPeriod_promptLawful (h : s.prompt.Lawful) (c : Pacing) (d : List Sample) :
    (s.mixPeriod c d).prompt.Lawful := by
  rewrite [State.mixPeriod_prompt]
  exact ⟨h.1, formP_lawful _ h.2⟩

theorem State.takeStrobe_promptLawful (h : s.prompt.Lawful) (tick : Nat) (d : Sample) :
    (s.takeStrobe tick d).prompt.Lawful := by
  have period : ∀ {t : State}, t.prompt.Lawful → (t.endPeriod tick).prompt.Lawful := by
    intro t ht
    unfold State.endPeriod
    split
    · refine State.mixPeriod_promptLawful ?_ _ _
      exact ht
    · exact ht
  unfold State.takeStrobe
  split <;> exact period (by simpa using h)

theorem Player.withRemaining_lawful {p : Player} (h : p.Lawful) {n : Nat} (hn : n ≤ 65535) :
    (p.withRemaining n).Lawful := by
  have more : ∀ {q : Play}, q.Lawful → ({ q with remaining := n } : Play).Lawful := by
    intro q hq
    obtain ⟨hlen, hend, hlow, hpos, _, hgap⟩ := hq
    exact ⟨hlen, hend, hlow, hpos, hn, hgap⟩
  cases p with
  | idle => trivial
  | playing q => exact more h
  | gap q n =>
    obtain ⟨hq, rest⟩ := h
    exact ⟨more hq, rest⟩

theorem clipSpan_fits {offset : Nat} (h : offset < Config.promptSamples) (samples : List Sample) :
    offset + (clipSpan offset samples).length ≤ Config.promptSamples := by
  have : (clipSpan offset samples).length ≤ Config.promptSamples - offset := List.length_take_le _ _
  omega

theorem Plays.prompt_lawful (hs : s.prompt.Lawful) (h : Plays s t) : t.prompt.Lawful := by
  obtain ⟨memory, player⟩ := hs
  induction h
  case promptPlay start length repeats gap hlen hstart =>
    refine ⟨memory, ?_⟩
    have len : length.toNat ≠ 0 := fun h => hlen (BitVec.eq_of_toNat_eq h)
    have some : 0 < min length.toNat (Config.promptSamples - start.toNat) :=
      lt_min (Nat.pos_of_ne_zero len) (Nat.sub_pos_of_lt hstart)
    exact ⟨some, (Nat.add_le_add_left (min_le_right ..) _).trans_eq (Nat.add_sub_of_le hstart.le), Nat.le_refl _,
      Nat.lt_add_of_pos_right some, (Nat.le_of_lt repeats.isLt).trans (by decide), Nat.le_of_lt_succ gap.isLt⟩
  case promptMore n => exact ⟨memory, Player.withRemaining_lawful player (satAdd16_le _ _)⟩
  case promptStop => exact ⟨memory, trivial⟩

theorem Changes.prompt_lawful (hs : s.prompt.Lawful) (h : Changes s q t) : t.prompt.Lawful := by
  induction h
  case powerOn => exact ⟨rfl, trivial⟩
  case softReset => exact ⟨by simpa [State.softReset] using hs.1, trivial⟩
  case sets h =>
    induction h
    case promptLoad offset samples hoff => exact ⟨wf_writeSpan _ hs.1 (clipSpan_fits hoff samples), hs.2⟩
    all_goals exact hs
  case plays h => exact h.prompt_lawful hs
  case ticks h =>
    induction h
    case strobe => exact State.takeStrobe_promptLawful hs _ _
    case strobeTimeout => exact hs
    case localTimer =>
      refine State.mixPeriod_promptLawful ?_ _ _
      exact hs
  case links h => exact h.prompt ▸ hs

/-- Settles O52: the memory stays canonical and the play within its region, by the kinds of change. -/
theorem stepsKeepThePromptPlayerLawful : Obligations.StepsKeepThePromptPlayerLawful := fun _ _ hs h =>
  step_keeps (law := fun s => s.prompt.Lawful) (fun _ _ _ h => h) (fun _ _ _ hs h => h.prompt_lawful hs) hs h

end Sys2Proof.Machine
end

section
/-!
SUPPORT. The settings of the part, and what the commands that set none of them leave of them; the state after reset under
the laws that steps keep.
-/
namespace Sys2Proof.Machine

variable {s t : State} {c : Instr}

/-! ### Settings (R18, R94, R117, R136, R150, R175) -/

/-- Every setting but the one named stays: profile table, limits, target gains, talker parameters, prompt memory and
mask. -/
def KeepsBut (s t : State) : Setting → Prop
  | .nothing => t.profiles = s.profiles ∧ t.limits = s.limits ∧ t.mix.targets = s.mix.targets ∧ t.talk = s.talk ∧
    t.prompt.memory = s.prompt.memory ∧ t.notices.mask = s.notices.mask
  | .profiles => t.limits = s.limits ∧ t.mix.targets = s.mix.targets ∧ t.talk = s.talk ∧
    t.prompt.memory = s.prompt.memory ∧ t.notices.mask = s.notices.mask
  | .limits => t.profiles = s.profiles ∧ t.mix.targets = s.mix.targets ∧ t.talk = s.talk ∧
    t.prompt.memory = s.prompt.memory ∧ t.notices.mask = s.notices.mask
  | .targets => t.profiles = s.profiles ∧ t.limits = s.limits ∧ t.talk = s.talk ∧
    t.prompt.memory = s.prompt.memory ∧ t.notices.mask = s.notices.mask
  | .talk => t.profiles = s.profiles ∧ t.limits = s.limits ∧ t.mix.targets = s.mix.targets ∧
    t.prompt.memory = s.prompt.memory ∧ t.notices.mask = s.notices.mask
  | .memory => t.profiles = s.profiles ∧ t.limits = s.limits ∧ t.mix.targets = s.mix.targets ∧ t.talk = s.talk ∧
    t.notices.mask = s.notices.mask
  | .mask => t.profiles = s.profiles ∧ t.limits = s.limits ∧ t.mix.targets = s.mix.targets ∧ t.talk = s.talk ∧
    t.prompt.memory = s.prompt.memory
  | .everything => True

theorem Changes.keepsBut {q : Setting} (h : Changes s q t) : KeepsBut s t q := by
  induction h
  case powerOn => trivial
  case softReset =>
    show _ ∧ _
    simp [State.softReset]
  case sets h => induction h <;> exact ⟨rfl, rfl, rfl, rfl, rfl⟩
  case plays h =>
    induction h
    case promptStop => exact ⟨rfl, rfl, rfl, rfl, rfl, State.raise_notices_mask ..⟩
    all_goals exact ⟨rfl, rfl, rfl, rfl, rfl, rfl⟩
  case ticks h =>
    obtain ⟨profiles, limits, targets, talk, memory, mask, -⟩ := h.calm
    exact ⟨profiles, limits, targets, talk, memory, mask⟩
  case links h => exact ⟨h.profiles, h.limits, h.targets, h.talk, congrArg PromptPlayer.memory h.prompt, h.mask⟩

/-- A command keeps every setting but one that it may move. -/
theorem exec_keepsBut (h : exec c s = .next t) : ∃ q, MaySet c q ∧ KeepsBut s t q := by
  obtain ⟨q, may, a, b, ⟨_, _, rfl⟩, change, _, _, rfl⟩ := exec_moves h
  exact ⟨q, may, change.keepsBut⟩

/-- Settles O60: the requests that set one setting keep the others; every other command keeps them all. -/
theorem settingsMoveOnlyByTheirRequest : Obligations.SettingsMoveOnlyByTheirRequest := by
  intro c s t h power byte frame
  obtain ⟨q, may, kept⟩ := exec_keepsBut h
  clear h
  induction may with
  | profilePut =>
    obtain ⟨limits, targets, talk, memory, mask⟩ := kept
    exact ⟨fun put => absurd rfl (put _ _), fun _ => limits, fun _ => targets, fun _ => talk, fun _ => memory,
      fun _ => mask⟩
  | profileDrop =>
    obtain ⟨limits, targets, talk, memory, mask⟩ := kept
    exact ⟨fun _ drop => absurd rfl (drop _ _), fun _ => limits, fun _ => targets, fun _ => talk, fun _ => memory,
      fun _ => mask⟩
  | limitSet =>
    obtain ⟨profiles, targets, talk, memory, mask⟩ := kept
    exact ⟨fun _ _ => profiles, fun set => absurd rfl (set _ _ _ _ _ _), fun _ => targets, fun _ => talk,
      fun _ => memory, fun _ => mask⟩
  | gainSet =>
    obtain ⟨profiles, limits, talk, memory, mask⟩ := kept
    exact ⟨fun _ _ => profiles, fun _ => limits, fun set => absurd rfl (set _ _), fun _ => talk, fun _ => memory,
      fun _ => mask⟩
  | talkSet =>
    obtain ⟨profiles, limits, targets, memory, mask⟩ := kept
    exact ⟨fun _ _ => profiles, fun _ => limits, fun _ => targets, fun set => absurd rfl (set _ _ _ _ _),
      fun _ => memory, fun _ => mask⟩
  | promptLoad =>
    obtain ⟨profiles, limits, targets, talk, mask⟩ := kept
    exact ⟨fun _ _ => profiles, fun _ => limits, fun _ => targets, fun _ => talk, fun load => absurd rfl (load _ _ _),
      fun _ => mask⟩
  | maskSet =>
    obtain ⟨profiles, limits, targets, talk, memory⟩ := kept
    exact ⟨fun _ _ => profiles, fun _ => limits, fun _ => targets, fun _ => talk, fun _ => memory,
      fun set => absurd rfl (set _ _)⟩
  | powerOnReset => exact absurd rfl (power _)
  | controlLinkByte => exact absurd rfl (byte _ _)
  | refusedFrame => exact absurd rfl (frame _ _ _ _)
  | nothing =>
    obtain ⟨profiles, limits, targets, talk, memory, mask⟩ := kept
    exact ⟨fun _ _ => profiles, fun _ => limits, fun _ => targets, fun _ => talk, fun _ => memory, fun _ => mask⟩

/-! ### The state after reset -/

/-- Settles O59: the values of the reset state, law by law. -/
theorem resetMeetsTheLaws : Obligations.ResetMeetsTheLaws := by
  have initial : ∀ i, State.reset.slot i = .initial := fun i => by cases i <;> rfl
  have silent : ∀ o j, State.reset.mix.applied.get o j = 0 := GainMatrix.get_zero
  refine ⟨?_, ?_, ?_, ?_, ?_, Tests.pairsLawful_reset, ?_, ?_, ?_, ?_, ?_, ?_⟩
  · exact ⟨by decide, by decide⟩
  · exact ControlLink.lawful_idle (replies := []) (Nat.zero_le 8) _ _
  · exact ⟨rfl, trivial⟩
  · refine ⟨fun o i => ?_, fun o i => ?_, fun i => ?_, by decide, by decide⟩
    · show GainMatrix.get .powerOnTargets o i ≤ 8191
      rewrite [GainMatrix.get_powerOnTargets]
      repeat' split
      all_goals omega
    · exact (silent o i).le.trans (Nat.zero_le _)
    · rewrite [initial]
      decide
  · exact fun i _ => ⟨fun o => silent o _, fun j => silent _ j⟩
  · refine ⟨fun i => ?_, fun i j h hi => ?_, fun i j d hi => ?_, Nat.zero_le 4, List.nodup_nil, List.nodup_nil,
      fun _ h => absurd h List.not_mem_nil⟩
    · rewrite [initial]
      exact ⟨⟨rfl, rfl⟩, nofun⟩
    · rewrite [initial] at hi
      cases hi
    · rewrite [initial] at hi
      cases hi
  · exact fun i => initial i ▸ (ringsLawful_slotLaw 0 .powerOn).initial
  · refine ⟨powerOn_limits_lawful, fun i => ?_, Nat.zero_le _⟩
    rewrite [initial]
    exact Nat.zero_le _
  · exact ⟨rfl, rfl, Nat.zero_le _, rfl, rfl, rfl, rfl, rfl, rfl, rfl⟩
  · exact ⟨fun i => initial i ▸ (countsLawful_slotLaw 0 .powerOn).initial, Nat.zero_le _⟩
  · exact ⟨Nat.zero_le 8, List.nodup_nil, fun _ h => absurd h List.not_mem_nil⟩

end Sys2Proof.Machine
end

section
/-!
SUPPORT. Gains: what an operation other than the ramp does to applied gains and to the slots whose row and column they
form (R126), and the bounds of R117.
-/
namespace Sys2Proof.Machine

variable {q : Setting} {s t u : State} {i k : SlotId}

/-! ### Operations that silence (R126) -/

/-- The column and the row of a slot hold applied gains of 0 (R126). -/
def State.silent (s : State) (i : SlotId) : Prop :=
  (∀ o, s.mix.applied.get o (.e i) = 0) ∧ ∀ j, s.mix.applied.get (.o i) j = 0

/-- What every operation but the ramp does: each applied gain stays or becomes 0, and a slot that leaves the live states
falls silent. -/
structure Silences (s t : State) : Prop where
  gains : ∀ o j, t.mix.applied.get o j = s.mix.applied.get o j ∨ t.mix.applied.get o j = 0
  dead : ∀ i, (t.slot i).state.live = false → (s.slot i).state.live = false ∨ t.silent i

/-- An operation that leaves the gains alone and makes no live slot a dead one. -/
theorem Silences.of_mix (hm : t.mix = s.mix)
    (hd : ∀ i, (t.slot i).state.live = false → (s.slot i).state.live = false) : Silences s t :=
  ⟨fun _ _ => .inl (by rw [hm]), fun i h => .inl (hd i h)⟩

theorem Silences.of_states (hm : t.mix = s.mix) (hs : ∀ i, (t.slot i).state = (s.slot i).state) : Silences s t :=
  .of_mix hm fun i h => hs i ▸ h

theorem Silences.of_slots (hm : t.mix = s.mix) (hs : t.slots = s.slots) : Silences s t :=
  .of_states hm fun i => by rw [State.slot, hs, State.slot]

theorem Silences.setSlot {x : Slot} (hx : x.state.live = false → (s.slot i).state.live = false) :
    Silences s (s.setSlot i x) := by
  refine .of_mix (State.setSlot_mix ..) fun j h => ?_
  rewrite [State.slot_setSlot] at h
  split at h
  · next hj => exact hj ▸ hx h
  · exact h

theorem Silences.modSlot {f : Slot → Slot} (hf : ∀ x, (f x).state = x.state) : Silences s (s.modSlot i f) :=
  .setSlot fun h => hf _ ▸ h

theorem Silences.trans (h : Silences s t) (k : Silences t u) : Silences s u := by
  refine ⟨fun o j => ?_, fun i hi => ?_⟩
  · rcases k.gains o j with hk | hk
    · rewrite [hk]
      exact h.gains o j
    · exact .inr hk
  · rcases k.dead i hi with ht | hu
    · refine (h.dead i ht).imp_right fun hsilent => ?_
      have still : ∀ o j, t.mix.applied.get o j = 0 → u.mix.applied.get o j = 0 := by
        intro o j ht
        rcases k.gains o j with hk | hk
        · rw [hk, ht]
        · exact hk
      exact ⟨fun o => still o _ (hsilent.1 o), fun j => still _ j (hsilent.2 j)⟩
    · exact .inr hu

/-- What follows an operation that leaves gains and slots alone. -/
theorem Silences.from (k : Silences t u) (hm : t.mix = s.mix) (hs : t.slots = s.slots) : Silences s u :=
  (Silences.of_slots hm hs).trans k

/-- An operation that leaves gains and slots alone, after one that silences. -/
theorem Silences.then (h : Silences s t) (hm : u.mix = t.mix) (hs : u.slots = t.slots) : Silences s u :=
  h.trans (.of_slots hm hs)

theorem State.silent_zeroGains (s : State) (i : SlotId) : (s.zeroGains i).silent i :=
  ⟨fun o => by simp [State.zeroGains, GainMatrix.get_zeroSlot], fun j => by simp [State.zeroGains, GainMatrix.get_zeroSlot]⟩

theorem State.zeroGains_silences (s : State) (i : SlotId) : Silences s (s.zeroGains i) := by
  refine ⟨fun o j => ?_, fun j h => .inl h⟩
  simp only [State.zeroGains, GainMatrix.get_zeroSlot]
  split
  · exact .inr rfl
  · exact .inl rfl

/-- The ways into EMPTY, LOST and MEASURING: a new record, and the zeroing of R126 where the slot was live. -/
theorem Silences.leave (s : State) (i : SlotId) (x : Slot) :
    Silences s ((s.setSlot i x).zeroIfLive i (s.slot i).state) := by
  unfold State.zeroIfLive
  split
  · refine ⟨((s.setSlot i x).zeroGains_silences i).gains, fun j h => ?_⟩
    by_cases hj : j = i
    · subst hj
      exact .inr (State.silent_zeroGains ..)
    · rewrite [State.zeroGains_slot, State.slot_setSlot_ne _ hj] at h
      exact .inl h
  · next h => exact .setSlot fun _ => by simpa using h

theorem State.settlePairs_silences (lost : SlotId → Bool) {own : State → State} (hm : ∀ t, (own t).mix = t.mix)
    (hs : ∀ t, (own t).slots = t.slots) : Silences s (s.settlePairs lost own) := by
  refine .of_states ?_ fun j => ?_
  · rw [State.settlePairs, State.raiseRoles_mix, hm]
  · rewrite [State.slot_settlePairs hs]
    obtain ⟨role, partner, primary, hj⟩ := pairedAfter_eq s.slots lost j
    rewrite [hj]
    rfl

theorem State.takeLead_silences : Silences s (s.takeLead i) := by
  refine .of_states (State.takeLead_mix ..) fun j => ?_
  obtain ⟨r, hr⟩ := s.slot_takeLead i j
  rw [hr]

theorem State.formPair_silences : Silences s (s.formPair i k) :=
  .of_states (State.formPair_mix ..) fun j => by
    unfold State.formPair
    rewrite [State.slot_modSlot, State.slot_modSlot, State.slot_modSlot]
    split
    · next h => subst h; split <;> simp_all
    · split
      · next h => rw [h]
      · rfl

theorem State.failSlot_silences (r : SlotReason) (l : Option Byte) : Silences s (s.failSlot i r l) :=
  (Silences.leave s i _).trans
    (State.settlePairs_silences _ (fun _ => State.raiseSlot_mix ..) fun _ => State.raiseSlot_slots ..)

theorem State.removeSlot_silences : Silences s (s.removeSlot i) :=
  ((Silences.leave _ i _).trans (State.settlePairs_silences _ (fun _ => rfl) fun _ => rfl)).from
    (State.release_mix ..) (State.release_slots ..)

theorem State.changeSlots_silences (f : Slot → Slot × Option SlotReason) (b : Option SlotReason) :
    Silences s (s.changeSlots f b) := by
  refine ⟨fun o j => ?_, fun i h => ?_⟩
  · rewrite [State.changeSlots_applied]
    split
    · exact .inr rfl
    · exact .inl rfl
  · rewrite [State.slot_changeSlots] at h
    obtain ⟨role, partner, primary, hj⟩ := pairedAfter_eq (s.slots.map fun x => (f x).1)
      (fun i => (f (s.slot i)).2.isSome && (f (s.slot i)).2 == b) i
    rewrite [hj, PerSlot.get_map] at h
    cases hlive : (s.slot i).state.live with
    | false => exact .inl rfl
    | true =>
      have leaves : leavesLive s f i = true := by
        rewrite [leavesLive, hlive]
        exact congrArg not h
      have zero : ∀ o j, (o = .o i ∨ j = .e i) → (s.changeSlots f b).mix.applied.get o j = 0 := by
        intro o j hpath
        rw [State.changeSlots_applied, if_pos]
        exact List.any_eq_true.mpr ⟨i, i.mem_all, by simpa [leaves] using hpath⟩
      exact .inr ⟨fun o => zero o _ (.inr rfl), fun j => zero _ j (.inl rfl)⟩

/-! ### Traffic -/

theorem State.activate_silences : Silences s (s.activate i) := by
  have active : Silences s (s.modSlot i fun x => { x with state := .active }) := .setSlot fun h => by cases h
  exact ((active.trans (State.zeroGains_silences ..)).then (State.raiseSlot_mix ..) (State.raiseSlot_slots ..)).trans
    State.takeLead_silences

theorem State.fillTest_silences : Silences s (s.fillTest i) := by
  unfold State.fillTest
  split
  · exact State.activate_silences
  · exact .of_slots rfl rfl

theorem State.activity_silences : Silences s (s.activity i) := by
  have touched : Silences s (s.modSlot i fun x => { x with idle := 0 }) := .modSlot fun _ => rfl
  unfold State.activity
  dsimp only
  split
  · exact touched.trans
      (((Silences.setSlot fun h => by cases h).then (State.raiseSlot_mix ..) (State.raiseSlot_slots ..)).trans State.takeLead_silences)
  · next h =>
    exact touched.trans ((Silences.setSlot fun _ => by rewrite [h]; rfl).then (State.raiseSlot_mix ..)
      (State.raiseSlot_slots ..))
  · exact touched

theorem State.count_silences (f : Stats → Stats) : Silences s (s.count i f) := .modSlot fun _ => rfl

theorem State.slotAnomaly_silences (o : Bool) (kind : AnomalyKind) (m : Option (SeqNum × Stamp)) :
    Silences s (s.slotAnomaly o kind i m) := .of_slots (State.slotAnomaly_mix ..) (State.slotAnomaly_slots ..)

theorem State.takeBlock_silences (g : Nat) (seq : SeqNum) (stamp : Stamp) (bad : Bool) (samples : List Sample) :
    Silences s (s.takeBlock i g seq stamp bad samples) := by
  unfold State.takeBlock
  dsimp only
  refine Silences.trans (Silences.of_states ?_ fun j => ?_) State.fillTest_silences
  · simp
  · simp only [State.slotAnomaly_slot, State.slot_modSlot]
    split
    · next h => rw [h]
    · rfl

theorem State.micOnSlot_silences (seq : SeqNum) (stamp : Stamp) (bad : Bool) (samples : List Sample) :
    Silences s (s.micOnSlot i seq stamp bad samples) := by
  unfold State.micOnSlot
  dsimp only
  refine Silences.trans (t := (s.activity i).count i fun c => { c with micIn := satAdd16 c.micIn 1 })
    (State.activity_silences.trans (State.count_silences _)) ?_
  split
  · exact (State.count_silences _).trans (State.slotAnomaly_silences ..)
  · exact State.takeBlock_silences ..

theorem State.takeMic_silences (h : Handle) (seq : SeqNum) (stamp : Stamp) (bad : Bool) (samples : List Sample) :
    Silences s (s.takeMic h seq stamp bad samples) := by
  unfold State.takeMic
  split
  · exact State.micOnSlot_silences ..
  split
  · exact .of_slots rfl rfl
  · exact .of_slots (State.anomaly_mix ..) (State.anomaly_slots ..)

theorem State.openWindow_silences (seq : SeqNum) (stamp : Stamp) : Silences s (s.openWindow i seq stamp) :=
  .modSlot fun _ => rfl

theorem State.discardWindow_silences (seq : SeqNum) (stamp : Stamp) : Silences s (s.discardWindow i seq stamp) :=
  (State.openWindow_silences seq stamp).from (State.anomaly_mix ..) (State.anomaly_slots ..)

theorem State.measuringResult_silences (m : Int) : Silences s (s.measuringResult i m) := by
  unfold State.measuringResult
  split
  · next h =>
    split
    · exact (Silences.setSlot fun _ => by rewrite [h]; rfl).trans State.fillTest_silences
    split
    · exact (State.failSlot_silences ..).from (State.release_mix ..) (State.release_slots ..)
    · exact .of_slots rfl rfl
  · exact .of_slots rfl rfl

theorem State.completeWindow_silences (d : Nat) (n : BitVec 32) (seq : SeqNum) (stamp : Stamp) :
    Silences s (s.completeWindow i d n seq stamp) := by
  have result : ∀ (t : State) (m : Int), Silences t (((t.raiseRate i m d n).compareRates i m).measuringResult i m) :=
    fun t m => (State.measuringResult_silences m).from (by simp) (by simp)
  unfold State.completeWindow
  dsimp only
  refine Silences.trans (t := s.modSlot i fun x =>
    x.afterWindow (measuredValue (Config.mixPeriodTicks * d) n.toNat) s.limits.slotLimit) (.modSlot fun _ => rfl) ?_
  split
  · exact result _ _
  · exact (result _ _).trans (State.openWindow_silences ..)

theorem State.windowPull_silences (seq : SeqNum) (stamp : Stamp) : Silences s (s.windowPull i seq stamp) := by
  unfold State.windowPull
  split
  · exact State.openWindow_silences ..
  split
  · exact .of_slots rfl rfl
  · split
    · exact State.discardWindow_silences ..
    · exact State.completeWindow_silences ..
  · exact State.discardWindow_silences ..
  · exact .of_slots rfl rfl

theorem State.takeOutboundPass_silences (seq : SeqNum) (stamp : Stamp) :
    Silences s (s.takeOutboundPass i seq stamp) := by
  refine .of_states (State.takeOutboundPass_mix ..) fun j => ?_
  simp only [State.takeOutboundPass, State.slotAnomaly_slot, State.slot_modSlot]
  split
  · next h => rw [h]
  · rfl

theorem State.takePull_silences (h : Handle) (seq : SeqNum) (stamp : Stamp) : Silences s (s.takePull h seq stamp) := by
  unfold State.takePull State.pullOnSlot
  split
  · next i _ =>
    dsimp only
    refine Silences.trans (t := (s.activity i).count i fun c => { c with pulls := satAdd16 c.pulls 1 })
      (State.activity_silences.trans (State.count_silences _)) ?_
    split
    · exact (State.takeOutboundPass_silences seq stamp |>.trans (State.windowPull_silences seq stamp)).then
        (State.send_mix ..) (State.send_slots ..)
    · exact (State.windowPull_silences seq stamp).then (State.send_mix ..) (State.send_slots ..)
  split
  · exact .of_slots (State.send_mix ..) (State.send_slots ..)
  · exact .of_slots (by simp) (by simp)

/-! ### Links -/

theorem State.linkDown_silences (h : Handle) (r : Option Byte) : Silences s (s.linkDown h r) := by
  have lose : ∀ i, Silences s ((s.lose i none).settlePairs (fun j => j == i) fun t =>
      t.raiseSlot i .lostDown (s.slot i).handle r) := fun i =>
    (Silences.leave s i _).trans
      (State.settlePairs_silences _ (fun _ => State.raiseSlot_mix ..) fun _ => State.raiseSlot_slots ..)
  unfold State.linkDown State.linkDownSlot
  split
  · split
    · exact State.failSlot_silences ..
    · exact State.failSlot_silences ..
    · exact lose _
    · exact lose _
    · exact .modSlot fun _ => rfl
    · exact .of_slots rfl rfl
  · exact .of_slots rfl rfl

theorem State.rebind_silences (link : PendingLink) : Silences s (s.rebind i link) := by
  have left : Silences s (((s.release (s.slot i).handle).setSlot i
      { (s.slot i).measuring with handle := some link.handle, mic := link.mic }).zeroIfLive i (s.slot i).state) := by
    have := Silences.leave (s.release (s.slot i).handle) i
      { (s.slot i).measuring with handle := some link.handle, mic := link.mic }
    rewrite [State.release_slot] at this
    exact this.from (State.release_mix ..) (State.release_slots ..)
  unfold State.rebind
  dsimp only
  split
  · next h =>
    have dead : (s.slot i).state.live = false := by rewrite [h]; rfl
    simp only [State.zeroIfLive, dead] at left
    exact left.then (State.raiseSlot_mix ..) (State.raiseSlot_slots ..)
  · exact left.then (State.raiseSlot_mix ..) (State.raiseSlot_slots ..)

theorem State.admitInto_silences (hempty : (s.slot i).state = .empty) (link : PendingLink) (v : AdmissionValues)
    (partner : Option SlotId) : Silences s (s.admitInto i link v partner) := by
  have admitted : Silences s (s.modSlot i fun x => admittedRecord x link v s.limits.slotLimit) :=
    .setSlot fun _ => by rewrite [hempty]; rfl
  cases partner with
  | none => exact admitted
  | some k => exact admitted.trans State.formPair_silences

theorem State.autoSlot_empty {profile : Option Profile} (h : s.autoSlot profile = some i) :
    (s.slot i).state = .empty := by
  unfold State.autoSlot at h
  split at h
  · next hlow =>
    split at h <;> cases h
    exact State.lowestEmpty_some hlow
  · cases h

theorem State.linkUp_silences (link : PendingLink) : Silences s (s.linkUp link) := by
  refine (State.linkDown_silences link.handle none).trans ?_
  show Silences _ ((s.linkDown link.handle none).placeLink link)
  unfold State.placeLink
  split
  · exact State.rebind_silences ..
  split
  · next i p hauto _ =>
    unfold State.autoAdmit
    dsimp only
    have admitted := State.admitInto_silences (s := (s.linkDown link.handle none).supersede link.identity) (i := i)
      (by rewrite [State.supersede_slot]; exact State.autoSlot_empty hauto) link
    exact ((admitted _ _).from (State.supersede_mix ..) (State.supersede_slots ..)).then (State.raiseSlot_mix ..)
      (State.raiseSlot_slots ..)
  · exact .of_slots (State.appendPending_mix ..) (State.appendPending_slots ..)

/-! ### Mix periods -/

/-- A mix period ramps the gains; all that it does after that silences. -/
theorem State.mixPeriod_silences (s : State) (c : Pacing) (d : List Sample) :
    Silences (s.countPeriod.rampGains s.slotStates) (s.mixPeriod c d) := by
  obtain ⟨u, e, hm, audio, hmix, -⟩ := s.mixPeriod_parts c d
  have before : Silences (s.countPeriod.rampGains s.slotStates) u :=
    .of_states hmix fun i => (audio.state i).trans (by simp)
  have period : Silences u u.slotPeriod :=
    (State.changeSlots_silences ..).from (State.releaseSilent_mix ..) (State.releaseSilent_slots ..)
  have close : Silences u.slotPeriod (u.slotPeriod.talkerClose s.slotStates e) := by
    refine .of_states (State.talkerClose_mix ..) fun i => ?_
    rewrite [State.talkerClose_eq, State.slot]
    show ((PerSlot.tabulate (u.slotPeriod.closedSlot s.slotStates (u.slotPeriod.heard s.slotStates e))).get i).state = _
    rewrite [PerSlot.get_tabulate]
    show ((u.slotPeriod.heard s.slotStates e).get i).state = _
    rewrite [State.heard, PerSlot.get_tabulate]
    split <;> rfl
  rewrite [hm]
  exact (before.trans period).trans close

/-! ### The laws of gains (R117, R126, R136) -/

/-- What silences keeps both laws of the applied gains. -/
theorem Silences.bounded (h : Silences s t) (hs : s.mix.applied.Bounded) : t.mix.applied.Bounded := by
  intro o j
  rcases h.gains o j with hk | hk
  · rewrite [hk]
    exact hs o j
  · rewrite [hk]
    exact Nat.zero_le _

theorem Silences.deadSilent (h : Silences s t) (hs : s.DeadSlotsSilent) : t.DeadSlotsSilent := by
  have still : ∀ o j, s.mix.applied.get o j = 0 → t.mix.applied.get o j = 0 := by
    intro o j hz
    rcases h.gains o j with hk | hk
    · rw [hk, hz]
    · exact hk
  intro i hi
  rcases h.dead i hi with hd | hd
  · obtain ⟨column, row⟩ := hs i hd
    exact ⟨fun o => still o _ (column o), fun j => still _ j (row j)⟩
  · exact hd

theorem weightedTarget_le {g w : Nat} (hg : g ≤ 8191) (hw : w ≤ 4096) : weightedTarget g w ≤ 8191 := by
  have : g * w ≤ 8191 * 4096 := Nat.mul_le_mul hg hw
  unfold weightedTarget
  omega

theorem effectiveTarget_le {states : PerSlot SlotState} {weight : SlotId → Nat} (o : Output) (j : Input) {g : Nat}
    (hg : g ≤ 8191) (hw : ∀ i, weight i ≤ 4096) : effectiveTarget states weight o j g ≤ 8191 := by
  unfold effectiveTarget
  split
  · split
    · exact Nat.zero_le _
    split
    · exact weightedTarget_le hg (hw _)
    · exact hg
  · exact hg

theorem rampStep_le {ramp a e b : Nat} (ha : a ≤ b) (he : e ≤ b) : rampStep ramp a e ≤ b := by
  rewrite [rampStep_eq]
  split
  · exact he
  split
  · exact (min_le_left ..).trans he
  · exact max_le he ((Nat.sub_le ..).trans ha)

/-- Bounded targets and weights, and bounded applied gains (R117, R136). -/
theorem State.rampGains_bounded (states : PerSlot SlotState) (ht : s.mix.targets.Bounded)
    (ha : s.mix.applied.Bounded) (hw : ∀ i, (s.slot i).talker.weight ≤ 4096) :
    (s.rampGains states).mix.applied.Bounded := by
  intro o j
  simp only [State.rampGains, GainMatrix.get_tabulate]
  split
  · exact rampStep_le (ha o j) (effectiveTarget_le o j (ht o j) hw)
  · exact Nat.zero_le _

/-- The ramp holds the paths of a dead slot at 0 (R125, R126). -/
theorem State.rampGains_deadSilent (hs : ∀ i, (s.slot i).state = states.get i) :
    (s.rampGains states).DeadSlotsSilent := by
  intro i hi
  rewrite [State.rampGains_slot, hs] at hi
  constructor
  · intro o
    simp [State.rampGains, steppedPath, hi]
  · intro j
    simp [State.rampGains, steppedPath, hi]

/-- What a law of the applied gains needs: kept by what silences, and by the ramp. -/
theorem State.mixPeriod_bounded (ht : s.mix.targets.Bounded) (ha : s.mix.applied.Bounded)
    (hw : ∀ i, (s.slot i).talker.weight ≤ 4096) (c : Pacing) (d : List Sample) :
    (s.mixPeriod c d).mix.applied.Bounded :=
  (s.mixPeriod_silences c d).bounded (State.rampGains_bounded (s := s.countPeriod) _ ht ha hw)

theorem State.mixPeriod_deadSilent (s : State) (c : Pacing) (d : List Sample) : (s.mixPeriod c d).DeadSlotsSilent :=
  (s.mixPeriod_silences c d).deadSilent (State.rampGains_deadSilent fun i => (s.slotStates_get i).symm)

/-- A strobe raises a period, or leaves gains and slots alone. -/
theorem State.takeStrobe_cases (s : State) (tick : Nat) (d : Sample) :
    ∃ t, t.mix = s.mix ∧ t.slots = s.slots ∧
      (s.takeStrobe tick d = t ∨ ∃ h, s.takeStrobe tick d = t.mixPeriod .byCall h) := by
  have period : ∀ u : State, u.mix = s.mix → u.slots = s.slots → ∃ t, t.mix = s.mix ∧ t.slots = s.slots ∧
      (u.endPeriod tick = t ∨ ∃ h, u.endPeriod tick = t.mixPeriod .byCall h) := by
    intro u hm hs
    unfold State.endPeriod
    split
    · exact ⟨{ u with call := { u.call with strobeCount := 0, lastMixTick := some tick } }, hm, hs,
        .inr ⟨u.call.captureHalf, rfl⟩⟩
    · exact ⟨u, hm, hs, .inl rfl⟩
  unfold State.takeStrobe
  split <;> exact period _ (by simp) (by simp)

theorem Links.silences (h : Links s t) : Silences s t := by
  induction h
  case countersCleared => exact State.count_silences _
  case accepted h e i side named inT outT seed found passed =>
    unfold State.accept
    refine (State.admitInto_silences ?_ e _ _).from rfl rfl
    show (s.slot i).state = .empty
    by_contra hne
    simp [State.admitRefusal, hne] at passed
  case declined | badRadioFrame => exact .of_slots (by simp) (by simp)
  case removed => exact State.removeSlot_silences
  case watchSet => exact .modSlot fun _ => rfl
  case linkUp => exact State.linkUp_silences _
  case linkDown => exact State.linkDown_silences ..
  case mic => exact State.takeMic_silences ..
  case pull => exact State.takePull_silences ..
  case portReset => exact (State.changeSlots_silences ..).then rfl rfl
  all_goals exact .of_slots rfl rfl

/-- Every change but a reset and a mix period silences, or moves target gains alone. -/
theorem Changes.silences (h : Changes s q t) :
    (Silences s t ∨ t.mix.applied = .zero) ∨
      ∃ (u : State) (c : Pacing) (d : List Sample), u.mix = s.mix ∧ u.slots = s.slots ∧ t = u.mixPeriod c d := by
  induction h
  case powerOn | softReset => exact .inl (.inr rfl)
  case sets h =>
    refine .inl (.inl ?_)
    induction h
    case gainsSet => exact ⟨fun _ _ => .inl rfl, fun _ h => .inl h⟩
    case limitSet slotL callL pairT loss ramp =>
      refine .of_states rfl fun i => ?_
      rw [State.slot_withLimits]
    all_goals exact .of_slots rfl rfl
  case plays h => exact .inl (.inl (by induction h <;> exact .of_slots rfl rfl))
  case ticks h =>
    induction h
    case strobe tick d =>
      obtain ⟨u, hm, hs, h | ⟨_, h⟩⟩ := s.takeStrobe_cases tick d
      · exact .inl (.inl (h ▸ .of_slots hm hs))
      · exact .inr ⟨u, _, _, hm, hs, h⟩
    case strobeTimeout => exact .inl (.inl (.of_slots rfl rfl))
    case localTimer due _ =>
      refine .inr ⟨_, .byLocal, silence, ?_, ?_, rfl⟩
      · rfl
      · rfl
  case links h => exact .inl (.inl h.silences)

theorem entryPath_le {e : GainEntry} {o : Output} {j : Input} {g : Nat} (h : entryPath e = some (o, j, g)) :
    g ≤ 8191 := by
  unfold entryPath at h
  split at h <;> cases h
  exact Nat.min_le_left _ _

theorem entryPaths_le : ∀ {entries : List GainEntry} {paths : List (Output × Input × Nat)},
    entryPaths entries = some paths → ∀ p ∈ paths, p.2.2 ≤ 8191
  | [], _, h, p, hp => by cases h; cases hp
  | e :: rest, _, h, p, hp => by
    unfold entryPaths at h
    split at h
    · next q ps he hrest =>
      cases h
      rcases List.mem_cons.mp hp with rfl | hp
      · exact entryPath_le he
      · exact entryPaths_le hrest p hp
    · cases h

theorem writeGains_bounded : ∀ {paths : List (Output × Input × Nat)} {m : GainMatrix}, m.Bounded →
    (∀ p ∈ paths, p.2.2 ≤ 8191) → (writeGains m paths).Bounded
  | [], _, hm, _ => hm
  | (o, j, g) :: rest, m, hm, hp => by
    refine writeGains_bounded (m := m.set o j g) (fun q k => ?_) fun p h => hp p (List.mem_cons_of_mem _ h)
    rewrite [GainMatrix.get_set]
    split
    · exact hp (o, j, g) List.mem_cons_self
    · exact hm q k

theorem TalkParams.updated_weights {p : TalkParams} (hd : p.duckWeight ≤ 4096) (hg : p.gateWeight ≤ 4096)
    (g h d w : Option (BitVec 16)) : (p.updated g h d w).duckWeight ≤ 4096 ∧ (p.updated g h d w).gateWeight ≤ 4096 :=
  ⟨(settingOr_range d (Nat.zero_le 4096) ⟨Nat.zero_le _, hd⟩).2,
    (settingOr_range w (Nat.zero_le 4096) ⟨Nat.zero_le _, hg⟩).2⟩

theorem powerOnTargets_bounded : GainMatrix.powerOnTargets.Bounded := by
  intro o j
  rewrite [GainMatrix.get_powerOnTargets]
  repeat' split
  all_goals omega

theorem Changes.targets_bounded (hs : s.mix.targets.Bounded) (h : Changes s q t) : t.mix.targets.Bounded := by
  have keep : t.mix.targets = s.mix.targets → t.mix.targets.Bounded := fun he => he ▸ hs
  induction h
  case powerOn => exact powerOnTargets_bounded
  case softReset => exact keep (by simp [State.softReset])
  case sets h =>
    induction h
    case gainsSet entries paths hp => exact writeGains_bounded hs (entryPaths_le hp)
    all_goals exact hs
  case plays h => induction h <;> exact hs
  case ticks h => exact keep h.calm.2.2.1
  case links h => exact keep h.targets

theorem Changes.talk_lawful (hs : s.talk.duckWeight ≤ 4096 ∧ s.talk.gateWeight ≤ 4096) (h : Changes s q t) :
    t.talk.duckWeight ≤ 4096 ∧ t.talk.gateWeight ≤ 4096 := by
  have keep : t.talk = s.talk → t.talk.duckWeight ≤ 4096 ∧ t.talk.gateWeight ≤ 4096 := fun he => he ▸ hs
  induction h
  case powerOn => exact (by decide : TalkParams.powerOn.duckWeight ≤ 4096 ∧ TalkParams.powerOn.gateWeight ≤ 4096)
  case softReset => exact keep (by simp [State.softReset])
  case sets h =>
    induction h
    case talkSet => exact TalkParams.updated_weights hs.1 hs.2 _ _ _ _
    all_goals exact hs
  case plays h => induction h <;> exact hs
  case ticks h => exact keep h.calm.2.2.2.1
  case links h => exact keep h.talk

theorem Changes.gains_lawful (hs : s.GainsLawful) (h : Changes s q t) : t.GainsLawful := by
  obtain ⟨targets, applied, weights, talk⟩ := hs
  refine ⟨h.targets_bounded targets, ?_,
    (weightWithin_slotLaw _ talk.1).kept (fun _ _ h => h) weights h, h.talk_lawful talk⟩
  rcases h.silences with (h | h) | ⟨u, c, d, hm, hsl, rfl⟩
  · exact h.bounded applied
  · rewrite [h]
    exact fun o j => (GainMatrix.get_zero o j).le.trans (Nat.zero_le _)
  · refine State.mixPeriod_bounded ?_ ?_ (fun i => ?_) c d
    · rewrite [hm]
      exact targets
    · rewrite [hm]
      exact applied
    · rewrite [State.slot, hsl]
      exact weights i

theorem Changes.deadSilent (hs : s.DeadSlotsSilent) (h : Changes s q t) : t.DeadSlotsSilent := by
  rcases h.silences with (h | h) | ⟨u, c, d, -, -, rfl⟩
  · exact h.deadSilent hs
  · intro i _
    rewrite [h]
    exact ⟨fun o => GainMatrix.get_zero o _, fun j => GainMatrix.get_zero _ j⟩
  · exact u.mixPeriod_deadSilent c d

/-- Settles O53: every operation but the ramp silences; the ramp stays between bounded values and holds dead paths at
0. -/
theorem stepsKeepTheGainsLawful : Obligations.StepsKeepTheGainsLawful :=
  ⟨fun _ _ hs h => step_keeps (law := State.GainsLawful) (fun _ _ _ h => h) (fun _ _ _ hs h => h.gains_lawful hs) hs h,
    fun _ _ hs h =>
      step_keeps (law := State.DeadSlotsSilent) (fun _ _ _ h => h) (fun _ _ _ hs h => h.deadSilent hs) hs h⟩

end Sys2Proof.Machine
end

section
/-!
SUPPORT. The pair law (R28, R136): what a record says of its pair, the pair rules R31 and R33 applied to any change that
empties records, and the operations that keep every pair lawful.
-/
namespace Sys2Proof.Machine

variable {q : Setting} {s t u : State} {i k : SlotId}

/-! ### What a record says of its pair -/

/-- What the pair law reads of a record. -/
def Slot.pairing (x : Slot) : Role × Option SlotId × Bool × Side × Bool :=
  (x.role, x.partner, x.talker.primary, x.side, x.state == .empty)

theorem Slot.pairing_eq {x y : Slot} : x.pairing = y.pairing ↔ x.role = y.role ∧ x.partner = y.partner ∧
    x.talker.primary = y.talker.primary ∧ x.side = y.side ∧ (x.state = .empty ↔ y.state = .empty) := by
  have empty : (x.state == .empty) = (y.state == .empty) ↔ (x.state = .empty ↔ y.state = .empty) := by
    rw [Bool.eq_iff_iff, beq_iff_eq, beq_iff_eq]
  simp only [Slot.pairing, Prod.mk.injEq, empty]

/-- Two states whose records say the same of their pairs. -/
def SamePairs (s t : State) : Prop := ∀ i, (t.slot i).pairing = (s.slot i).pairing

theorem SamePairs.of_slots (h : t.slots = s.slots) : SamePairs s t := fun i => by rw [State.slot, h, State.slot]

theorem SamePairs.trans (h : SamePairs s t) (k : SamePairs t u) : SamePairs s u := fun i => (k i).trans (h i)

theorem SamePairs.setSlot {x : Slot} (hx : x.pairing = (s.slot i).pairing) : SamePairs s (s.setSlot i x) := by
  intro j
  rewrite [State.slot_setSlot]
  split
  · next h => rw [h, hx]
  · rfl

theorem SamePairs.modSlot {f : Slot → Slot} (hf : (f (s.slot i)).pairing = (s.slot i).pairing) :
    SamePairs s (s.modSlot i f) := .setSlot hf

/-- What a lawful pair says of each member. -/
theorem State.PairsLawful.pair (h : s.PairsLawful) (hi : (s.slot i).partner = some k) :
    k ≠ i ∧ (s.slot k).partner = some i ∧ (s.slot i).state ≠ .empty ∧ (s.slot i).side.opposes (s.slot k).side ∧
      (((s.slot i).role = .leader ∧ (s.slot k).role = .follower) ∨
        ((s.slot i).role = .follower ∧ (s.slot k).role = .leader)) ∧
      (s.slot i).talker.primary = !(s.slot k).talker.primary := by
  have h := h i
  unfold State.pairLawful at h
  rwa [hi] at h

theorem State.pairLawful_none (hi : (s.slot i).partner = none) (hr : (s.slot i).role = .solo)
    (hp : (s.slot i).talker.primary = false) : s.pairLawful i := by
  unfold State.pairLawful
  rewrite [hi]
  exact ⟨hr, hp⟩

theorem State.pairLawful_some (hi : (s.slot i).partner = some k)
    (h : k ≠ i ∧ (s.slot k).partner = some i ∧ (s.slot i).state ≠ .empty ∧ (s.slot i).side.opposes (s.slot k).side ∧
      (((s.slot i).role = .leader ∧ (s.slot k).role = .follower) ∨
        ((s.slot i).role = .follower ∧ (s.slot k).role = .leader)) ∧
      (s.slot i).talker.primary = !(s.slot k).talker.primary) : s.pairLawful i := by
  unfold State.pairLawful
  rewrite [hi]
  exact h

theorem SamePairs.lawful (h : SamePairs s t) (hs : s.PairsLawful) : t.PairsLawful := by
  intro i
  obtain ⟨hr, hp, hprim, hside, hempty⟩ := Slot.pairing_eq.mp (h i)
  cases hk : (s.slot i).partner with
  | none =>
    obtain ⟨role, primary⟩ := hs.solo hk
    exact State.pairLawful_none (hp.trans hk) (hr.trans role) (hprim.trans primary)
  | some k =>
    obtain ⟨hrk, hpk, hprimk, hsidek, _⟩ := Slot.pairing_eq.mp (h k)
    obtain ⟨hne, hmutual, hstate, hopp, hroles, hone⟩ := hs.pair hk
    refine State.pairLawful_some (hp.trans hk) ⟨hne, hpk.trans hmutual, fun he => hstate (hempty.mp he), ?_, ?_, ?_⟩
    · rewrite [hside, hsidek]
      exact hopp
    · rewrite [hr, hrk]
      exact hroles
    · rewrite [hprim, hprimk]
      exact hone

/-- An EMPTY slot has no partner, and no slot names it as one. -/
theorem State.PairsLawful.empty (hs : s.PairsLawful) (hi : (s.slot i).state = .empty) :
    (s.slot i).partner = none ∧ ∀ j, (s.slot j).partner ≠ some i := by
  have none : (s.slot i).partner = none := by
    by_contra h
    obtain ⟨k, hk⟩ := Option.ne_none_iff_exists'.mp h
    exact (hs.pair hk).2.2.1 hi
  refine ⟨none, fun j hj => ?_⟩
  rewrite [(hs.pair hj).2.1] at none
  cases none

/-- A SOLO slot has no partner. -/
theorem State.PairsLawful.of_solo (hs : s.PairsLawful) (hi : (s.slot i).role = .solo) : (s.slot i).partner = none := by
  by_contra h
  obtain ⟨k, hk⟩ := Option.ne_none_iff_exists'.mp h
  rcases (hs.pair hk).2.2.2.2.1 with ⟨hr, _⟩ | ⟨hr, _⟩ <;> rewrite [hi] at hr <;> cases hr

/-! ### The pair rules (R31, R33) -/

/-- A record that has entered EMPTY: in no pair. -/
def Slot.unpaired (x : Slot) : Prop :=
  x.state = .empty ∧ x.role = .solo ∧ x.partner = none ∧ x.talker.primary = false

theorem pairedAfter_unpaired {p : PerSlot Slot} (lost : SlotId → Bool) (hr : (p.get i).role ≠ .follower)
    (hp : (p.get i).partner = none) : pairedAfter p lost i = p.get i := by
  have noEnd : pairEnded p i = false := by unfold pairEnded; rw [hp]
  have noDown : swapsDown p lost i = false := by unfold swapsDown; rw [hp]
  have noUp : swapsUp (p.get i) lost = false := by unfold swapsUp Slot.leader?; rw [if_neg hr]
  simp [pairedAfter, noEnd, noDown, noUp]

/-- The pair rules on a pair whose members both stay: the roles swap where the LEADER is lost and the FOLLOWER live. -/
theorem pairedAfter_pair {p : PerSlot Slot} (lost : SlotId → Bool) {l f : SlotId} (hl : (p.get l).role = .leader)
    (hlp : (p.get l).partner = some f) (hf : (p.get f).role = .follower) (hfp : (p.get f).partner = some l)
    (hle : (p.get l).state ≠ .empty) (hfe : (p.get f).state ≠ .empty) :
    (pairedAfter p lost l = p.get l ∧ pairedAfter p lost f = p.get f) ∨
      (pairedAfter p lost l = { p.get l with role := .follower } ∧
        pairedAfter p lost f = { p.get f with role := .leader }) := by
  have leader : (p.get f).leader? = some l := by simp [Slot.leader?, hf, hfp]
  have endL : pairEnded p l = false := by simp [pairEnded, hlp, hfe]
  have endF : pairEnded p f = false := by simp [pairEnded, hfp, hle]
  have upL : swapsUp (p.get l) lost = false := by simp [swapsUp, Slot.leader?, hl]
  have upF : swapsUp (p.get f) lost = ((p.get f).state.live && lost l) := by simp [swapsUp, leader]
  have downF : swapsDown p lost f = false := by simp [swapsDown, hfp, hf]
  have downL : swapsDown p lost l = ((p.get f).state.live && lost l) := by
    unfold swapsDown
    rewrite [hlp]
    dsimp only
    rewrite [hl, leader, upF]
    cases lost l <;> cases (p.get f).state.live <;> simp
  cases hswap : ((p.get f).state.live && lost l) with
  | false => exact .inl (by simp [pairedAfter, endL, endF, upL, upF, downF, downL, hswap])
  | true => exact .inr (by simp [pairedAfter, endL, endF, upL, upF, downL, hswap])

/-- After any change that keeps what records say of their pairs but for those it empties, the pair rules leave every
pair lawful. -/
theorem State.settled_lawful {p : PerSlot Slot} (lost : SlotId → Bool) (hs : s.PairsLawful)
    (hp : ∀ i, (p.get i).pairing = (s.slot i).pairing ∨ (p.get i).unpaired)
    (ht : ∀ i, t.slot i = pairedAfter p lost i) : t.PairsLawful := by
  have lone : ∀ i, (p.get i).role = .solo → (p.get i).partner = none → (p.get i).talker.primary = false →
      t.pairLawful i := by
    intro i hr hpart hprim
    have hi : t.slot i = p.get i := (ht i).trans (pairedAfter_unpaired lost (by rewrite [hr]; decide) hpart)
    exact State.pairLawful_none (hi ▸ hpart) (hi ▸ hr) (hi ▸ hprim)
  intro i
  rcases hp i with same | ⟨_, hr, hpart, hprim⟩
  case inr => exact lone i hr hpart hprim
  obtain ⟨hr, hpart, hprim, hside, hempty⟩ := Slot.pairing_eq.mp same
  cases hk : (s.slot i).partner with
  | none =>
    obtain ⟨role, primary⟩ := hs.solo hk
    exact lone i (hr.trans role) (hpart.trans hk) (hprim.trans primary)
  | some k =>
    obtain ⟨hne, hmutual, hstate, hopp, hroles, hone⟩ := hs.pair hk
    have hpi : (p.get i).partner = some k := hpart.trans hk
    have hei : (p.get i).state ≠ .empty := fun he => hstate (hempty.mp he)
    rcases hp k with samek | ⟨hek, -⟩
    · obtain ⟨hrk, hpartk, hprimk, hsidek, hemptyk⟩ := Slot.pairing_eq.mp samek
      have hpk : (p.get k).partner = some i := hpartk.trans hmutual
      have hek : (p.get k).state ≠ .empty := fun he => (hs.pair hmutual).2.2.1 (hemptyk.mp he)
      have hopp' : (p.get i).side.opposes (p.get k).side := by rewrite [hside, hsidek]; exact hopp
      have hone' : (p.get i).talker.primary = !(p.get k).talker.primary := by rewrite [hprim, hprimk]; exact hone
      rcases hroles with ⟨hri, hrk'⟩ | ⟨hri, hrk'⟩
      · have hri' : (p.get i).role = .leader := hr.trans hri
        have hrk'' : (p.get k).role = .follower := hrk.trans hrk'
        rcases pairedAfter_pair lost hri' hpi hrk'' hpk hei hek with ⟨hi, hk⟩ | ⟨hi, hk⟩
        · refine State.pairLawful_some (k := k) ?_ ?_ <;> rewrite [ht i, hi]
          · exact hpi
          · rewrite [ht k, hk]
            exact ⟨hne, hpk, hei, hopp', .inl ⟨hri', hrk''⟩, hone'⟩
        · refine State.pairLawful_some (k := k) ?_ ?_ <;> rewrite [ht i, hi]
          · exact hpi
          · rewrite [ht k, hk]
            exact ⟨hne, hpk, hei, hopp', .inr ⟨rfl, rfl⟩, hone'⟩
      · have hri' : (p.get i).role = .follower := hr.trans hri
        have hrk'' : (p.get k).role = .leader := hrk.trans hrk'
        rcases pairedAfter_pair lost hrk'' hpk hri' hpi hek hei with ⟨hk, hi⟩ | ⟨hk, hi⟩
        · refine State.pairLawful_some (k := k) ?_ ?_ <;> rewrite [ht i, hi]
          · exact hpi
          · rewrite [ht k, hk]
            exact ⟨hne, hpk, hei, hopp', .inr ⟨hri', hrk''⟩, hone'⟩
        · refine State.pairLawful_some (k := k) ?_ ?_ <;> rewrite [ht i, hi]
          · exact hpi
          · rewrite [ht k, hk]
            exact ⟨hne, hpk, hei, hopp', .inl ⟨rfl, rfl⟩, hone'⟩
    · have ends : pairEnded p i = true := by simp [pairEnded, hpi, hei, hek]
      have hi : t.slot i = { p.get i with
          role := .solo, partner := none, talker := { (p.get i).talker with primary := false } } := by
        rw [ht i, pairedAfter, if_pos ends]
      exact State.pairLawful_none (by rw [hi]) (by rw [hi]) (by rw [hi])

theorem State.settlePairs_lawful (hs : s.PairsLawful) {lost : SlotId → Bool} {own : State → State}
    (hown : ∀ t, (own t).slots = t.slots)
    (h : ∀ i, (u.slot i).pairing = (s.slot i).pairing ∨ (u.slot i).unpaired) : (u.settlePairs lost own).PairsLawful :=
  State.settled_lawful lost hs h fun j => State.slot_settlePairs hown j

theorem Slot.emptied_unpaired (x : Slot) : x.emptied.unpaired := ⟨rfl, rfl, rfl, rfl⟩

theorem State.vacated_pairs (s : State) (i j : SlotId) :
    ((s.vacate i).slot j).pairing = (s.slot j).pairing ∨ ((s.vacate i).slot j).unpaired := by
  rewrite [State.vacate, State.slot, State.zeroIfLive_slots, State.slot_def, State.slot_setSlot]
  split
  · exact .inr (Slot.emptied_unpaired _)
  · exact .inl rfl

theorem State.PairsLawful.failSlot (hs : s.PairsLawful) (r : SlotReason) (l : Option Byte) :
    (s.failSlot i r l).PairsLawful :=
  State.settlePairs_lawful hs (fun _ => State.raiseSlot_slots ..) (s.vacated_pairs i)

theorem State.PairsLawful.of_slots (hs : s.PairsLawful) (h : t.slots = s.slots) : t.PairsLawful :=
  (SamePairs.of_slots h).lawful hs

theorem State.PairsLawful.removeSlot (hs : s.PairsLawful) : (s.removeSlot i).PairsLawful :=
  State.settlePairs_lawful (hs.of_slots (State.release_slots ..)) (fun _ => rfl) (State.vacated_pairs _ i)

theorem Slot.lost_pairing {x : Slot} (h : Option Handle) (hx : x.state ≠ .empty) : (x.lost h).pairing = x.pairing :=
  Slot.pairing_eq.mpr ⟨rfl, rfl, rfl, rfl, iff_of_false nofun hx⟩

theorem Slot.measuring_pairing {x : Slot} (hx : x.state ≠ .empty) : x.measuring.pairing = x.pairing :=
  Slot.pairing_eq.mpr ⟨rfl, rfl, rfl, rfl, iff_of_false nofun hx⟩

theorem State.PairsLawful.lost (hs : s.PairsLawful) (hi : (s.slot i).state ≠ .empty) (h : Option Handle)
    {lost : SlotId → Bool} {own : State → State} (hown : ∀ t, (own t).slots = t.slots) :
    ((s.lose i h).settlePairs lost own).PairsLawful := by
  refine State.settlePairs_lawful hs hown fun j => .inl ?_
  rewrite [State.lose, State.slot, State.zeroIfLive_slots, State.slot_def, State.slot_setSlot]
  split
  · next hj => rw [Slot.lost_pairing h hi, hj]
  · rfl

theorem State.PairsLawful.changeSlots (hs : s.PairsLawful) {f : Slot → Slot × Option SlotReason}
    (b : Option SlotReason) (hf : ∀ x, (f x).1.pairing = x.pairing ∨ (f x).1.unpaired) :
    (s.changeSlots f b).PairsLawful := by
  refine State.settled_lawful (p := s.slots.map fun x => (f x).1)
    (fun i => (f (s.slot i)).2.isSome && (f (s.slot i)).2 == b) hs (fun j => ?_) fun j => State.slot_changeSlots f b j
  rewrite [PerSlot.get_map]
  exact hf _

/-! ### The lead (R32) and admissions (R25, R29, R30) -/

theorem State.PairsLawful.takeLead (hs : s.PairsLawful) : (s.takeLead i).PairsLawful := by
  unfold State.takeLead
  split
  next k hk =>
    split
    · obtain ⟨hf, hik⟩ : (s.slot i).role = .follower ∧ (s.slot i).partner = some k := by
        simpa [Slot.leader?] using hk
      obtain ⟨hne, hki, hei, hopp, hroles, hone⟩ := hs.pair hik
      obtain ⟨_, _, hek, hopp', _, hone'⟩ := hs.pair hki
      generalize hu : ((s.modSlot i fun x => { x with role := .leader }).modSlot k fun x =>
        { x with role := .follower }) = u
      have hui : u.slot i = { s.slot i with role := .leader } := by
        rw [← hu, State.slot_modSlot_ne _ hne.symm, State.slot_modSlot_self]
      have huk : u.slot k = { s.slot k with role := .follower } := by
        rw [← hu, State.slot_modSlot_self, State.slot_modSlot_ne _ hne]
      have huj : ∀ j, j ≠ i → j ≠ k → u.slot j = s.slot j := by
        intro j hji hjk
        rw [← hu, State.slot_modSlot_ne _ hjk, State.slot_modSlot_ne _ hji]
      refine State.PairsLawful.of_slots (s := u) (fun j => ?_) (State.raiseSlot_slots ..)
      by_cases hji : j = i
      · subst hji
        refine State.pairLawful_some (k := k) ?_ ?_ <;> rewrite [hui]
        · exact hik
        · rewrite [huk]
          exact ⟨hne, hki, hei, hopp, .inl ⟨rfl, rfl⟩, hone⟩
      by_cases hjk : j = k
      · subst hjk
        refine State.pairLawful_some (k := i) ?_ ?_ <;> rewrite [huk]
        · exact hki
        · rewrite [hui]
          exact ⟨hne.symm, hik, hek, hopp', .inr ⟨rfl, rfl⟩, hone'⟩
      · cases hm : (s.slot j).partner with
        | none =>
          obtain ⟨role, primary⟩ := hs.solo hm
          have h := huj j hji hjk
          exact State.pairLawful_none (h ▸ hm) (h ▸ role) (h ▸ primary)
        | some m =>
          have facts := hs.pair hm
          have hmi : m ≠ i := fun h => hjk (by
            have := facts.2.1
            rewrite [h, hik] at this
            exact (Option.some.inj this).symm)
          have hmk : m ≠ k := fun h => hji (by
            have := facts.2.1
            rewrite [h, hki] at this
            exact (Option.some.inj this).symm)
          refine State.pairLawful_some (k := m) ?_ ?_ <;> rewrite [huj j hji hjk]
          · exact hm
          · rewrite [huj m hmi hmk]
            exact facts
    · exact hs
  · exact hs

/-- An admission beside a partner that can be one (R22, R25). -/
def State.canPair (s : State) (i k : SlotId) (side : Side) : Prop :=
  k ≠ i ∧ (s.slot k).state ≠ .empty ∧ (s.slot k).partner = none ∧ side.opposes (s.slot k).side

theorem Side.opposes_symm {a b : Side} (h : a.opposes b) : b.opposes a := by
  unfold Side.opposes at h ⊢
  exact h.elim (fun ⟨ha, hb⟩ => .inr ⟨hb, ha⟩) fun ⟨ha, hb⟩ => .inl ⟨hb, ha⟩

/-- The admitted record is in no pair: it comes from an EMPTY one. -/
theorem State.PairsLawful.record_admitted (hs : s.PairsLawful) (hi : (s.slot i).state = .empty) (link : PendingLink)
    (v : AdmissionValues) : (s.setSlot i (admittedRecord (s.slot i) link v s.limits.slotLimit)).PairsLawful := by
  obtain ⟨hnone, hunnamed⟩ := hs.empty hi
  obtain ⟨role, primary⟩ := hs.solo hnone
  intro j
  by_cases hj : j = i
  · subst hj
    refine State.pairLawful_none ?_ ?_ ?_ <;> rewrite [State.slot_setSlot_self]
    · exact hnone
    · exact role
    · exact primary
  · have h := State.slot_setSlot_ne s hj (admittedRecord (s.slot i) link v s.limits.slotLimit)
    cases hm : (s.slot j).partner with
    | none =>
      obtain ⟨role, primary⟩ := hs.solo hm
      exact State.pairLawful_none (h ▸ hm) (h ▸ role) (h ▸ primary)
    | some m =>
      have hmi : m ≠ i := fun he => hunnamed j (he ▸ hm)
      refine State.pairLawful_some (k := m) ?_ ?_ <;> rewrite [h]
      · exact hm
      · rewrite [State.slot_setSlot_ne _ hmi]
        exact hs.pair hm

theorem State.PairsLawful.formPair (hs : s.PairsLawful) (hne : k ≠ i) (hi : (s.slot i).partner = none)
    (hk : (s.slot k).partner = none) (hei : (s.slot i).state ≠ .empty) (hek : (s.slot k).state ≠ .empty)
    (hopp : (s.slot i).side.opposes (s.slot k).side) : (s.formPair i k).PairsLawful := by
  obtain ⟨mine, theirs, leads, hroles, hu⟩ : ∃ mine theirs leads,
      ((mine = Role.leader ∧ theirs = .follower) ∨ (mine = .follower ∧ theirs = .leader)) ∧
      s.formPair i k = ((s.modSlot i fun x =>
        { x with role := mine, partner := some k, talker := { x.talker with primary := leads } }).modSlot k fun x =>
          { x with role := theirs, partner := some i, talker := { x.talker with primary := !leads } }) := by
    by_cases hl : (s.slot k).state = .lost
    · exact ⟨.leader, .follower, true, .inl ⟨rfl, rfl⟩, by simp [State.formPair, hl]⟩
    · exact ⟨.follower, .leader, false, .inr ⟨rfl, rfl⟩, by simp [State.formPair, hl]⟩
  rewrite [hu]
  generalize hv : ((s.modSlot i _).modSlot k _) = v
  have hvi : v.slot i = { s.slot i with
      role := mine, partner := some k, talker := { (s.slot i).talker with primary := leads } } := by
    rw [← hv, State.slot_modSlot_ne _ hne.symm, State.slot_modSlot_self]
  have hvk : v.slot k = { s.slot k with
      role := theirs, partner := some i, talker := { (s.slot k).talker with primary := !leads } } := by
    rw [← hv, State.slot_modSlot_self, State.slot_modSlot_ne _ hne]
  have hvj : ∀ j, j ≠ i → j ≠ k → v.slot j = s.slot j := by
    intro j hji hjk
    rw [← hv, State.slot_modSlot_ne _ hjk, State.slot_modSlot_ne _ hji]
  intro j
  by_cases hji : j = i
  · subst hji
    refine State.pairLawful_some (k := k) ?_ ?_ <;> rw [hvi]
    rewrite [hvk]
    exact ⟨hne, rfl, hei, hopp, hroles, (Bool.not_not leads).symm⟩
  by_cases hjk : j = k
  · subst hjk
    refine State.pairLawful_some (k := i) ?_ ?_ <;> rw [hvk]
    rewrite [hvi]
    exact ⟨hne.symm, rfl, hek, Side.opposes_symm hopp, hroles.symm.imp (fun ⟨a, b⟩ => ⟨b, a⟩) fun ⟨a, b⟩ => ⟨b, a⟩, rfl⟩
  · cases hm : (s.slot j).partner with
    | none =>
      obtain ⟨role, primary⟩ := hs.solo hm
      have h := hvj j hji hjk
      exact State.pairLawful_none (h ▸ hm) (h ▸ role) (h ▸ primary)
    | some m =>
      have facts := hs.pair hm
      have hmi : m ≠ i := fun h => by rewrite [h, hi] at facts; exact nomatch facts.2.1
      have hmk : m ≠ k := fun h => by rewrite [h, hk] at facts; exact nomatch facts.2.1
      refine State.pairLawful_some (k := m) ?_ ?_ <;> rewrite [hvj j hji hjk]
      · exact hm
      · rewrite [hvj m hmi hmk]
        exact facts

theorem State.PairsLawful.admitInto (hs : s.PairsLawful) (hi : (s.slot i).state = .empty) (link : PendingLink)
    (v : AdmissionValues) {partner : Option SlotId} (hp : ∀ k, partner = some k → s.canPair i k v.side) :
    (s.admitInto i link v partner).PairsLawful := by
  have admitted := hs.record_admitted hi link v
  cases partner with
  | none => exact admitted
  | some k =>
    obtain ⟨hne, hek, hk, hopp⟩ := hp k rfl
    show ((s.setSlot i (admittedRecord (s.slot i) link v s.limits.slotLimit)).formPair i k).PairsLawful
    refine State.PairsLawful.formPair (i := i) (k := k) admitted hne ?_ ?_ ?_ ?_ ?_
    · rewrite [State.slot_setSlot_self]
      exact (hs.empty hi).1
    · rewrite [State.slot_setSlot_ne _ hne]
      exact hk
    · rewrite [State.slot_setSlot_self]
      exact nofun
    · rewrite [State.slot_setSlot_ne _ hne]
      exact hek
    · rewrite [State.slot_setSlot_self, State.slot_setSlot_ne _ hne]
      exact hopp

/-- A partner found through a profile can be one. -/
theorem State.profilePartner_canPair (hs : s.PairsLawful) (hi : (s.slot i).state = .empty) {profile : Option Profile}
    {side : Side} (h : s.profilePartner profile side = some k) : s.canPair i k side := by
  unfold State.profilePartner at h
  split at h
  · cases h
  split at h
  · cases h
  next hid =>
    split at h
    · next hsolo =>
      cases h
      obtain ⟨hrole, hside⟩ := hsolo
      have hek := (State.slotOfIdentity_some hid).1
      refine ⟨fun he => hek (he ▸ hi), hek, hs.of_solo hrole, ?_⟩
      cases side with
      | mono => exact nomatch hside
      | left => exact .inl ⟨rfl, (Option.some.inj hside).symm⟩
      | right => exact .inr ⟨rfl, (Option.some.inj hside).symm⟩
    · cases h

/-- A partner that an ADMIT names and that passes R22 can be one. -/
theorem State.partnerRefusal_none {side : Side} (h : s.partnerRefusal i k side = none) : s.canPair i k side := by
  unfold State.partnerRefusal at h
  split at h
  · cases h
  next hne =>
    split at h
    · cases h
    next hek =>
      split at h
      · cases h
      next hpart =>
        split at h
        · cases h
        next hside =>
          refine ⟨hne, hek, by simpa using hpart, ?_⟩
          unfold Side.opposes
          cases side <;> cases hk : (s.slot k).side <;> simp_all

theorem State.admitRefusal_none {e : PendingLink} {side : Side} {named : Option SlotId}
    (h : s.admitRefusal (some e) i side named = none) :
    (s.slot i).state = .empty ∧ (s.slotOfIdentity e.identity) = none ∧
      ∀ k, named = some k → s.canPair i k side := by
  unfold State.admitRefusal at h
  dsimp only at h
  split at h
  · cases h
  next hempty =>
    split at h
    · cases h
    split at h
    · cases h
    next hid =>
      refine ⟨by simpa using hempty, by simpa using hid, ?_⟩
      rintro k rfl
      exact State.partnerRefusal_none h

/-! ### Traffic and links -/

theorem State.PairsLawful.modSlot (hs : s.PairsLawful) {f : Slot → Slot}
    (hf : (f (s.slot i)).pairing = (s.slot i).pairing) : (s.modSlot i f).PairsLawful := (SamePairs.modSlot hf).lawful hs

theorem Slot.pairing_state {x : Slot} {y : SlotState} (hx : x.state ≠ .empty) (hy : y ≠ .empty) :
    ({ x with state := y } : Slot).pairing = x.pairing :=
  Slot.pairing_eq.mpr ⟨rfl, rfl, rfl, rfl, iff_of_false hy hx⟩

theorem State.PairsLawful.activate (hs : s.PairsLawful) (h : (s.slot i).state ≠ .empty) : (s.activate i).PairsLawful := by
  have active : (s.modSlot i fun x => { x with state := .active }).PairsLawful :=
    hs.modSlot (Slot.pairing_state h nofun)
  exact State.PairsLawful.takeLead (active.of_slots (by simp))

theorem State.PairsLawful.fillTest (hs : s.PairsLawful) : (s.fillTest i).PairsLawful := by
  unfold State.fillTest
  split
  · next h => exact hs.activate (by rewrite [h.1]; decide)
  · exact hs

theorem State.PairsLawful.activity (hs : s.PairsLawful) : (s.activity i).PairsLawful := by
  have touched : (s.modSlot i fun x => { x with idle := 0 }).PairsLawful := hs.modSlot rfl
  unfold State.activity
  dsimp only
  split
  · next h =>
    have resumed : ((s.modSlot i fun x => { x with idle := 0 }).modSlot i fun x =>
        { x with state := .active }).PairsLawful := touched.modSlot (Slot.pairing_state (by rewrite [h]; decide) nofun)
    exact State.PairsLawful.takeLead (resumed.of_slots (State.raiseSlot_slots ..))
  · next h =>
    have recovered : ((s.modSlot i fun x => { x with idle := 0 }).modSlot i Slot.measuring).PairsLawful :=
      touched.modSlot (Slot.measuring_pairing (by rewrite [h]; decide))
    exact recovered.of_slots (State.raiseSlot_slots ..)
  · exact touched

theorem State.PairsLawful.takeMic (hs : s.PairsLawful) (h : Handle) (seq : SeqNum) (stamp : Stamp) (bad : Bool)
    (samples : List Sample) : (s.takeMic h seq stamp bad samples).PairsLawful := by
  unfold State.takeMic State.micOnSlot State.takeBlock
  split
  · next i _ =>
    have active : ((s.activity i).count i fun c => { c with micIn := satAdd16 c.micIn 1 }).PairsLawful :=
      (hs.activity (i := i)).modSlot rfl
    dsimp only
    split
    · exact (State.PairsLawful.modSlot active (i := i)
        (f := fun x => { x with stats := { x.stats with late := satAdd16 x.stats.late 1 } }) rfl).of_slots
          (State.slotAnomaly_slots ..)
    · refine State.PairsLawful.fillTest (SamePairs.lawful (fun j => ?_) active)
      simp only [State.slotAnomaly_slot]
      rewrite [State.slot_modSlot]
      split
      · next hj => rewrite [hj]; rfl
      · rfl
  split
  · exact hs
  · exact hs.of_slots (State.anomaly_slots ..)

theorem State.PairsLawful.openWindow (hs : s.PairsLawful) (seq : SeqNum) (stamp : Stamp) :
    (s.openWindow i seq stamp).PairsLawful := hs.modSlot rfl

theorem State.PairsLawful.measuringResult (hs : s.PairsLawful) (m : Int) : (s.measuringResult i m).PairsLawful := by
  unfold State.measuringResult
  split
  · next h =>
    split
    · exact State.PairsLawful.fillTest (hs.modSlot (Slot.pairing_state (by rewrite [h]; decide) nofun))
    split
    · exact State.PairsLawful.failSlot (hs.of_slots (State.release_slots ..)) _ _
    · exact hs
  · exact hs

theorem State.PairsLawful.completeWindow (hs : s.PairsLawful) (d : Nat) (n : BitVec 32) (seq : SeqNum) (stamp : Stamp) :
    (s.completeWindow i d n seq stamp).PairsLawful := by
  unfold State.completeWindow
  dsimp only
  generalize measuredValue (Config.mixPeriodTicks * d) n.toNat = m
  have windowed : (s.modSlot i fun x => x.afterWindow m s.limits.slotLimit).PairsLawful := hs.modSlot rfl
  have result := State.PairsLawful.measuringResult (i := i) (windowed.of_slots
    (t := ((s.modSlot i fun x => x.afterWindow m s.limits.slotLimit).raiseRate i m d n).compareRates i m) (by simp)) m
  split
  · exact result
  · exact result.openWindow seq stamp

theorem State.PairsLawful.windowPull (hs : s.PairsLawful) (seq : SeqNum) (stamp : Stamp) :
    (s.windowPull i seq stamp).PairsLawful := by
  have discard : (s.discardWindow i seq stamp).PairsLawful :=
    State.PairsLawful.openWindow (hs.of_slots (State.anomaly_slots ..)) seq stamp
  unfold State.windowPull
  split
  · exact hs.openWindow seq stamp
  split
  · exact hs
  · split
    · exact discard
    · exact hs.completeWindow _ _ seq stamp
  · exact discard
  · exact hs

theorem State.PairsLawful.takePull (hs : s.PairsLawful) (h : Handle) (seq : SeqNum) (stamp : Stamp) :
    (s.takePull h seq stamp).PairsLawful := by
  unfold State.takePull State.pullOnSlot
  split
  · next i _ =>
    have active : ((s.activity i).count i fun c => { c with pulls := satAdd16 c.pulls 1 }).PairsLawful :=
      (hs.activity (i := i)).modSlot rfl
    dsimp only
    split
    · refine State.PairsLawful.of_slots (State.PairsLawful.windowPull (SamePairs.lawful (fun j => ?_) active) seq stamp)
        (State.send_slots ..)
      rewrite [State.takeOutboundPass, State.slotAnomaly_slot, State.slot_modSlot]
      split
      · next hj => rewrite [hj]; rfl
      · rfl
    · exact (active.windowPull seq stamp).of_slots (State.send_slots ..)
  split
  · exact hs
  · exact hs.of_slots (by simp)

theorem State.PairsLawful.linkDown (hs : s.PairsLawful) (h : Handle) (r : Option Byte) :
    (s.linkDown h r).PairsLawful := by
  unfold State.linkDown State.linkDownSlot
  split
  · split
    · exact hs.failSlot _ _
    · exact hs.failSlot _ _
    · next ha => exact hs.lost (by rewrite [ha]; decide) none fun _ => State.raiseSlot_slots ..
    · next ha => exact hs.lost (by rewrite [ha]; decide) none fun _ => State.raiseSlot_slots ..
    · exact hs.modSlot rfl
    · exact hs
  · exact hs

theorem State.PairsLawful.rebind (hs : s.PairsLawful) (h : (s.slot i).state ≠ .empty) (link : PendingLink) :
    (s.rebind i link).PairsLawful := by
  have bound : ((s.release (s.slot i).handle).setSlot i
      { (s.slot i).measuring with handle := some link.handle, mic := link.mic }).PairsLawful := by
    refine (SamePairs.setSlot ?_).lawful (hs.of_slots (State.release_slots ..))
    rewrite [State.release_slot]
    exact Slot.measuring_pairing h
  unfold State.rebind
  dsimp only
  split
  · exact bound.of_slots (State.raiseSlot_slots ..)
  · exact bound.of_slots (by simp)

theorem State.PairsLawful.linkUp (hs : s.PairsLawful) (link : PendingLink) : (s.linkUp link).PairsLawful := by
  have down : (s.linkDown link.handle none).PairsLawful := hs.linkDown link.handle none
  unfold State.linkUp State.placeLink
  split
  · next i hi => exact down.rebind (State.slotOfIdentity_some hi).1 link
  split
  · next i p hauto _ =>
    unfold State.autoAdmit
    dsimp only
    have free : ((s.linkDown link.handle none).supersede link.identity).PairsLawful :=
      down.of_slots (State.supersede_slots ..)
    have hempty : (((s.linkDown link.handle none).supersede link.identity).slot i).state = .empty := by
      rewrite [State.supersede_slot]
      exact State.autoSlot_empty hauto
    exact State.PairsLawful.of_slots
      (free.admitInto hempty link _ fun k hk => State.profilePartner_canPair free hempty hk) (State.raiseSlot_slots ..)
  · exact down.of_slots (State.appendPending_slots ..)

/-! ### Mix periods -/

theorem AudioOnly.samePairs {states : PerSlot SlotState} (h : AudioOnly states s t) : SamePairs s t := fun i => by
  rewrite [(h i).1]
  rfl

theorem Slot.idlePeriod_pairing (timeout : Nat) (x : Slot) :
    (x.idlePeriod timeout).1.pairing = x.pairing ∨ (x.idlePeriod timeout).1.unpaired := by
  unfold Slot.idlePeriod
  dsimp only
  split
  · exact .inl rfl
  · exact .inl rfl
  · next h =>
    split
    · exact .inl (Slot.pairing_state (x := { x with idle := _ }) (by rewrite [h]; decide) nofun)
    · exact .inl rfl
  · next h =>
    split
    · exact .inl (Slot.lost_pairing (x := { x with idle := _ }) _ (by rewrite [h]; decide))
    · exact .inl rfl
  all_goals
    split
    · exact .inr (Slot.emptied_unpaired _)
    · exact .inl rfl

theorem Slot.portReset_pairing (x : Slot) : x.portReset.1.pairing = x.pairing ∨ x.portReset.1.unpaired := by
  unfold Slot.portReset
  split
  · exact .inl rfl
  · exact .inr (Slot.emptied_unpaired _)
  · exact .inr (Slot.emptied_unpaired _)
  · next h => exact .inl (Slot.lost_pairing none (by rewrite [h]; decide))
  · next h => exact .inl (Slot.lost_pairing none (by rewrite [h]; decide))
  · exact .inl rfl

/-- The primary flag passes from one member of a pair to the other, or stays (R141, R142). -/
theorem primaryAfter_pair {slots : PerSlot Slot} {states : PerSlot SlotState} {p : TalkParams} {i k : SlotId}
    (hi : (slots.get i).partner = some k) (hk : (slots.get k).partner = some i)
    (hone : (slots.get i).talker.primary = !(slots.get k).talker.primary) :
    primaryAfter slots states p i = !primaryAfter slots states p k := by
  have needs : ∀ {a b : SlotId}, (slots.get a).partner = some b → (slots.get b).talker.primary = false →
      receivesPrimary slots states p a = none := by
    intro a b hab hb
    simp [receivesPrimary, hab, hb]
  unfold primaryAfter
  rewrite [hi, hk]
  dsimp only
  cases hprim : (slots.get k).talker.primary with
  | false =>
    rewrite [hprim] at hone
    rewrite [needs hi hprim, hone]
    cases (receivesPrimary slots states p k).isSome <;> rfl
  | true =>
    rewrite [hprim] at hone
    rewrite [needs hk hone, hone]
    cases (receivesPrimary slots states p i).isSome <;> rfl

theorem State.PairsLawful.talkerClose (hs : s.PairsLawful) (states : PerSlot SlotState) (e : PerSlot (List Sample)) :
    (s.talkerClose states e).PairsLawful := by
  have heard : ∀ i, ((s.heard states e).get i).pairing = (s.slot i).pairing := by
    intro i
    rewrite [State.heard, PerSlot.get_tabulate]
    split <;> rfl
  have closed : ∀ i, (s.talkerClose states e).slot i = s.closedSlot states (s.heard states e) i := by
    intro i
    rewrite [State.talkerClose_eq, State.slot]
    exact PerSlot.get_tabulate _ _
  intro i
  obtain ⟨hr, hp, hprim, hside, hempty⟩ := Slot.pairing_eq.mp (heard i)
  cases hk : (s.slot i).partner with
  | none =>
    obtain ⟨role, primary⟩ := hs.solo hk
    have hpart : ((s.heard states e).get i).partner = none := hp.trans hk
    refine State.pairLawful_none ?_ ?_ ?_ <;> rewrite [closed i]
    · exact hpart
    · exact hr.trans role
    · show primaryAfter (s.heard states e) states s.talk i = false
      simp only [primaryAfter, receivesPrimary, hpart]
      exact hprim.trans primary
  | some k =>
    obtain ⟨hrk, hpk, hprimk, hsidek, _⟩ := Slot.pairing_eq.mp (heard k)
    obtain ⟨hne, hmutual, hstate, hopp, hroles, hone⟩ := hs.pair hk
    refine State.pairLawful_some (k := k) ?_ ?_ <;> rewrite [closed i]
    · exact hp.trans hk
    · rewrite [closed k]
      refine ⟨hne, hpk.trans hmutual, fun he => hstate (hempty.mp he), ?_, ?_, ?_⟩
      · show ((s.heard states e).get i).side.opposes ((s.heard states e).get k).side
        rewrite [hside, hsidek]
        exact hopp
      · show (((s.heard states e).get i).role = .leader ∧ ((s.heard states e).get k).role = .follower) ∨
          (((s.heard states e).get i).role = .follower ∧ ((s.heard states e).get k).role = .leader)
        rewrite [hr, hrk]
        exact hroles
      · exact primaryAfter_pair (hp.trans hk) (hpk.trans hmutual) (by rewrite [hprim, hprimk]; exact hone)

theorem State.PairsLawful.mixPeriod (hs : s.PairsLawful) (c : Pacing) (d : List Sample) :
    (s.mixPeriod c d).PairsLawful := by
  obtain ⟨u, e, hm, audio, -⟩ := s.mixPeriod_parts c d
  have hu : u.PairsLawful := audio.samePairs.lawful hs
  rewrite [hm]
  refine State.PairsLawful.talkerClose ?_ _ _
  exact State.PairsLawful.changeSlots (hu.of_slots (State.releaseSilent_slots _)) _ (Slot.idlePeriod_pairing _)

/-! ### Every change -/

theorem State.pairsLawful_initial (h : ∀ i, (t.slot i).pairing = Slot.initial.pairing) : t.PairsLawful := by
  intro i
  obtain ⟨hr, hp, hprim, _⟩ := Slot.pairing_eq.mp (h i)
  exact State.pairLawful_none hp hr hprim

theorem Links.pairs_lawful (hs : s.PairsLawful) (h : Links s t) : t.PairsLawful := by
  induction h
  case countersCleared i => exact hs.modSlot rfl
  case accepted h e i side named inT outT seed found passed =>
    obtain ⟨hempty, -, hnamed⟩ := State.admitRefusal_none passed
    unfold State.accept
    refine State.PairsLawful.admitInto (s := s.dropPending e.handle) hs hempty e _ fun k hk => ?_
    cases named with
    | some m => exact hnamed k hk
    | none => exact State.profilePartner_canPair hs hempty hk
  case declined | badRadioFrame => exact hs.of_slots (by simp)
  case removed => exact hs.removeSlot
  case watchSet => exact hs.modSlot rfl
  case linkUp link _ => exact hs.linkUp link
  case linkDown => exact hs.linkDown _ _
  case mic => exact hs.takeMic _ _ _ _ _
  case pull => exact hs.takePull _ _ _
  case portReset => exact (hs.changeSlots _ Slot.portReset_pairing).of_slots rfl
  all_goals exact hs.of_slots rfl

theorem Changes.pairs_lawful (hs : s.PairsLawful) (h : Changes s q t) : t.PairsLawful := by
  induction h
  case powerOn => exact State.pairsLawful_initial fun i => by cases i <;> rfl
  case softReset =>
    refine State.pairsLawful_initial fun i => ?_
    show (PerSlot.get (PerSlot.map (fun x : Slot => x.softReset s.talk) (s.releaseAll.setPendingLinks []).slots) i).pairing = _
    rewrite [PerSlot.get_map]
    rfl
  case sets h =>
    induction h
    case limitSet =>
      refine SamePairs.lawful (fun i => ?_) hs
      rewrite [State.slot_withLimits]
      rfl
    all_goals exact hs.of_slots rfl
  case plays h => induction h <;> exact hs.of_slots rfl
  case ticks h =>
    induction h
    case strobe tick d =>
      obtain ⟨u, -, hu, h | ⟨_, h⟩⟩ := s.takeStrobe_cases tick d
      · exact h ▸ hs.of_slots hu
      · rewrite [h]
        exact (hs.of_slots hu).mixPeriod _ _
    case strobeTimeout => exact hs.of_slots rfl
    case localTimer =>
      refine State.PairsLawful.mixPeriod ?_ _ _
      exact hs.of_slots rfl
  case links h => exact h.pairs_lawful hs

/-- Settles O54: roles move only within a pair and flags pass from one member to the other, by the kinds of change. -/
theorem stepsKeepPairsLawful : Obligations.StepsKeepPairsLawful := fun _ _ hs h =>
  step_keeps (law := State.PairsLawful) (fun _ _ _ h => h) (fun _ _ _ hs h => h.pairs_lawful hs) hs h

end Sys2Proof.Machine
end

section
/-!
SUPPORT. Handles and identities (R1, R13, R44): the operations that only let links go, and the three that take one.
-/
namespace Sys2Proof.Machine

variable {q : Setting} {s t u : State} {i k : SlotId} {h : Handle}

/-! ### What one record binds (R1, R3) -/

theorem Slot.bindingLawful_acquired {x : Slot} (he : x.state ≠ .empty) (hl : x.state ≠ .lost) :
    x.bindingLawful ↔ x.handle.isSome ∧ x.identity.isSome := by
  unfold Slot.bindingLawful
  split
  · next h => exact absurd h he
  · next h => exact absurd h hl
  · rfl

theorem Slot.bindingLawful.identity {x : Slot} (h : x.bindingLawful) (he : x.state ≠ .empty) : x.identity.isSome := by
  unfold Slot.bindingLawful at h
  split at h
  · next hs => exact absurd hs he
  · exact h
  · exact h.2

theorem Slot.bindingLawful.empty {x : Slot} (h : x.bindingLawful) (he : x.state = .empty) :
    x.handle = none ∧ x.identity = none := by
  unfold Slot.bindingLawful at h
  rwa [he] at h

theorem Slot.bindingLawful_moved {x y : Slot} (h : x.bindingLawful) (hx : x.state ≠ .empty ∧ x.state ≠ .lost)
    (hy : y.state ≠ .empty ∧ y.state ≠ .lost) (hh : y.handle = x.handle) (hd : y.identity = x.identity) :
    y.bindingLawful := by
  rewrite [Slot.bindingLawful_acquired hy.1 hy.2, hh, hd]
  exact (Slot.bindingLawful_acquired hx.1 hx.2).mp h

/-- What a record binds is lawful after every change of a record. -/
theorem bindingLawful_slotLaw (limit : Nat) (p : TalkParams) : SlotLaw limit p Slot.bindingLawful where
  initial := ⟨rfl, rfl⟩
  afterReset _ := ⟨rfl, rfl⟩
  paired _ _ _ h := h
  touched h := h
  counted _ _ h := h
  resumed hs h := Slot.bindingLawful_moved h (by rewrite [hs]; decide) ⟨nofun, nofun⟩ rfl rfl
  recovered hs hh h := by
    have hd := Slot.bindingLawful.identity h (by rewrite [hs]; decide)
    exact ⟨hh, hd⟩
  activated hs h := Slot.bindingLawful_moved h (by rewrite [hs]; decide) ⟨nofun, nofun⟩ rfl rfl
  passed hs h := Slot.bindingLawful_moved h (by rewrite [hs]; decide) ⟨nofun, nofun⟩ rfl rfl
  block _ _ _ _ _ _ _ h := h
  served _ _ _ _ _ _ h := h
  opened _ _ _ h := h
  closed _ _ h := h
  emptied _ := ⟨rfl, rfl⟩
  lost _ hlive h := by
    have hd := Slot.bindingLawful.identity h (SlotState.dead_of_live hlive).1
    exact hd
  unbound {x} hs h := by
    have hd := Slot.bindingLawful.identity h (by rewrite [hs]; decide)
    unfold Slot.bindingLawful
    dsimp only
    rewrite [hs]
    exact hd
  relinked _ _ he h := by
    have hd := Slot.bindingLawful.identity h he
    exact ⟨rfl, hd⟩
  admitted _ _ _ _ _ _ := ⟨rfl, rfl⟩
  idled _ _ h := h
  stalled hs h := Slot.bindingLawful_moved h (by rewrite [hs]; decide) ⟨nofun, nofun⟩ rfl rfl
  watched _ _ _ _ _ h := h
  read _ _ _ _ h := h
  delivered _ _ _ h := h
  resynced _ h _ := h
  heard _ h := h
  closedTalk _ _ h := h

/-! ### Operations that let links go -/

/-- What a record holds of a link: as another holds it, or nothing, the handle and the identity apart. -/
def Slot.keepsOrDrops (x y : Slot) : Prop :=
  (y.handle = x.handle ∨ y.handle = none) ∧ (y.identity = x.identity ∨ y.identity = none)

/-- Operations that take no link: records hold what they held or nothing, and no pending entry is new. -/
structure LetsGo (s t : State) : Prop where
  slots : ∀ i, (s.slot i).keepsOrDrops (t.slot i)
  pending : t.radio.pendingLinks.Sublist s.radio.pendingLinks

theorem Slot.keepsOrDrops.rfl {x : Slot} : x.keepsOrDrops x := ⟨.inl (Eq.refl _), .inl (Eq.refl _)⟩

theorem Slot.keepsOrDrops.trans {x y z : Slot} (h : x.keepsOrDrops y) (k : y.keepsOrDrops z) : x.keepsOrDrops z := by
  obtain ⟨hh, hd⟩ := h
  obtain ⟨kh, kd⟩ := k
  exact ⟨kh.elim (fun e => hh.imp e.trans e.trans) .inr, kd.elim (fun e => hd.imp e.trans e.trans) .inr⟩

theorem LetsGo.of_slots (hs : t.slots = s.slots) (hp : t.radio.pendingLinks = s.radio.pendingLinks) : LetsGo s t :=
  ⟨fun i => by rewrite [State.slot, State.slot, hs]; exact .rfl, hp ▸ List.Sublist.refl _⟩

theorem LetsGo.of_links (h : ∀ i, (t.slot i).handle = (s.slot i).handle ∧ (t.slot i).identity = (s.slot i).identity)
    (hp : t.radio.pendingLinks = s.radio.pendingLinks) : LetsGo s t :=
  ⟨fun i => ⟨.inl (h i).1, .inl (h i).2⟩, hp ▸ List.Sublist.refl _⟩

theorem LetsGo.trans (h : LetsGo s t) (k : LetsGo t u) : LetsGo s u :=
  ⟨fun i => (h.slots i).trans (k.slots i), k.pending.trans h.pending⟩

theorem LetsGo.from (k : LetsGo t u) (hs : t.slots = s.slots) (hp : t.radio.pendingLinks = s.radio.pendingLinks) :
    LetsGo s u := (LetsGo.of_slots hs hp).trans k

theorem LetsGo.then (h : LetsGo s t) (hs : u.slots = t.slots) (hp : u.radio.pendingLinks = t.radio.pendingLinks) :
    LetsGo s u := h.trans (.of_slots hs hp)

theorem LetsGo.setSlot {x : Slot} (hx : (s.slot i).keepsOrDrops x) : LetsGo s (s.setSlot i x) := by
  refine ⟨fun j => ?_, List.Sublist.refl _⟩
  rewrite [State.slot_setSlot]
  split
  · next h => rewrite [h]; exact hx
  · exact .rfl

theorem LetsGo.modSlot {f : Slot → Slot} (hf : (s.slot i).keepsOrDrops (f (s.slot i))) : LetsGo s (s.modSlot i f) :=
  .setSlot hf

theorem Slot.keepsOrDrops_emptied (x : Slot) : x.keepsOrDrops x.emptied := ⟨.inr rfl, .inr rfl⟩

theorem pairedAfter_links (slots : PerSlot Slot) (lost : SlotId → Bool) (j : SlotId) :
    (pairedAfter slots lost j).handle = (slots.get j).handle ∧
      (pairedAfter slots lost j).identity = (slots.get j).identity := by
  obtain ⟨role, partner, primary, hj⟩ := pairedAfter_eq slots lost j
  rewrite [hj]
  exact ⟨rfl, rfl⟩

theorem State.settlePairs_letsGo (lost : SlotId → Bool) {own : State → State} (hs : ∀ t, (own t).slots = t.slots)
    (hr : ∀ t, (own t).radio = t.radio) : LetsGo s (s.settlePairs lost own) := by
  refine .of_links (fun j => ?_) ?_
  · rewrite [State.slot_settlePairs hs]
    exact pairedAfter_links ..
  · rw [State.settlePairs, State.raiseRoles_radio, hr]

theorem State.takeLead_letsGo : LetsGo s (s.takeLead i) := by
  refine .of_links (fun j => ?_) (by rw [State.takeLead_radio])
  obtain ⟨r, hr⟩ := s.slot_takeLead i j
  rewrite [hr]
  exact ⟨rfl, rfl⟩

theorem State.vacate_letsGo : LetsGo s (s.vacate i) :=
  (LetsGo.setSlot (Slot.keepsOrDrops_emptied _)).then (State.zeroIfLive_slots ..) (by simp [State.vacate])

theorem State.failSlot_letsGo (r : SlotReason) (l : Option Byte) : LetsGo s (s.failSlot i r l) :=
  State.vacate_letsGo.trans
    (State.settlePairs_letsGo _ (fun _ => State.raiseSlot_slots ..) fun _ => State.raiseSlot_radio ..)

theorem State.removeSlot_letsGo : LetsGo s (s.removeSlot i) :=
  (State.vacate_letsGo.trans (State.settlePairs_letsGo _ (fun _ => rfl) fun _ => rfl)).from
    (State.release_slots ..) (State.release_radio_pendingLinks ..)

theorem State.changeSlots_letsGo (f : Slot → Slot × Option SlotReason) (b : Option SlotReason)
    (hf : ∀ x : Slot, x.keepsOrDrops (f x).1) : LetsGo s (s.changeSlots f b) := by
  refine ⟨fun j => ?_, by rw [State.changeSlots_radio]⟩
  rewrite [State.slot_changeSlots]
  obtain ⟨hh, hd⟩ := pairedAfter_links (s.slots.map fun x => (f x).1)
    (fun i => (f (s.slot i)).2.isSome && (f (s.slot i)).2 == b) j
  rewrite [PerSlot.get_map] at hh hd
  exact (hf _).trans ⟨.inl hh, .inl hd⟩

/-! ### Traffic and mix periods -/

theorem State.fillTest_letsGo : LetsGo s (s.fillTest i) := by
  unfold State.fillTest
  split
  · have active : LetsGo s (s.modSlot i fun x => { x with state := .active }) := .modSlot ⟨.inl rfl, .inl rfl⟩
    exact (active.then (by simp) (by simp)).trans State.takeLead_letsGo
  · exact .of_slots rfl rfl

theorem State.activity_letsGo : LetsGo s (s.activity i) := by
  have touched : LetsGo s (s.modSlot i fun x => { x with idle := 0 }) := .modSlot ⟨.inl rfl, .inl rfl⟩
  unfold State.activity
  dsimp only
  split
  · exact touched.trans
      (((LetsGo.modSlot ⟨.inl rfl, .inl rfl⟩).then (State.raiseSlot_slots ..) (by simp)).trans State.takeLead_letsGo)
  · exact touched.trans ((LetsGo.modSlot ⟨.inl rfl, .inl rfl⟩).then (State.raiseSlot_slots ..) (by simp))
  · exact touched

theorem State.count_letsGo (f : Stats → Stats) : LetsGo s (s.count i f) := .modSlot ⟨.inl rfl, .inl rfl⟩

theorem State.takeMic_letsGo (h : Handle) (seq : SeqNum) (stamp : Stamp) (bad : Bool) (samples : List Sample) :
    LetsGo s (s.takeMic h seq stamp bad samples) := by
  unfold State.takeMic State.micOnSlot State.takeBlock
  split
  · next i _ =>
    dsimp only
    refine LetsGo.trans (t := (s.activity i).count i fun c => { c with micIn := satAdd16 c.micIn 1 })
      (State.activity_letsGo.trans (State.count_letsGo _)) ?_
    split
    · exact (State.count_letsGo _).then (State.slotAnomaly_slots ..) (by simp)
    · refine LetsGo.trans (LetsGo.of_links (fun j => ?_) ?_) State.fillTest_letsGo
      · simp only [State.slotAnomaly_slot]
        rewrite [State.slot_modSlot]
        split
        · next hj => rewrite [hj]; exact ⟨rfl, rfl⟩
        · exact ⟨rfl, rfl⟩
      · simp
  split
  · exact .of_slots rfl rfl
  · exact .of_slots (State.anomaly_slots ..) (by simp)

theorem State.openWindow_letsGo (seq : SeqNum) (stamp : Stamp) : LetsGo s (s.openWindow i seq stamp) :=
  .modSlot ⟨.inl rfl, .inl rfl⟩

theorem State.measuringResult_letsGo (m : Int) : LetsGo s (s.measuringResult i m) := by
  unfold State.measuringResult
  split
  · split
    · have passed : LetsGo s (s.modSlot i fun x => { x with state := .filling }) := .modSlot ⟨.inl rfl, .inl rfl⟩
      exact passed.trans State.fillTest_letsGo
    split
    · exact (State.failSlot_letsGo ..).from (State.release_slots ..) (State.release_radio_pendingLinks ..)
    · exact .of_slots rfl rfl
  · exact .of_slots rfl rfl

theorem State.completeWindow_letsGo (d : Nat) (n : BitVec 32) (seq : SeqNum) (stamp : Stamp) :
    LetsGo s (s.completeWindow i d n seq stamp) := by
  have result : ∀ (t : State) (m : Int), LetsGo t (((t.raiseRate i m d n).compareRates i m).measuringResult i m) :=
    fun t m => (State.measuringResult_letsGo m).from (by simp) (by simp)
  unfold State.completeWindow
  dsimp only
  refine LetsGo.trans (t := s.modSlot i fun x =>
    x.afterWindow (measuredValue (Config.mixPeriodTicks * d) n.toNat) s.limits.slotLimit)
    (.modSlot ⟨.inl rfl, .inl rfl⟩) ?_
  split
  · exact result _ _
  · exact (result _ _).trans (State.openWindow_letsGo ..)

theorem State.windowPull_letsGo (seq : SeqNum) (stamp : Stamp) : LetsGo s (s.windowPull i seq stamp) := by
  have discard : LetsGo s (s.discardWindow i seq stamp) :=
    (State.openWindow_letsGo seq stamp).from (State.anomaly_slots ..) (by simp)
  unfold State.windowPull
  split
  · exact State.openWindow_letsGo ..
  split
  · exact .of_slots rfl rfl
  · split
    · exact discard
    · exact State.completeWindow_letsGo ..
  · exact discard
  · exact .of_slots rfl rfl

theorem State.takePull_letsGo (h : Handle) (seq : SeqNum) (stamp : Stamp) : LetsGo s (s.takePull h seq stamp) := by
  unfold State.takePull State.pullOnSlot
  split
  · next i _ =>
    dsimp only
    refine LetsGo.trans (t := (s.activity i).count i fun c => { c with pulls := satAdd16 c.pulls 1 })
      (State.activity_letsGo.trans (State.count_letsGo _)) ?_
    split
    · refine LetsGo.then (LetsGo.trans (LetsGo.of_links (fun j => ?_) ?_) (State.windowPull_letsGo seq stamp))
        (State.send_slots ..) (State.send_radio_pendingLinks ..)
      · rewrite [State.takeOutboundPass, State.slotAnomaly_slot, State.slot_modSlot]
        split
        · next hj => rewrite [hj]; exact ⟨rfl, rfl⟩
        · exact ⟨rfl, rfl⟩
      · rw [State.takeOutboundPass_radio]
    · exact (State.windowPull_letsGo seq stamp).then (State.send_slots ..) (State.send_radio_pendingLinks ..)
  split
  · exact .of_slots rfl rfl
  · exact .of_slots (by simp) (by simp)

theorem Slot.idlePeriod_keeps (timeout : Nat) (x : Slot) : x.keepsOrDrops (x.idlePeriod timeout).1 := by
  unfold Slot.idlePeriod
  dsimp only
  split
  · exact .rfl
  · exact .rfl
  · split <;> exact ⟨.inl rfl, .inl rfl⟩
  · split <;> exact ⟨.inl rfl, .inl rfl⟩
  all_goals
    split
    · exact ⟨.inr rfl, .inr rfl⟩
    · exact ⟨.inl rfl, .inl rfl⟩

theorem Slot.portReset_keeps (x : Slot) : x.keepsOrDrops x.portReset.1 := by
  unfold Slot.portReset
  split
  · exact .rfl
  · exact Slot.keepsOrDrops_emptied _
  · exact Slot.keepsOrDrops_emptied _
  · exact ⟨.inr rfl, .inl rfl⟩
  · exact ⟨.inr rfl, .inl rfl⟩
  · exact ⟨.inr rfl, .inl rfl⟩

theorem State.mixPeriod_letsGo (s : State) (c : Pacing) (d : List Sample) : LetsGo s (s.mixPeriod c d) := by
  obtain ⟨u, e, hm, audio, -, -, hradio, -⟩ := s.mixPeriod_parts c d
  have before : LetsGo s u := .of_links (fun i => by rewrite [(audio i).1]; exact ⟨rfl, rfl⟩) (by rw [hradio])
  have period : LetsGo u u.slotPeriod :=
    (State.changeSlots_letsGo _ _ (Slot.idlePeriod_keeps _)).from (State.releaseSilent_slots _)
      (State.releaseSilent_radio_pendingLinks _)
  have close : LetsGo u.slotPeriod (u.slotPeriod.talkerClose s.slotStates e) := by
    refine .of_links (fun i => ?_) (by rw [State.talkerClose_radio])
    have closed : (u.slotPeriod.talkerClose s.slotStates e).slot i =
        u.slotPeriod.closedSlot s.slotStates (u.slotPeriod.heard s.slotStates e) i := by
      rewrite [State.talkerClose_eq, State.slot]
      exact PerSlot.get_tabulate _ _
    have heard : ((u.slotPeriod.heard s.slotStates e).get i).handle = (u.slotPeriod.slot i).handle ∧
        ((u.slotPeriod.heard s.slotStates e).get i).identity = (u.slotPeriod.slot i).identity := by
      rewrite [State.heard, PerSlot.get_tabulate]
      split <;> exact ⟨rfl, rfl⟩
    rewrite [closed]
    exact heard
  rewrite [hm]
  exact (before.trans period).trans close

theorem State.linkDown_letsGo (h : Handle) (r : Option Byte) : LetsGo s (s.linkDown h r) := by
  have lose : ∀ i, LetsGo s ((s.lose i none).settlePairs (fun j => j == i) fun t =>
      t.raiseSlot i .lostDown (s.slot i).handle r) := by
    intro i
    have lost : LetsGo s (s.lose i none) :=
      (LetsGo.setSlot (i := i) (x := (s.slot i).lost none) ⟨.inr rfl, .inl rfl⟩).then (State.zeroIfLive_slots ..)
        (by simp [State.lose])
    exact lost.trans (State.settlePairs_letsGo _ (fun _ => State.raiseSlot_slots ..) fun _ => State.raiseSlot_radio ..)
  unfold State.linkDown State.linkDownSlot
  split
  · split
    · exact State.failSlot_letsGo ..
    · exact State.failSlot_letsGo ..
    · exact lose _
    · exact lose _
    · exact .modSlot ⟨.inr rfl, .inl rfl⟩
    · exact .of_slots rfl rfl
  · exact ⟨fun _ => .rfl, List.filter_sublist⟩

/-! ### The law of links (R1, R13, R44), and what keeps it -/

/-- The clauses of the law about more than one record: handles and identities are unique, and apart from the pending
list. -/
structure State.LinksApart (s : State) : Prop where
  nonzero : ∀ i, (s.slot i).handle ≠ some 0
  handles : ∀ i j h, (s.slot i).handle = some h → (s.slot j).handle = some h → i = j
  identities : ∀ i j d, (s.slot i).identity = some d → (s.slot j).identity = some d → i = j
  room : s.radio.pendingLinks.length ≤ 4
  pendingHandles : (s.radio.pendingLinks.map fun e => e.handle).Nodup
  pendingIdentities : (s.radio.pendingLinks.map fun e => e.identity).Nodup
  pending : ∀ e ∈ s.radio.pendingLinks,
    e.handle ≠ 0 ∧ ∀ i, (s.slot i).handle ≠ some e.handle ∧ (s.slot i).identity ≠ some e.identity

theorem State.bindingsLawful_iff : s.BindingsLawful ↔ s.All Slot.bindingLawful ∧ s.LinksApart := by
  constructor
  · rintro ⟨records, handles, identities, room, ph, pd, pending⟩
    exact ⟨fun i => (records i).1, ⟨fun i => (records i).2, handles, identities, room, ph, pd, pending⟩⟩
  · rintro ⟨records, nonzero, handles, identities, room, ph, pd, pending⟩
    exact ⟨fun i => ⟨records i, nonzero i⟩, handles, identities, room, ph, pd, pending⟩

theorem LetsGo.handle (hg : LetsGo s t) (hi : (t.slot i).handle = some h) : (s.slot i).handle = some h := by
  rcases (hg.slots i).1 with he | he
  · rw [← he, hi]
  · rewrite [he] at hi
    cases hi

theorem LetsGo.identity (hg : LetsGo s t) {d : Identity} (hi : (t.slot i).identity = some d) :
    (s.slot i).identity = some d := by
  rcases (hg.slots i).2 with he | he
  · rw [← he, hi]
  · rewrite [he] at hi
    cases hi

theorem LetsGo.apart (hg : LetsGo s t) (hs : s.LinksApart) : t.LinksApart where
  nonzero i hi := hs.nonzero i (hg.handle hi)
  handles i j h hi hj := hs.handles i j h (hg.handle hi) (hg.handle hj)
  identities i j d hi hj := hs.identities i j d (hg.identity hi) (hg.identity hj)
  room := hg.pending.length_le.trans hs.room
  pendingHandles := hs.pendingHandles.sublist (hg.pending.map _)
  pendingIdentities := hs.pendingIdentities.sublist (hg.pending.map _)
  pending e he := by
    obtain ⟨hne, free⟩ := hs.pending e (hg.pending.subset he)
    exact ⟨hne, fun i => ⟨fun hi => (free i).1 (hg.handle hi), fun hi => (free i).2 (hg.identity hi)⟩⟩

/-- A slot takes a link whose handle is neither bound nor pending and whose identity nothing else holds. -/
theorem State.LinksApart.bind (hs : s.LinksApart) {d : Identity} {x : Slot} (hx : x.handle = some h)
    (hd : x.identity = some d) (hne : h ≠ 0) (unheld : s.Unheld h) (free : s.NotPending h)
    (sole : ∀ j, j ≠ i → (s.slot j).identity ≠ some d) (fresh : ∀ e ∈ s.radio.pendingLinks, e.identity ≠ d) :
    (s.setSlot i x).LinksApart := by
  have slot := s.slot_setSlot i (x := x)
  constructor
  case nonzero =>
    intro j
    rewrite [slot]
    split
    · rewrite [hx]
      exact fun he => hne (Option.some.inj he)
    · exact hs.nonzero j
  case handles =>
    intro j k g hj hk
    rewrite [slot] at hj hk
    split at hj <;> split at hk
    · next h1 h2 => rw [h1, h2]
    · exact absurd (hk.trans (hj.symm.trans hx)) (unheld k)
    · exact absurd (hj.trans (hk.symm.trans hx)) (unheld j)
    · exact hs.handles j k g hj hk
  case identities =>
    intro j k g hj hk
    rewrite [slot] at hj hk
    split at hj <;> split at hk
    · next h1 h2 => rw [h1, h2]
    · next h2 => exact absurd (hk.trans (hj.symm.trans hd)) (sole k h2)
    · next h1 _ => exact absurd (hj.trans (hk.symm.trans hd)) (sole j h1)
    · exact hs.identities j k g hj hk
  case room => exact hs.room
  case pendingHandles => exact hs.pendingHandles
  case pendingIdentities => exact hs.pendingIdentities
  case pending =>
    intro e he
    obtain ⟨hez, apart⟩ := hs.pending e he
    refine ⟨hez, fun j => ?_⟩
    rewrite [slot]
    split
    · rewrite [hx, hd]
      exact ⟨fun heq => free e he (Option.some.inj heq).symm, fun heq => fresh e he (Option.some.inj heq).symm⟩
    · exact apart j

/-! ### LINK.UP and ADMIT (R14 to R17, R21) -/

/-- A LINK.DOWN taken for a slot leaves it no handle (R11). -/
theorem State.linkDownSlot_handle (hne : (s.slot i).state ≠ .empty) (r : Option Byte) :
    ((s.linkDownSlot i r).slot i).handle = none := by
  have failed : ∀ r l, ((s.failSlot i r l).slot i).handle = none := by
    intro r l
    rewrite [State.failSlot, State.slot_settlePairs (fun _ => State.raiseSlot_slots ..), (pairedAfter_links ..).1,
      State.slot_def, State.slot_vacate_self]
    rfl
  have lost : ∀ own : State → State, (∀ t, (own t).slots = t.slots) →
      (((s.lose i none).settlePairs (fun k => k == i) own).slot i).handle = none := by
    intro own hown
    rewrite [State.slot_settlePairs hown, (pairedAfter_links ..).1, State.lose, State.zeroIfLive_slots,
      State.slot_def, State.slot_setSlot_self]
    rfl
  unfold State.linkDownSlot
  split
  · exact failed _ _
  · exact failed _ _
  · exact lost _ fun _ => State.raiseSlot_slots ..
  · exact lost _ fun _ => State.raiseSlot_slots ..
  · rw [State.slot_modSlot_self]
  · next he => exact absurd he hne

/-- After the first step of R14 the handle is neither bound nor pending. -/
theorem State.linkDown_free (hs : s.All Slot.bindingLawful) (ha : s.LinksApart) (h : Handle) (r : Option Byte) :
    (s.linkDown h r).Unheld h ∧ (s.linkDown h r).NotPending h := by
  have go : LetsGo s (s.linkDown h r) := State.linkDown_letsGo h r
  cases hb : s.boundSlot h with
  | none =>
    have hdown : s.linkDown h r = s.dropPending h := by unfold State.linkDown; rw [hb]
    refine ⟨fun i hi => ?_, fun e he => ?_⟩
    · have hi : (s.slot i).handle = some h := go.handle hi
      unfold State.boundSlot at hb
      rewrite [List.find?_eq_none] at hb
      exact hb i i.mem_all (by simpa using hi)
    · rewrite [hdown] at he
      simpa using (List.mem_filter.mp he).2
  | some i =>
    have hi := State.boundSlot_some hb
    refine ⟨fun j hj => ?_, fun e he => ?_⟩
    · have hji : j = i := ha.handles j i h (go.handle hj) hi
      subst hji
      have hne : (s.slot j).state ≠ .empty := fun he => by rewrite [((hs j).empty he).1] at hi; cases hi
      have hdown : s.linkDown h r = s.linkDownSlot j r := by unfold State.linkDown; rw [hb]
      rewrite [hdown, State.linkDownSlot_handle hne] at hj
      cases hj
    · intro heq
      exact (ha.pending e (go.pending.subset he)).2 i |>.1 (heq ▸ hi)

theorem State.supersede_letsGo (d : Identity) : LetsGo s (s.supersede d) :=
  ⟨fun i => by rewrite [State.supersede_slot]; exact .rfl, List.filter_sublist⟩

theorem State.supersede_fresh (s : State) (d : Identity) :
    ∀ e ∈ (s.supersede d).radio.pendingLinks, e.identity ≠ d := by
  intro e he
  have he : e ∈ s.radio.pendingLinks.filter fun e => e.identity != d := he
  simpa using (List.mem_filter.mp he).2

/-- No slot holds an identity that R14 finds held by none: an EMPTY one holds no identity. -/
theorem State.slotOfIdentity_unheld (hs : s.All Slot.bindingLawful) {d : Identity} (h : s.slotOfIdentity d = none)
    (j : SlotId) : (s.slot j).identity ≠ some d := by
  by_cases he : (s.slot j).state = .empty
  · rewrite [((hs j).empty he).2]
    exact nofun
  · exact State.slotOfIdentity_none.mp h j he

theorem State.formPair_letsGo : LetsGo s (s.formPair i k) :=
  .of_links (fun j => by
    unfold State.formPair
    rewrite [State.slot_modSlot, State.slot_modSlot, State.slot_modSlot]
    split
    · next h => subst h; split <;> simp_all
    · split
      · next h => rewrite [h]; exact ⟨rfl, rfl⟩
      · exact ⟨rfl, rfl⟩) (by simp)

theorem State.LinksApart.admitInto (hs : s.LinksApart) (link : PendingLink) (v : AdmissionValues)
    (partner : Option SlotId) (hne : link.handle ≠ 0) (unheld : s.Unheld link.handle)
    (free : s.NotPending link.handle) (sole : ∀ j, (s.slot j).identity ≠ some link.identity)
    (fresh : ∀ e ∈ s.radio.pendingLinks, e.identity ≠ link.identity) : (s.admitInto i link v partner).LinksApart := by
  have admitted : (s.setSlot i (admittedRecord (s.slot i) link v s.limits.slotLimit)).LinksApart :=
    hs.bind rfl rfl hne unheld free (fun j _ => sole j) fresh
  cases partner with
  | none => exact admitted
  | some k => exact State.formPair_letsGo.apart admitted

/-- The pending list after R17: superseded entries and, where it was full, the oldest gone, the link at the tail. -/
theorem State.appendPending_pendingLinks (s : State) (link : PendingLink)
    (room : (s.supersede link.identity).radio.pendingLinks.length ≤ 4) :
    ∃ kept, kept.Sublist (s.supersede link.identity).radio.pendingLinks ∧ kept.length < 4 ∧
      (s.appendPending link).radio.pendingLinks = kept ++ [link] := by
  unfold State.appendPending
  dsimp only
  by_cases full : Config.pendingCapacity ≤ (s.supersede link.identity).radio.pendingLinks.length
  · refine ⟨(s.supersede link.identity).radio.pendingLinks.tail, List.tail_sublist _, ?_, ?_⟩
    · rewrite [List.length_tail]
      omega
    · rewrite [if_pos full, if_pos full]
      rfl
  · refine ⟨_, List.Sublist.refl _, Nat.lt_of_not_le full, ?_⟩
    rewrite [if_neg full, if_neg full]
    rfl

theorem State.LinksApart.appendPending (hs : s.LinksApart) (link : PendingLink) (hne : link.handle ≠ 0)
    (unheld : s.Unheld link.handle) (free : s.NotPending link.handle)
    (sole : ∀ j, (s.slot j).identity ≠ some link.identity) : (s.appendPending link).LinksApart := by
  have old : (s.supersede link.identity).LinksApart := (State.supersede_letsGo _).apart hs
  obtain ⟨kept, sub, room, hp⟩ := s.appendPending_pendingLinks link old.room
  have slot : ∀ j, (s.appendPending link).slot j = s.slot j := fun j => by rw [State.slot, State.appendPending_slots, State.slot]
  have newHandle : ∀ e ∈ kept, e.handle ≠ link.handle := fun e he =>
    free e (List.mem_of_mem_filter (sub.subset he))
  have newIdentity : ∀ e ∈ kept, e.identity ≠ link.identity := fun e he => s.supersede_fresh _ e (sub.subset he)
  constructor
  case nonzero => exact fun i => slot i ▸ hs.nonzero i
  case handles => exact fun i j h hi hj => hs.handles i j h (slot i ▸ hi) (slot j ▸ hj)
  case identities => exact fun i j d hi hj => hs.identities i j d (slot i ▸ hi) (slot j ▸ hj)
  case room =>
    rewrite [hp, List.length_append]
    exact room
  case pendingHandles =>
    rewrite [hp, List.map_append, List.map_singleton, ← List.concat_eq_append]
    refine List.Nodup.concat ?_ (old.pendingHandles.sublist (sub.map _))
    simpa using newHandle
  case pendingIdentities =>
    rewrite [hp, List.map_append, List.map_singleton, ← List.concat_eq_append]
    refine List.Nodup.concat ?_ (old.pendingIdentities.sublist (sub.map _))
    simpa using newIdentity
  case pending =>
    intro e he
    rewrite [hp] at he
    rcases List.mem_append.mp he with he | he
    · obtain ⟨hez, apart⟩ := old.pending e (sub.subset he)
      refine ⟨hez, fun i => ?_⟩
      rewrite [slot]
      exact State.supersede_slot .. ▸ apart i
    · rewrite [List.mem_singleton.mp he]
      refine ⟨hne, fun i => ?_⟩
      rewrite [slot]
      exact ⟨unheld i, sole i⟩

theorem State.LinksApart.linkUp (hs : s.All Slot.bindingLawful) (ha : s.LinksApart) (link : PendingLink)
    (hne : link.handle ≠ 0) : (s.linkUp link).LinksApart := by
  have downApart : (s.linkDown link.handle none).LinksApart := (State.linkDown_letsGo _ _).apart ha
  have downLawful : (s.linkDown link.handle none).All Slot.bindingLawful :=
    (bindingLawful_slotLaw 0 .powerOn).linkDown hs link.handle none
  obtain ⟨unheld, free⟩ := State.linkDown_free hs ha link.handle none
  unfold State.linkUp
  generalize s.linkDown link.handle none = u at downApart downLawful unheld free
  unfold State.placeLink
  split
  · next i hi =>
    obtain ⟨he, hid⟩ := State.slotOfIdentity_some hi
    have released : (u.release (u.slot i).handle).LinksApart :=
      (LetsGo.of_slots (State.release_slots ..) (State.release_radio_pendingLinks ..)).apart downApart
    have bound : ((u.release (u.slot i).handle).setSlot i
        { (u.slot i).measuring with handle := some link.handle, mic := link.mic }).LinksApart := by
      refine released.bind (d := link.identity) rfl hid hne ?_ ?_ ?_ ?_
      · exact fun j => by rewrite [State.release_slot]; exact unheld j
      · exact fun e he => free e (State.release_radio_pendingLinks .. ▸ he)
      · exact fun j hj hd => hj (downApart.identities j i _ (State.release_slot .. ▸ hd) hid)
      · intro e he heq
        exact ((downApart.pending e (State.release_radio_pendingLinks .. ▸ he)).2 i).2 (heq ▸ hid)
    unfold State.rebind
    dsimp only
    split
    · exact (LetsGo.of_slots (State.raiseSlot_slots ..) (by simp)).apart bound
    · exact (LetsGo.of_slots (by simp) (by simp)).apart bound
  next hid =>
    have sole := State.slotOfIdentity_unheld downLawful hid
    split
    · next i p _ _ =>
      unfold State.autoAdmit
      dsimp only
      have superseded := State.supersede_letsGo (s := u) link.identity
      refine (LetsGo.of_slots (State.raiseSlot_slots ..) (by simp)).apart
        ((superseded.apart downApart).admitInto link _ _ hne ?_ ?_ ?_ (u.supersede_fresh _))
      · exact fun j hj => unheld j (superseded.handle hj)
      · exact fun e he => free e (superseded.pending.subset he)
      · exact fun j hj => sole j (superseded.identity hj)
    · exact downApart.appendPending link hne unheld free sole

theorem State.pendingEntry_some {e : PendingLink} (he : s.pendingEntry h = some e) :
    e ∈ s.radio.pendingLinks ∧ e.handle = h :=
  ⟨List.mem_of_find?_eq_some he, by simpa using List.find?_some he⟩

theorem State.LinksApart.accept (ha : s.LinksApart) {e : PendingLink}
    (found : s.pendingEntry h = some e) (side : Side)
    (named : Option SlotId) (inT outT : Option (BitVec 16)) (seed : Option Byte) :
    (s.accept e i side named inT outT seed).1.LinksApart := by
  obtain ⟨hmem, -⟩ := State.pendingEntry_some found
  obtain ⟨hne, apart⟩ := ha.pending e hmem
  have dropped : LetsGo s (s.dropPending e.handle) := ⟨fun _ => .rfl, List.filter_sublist⟩
  have remaining : ∀ e' ∈ (s.dropPending e.handle).radio.pendingLinks, e' ∈ s.radio.pendingLinks ∧ e'.handle ≠ e.handle :=
    fun e' he => ⟨List.mem_of_mem_filter he, by simpa using (List.mem_filter.mp he).2⟩
  refine (dropped.apart ha).admitInto e _ _ hne ?_ ?_ ?_ ?_
  · exact fun j => (apart j).1
  · exact fun e' he => (remaining e' he).2
  · exact fun j => (apart j).2
  · intro e' he heq
    obtain ⟨hmem', hne'⟩ := remaining e' he
    have : e' = e := List.inj_on_of_nodup_map ha.pendingIdentities hmem' hmem heq
    exact hne' (by rw [this])

/-! ### Every change -/

theorem State.LinksApart.of_slots (ha : s.LinksApart) (hs : t.slots = s.slots)
    (hp : t.radio.pendingLinks = s.radio.pendingLinks) : t.LinksApart :=
  (LetsGo.of_slots hs hp).apart ha

theorem Links.apart (hs : s.All Slot.bindingLawful) (ha : s.LinksApart) (h : Links s t) : t.LinksApart := by
  induction h
  case countersCleared => exact (State.count_letsGo _).apart ha
  case accepted found _ => exact ha.accept found ..
  case declined h =>
    have dropped : LetsGo s (s.dropPending h) := ⟨fun _ => .rfl, List.filter_sublist⟩
    exact (dropped.then (State.release_slots ..) (State.release_radio_pendingLinks ..)).apart ha
  case removed => exact State.removeSlot_letsGo.apart ha
  case watchSet => exact (LetsGo.modSlot ⟨.inl rfl, .inl rfl⟩).apart ha
  case badRadioFrame => exact ha.of_slots (by simp) (by simp)
  case linkUp link hne => exact State.LinksApart.linkUp hs ha link hne
  case linkDown => exact (State.linkDown_letsGo ..).apart ha
  case mic => exact (State.takeMic_letsGo ..).apart ha
  case pull => exact (State.takePull_letsGo ..).apart ha
  case portReset =>
    have reset := State.changeSlots_letsGo (s := s) Slot.portReset none Slot.portReset_keeps
    exact LetsGo.apart ⟨reset.slots, List.nil_sublist _⟩ ha
  all_goals exact ha.of_slots rfl rfl

theorem Ticks.letsGo (h : Ticks s t) : LetsGo s t := by
  induction h
  case strobe tick d =>
    have radio : (s.takeStrobe tick d).radio.pendingLinks = s.radio.pendingLinks := State.takeStrobe_radio_pendingLinks ..
    obtain ⟨u, -, hu, h | ⟨half, h⟩⟩ := s.takeStrobe_cases tick d
    · exact ⟨fun i => by rewrite [h, State.slot, State.slot, hu]; exact .rfl, radio ▸ List.Sublist.refl _⟩
    · refine ⟨fun i => ?_, radio ▸ List.Sublist.refl _⟩
      have := (u.mixPeriod_letsGo .byCall half).slots i
      rewrite [State.slot, hu] at this
      exact h ▸ this
  case strobeTimeout => exact .of_slots rfl rfl
  case localTimer => exact LetsGo.from (State.mixPeriod_letsGo ..) rfl rfl

theorem Changes.apart (hs : s.All Slot.bindingLawful) (ha : s.LinksApart) (h : Changes s q t) : t.LinksApart := by
  have fresh : (∀ i, (t.slot i).handle = none ∧ (t.slot i).identity = none) → t.radio.pendingLinks = [] →
      t.LinksApart := fun hslots hp =>
    LetsGo.apart ⟨fun i => ⟨.inr (hslots i).1, .inr (hslots i).2⟩, hp ▸ List.nil_sublist _⟩ ha
  induction h
  case powerOn => exact fresh (fun i => by cases i <;> exact ⟨rfl, rfl⟩) rfl
  case softReset =>
    refine fresh (fun i => ?_) rfl
    show (PerSlot.get (PerSlot.map (fun x : Slot => x.softReset s.talk) (s.releaseAll.setPendingLinks []).slots) i).handle
      = none ∧ (PerSlot.get (PerSlot.map (fun x : Slot => x.softReset s.talk)
        (s.releaseAll.setPendingLinks []).slots) i).identity = none
    rewrite [PerSlot.get_map]
    exact ⟨rfl, rfl⟩
  case sets h =>
    induction h
    case limitSet =>
      refine LetsGo.apart (s := s) (.of_links (fun i => ?_) rfl) ha
      rewrite [State.slot_withLimits]
      exact ⟨rfl, rfl⟩
    all_goals exact ha.of_slots rfl rfl
  case plays h => induction h <;> exact ha.of_slots rfl rfl
  case ticks h => exact h.letsGo.apart ha
  case links h => exact h.apart hs ha

/-- Settles O55: links are taken only by a slot or a list that is free of them, by the kinds of change. -/
theorem stepsKeepBindingsLawful : Obligations.StepsKeepBindingsLawful := fun _ _ hs h =>
  step_keeps (law := State.BindingsLawful) (fun _ _ _ h => h)
    (fun s _ t hs h => by
      obtain ⟨records, apart⟩ := State.bindingsLawful_iff.mp hs
      exact State.bindingsLawful_iff.mpr
        ⟨(bindingLawful_slotLaw _ _).kept (fun _ _ h => h) records h, h.apart records apart⟩)
    hs h

end Sys2Proof.Machine
end

section
/-!
SUPPORT. Decoding is the inverse of encoding, for requests (11.3) and for radio messages (R182).
-/
namespace Sys2Proof.Machine

variable {c : Instr} {kind : RequestKind} {tag : Byte} {body : List Byte}

/-! ### Requests (11.3) -/

theorem RequestKind.admits_le {n : Nat} (h : kind.admits n = true) : n ≤ 248 := by
  induction kind
  case gainSet | promptLoad =>
    obtain ⟨_, hle⟩ := Bool.and_eq_true_iff.mp h
    exact (of_decide_eq_true hle).trans (Nat.le_of_ble_eq_true rfl)
  all_goals exact (eq_of_beq h).le.trans (Nat.le_of_ble_eq_true rfl)

theorem present_bytes16 {p : Byte} {bit : Nat} {x : Option (BitVec 16)} (h : p.getLsbD bit = x.isSome) :
    present p bit (le16 (byteAt (x.getD 0) 0) (byteAt (x.getD 0) 1)) = x := by
  rewrite [le16_bytes]
  exact present_getD h 0

theorem present_bytes48 {p : Byte} {bit : Nat} {x : Option (BitVec 48)} (h : p.getLsbD bit = x.isSome) :
    present p bit (le48 (byteAt (x.getD 0) 0) (byteAt (x.getD 0) 1) (byteAt (x.getD 0) 2) (byteAt (x.getD 0) 3)
      (byteAt (x.getD 0) 4) (byteAt (x.getD 0) 5)) = x := by
  rewrite [le48_bytes]
  exact present_getD h 0

/-- The body of a well-formed request is read back, field by field. -/
theorem requestFrame_bind_bodyRequest (hw : c.wellFormed = true) (hc : c.requestFrame.isSome = true) :
    (c.requestFrame.bind fun f => bodyRequest f.2.1 f.1 f.2.2) = some c := by
  induction c, hc using request_cases
  case profilePut p =>
    obtain ⟨h0, h1, h2⟩ := presenceByte_three p.partnerIdentity.isSome p.inboundTarget.isSome p.outboundTarget.isSome
    show some (Instr.profilePut _ (ProfileFields.mk (le48 _ _ _ _ _ _) _ (present _ 0 (le48 _ _ _ _ _ _)) (flagOf _) _
      (present _ 1 (le16 _ _)) (present _ 2 (le16 _ _)))) = _
    rw [le48_bytes, present_bytes48 h0, present_bytes16 h1, present_bytes16 h2, flagOf_flagByte]
  case admitLink inT outT seed =>
    obtain ⟨h0, h1, h2⟩ := presenceByte_three inT.isSome outT.isSome seed.isSome
    show some (Instr.admitLink _ _ _ _ _ (present _ 0 (le16 _ _)) (present _ 1 (le16 _ _)) (present _ 2 _)) = _
    rw [present_bytes16 h0, present_bytes16 h1, present_getD h2]
  case talkSet g hy d w =>
    obtain ⟨h0, h1, h2, h3⟩ := presenceByte_four g.isSome hy.isSome d.isSome w.isSome
    show some (Instr.talkSet _ (present _ 0 (le16 _ _)) (present _ 1 (le16 _ _)) (present _ 2 (le16 _ _))
      (present _ 3 (le16 _ _))) = _
    rw [present_bytes16 h0, present_bytes16 h1, present_bytes16 h2, present_bytes16 h3]
  case limitSet a b t loss r =>
    obtain ⟨h0, h1, h2, h3, h4⟩ := presenceByte_five a.isSome b.isSome t.isSome loss.isSome r.isSome
    show some (Instr.limitSet _ (present _ 0 (le16 _ _)) (present _ 1 (le16 _ _)) (present _ 2 (le16 _ _))
      (present _ 3 _) (present _ 4 (le16 _ _))) = _
    rw [present_bytes16 h0, present_bytes16 h1, present_bytes16 h2, present_getD h3, present_bytes16 h4]
  case gainSet entries =>
    have hw : gainCountOk entries = true := hw
    show gainSetOfBytes _ _ = _
    unfold gainSetOfBytes
    rewrite [entriesOfBytes_bytesOfEntries]
    exact if_pos hw
  case promptLoad offset samples =>
    have hw : loadCountOk samples = true := hw
    show (match samplesOfBytes (bytesOfSamples samples) with
      | some samples => if loadCountOk samples then some (Instr.promptLoad _ (le16 _ _) samples) else none
      | none => none) = _
    rewrite [samplesOfBytes_bytesOfSamples, le16_bytes]
    exact if_pos hw
  case profileDrop tag d => exact congrArg (fun d => some (Instr.profileDrop tag d)) (le48_bytes d)
  case profileGet tag d => exact congrArg (fun d => some (Instr.profileGet tag d)) (le48_bytes d)
  case maskSet tag m => exact congrArg (fun m => some (Instr.maskSet tag m)) (le16_bytes m)
  case promptMore tag n => exact congrArg (fun n => some (Instr.promptMore tag n)) (le16_bytes n)
  case watchSet tag i c t n => exact congrArg (fun t => some (Instr.watchSet tag i c t n)) (le16_bytes t)
  case promptPlay tag a l r g => exact congrArg₂ (fun a l => some (Instr.promptPlay tag a l r g)) (le16_bytes a) (le16_bytes l)
  all_goals rfl

theorem bodyRequest_of_requestFrame (hw : c.wellFormed = true) (h : c.requestFrame = some (kind, tag, body)) :
    bodyRequest tag kind body = some c := by
  have read := requestFrame_bind_bodyRequest hw (by rewrite [h]; rfl)
  rwa [h] at read

/-- Settles O5: a body is read back by the layout it was written in, and its length is one its kind admits. -/
theorem requestFramesDecode : Obligations.RequestFramesDecode := by
  intro c kind tag body hw h
  have read := bodyRequest_of_requestFrame hw h
  have admits : kind.admits body.length = true := by rewrite [← bodyRequest_isSome (tag := tag), read]; rfl
  refine ⟨RequestKind.admits_le admits, admits, ?_⟩
  rewrite [decodeFrame, if_pos (byteSum_frameCheck ..), decodeRequest, RequestKind.ofCode_code]
  dsimp only
  rw [read]

/-! ### Radio messages (R182) -/

theorem messageCommand_linkUp {h : Handle} (hh : h ≠ 0) (b0 b1 b2 b3 b4 b5 f : Byte) :
    messageCommand [0x11, h, b0, b1, b2, b3, b4, b5, f] = some (.linkUp h (le48 b0 b1 b2 b3 b4 b5) (flagOf f)) :=
  if_neg hh

theorem messageCommand_linkDown {h : Handle} (hh : h ≠ 0) (reason : Byte) :
    messageCommand [0x12, h, reason] = some (.linkDown h reason) := if_neg hh

theorem messageCommand_mic {h : Handle} (hh : h ≠ 0) (q0 q1 b0 b1 b2 b3 f : Byte) {samples : List Sample}
    (hb : isBlock samples = true) :
    messageCommand (0x13 :: h :: q0 :: q1 :: b0 :: b1 :: b2 :: b3 :: f :: bytesOfSamples samples) =
      some (.mic h (le16 q0 q1) (le32 b0 b1 b2 b3) (f.getLsbD 0) samples) := by
  refine (if_neg hh).trans ?_
  show (match samplesOfBytes (bytesOfSamples samples) with
    | some block =>
      if isBlock block then some (Instr.mic h (le16 q0 q1) (le32 b0 b1 b2 b3) (f.getLsbD 0) block) else none
    | none => none) = _
  rewrite [samplesOfBytes_bytesOfSamples]
  exact if_pos hb

theorem messageCommand_pull {h : Handle} (hh : h ≠ 0) (q0 q1 b0 b1 b2 b3 : Byte) :
    messageCommand [0x14, h, q0, q1, b0, b1, b2, b3] = some (.pull h (le16 q0 q1) (le32 b0 b1 b2 b3)) := if_neg hh

/-- What the flag byte of a message may be: bits that are read, and bits that are not (R182). -/
def flagByteOk (c : Instr) (m head : List Byte) : Prop :=
  match c with
  | .linkUp _ _ mic => head.set 8 (if mic then 1 else 0) = m ∧ mic = (head.getD 8 0 != 0)
  | .mic _ _ _ bad _ => head.set 8 (if bad then 1 else 0) = m ∧ bad = (head.getD 8 0).getLsbD 0
  | _ => head = m

/-- The bytes of a message are themselves such bytes. -/
theorem flagByteOk_self {m : List Byte} (h : c.radioMessage = some m) : flagByteOk c m m := by
  have hc : c.radioMessage.isSome = true := by rewrite [h]; rfl
  induction c, hc using message_cases <;> cases h
  case linkUp mic => exact ⟨rfl, (flagOf_flagByte mic).symm⟩
  case mic bad samples => exact ⟨rfl, (getLsbD_flagByte bad).symm⟩
  all_goals exact rfl

/-- A list with one byte set is restored by setting it back. -/
theorem restored_set {head : List Byte} {n : Nat} (h : n < head.length) (x : Byte) :
    head = (head.set n x).set n (head.getD n 0) := by
  rw [List.set_set, List.getD_eq_getElem _ _ h, List.set_getElem_self]

/-- A well-formed message is read back, field by field. -/
theorem messageCommand_of_flagByteOk {m head : List Byte} (hw : c.wellFormed = true) (hm : c.radioMessage = some m)
    (hlen : head.length = m.length) (hflag : flagByteOk c m head) : messageCommand head = some c := by
  have hc : c.radioMessage.isSome = true := by rewrite [hm]; rfl
  induction c, hc using message_cases <;> cases hm
  case linkUp h d mic =>
    obtain ⟨hset, hmic⟩ := hflag
    rewrite [restored_set (head := head) (n := 8) (by rewrite [hlen]; exact Nat.le_refl 9) (if mic then 1 else 0), hset]
    refine (messageCommand_linkUp (bne_iff_ne.mp hw) ..).trans ?_
    rewrite [le48_bytes, hmic]
    rfl
  case mic h seq stamp bad samples =>
    obtain ⟨hset, hbad⟩ := hflag
    obtain ⟨hh, hb⟩ := Bool.and_eq_true_iff.mp hw
    rewrite [restored_set (head := head) (n := 8) (by rewrite [hlen]; exact Nat.le_add_left 9 _) (if bad then 1 else 0), hset]
    refine (messageCommand_mic (bne_iff_ne.mp hh) _ _ _ _ _ _ _ hb).trans ?_
    rw [le16_bytes, le32_bytes, hbad]
  case linkDown h reason => exact hflag ▸ messageCommand_linkDown (bne_iff_ne.mp hw) reason
  case pull h seq stamp =>
    obtain rfl : head = _ := hflag
    refine (messageCommand_pull (bne_iff_ne.mp hw) ..).trans ?_
    rw [le16_bytes, le32_bytes]
  case portReset => exact hflag ▸ rfl

theorem messageCommand_of_radioMessage {m : List Byte} (hw : c.wellFormed = true) (h : c.radioMessage = some m) :
    messageCommand m = some c :=
  messageCommand_of_flagByteOk hw h rfl (flagByteOk_self h)

/-- A head that is a well-formed message's own bytes, but for the ignored bits of the flag byte. -/
def Carries (head : List Byte) (c : Instr) : Prop :=
  c.wellFormed = true ∧ ∃ m, c.radioMessage = some m ∧ head.length = m.length ∧ flagByteOk c m head

section
variable {h : Handle} {rest : List Byte}

theorem carries_of_linkUp (hh : h ≠ 0) (hc : messageCommand (0x11 :: h :: rest) = some c) :
    Carries (0x11 :: h :: rest) c := by
  replace hc := (if_pos rfl).symm.trans ((if_neg hh).symm.trans hc)
  rcases rest with _ | ⟨a0, _ | ⟨a1, _ | ⟨a2, _ | ⟨a3, _ | ⟨a4, _ | ⟨a5, _ | ⟨flag, _ | _⟩⟩⟩⟩⟩⟩⟩
  case cons.cons.cons.cons.cons.cons.cons.nil =>
    obtain rfl := Option.some.inj hc
    refine ⟨bne_iff_ne.mpr hh, _, rfl, rfl, ?_, rfl⟩
    rewrite [bytes48_le48]
    rfl
  all_goals cases hc

theorem carries_of_linkDown (hh : h ≠ 0) (hc : messageCommand (0x12 :: h :: rest) = some c) :
    Carries (0x12 :: h :: rest) c := by
  replace hc := (if_pos rfl).symm.trans ((if_neg (by decide)).symm.trans ((if_neg hh).symm.trans hc))
  rcases rest with _ | ⟨reason, _ | _⟩
  case cons.nil =>
    obtain rfl := Option.some.inj hc
    exact ⟨bne_iff_ne.mpr hh, _, rfl, rfl, rfl⟩
  all_goals cases hc

theorem carries_of_mic (hh : h ≠ 0) (hc : messageCommand (0x13 :: h :: rest) = some c) :
    Carries (0x13 :: h :: rest) c := by
  replace hc := (if_pos rfl).symm.trans ((if_neg (by decide)).symm.trans ((if_neg (by decide)).symm.trans
    ((if_neg hh).symm.trans hc)))
  rcases rest with _ | ⟨q0, _ | ⟨q1, _ | ⟨t0, _ | ⟨t1, _ | ⟨t2, _ | ⟨t3, _ | ⟨flags, samples⟩⟩⟩⟩⟩⟩⟩
  case cons.cons.cons.cons.cons.cons.cons =>
    dsimp only at hc
    cases read : samplesOfBytes samples with
    | none =>
      rewrite [read] at hc
      cases hc
    | some block =>
      rewrite [read] at hc
      obtain rfl := bytesOfSamples_of_samplesOfBytes read
      by_cases hb : isBlock block = true
      · obtain rfl := Option.some.inj ((if_pos hb).symm.trans hc)
        refine ⟨Bool.and_eq_true_iff.mpr ⟨bne_iff_ne.mpr hh, hb⟩, _, rfl, rfl, ?_, rfl⟩
        rewrite [bytes16_le16, bytes32_le32]
        rfl
      · cases (if_neg hb).symm.trans hc
  all_goals cases hc

theorem carries_of_pull (hh : h ≠ 0) (hc : messageCommand (0x14 :: h :: rest) = some c) :
    Carries (0x14 :: h :: rest) c := by
  replace hc := (if_pos rfl).symm.trans ((if_neg (by decide)).symm.trans ((if_neg (by decide)).symm.trans
    ((if_neg (by decide)).symm.trans ((if_neg hh).symm.trans hc))))
  rcases rest with _ | ⟨q0, _ | ⟨q1, _ | ⟨t0, _ | ⟨t1, _ | ⟨t2, _ | ⟨t3, _ | _⟩⟩⟩⟩⟩⟩
  case cons.cons.cons.cons.cons.cons.nil =>
    obtain rfl := Option.some.inj hc
    refine ⟨bne_iff_ne.mpr hh, _, rfl, rfl, ?_⟩
    show _ = _ :: h :: (bytes16 _ ++ bytes32 _)
    rewrite [bytes16_le16, bytes32_le32]
    rfl
  all_goals cases hc

end

/-- The messages that decode to a command: its own bytes but for the ignored bits of the flag byte. -/
theorem messageCommand_eq_some {head : List Byte} : messageCommand head = some c ↔ Carries head c := by
  refine ⟨fun hc => ?_, fun ⟨hw, m, hm, hlen, hflag⟩ => messageCommand_of_flagByteOk hw hm hlen hflag⟩
  rcases head with _ | ⟨kind, _ | ⟨h, rest⟩⟩
  · cases hc
  · have carried : (if kind = 0x1F then some Instr.portReset else none) = some c := hc
    split at carried
    · next hk =>
      obtain rfl := Option.some.inj carried
      exact ⟨rfl, _, rfl, rfl, hk ▸ rfl⟩
    · cases carried
  · by_cases hh : h = 0
    · cases (if_pos hh).symm.trans hc
    by_cases h1 : kind = 0x11
    · subst h1
      exact carries_of_linkUp hh hc
    by_cases h2 : kind = 0x12
    · subst h2
      exact carries_of_linkDown hh hc
    by_cases h3 : kind = 0x13
    · subst h3
      exact carries_of_mic hh hc
    by_cases h4 : kind = 0x14
    · subst h4
      exact carries_of_pull hh hc
    cases (if_neg h4).symm.trans ((if_neg h3).symm.trans ((if_neg h2).symm.trans ((if_neg h1).symm.trans
      ((if_neg hh).symm.trans hc))))

/-- A byte of a word, by its number. -/
theorem bytes48_low (x : BitVec 48) :
    bytes48 x = (List.range 6).map fun k => BitVec.ofNat 8 (x.toNat / 256 ^ k) := by
  simp only [bytes48, byteAt_eq]
  rfl

theorem bytes16_low (x : BitVec 16) :
    bytes16 x = (List.range 2).map fun k => BitVec.ofNat 8 (x.toNat / 256 ^ k) := by
  simp only [bytes16, byteAt_eq]
  rfl

theorem bytes32_low (x : BitVec 32) :
    bytes32 x = (List.range 4).map fun k => BitVec.ofNat 8 (x.toNat / 256 ^ k) := by
  simp only [bytes32, byteAt_eq]
  rfl

/-- A good frame is a message and its check (R45, R182). -/
theorem decodeRadio_eq_some {bytes : List Byte} : decodeRadio bytes = some c ↔
    ∃ head lo hi, bytes = head ++ [lo, hi] ∧ radioSum head + le16 lo hi = 0 ∧ messageCommand head = some c := by
  rewrite [decodeRadio, Option.bind_eq_some_iff]
  constructor
  · rintro ⟨head, hm, hc⟩
    obtain ⟨lo, hi, hb, hs⟩ := checkedMessage_eq_some.mp hm
    exact ⟨head, lo, hi, hb, hs, hc⟩
  · rintro ⟨head, lo, hi, hb, hs, hc⟩
    exact ⟨head, checkedMessage_eq_some.mpr ⟨lo, hi, hb, hs⟩, hc⟩

/-- Settles O10: a bad frame is an anomaly, a good one the command it decodes to. -/
theorem radioFramesAreChecked : Obligations.RadioFramesAreChecked := by
  refine fun bytes s => ⟨fun hd => ?_, fun c hd => ?_⟩
  · have bad : exec (.radioFrame bytes) s = .next s.badRadioFrame := by
      simp only [exec_radioFrame_eq, execRadioFrame]
      rw [hd]
    refine ⟨fun hc => ?_, fun a hc => ?_⟩
    · rw [bad, State.badRadioFrame, State.anomaly_empty hc]
    · rw [bad, State.badRadioFrame, State.anomaly_full hc]
  · obtain ⟨head, -, command⟩ := Option.bind_eq_some_iff.mp hd
    have message := (messageCommand_eq_some.mp command).2
    obtain ⟨m, hm, -⟩ := message
    simp only [exec_radioFrame_eq, execRadioFrame]
    rewrite [hd]
    dsimp only
    rewrite [radioOutcome_eq, hm]
    rfl

/-- The layout of every message (R179, R182). -/
theorem radioMessage_layout (c : Instr) :
    let low := fun (n v : Nat) => (List.range n).map fun k => BitVec.ofNat 8 (v / 256 ^ k)
    c.radioMessage =
      match c with
      | .linkUp handle identity mic => some ([0x11, handle] ++ low 6 identity.toNat ++ [if mic then 1 else 0])
      | .linkDown handle reason => some [0x12, handle, reason]
      | .mic handle seq stamp bad samples =>
        some ([0x13, handle] ++ low 2 seq.toNat ++ low 4 stamp.toNat ++ [if bad then 1 else 0] ++
          samples.flatMap fun v => low 2 v.toNat)
      | .pull handle seq stamp => some ([0x14, handle] ++ low 2 seq.toNat ++ low 4 stamp.toNat)
      | .portReset => some [0x1F]
      | _ => none := by
  intro low
  induction c
  case linkUp h d mic =>
    show some (0x11 :: h :: (bytes48 d ++ [flagByte mic])) = _
    rewrite [bytes48_low]
    rfl
  case mic handle seq stamp bad samples =>
    have hs : bytesOfSamples samples = samples.flatMap fun v => low 2 v.toNat :=
      congrArg samples.flatMap (funext bytes16_low)
    show some (0x13 :: handle :: (bytes16 seq ++ bytes32 stamp ++ flagByte bad :: bytesOfSamples samples)) = _
    rewrite [hs, bytes16_low, bytes32_low]
    rfl
  case pull handle seq stamp =>
    show some (0x14 :: handle :: (bytes16 seq ++ bytes32 stamp)) = _
    rewrite [bytes16_low, bytes32_low]
    rfl
  all_goals rfl

/-- Settles O6: a frame is its message and its check, and a message is read back but for the ignored flag bits. -/
theorem radioFramesDecode : Obligations.RadioFramesDecode := by
  refine ⟨fun c m hw hm => ?_, fun bytes c => ?_, radioMessage_layout⟩
  · rewrite [decodeRadio, checkedMessage_radioFrameBytes]
    exact messageCommand_of_radioMessage hw hm
  · rewrite [decodeRadio_eq_some]
    constructor
    · rintro ⟨head, lo, hi, rfl, hs, hc⟩
      obtain ⟨hw, m, hm, hlen, hflag⟩ := messageCommand_eq_some.mp hc
      refine ⟨hw, m, head, lo, hi, hm, ?_, rfl, (radioCheck_iff head lo hi).mp hs, ?_⟩
      · simp [hlen]
      · have hc : c.radioMessage.isSome = true := by rewrite [hm]; rfl
        induction c, hc using message_cases <;> exact hflag
    · rintro ⟨hw, m, head, lo, hi, hm, hlen, rfl, hs, hflag⟩
      refine ⟨head, lo, hi, rfl, (radioCheck_iff head lo hi).mpr hs, messageCommand_eq_some.mpr ⟨hw, m, hm, ?_, ?_⟩⟩
      · simpa using hlen
      · have hc : c.radioMessage.isSome = true := by rewrite [hm]; rfl
        induction c, hc using message_cases <;> exact hflag

/-! ### Replies and radio messages sent (R180 to R182) -/

/-- The sum of bytes as a number. -/
theorem toNat_byteSum (l : List Byte) : (byteSum l).toNat = (l.map BitVec.toNat).sum % 256 := by
  have sum : ∀ (l : List Byte) (a : Byte), (l.foldl (· + ·) a).toNat = (a.toNat + (l.map BitVec.toNat).sum) % 256 := by
    intro l
    induction l with
    | nil => exact fun a => (Nat.mod_eq_of_lt a.isLt).symm
    | cons b l ih =>
      intro a
      rw [List.foldl_cons, ih, BitVec.toNat_add, Nat.mod_add_mod, List.map_cons, List.sum_cons, Nat.add_assoc]
  simpa [byteSum] using sum l 0

/-- The bytes of a control link frame after its start byte sum to 0 (R180). -/
theorem controlFrame_sum (kind tag : Byte) (body : List Byte) :
    (((controlFrame kind tag body).drop 1).map BitVec.toNat).sum % 256 = 0 := by
  rewrite [← toNat_byteSum, controlFrame, List.drop_one, List.tail_cons, byteSum_append, byteSum_frameCheck]
  rfl

/-- The four pending entries take 32 bytes, however many there are (11.3.2). -/
theorem length_pendingBytes (l : List PendingLink) : (pendingBytes l).length = 32 := by
  have each : ∀ m : List PendingLink, (m.flatMap PendingLink.bytes).length = 8 * m.length := fun m => by
    induction m with
    | nil => rfl
    | cons e m ih =>
      rewrite [List.flatMap_cons, List.length_append, ih, List.length_cons, Nat.mul_succ, Nat.add_comm]
      rfl
  rewrite [pendingBytes, List.length_append, each, List.length_replicate, List.length_take, ← Nat.mul_add]
  rcases Nat.le_total 4 l.length with h | h
  · rw [Nat.min_eq_left h, Nat.sub_eq_zero_of_le h]
  · rw [Nat.min_eq_right h, Nat.add_sub_cancel' h]

theorem DeviceStatus.length_bytes (x : DeviceStatus) : x.bytes.length = 58 := by
  refine (List.length_append ..).trans (congrArg (· + 3) ((List.length_append ..).trans ?_))
  exact congrArg₂ (· + ·) (rfl : _ = 23) (length_pendingBytes _)

theorem SlotStatus.length_bytes (x : SlotStatus) : x.bytes.length = 42 := by
  unfold SlotStatus.bytes
  simp only [List.length_append]
  rfl

theorem GainMatrix.length_bytes (m : GainMatrix) : m.bytes.length = 60 := rfl

theorem NoticeBody.length_bytes (b : NoticeBody) : b.bytes.length = b.width := by
  cases b <;> rfl

/-- A result has the width that 11.3 and 11.4 give for it. -/
theorem Result.length_bytes (x : Result) : x.bytes.length = x.width := by
  induction x
  case capture r => cases r <;> rfl
  case collect left n =>
    cases n with
    | none => rfl
    | some n =>
      show (_ ++ n.body.bytes).length = _
      rewrite [List.length_append, n.body.length_bytes]
      rfl
  case gainSet entries => exact length_bytesOfEntries entries
  case statusSlot => exact SlotStatus.length_bytes _
  case statusDevice => exact DeviceStatus.length_bytes _
  case gainGet targets applied =>
    show (targets.bytes ++ applied.bytes).length = 120
    rw [List.length_append, targets.length_bytes, applied.length_bytes]
  all_goals rfl

theorem NoticeBody.width_le (b : NoticeBody) : b.width ≤ 14 := by
  cases b <;> simp [NoticeBody.width]

/-- No result is wider than 120 bytes, where a GAIN.SET answers at most 30 entries. -/
theorem Result.width_le {x : Result} (h : ∀ entries, x = .gainSet entries → entries.length ≤ 30) : x.width ≤ 120 := by
  induction x
  case capture r => cases r <;> exact Nat.le_of_ble_eq_true rfl
  case collect left n =>
    cases n with
    | none => exact Nat.le_of_ble_eq_true rfl
    | some n => exact (Nat.add_le_add_left n.body.width_le _).trans (Nat.le_of_ble_eq_true rfl)
  case gainSet entries => exact Nat.mul_le_mul_left 4 (h entries rfl)
  all_goals exact Nat.le_of_ble_eq_true rfl

/-- The check of an outgoing radio frame (R182). -/
theorem radioFrameBytes_check (head : List Byte) : ∃ lo hi : Byte, radioFrameBytes head = head ++ [lo, hi] ∧
    ((head.map BitVec.toNat).sum + lo.toNat + 256 * hi.toNat) % 65536 = 0 := by
  refine ⟨byteAt (-(radioSum head)) 0, byteAt (-(radioSum head)) 1, rfl, (radioCheck_iff head _ _).mp ?_⟩
  rewrite [le16_bytes]
  exact BitVec.add_right_neg _

/-- The two bytes of a word, low byte first, by shift. -/
theorem bytes16_shift (v : BitVec 16) : bytes16 v = [v.setWidth 8, (v >>> 8).setWidth 8] := by
  rewrite [bytes16_def]
  congr 1

/-- Settles O23: a stream loses its head, every frame is its head and the check that brings its sum to 0, and each
result has its width. -/
theorem departuresLeaveTheStreams : Obligations.DeparturesLeaveTheStreams := by
  refine ⟨fun s => ⟨fun r rest h => ?_, fun h => ?_, fun m rest h => ?_, fun h => ?_⟩, fun r hr => ?_, fun m => ?_⟩
  · simp only [exec_replySent_eq, execReplySent, h]
  · simp only [exec_replySent_eq, execReplySent, h]
  · simp only [exec_radioMessageSent_eq, execRadioMessageSent, h]
  · simp only [exec_radioMessageSent_eq, execRadioMessageSent, h]
  · refine ⟨r.body.kindByte, r.body.bytes, frameCheck r.body.kindByte r.tag r.body.bytes, rfl, ?_,
      controlFrame_sum _ _ _, ?_⟩
    · cases hb : r.body with
      | refused code k => simp [ReplyBody.bytes]
      | done k x =>
        have : x.width ≤ 120 := Result.width_le fun entries hx => hr k entries (by rw [hb, hx])
        simp only [ReplyBody.bytes, List.length_cons, Result.length_bytes]
        omega
    · cases r.body with
      | refused code k => exact ⟨rfl, rfl⟩
      | done k x => exact ⟨rfl, rfl, x.length_bytes⟩
  · intro two head
    have hframe : m.frame = radioFrameBytes head := by
      cases m with
      | release handle => rfl
      | spk handle seq silent short samples =>
        have hs : bytesOfSamples samples = samples.flatMap two := congrArg samples.flatMap (funext bytes16_shift)
        have hf : flagByte silent + flagByte short + flagByte short =
            (if silent then 1 else 0) + if short then 2 else 0 := by
          cases silent <;> cases short <;> rfl
        simp only [RadioOut.frame, hs, hf, bytes16_shift, head, two, List.cons_append, List.nil_append]
    obtain ⟨lo, hi, hb, hsum⟩ := radioFrameBytes_check head
    refine ⟨lo, hi, hframe.trans hb, hsum, ?_⟩
    cases m with
    | release handle => rfl
    | spk handle seq silent short samples =>
      intro h80
      simp [RadioOut.frame, radioFrameBytes, h80]

end Sys2Proof.Machine
end

section
/-!
SUPPORT. The arithmetic of the mix and of the talker selector: the ramp and its steps, the smoothed level, the weight,
and a mixed output as an exact sum rounded once.
-/
namespace Sys2Proof.Machine

/-! ### The ramp (R124) -/

theorem rampStep_up {ramp a e : Nat} (hr : 0 < ramp) (h : a ≤ e) : rampStep ramp a e = min e (a + ramp) := by
  rw [rampStep_eq, if_neg hr.ne', if_pos h]

theorem rampStep_down {ramp a e : Nat} (hr : 0 < ramp) (h : e < a) : rampStep ramp a e = max e (a - ramp) := by
  rw [rampStep_eq, if_neg hr.ne', if_neg (Nat.not_le.mpr h)]

/-- A ramp step takes `ramp` off the distance. -/
theorem rampStep_distance {ramp : Nat} (hr : 0 < ramp) (a e : Nat) :
    ((e : Int) - rampStep ramp a e).natAbs = ((e : Int) - a).natAbs - ramp := by
  rcases Nat.lt_or_ge e a with h | h
  · rw [rampStep_down hr h, Int.natAbs_natCast_sub_natCast_of_le (le_max_left ..),
      Int.natAbs_natCast_sub_natCast_of_le h.le, ← Nat.sub_max_sub_right, Nat.sub_self, Nat.zero_max, Nat.sub_right_comm]
  · rw [rampStep_up hr h, Int.natAbs_natCast_sub_natCast_of_ge (min_le_left ..),
      Int.natAbs_natCast_sub_natCast_of_ge h, tsub_min, Nat.sub_sub]

theorem rampSteps_distance {ramp : Nat} (hr : 0 < ramp) (e n : Nat) : ∀ a : Nat,
    ((e : Int) - ((fun b => rampStep ramp b e)^[n] a : Nat)).natAbs = ((e : Int) - a).natAbs - n * ramp := by
  induction n with
  | zero => intro a; simp
  | succ n ih =>
    intro a
    rw [Function.iterate_succ_apply, ih, rampStep_distance hr, Nat.succ_mul, Nat.sub_sub, Nat.add_comm]

/-- The target is reached in ceiling(distance / ramp) steps and no sooner. -/
theorem rampSteps_reach {ramp : Nat} (hr : 0 < ramp) (a e n : Nat) :
    (fun b => rampStep ramp b e)^[n] a = e ↔ (((e : Int) - a).natAbs + ramp - 1) / ramp ≤ n := by
  rw [Nat.div_le_iff_le_mul_add_pred hr, Nat.mul_comm ramp n, Nat.add_sub_assoc hr, Nat.add_le_add_iff_right,
    ← Nat.sub_eq_zero_iff_le, ← rampSteps_distance hr, Int.natAbs_eq_zero, sub_eq_zero, Nat.cast_inj, eq_comm]

/-! ### The talker selector (R139, R140) -/

/-- S rests exactly within 7 of the level. -/
theorem smoothLevel_rests (s l : Nat) : smoothLevel s l = s ↔ ((l : Int) - s).natAbs ≤ 7 := by
  have h := smoothLevel_eq s l
  calc smoothLevel s l = s ↔ Int.tdiv ((l : Int) - s) 8 = 0 := by omega
    _ ↔ ((l : Int) - s).natAbs / 8 = 0 := by rewrite [← Int.natAbs_eq_zero, Int.natAbs_tdiv]; rfl
    _ ↔ ((l : Int) - s).natAbs ≤ 7 := by rw [Nat.div_eq_zero_iff_lt (by decide), Nat.lt_succ_iff]

/-- A ramp step reaches a target within the ramp. -/
theorem rampStep_reaches {ramp a e : Nat} (h : ((e : Int) - a).natAbs ≤ ramp) : rampStep ramp a e = e := by
  rcases ramp.eq_zero_or_pos with rfl | hr
  · rw [rampStep_eq, if_pos rfl]
  · have := rampStep_distance hr a e
    rewrite [Nat.sub_eq_zero_of_le h, Int.natAbs_eq_zero, sub_eq_zero, Nat.cast_inj] at this
    exact this.symm

/-- A ramp step stays between the gain and its target. -/
theorem rampStep_between (ramp a e : Nat) : min a e ≤ rampStep ramp a e ∧ rampStep ramp a e ≤ max a e := by
  rcases ramp.eq_zero_or_pos with rfl | hr
  · rewrite [rampStep_eq, if_pos rfl]
    exact ⟨min_le_right .., le_max_right ..⟩
  rcases Nat.lt_or_ge e a with h | h
  · rewrite [rampStep_down hr h]
    exact ⟨(min_le_right ..).trans (le_max_left ..), max_le (le_max_right ..) ((Nat.sub_le ..).trans (le_max_left ..))⟩
  · rewrite [rampStep_up hr h]
    exact ⟨le_min (min_le_right ..) ((min_le_left ..).trans (Nat.le_add_right ..)), (min_le_left ..).trans (le_max_right ..)⟩

/-- Settles O48: a ramp step takes the ramp off the distance, and S moves by the truncated eighth of its own. -/
theorem rampLevelsAndWeights : Obligations.RampLevelsAndWeights := by
  refine ⟨fun ramp a e => ⟨rampStep_eq 0 a e, rampStep_reaches, fun hr h => ?_, fun hr h => ?_,
      (rampStep_between ramp a e).1, (rampStep_between ramp a e).2, fun hr n => rampSteps_reach hr a e n⟩,
    fun s l => ⟨smoothLevel_eq s l, (smoothLevel_between s l).1, (smoothLevel_between s l).2, smoothLevel_rests s l⟩,
    fun role primary level p => ⟨fun h => if_neg (Nat.not_lt.mpr h), fun h => if_pos h⟩⟩
  · rw [rampStep_up hr (Nat.le_of_add_right_le h.le), Nat.min_eq_right h.le]
  · have ha : e ≤ a - ramp := Nat.le_sub_of_add_le h.le
    rw [rampStep_down hr ((Nat.le_add_right ..).trans_lt h), Nat.max_eq_right ha]

/-! ### Mixed outputs (R131, R132) -/

/-- A gain times a sample. -/
theorem abs_gain_mul_sample_le {g : Nat} (hg : g ≤ 8191) (v : Sample) : |(g : Int) * v.toInt| ≤ 268402688 := by
  have lo := BitVec.le_toInt v
  have hi := BitVec.toInt_lt (x := v)
  have hv : |v.toInt| ≤ 32768 := abs_le.mpr ⟨by omega, by omega⟩
  calc |(g : Int) * v.toInt| = (g : Int) * |v.toInt| := by rw [abs_mul, Nat.abs_cast]
    _ ≤ 8191 * 32768 := Int.mul_le_mul (by omega) hv (abs_nonneg _) (by omega)
    _ = 268402688 := by norm_num

/-- The accumulator never leaves 32 bits (R131). -/
theorem accumulator_le {g : GainRow} (hg : ∀ j, g.get j ≤ 8191) (x : MixInputs) (n : Nat) :
    |accumulator g x n| ≤ 1610416128 := by
  have part : ∀ (j : Input) (block : List Sample), |(g.get j : Int) * sampleAt block n| ≤ 268402688 :=
    fun j block => abs_gain_mul_sample_le (hg j) _
  have sum : ∀ {a b m k : Int}, |a| ≤ m → |b| ≤ k → |a + b| ≤ m + k := fun ha hb =>
    (abs_add_le _ _).trans (Int.add_le_add ha hb)
  exact sum (sum (sum (sum (sum (part .d x.d) (part (.e .s0) x.e.s0)) (part (.e .s1) x.e.s1)) (part (.e .s2) x.e.s2))
    (part (.e .s3) x.e.s3)) (part .p x.p)

/-- The rounded value of an output (R131). -/
theorem mixedValue_eq (g : GainRow) (x : MixInputs) (n : Nat) :
    mixedValue g x n =
      if accumulator g x n < 0 then -((-accumulator g x n + 2048) / 4096) else (accumulator g x n + 2048) / 4096 := by
  have half : ∀ p : Int, (2 * p + 4096) / (2 * 4096) = (p + 2048) / 4096 := fun p => by
    rewrite [show 2 * p + 4096 = 2 * (p + 2048) by ring]
    exact Int.mul_ediv_mul_of_pos _ _ (by decide)
  rewrite [mixedValue, roundHalfAway_eq]
  exact if_congr Iff.rfl (congrArg Neg.neg (half _)) (half _)

/-- A sample of an output is its rounded value saturated (R132). -/
theorem mixedBlock_getD (g : GainRow) (x : MixInputs) {n : Nat} (hn : n < 80) :
    ((mixedBlock g x).getD n 0).toInt = max (-32768) (min 32767 (mixedValue g x n)) := by
  have h : (mixedBlock g x).getD n 0 = saturateSample (mixedValue g x n) := by
    rewrite [List.getD_eq_getElem _ _ (by rewrite [length_mixedBlock]; exact hn)]
    simp [mixedBlock, positions]
  rw [h, toInt_saturateSample]

/-- How many samples of an output saturate (R132). -/
theorem saturatedCount_eq (g : GainRow) (x : MixInputs) : saturatedCount g x =
    (List.range 80).countP fun n => decide (mixedValue g x n < -32768) || decide (32767 < mixedValue g x n) := by
  unfold saturatedCount
  exact congrArg (fun p => (List.range 80).countP p) (funext fun n => Bool.decide_or _ _)

end Sys2Proof.Machine
end

section
/-!
SUPPORT. Mix periods: what the audio stages leave, the queue after the whole period by kind, and the play of the prompt
in closed form.
-/
namespace Sys2Proof.Machine

variable {s t u w : State} {i k : SlotId} {pacing : Pacing} {d : List Sample} {c : Instr}

/-! ### The prompt in closed form (R154) -/

/-- Whether position `j` of the play from `p` on still belongs to a play: the first, or one that follows at once. -/
def Play.sounds (p : Play) (j : Nat) : Prop :=
  (p.position - p.start + j) / p.length = 0 ∨
    (p.gap = 0 ∧ (p.position - p.start + j) / p.length ≤ p.remaining)

/-- The player after `n` positions of a play from `p` on. -/
def Play.after (p : Play) (n : Nat) : Player :=
  let ended := (p.position - p.start + n) / p.length
  if ended = 0 then .playing { p with position := p.position + n }
  else if p.gap = 0 ∧ ended ≤ p.remaining then
    .playing { p with
      position := p.start + (p.position - p.start + n) % p.length, remaining := p.remaining - ended }
  else if p.gap = 0 ∨ p.remaining = 0 then .idle
  else .gap { p with position := p.start, remaining := p.remaining - 1 } p.gap

theorem length_playFrom (memory : List PromptCell) : ∀ (n : Nat) (p : Play), (playFrom memory n p).1.length = n
  | 0, _ => rfl
  | n + 1, p => by
    rewrite [playFrom]
    dsimp only
    (repeat' split) <;> simp [length_playFrom memory n]

/-- The first position of a play is within it, and is where it reads. -/
theorem Play.within {p : Play} (h : p.Lawful) : p.position - p.start < p.length := by
  obtain ⟨-, -, hlow, hhigh, -, -⟩ := h
  omega

theorem Play.sounds_zero {p : Play} (h : p.Lawful) : p.sounds 0 := .inl (Nat.div_eq_of_lt (Play.within h))

theorem Play.reads_zero {p : Play} (h : p.Lawful) : p.start + (p.position - p.start + 0) % p.length = p.position := by
  rw [Nat.add_zero, Nat.mod_eq_of_lt (Play.within h), Nat.add_sub_cancel' h.2.2.1]

/-- The positions after the last of the region count on from the next play's start. -/
theorem Play.shift_last {p : Play} (h : p.Lawful) (hlast : p.position + 1 = p.start + p.length) (j : Nat) :
    (p.position - p.start + (j + 1)) / p.length = j / p.length + 1 ∧
      (p.position - p.start + (j + 1)) % p.length = j % p.length := by
  have hlen : 0 < p.length := (Nat.zero_le _).trans_lt (Play.within h)
  have heq : p.position - p.start + (j + 1) = p.length + j := by
    have := Play.within h
    omega
  rewrite [heq]
  exact ⟨Nat.add_div_left j hlen, Nat.add_mod_left _ _⟩

theorem Play.again_lawful {p : Play} (h : p.Lawful) :
    ({ p with position := p.start, remaining := p.remaining - 1 } : Play).Lawful := by
  obtain ⟨hlen, hend, -, -, hrem, hgap⟩ := h
  exact ⟨hlen, hend, le_refl _, Nat.lt_add_of_pos_right hlen, (Nat.sub_le ..).trans hrem, hgap⟩

theorem Play.next_lawful {p : Play} (h : p.Lawful) (hmid : p.position + 1 ≠ p.start + p.length) :
    ({ p with position := p.position + 1 } : Play).Lawful := by
  obtain ⟨hlen, hend, hlow, hhigh, hrem, hgap⟩ := h
  exact ⟨hlen, hend, hlow.trans (Nat.le_succ _), Nat.lt_of_le_of_ne hhigh hmid, hrem, hgap⟩

/-- A play that follows at once sounds where the play before it, one length on, does. -/
theorem Play.sounds_again {p : Play} (h : p.Lawful) (hlast : p.position + 1 = p.start + p.length) (hg : p.gap = 0)
    (h0 : p.remaining ≠ 0) (j : Nat) :
    p.sounds (j + 1) ↔ ({ p with position := p.start, remaining := p.remaining - 1 } : Play).sounds j := by
  simp only [Play.sounds, (Play.shift_last h hlast j).1, Nat.sub_self, Nat.zero_add, hg, true_and]
  have one := Nat.one_le_iff_ne_zero.mpr h0
  rewrite [Nat.le_sub_iff_add_le one, or_iff_right (Nat.succ_ne_zero _)]
  exact ⟨.inr, fun h => h.elim (fun hq => hq ▸ one) id⟩

theorem Play.after_again {p : Play} (h : p.Lawful) (hlast : p.position + 1 = p.start + p.length) (hg : p.gap = 0)
    (h0 : p.remaining ≠ 0) (n : Nat) :
    ({ p with position := p.start, remaining := p.remaining - 1 } : Play).after n = p.after (n + 1) := by
  obtain ⟨hdiv, hmodn⟩ := Play.shift_last h hlast n
  simp only [Play.after, hdiv, hmodn, Nat.sub_self, Nat.zero_add, hg, true_and]
  have hmod : n / p.length = 0 → n % p.length = n := fun hq => Nat.mod_eq_of_lt ((Nat.div_eq_zero_iff_lt h.1).mp hq)
  generalize n / p.length = q at hmod
  rewrite [if_neg (Nat.succ_ne_zero q)]
  by_cases hq : q = 0
  · rw [if_pos hq, if_pos (hq ▸ Nat.one_le_iff_ne_zero.mpr h0), hmod hq, hq]
  · rewrite [if_neg hq]
    by_cases hle : q ≤ p.remaining - 1
    · rw [if_pos hle, if_pos (Nat.add_le_of_le_sub (Nat.one_le_iff_ne_zero.mpr h0) hle), Nat.sub_sub, Nat.add_comm 1]
    · rewrite [if_neg hle, if_neg fun hc => hle (Nat.le_sub_of_add_le hc)]
      simp

theorem getD_replicate_zero (n j : Nat) : (List.replicate n (0 : Sample)).getD j 0 = 0 := by
  by_cases hj : j < n <;> simp [List.getD, hj]

/-- The samples and the player of `n` positions. -/
theorem playFrom_eq (memory : List PromptCell) : ∀ (n : Nat) (p : Play), p.Lawful →
    (∀ j, j < n → (p.sounds j → (playFrom memory n p).1.getD j 0 =
        readPrompt memory (p.start + (p.position - p.start + j) % p.length)) ∧
      (¬p.sounds j → (playFrom memory n p).1.getD j 0 = 0)) ∧
    (playFrom memory n p).2 = p.after n
  | 0, p, h => by
    refine ⟨nofun, ?_⟩
    simp [Play.after, playFrom, Nat.div_eq_of_lt (Play.within h)]
  | n + 1, p, h => by
    rewrite [playFrom]
    dsimp only
    split
    · next hlast =>
      have shift := Play.shift_last h hlast
      have silent : ¬(p.gap = 0 ∧ 1 ≤ p.remaining) → ∀ j, ¬p.sounds (j + 1) := by
        rintro hno j (hs | ⟨hg, hs⟩)
        · rewrite [(shift j).1] at hs
          exact Nat.succ_ne_zero _ hs
        · rewrite [(shift j).1] at hs
          exact hno ⟨hg, (Nat.le_add_left 1 _).trans hs⟩
      split
      · next h0 =>
        refine ⟨?_, ?_⟩
        · rintro (_ | j) hj
          · exact ⟨fun _ => by rewrite [Play.reads_zero h]; rfl, fun hs => absurd (Play.sounds_zero h) hs⟩
          · exact ⟨fun hs => absurd hs (silent (fun hc => absurd hc.2 (by simp [h0])) j), fun _ => getD_replicate_zero n j⟩
        · simp [Play.after, (shift n).1, h0]
      · next h0 =>
        split
        · next hg =>
          obtain ⟨hout, hplayer⟩ := playFrom_eq memory n _ (Play.again_lawful h)
          refine ⟨?_, hplayer.trans (Play.after_again h hlast hg h0 n)⟩
          rintro (_ | j) hj
          · exact ⟨fun _ => by rewrite [Play.reads_zero h]; rfl, fun hs => absurd (Play.sounds_zero h) hs⟩
          · rewrite [Play.sounds_again h hlast hg h0, (shift j).2]
            simpa using hout j (Nat.lt_of_succ_lt_succ hj)
        · next hg =>
          refine ⟨?_, ?_⟩
          · rintro (_ | j) hj
            · exact ⟨fun _ => by rewrite [Play.reads_zero h]; rfl, fun hs => absurd (Play.sounds_zero h) hs⟩
            · exact ⟨fun hs => absurd hs (silent (fun hc => hg hc.1) j), fun _ => getD_replicate_zero n j⟩
          · simp [Play.after, (shift n).1, h0, hg]
    · next hmid =>
      obtain ⟨hout, hplayer⟩ := playFrom_eq memory n _ (Play.next_lawful h hmid)
      have shift : ∀ j, p.position + 1 - p.start + j = p.position - p.start + (j + 1) := fun j => by
        rw [Nat.sub_add_comm h.2.2.1, Nat.add_assoc, Nat.add_comm 1]
      refine ⟨?_, ?_⟩
      · rintro (_ | j) hj
        · exact ⟨fun _ => by rewrite [Play.reads_zero h]; rfl, fun hs => absurd (Play.sounds_zero h) hs⟩
        · have := hout j (Nat.lt_of_succ_lt_succ hj)
          simp only [Play.sounds, shift] at this
          simpa [Play.sounds] using this
      · rewrite [hplayer]
        simp only [Play.after, shift]
        rw [Nat.add_assoc, Nat.add_comm 1]

theorem formP_playing (memory : List PromptCell) {p : Play} (h : p.Lawful) :
    let r := formP memory (.playing p)
    r.1.length = 80 ∧ r.2 = p.after 80 ∧
      ∀ j, j < 80 → (p.sounds j → r.1.getD j 0 =
          readPrompt memory (p.start + (p.position - p.start + j) % p.length)) ∧
        (¬p.sounds j → r.1.getD j 0 = 0) := by
  obtain ⟨hout, hplayer⟩ := playFrom_eq memory 80 p h
  exact ⟨length_playFrom memory 80 p, hplayer, hout⟩

/-! ### The state with which a period is raised -/

/-- From `s` to `u` the call port has counted and re-armed: the play half and the estimate stand. -/
def Paced (s u : State) : Prop :=
  ∃ call rate, u = { s with call := call, rate := rate } ∧ call.playHalf = s.call.playHalf ∧
    rate.estimate = s.rate.estimate

theorem RaisesPeriod.paced (h : RaisesPeriod s c pacing d) :
    ∃ u, Paced s u ∧ exec c s = .next (u.mixPeriod pacing d) := by
  obtain ⟨call, rate, hexec, hplay, hest⟩ := h.exec_eq
  exact ⟨_, ⟨call, rate, rfl, hplay, hest⟩, hexec⟩

theorem Paced.slot (h : Paced s u) (i : SlotId) : u.slot i = s.slot i := by
  obtain ⟨call, rate, rfl, -⟩ := h
  rfl

theorem Paced.pairsLawful (h : Paced s u) (hP : s.PairsLawful) : u.PairsLawful := by
  obtain ⟨call, rate, rfl, -⟩ := h
  exact hP

theorem Paced.periodPass (h : Paced s u) : u.periodPass pacing i = s.periodPass pacing i := by
  obtain ⟨call, rate, rfl, -, hest⟩ := h
  have hstep : State.stepIn { s with call := call, rate := rate } pacing i = s.stepIn pacing i := by
    unfold State.stepIn
    dsimp only
    rewrite [hest]
    rfl
  unfold State.periodPass
  rewrite [hstep]
  rfl

theorem Paced.periodInputs (h : Paced s u) : u.periodInputs pacing d = s.periodInputs pacing d := by
  unfold State.periodInputs
  simp only [h.periodPass, h.slot]
  obtain ⟨call, rate, rfl, -⟩ := h
  rfl

theorem Paced.starves (h : Paced s u) : u.starves pacing = s.starves pacing := by
  funext i
  unfold State.starves
  rw [h.periodPass, h.slot]

theorem Paced.periodRow (h : Paced s u) (o : Output) : u.periodRow o = s.periodRow o := by
  obtain ⟨call, rate, rfl, -⟩ := h
  rfl

theorem Paced.periodOut (h : Paced s u) : u.periodOut pacing d i = s.periodOut pacing d i := by
  unfold State.periodOut
  rw [h.periodInputs, h.periodRow, h.slot]

theorem Paced.resyncsTo (h : Paced s u) : u.resyncsTo pacing d i = s.resyncsTo pacing d i := by
  unfold State.resyncsTo State.leaderOf
  simp only [h.periodOut, h.slot]

theorem Paced.periodSaturations (h : Paced s u) : u.periodSaturations pacing d = s.periodSaturations pacing d := by
  funext o
  unfold State.periodSaturations
  rewrite [h.periodInputs, h.periodRow]
  obtain ⟨call, rate, rfl, -⟩ := h
  rfl

/-! ### The stages (R128) -/

/-- The play half after a period (R134). -/
def State.playAfter (s : State) (pacing : Pacing) (d : List Sample) : List Sample :=
  match pacing with
  | .byCall => mixedBlock (s.periodRow .u) (s.periodInputs pacing d)
  | .byLocal => s.call.playHalf

/-- `w` is what the audio stages of a period leave of `s`, with the notices they raise (R128, R134). -/
structure AudioStages (s : State) (pacing : Pacing) (d : List Sample) (captures skews : List NoticeBody) (w : State) :
    Prop where
  period : s.mixPeriod pacing d = w.slotPeriod.talkerClose s.slotStates (s.periodInputs pacing d).e
  queue : w.notices.queue = raisedInto s.notices.queue
    (captures ++ s.periodPrompts ++ s.periodMixsats pacing d ++ skews)
  limits : w.limits = s.limits
  talk : w.talk = s.talk
  radio : w.radio = s.radio
  mixPeriod : w.mix.period = s.periodNumber
  play : w.call.playHalf = s.playAfter pacing d
  captureKind : ∀ b ∈ captures, b.kind = .capture
  skewKind : ∀ b ∈ skews, b.kind = .skew
  slots : s.PairsLawful → ∀ i, w.slot i = s.checkedSlot pacing d i
  skewed : s.PairsLawful → skews = SlotId.all.filterMap (s.fillSkew pacing d)
  quiet : SlotId.all.filter (s.starves pacing) = [] → w.capture = s.capture ∧ captures = []
  full : ∀ a, SlotId.all.filter (s.starves pacing) ≠ [] → s.capture.record = some a →
    w.capture = { record := some a
                  further := min 255 (s.capture.further + (SlotId.all.filter (s.starves pacing)).length) } ∧
      captures = []
  fills : ∀ i rest, SlotId.all.filter (s.starves pacing) = i :: rest → s.capture.record = none →
    w.capture =
      { record := some { kind := .inStarve, slot := some i, handle := (s.slot i).handle, message := none,
                         mixPeriod := s.periodNumber }
        further := min 255 rest.length } ∧
      captures = [.capture { kind := .inStarve, slot := some i }]

theorem State.audioStages (s : State) (pacing : Pacing) (d : List Sample) :
    ∃ captures skews w, AudioStages s pacing d captures skews w := by
  obtain ⟨capture, captures, slots, skews, hm, hcap, hskew, hlaw, hquiet, hfull, hfills⟩ := s.mixPeriod_eq pacing d
  refine ⟨captures, skews, _, hm, rfl, rfl, rfl, rfl, rfl, ?_, hcap, hskew, fun hP i => ?_, fun hP => (hlaw hP).2, hquiet,
    hfull, hfills⟩
  · cases pacing <;> rfl
  · obtain ⟨rfl, -⟩ := hlaw hP
    exact PerSlot.get_tabulate _ i

/-- The notices of the slot table's part: SLOT in slot order, then ROLE (R6). -/
def State.slotBodies (w : State) : List NoticeBody :=
  let f := Slot.idlePeriod w.limits.lossTimeout
  let lost := fun i => (f (w.slot i)).2.isSome && (f (w.slot i)).2 == some .lostTimeout
  (SlotId.all.filterMap fun i =>
      (f (w.slot i)).2.map fun r => NoticeBody.slot i (slotNotice (w.slotPeriod.slot i) r (w.slot i).handle none)) ++
    SlotId.all.filterMap fun i =>
      if roleChanged (w.slots.map fun x => (f x).1) lost i then
        some (.slot i (slotNotice (w.slotPeriod.slot i) .role (w.slotPeriod.slot i).handle none))
      else none

/-- The TALK notices of the close, in slot order (R143). -/
def State.talkBodies (v : State) (states : PerSlot SlotState) (e : PerSlot (List Sample)) : List NoticeBody :=
  SlotId.all.filterMap (v.closeTalk states (v.heard states e))

/-- The LEVEL notices of the close, in slot order (R146). -/
def State.levelBodies (v : State) (states : PerSlot SlotState) (e : PerSlot (List Sample)) : List NoticeBody :=
  SlotId.all.filterMap (v.closeLevel states (v.heard states e))

/-- The queue after a period: every notice of it in the order of R148. -/
theorem AudioStages.queue_after {captures skews : List NoticeBody} (h : AudioStages s pacing d captures skews w) :
    (s.mixPeriod pacing d).notices.queue = raisedInto s.notices.queue
      (captures ++ s.periodPrompts ++ s.periodMixsats pacing d ++ skews ++ w.slotBodies ++
        w.slotPeriod.talkBodies s.slotStates (s.periodInputs pacing d).e ++
        w.slotPeriod.levelBodies s.slotStates (s.periodInputs pacing d).e) := by
  rewrite [h.period, State.talkerClose_eq]
  show raisedInto w.slotPeriod.notices.queue (w.slotPeriod.talkBodies s.slotStates (s.periodInputs pacing d).e ++
    w.slotPeriod.levelBodies s.slotStates (s.periodInputs pacing d).e) = _
  have hslots : w.slotPeriod.notices.queue = raisedInto w.notices.queue w.slotBodies := w.slotPeriod_queue
  rewrite [hslots, h.queue]
  simp only [raisedInto_append]

theorem State.periodPrompts_kind : ∀ b ∈ s.periodPrompts, b.kind = .prompt := by
  unfold State.periodPrompts
  split <;> simp [NoticeBody.kind]

theorem State.periodMixsats_kind : ∀ b ∈ s.periodMixsats pacing d, b.kind = .mixsat := by
  unfold State.periodMixsats
  dsimp only
  split <;> simp [NoticeBody.kind]

theorem State.slotBodies_kind : ∀ b ∈ w.slotBodies, b.kind = .slot := by
  intro b hb
  rcases List.mem_append.mp hb with hb | hb
  all_goals obtain ⟨i, -, hi⟩ := List.mem_filterMap.mp hb
  · obtain ⟨r, -, rfl⟩ := Option.map_eq_some_iff.mp hi
    rfl
  · split at hi <;> cases hi
    rfl

theorem State.talkBodies_kind {states : PerSlot SlotState} {e : PerSlot (List Sample)} :
    ∀ b ∈ w.talkBodies states e, b.kind = .talk := by
  intro b hb
  obtain ⟨i, -, hi⟩ := List.mem_filterMap.mp hb
  unfold State.closeTalk at hi
  split at hi <;> cases hi
  rfl

theorem State.levelBodies_kind {states : PerSlot SlotState} {e : PerSlot (List Sample)} :
    ∀ b ∈ w.levelBodies states e, b.kind = .level := by
  intro b hb
  obtain ⟨i, -, hi⟩ := List.mem_filterMap.mp hb
  unfold State.closeLevel at hi
  dsimp only at hi
  split at hi <;> cases hi
  rfl

/-- The raises of one kind, out of raises that are all of one. -/
theorem filter_kind {l : List NoticeBody} {kind : NoticeKind} (h : ∀ b ∈ l, b.kind = kind) (k : NoticeKind) :
    l.filter (fun b => b.kind == k) = if kind = k then l else [] := by
  split
  · next hk => exact List.filter_eq_self.mpr fun b hb => by simp [h b hb, hk]
  · next hk => exact List.filter_eq_nil_iff.mpr fun b hb => by simp [h b hb, hk]

/-- The notices of one kind after a period. -/
theorem AudioStages.ofKind {captures skews : List NoticeBody} (h : AudioStages s pacing d captures skews w)
    (kind : NoticeKind) :
    (s.mixPeriod pacing d).notices.ofKind kind = raisedInto (s.notices.ofKind kind)
      ((if .capture = kind then captures else []) ++ (if .prompt = kind then s.periodPrompts else []) ++
        (if .mixsat = kind then s.periodMixsats pacing d else []) ++ (if .skew = kind then skews else []) ++
        (if .slot = kind then w.slotBodies else []) ++
        (if .talk = kind then w.slotPeriod.talkBodies s.slotStates (s.periodInputs pacing d).e else []) ++
        if .level = kind then w.slotPeriod.levelBodies s.slotStates (s.periodInputs pacing d).e else []) := by
  unfold NoticeQueue.ofKind
  rewrite [h.queue_after, ofKind_raisedInto]
  simp only [List.filter_append, filter_kind h.captureKind, filter_kind h.skewKind, filter_kind State.periodPrompts_kind,
    filter_kind State.periodMixsats_kind, filter_kind State.slotBodies_kind, filter_kind State.talkBodies_kind,
    filter_kind State.levelBodies_kind]

end Sys2Proof.Machine
end

section
/-!
SUPPORT. The slot table's part of a mix period in the words of Safety: which slots fail, which go LOST, which pairs end
or swap roles, and the obligations on what a period leaves.
-/
namespace Sys2Proof.Machine

variable {s t u w : State} {i k : SlotId} {pacing : Pacing} {d : List Sample} {c : Instr}
  {captures skews : List NoticeBody}

/-! ### Silence (R5, R6) -/

/-- The idle count of slot `i` reaches the loss timeout in the period. -/
def State.silentBy (s : State) (i : SlotId) : Bool := decide (s.limits.lossTimeout ≤ min 255 ((s.slot i).idle + 1))

/-- Slot `i` empties by silence in the period. -/
def State.fails (s : State) (i : SlotId) : Bool := (s.slot i).state.acquiring && s.silentBy i

/-- Slot `i` goes LOST by silence in the period. -/
def State.goesLost (s : State) (i : SlotId) : Bool := (s.slot i).state == .stalled && s.silentBy i

/-- The record of slot `i` after its idle count has been taken. -/
def State.idled (s : State) (i : SlotId) : Slot := ((s.slot i).idlePeriod s.limits.lossTimeout).1

/-- Why slot `i` leaves its state in the period. -/
theorem State.idleReason (s : State) (i : SlotId) : ((s.slot i).idlePeriod s.limits.lossTimeout).2 =
    if (s.slot i).state = .active ∧ 4 ≤ min 255 ((s.slot i).idle + 1) then some .stalled
    else if s.goesLost i then some .lostTimeout
    else if s.fails i then some .failSilent
    else none := by
  unfold State.goesLost State.fails State.silentBy Slot.idlePeriod satSucc8
  dsimp only [Config.stallThreshold]
  generalize min 255 ((s.slot i).idle + 1) = n
  cases (s.slot i).state
  case active => by_cases hn : 4 ≤ n <;> simp [hn, SlotState.acquiring]
  case empty | lost => simp [SlotState.acquiring]
  all_goals by_cases hn : s.limits.lossTimeout ≤ n <;> simp [hn, SlotState.acquiring]

theorem State.idled_active (h : (s.slot i).state = .active) :
    s.idled i = { s.slot i with
      idle := min 255 ((s.slot i).idle + 1)
      state := if 4 ≤ min 255 ((s.slot i).idle + 1) then .stalled else .active } := by
  unfold State.idled Slot.idlePeriod satSucc8
  dsimp only [Config.stallThreshold]
  rewrite [h]
  dsimp only
  split
  · rfl
  · rw [← h]

theorem State.idled_stalled (h : (s.slot i).state = .stalled) :
    s.idled i = if s.silentBy i then
        ({ s.slot i with idle := min 255 ((s.slot i).idle + 1) } : Slot).lost (s.slot i).handle
      else { s.slot i with idle := min 255 ((s.slot i).idle + 1) } := by
  unfold State.idled Slot.idlePeriod satSucc8 State.silentBy
  dsimp only
  rewrite [h]
  dsimp only
  by_cases hl : s.limits.lossTimeout ≤ min 255 ((s.slot i).idle + 1) <;> simp [hl]

theorem State.idled_acquiring (h : (s.slot i).state.acquiring = true) :
    s.idled i = if s.silentBy i then (s.slot i).emptied
      else { s.slot i with idle := min 255 ((s.slot i).idle + 1) } := by
  have hs : (s.slot i).state = .measuring ∨ (s.slot i).state = .filling := by
    simpa [SlotState.acquiring] using h
  unfold State.idled Slot.idlePeriod satSucc8 State.silentBy
  dsimp only
  rcases hs with hs | hs <;> rewrite [hs] <;> dsimp only <;>
    by_cases hl : s.limits.lossTimeout ≤ min 255 ((s.slot i).idle + 1) <;> simp [hl, Slot.emptied]

theorem State.idled_dead (h : (s.slot i).state = .empty ∨ (s.slot i).state = .lost) : s.idled i = s.slot i := by
  unfold State.idled Slot.idlePeriod
  rcases h with h | h <;> simp [h]

theorem State.idled_fails (h : s.fails i = true) : s.idled i = (s.slot i).emptied := by
  obtain ⟨ha, hl⟩ := Bool.and_eq_true_iff.mp h
  rw [State.idled_acquiring ha, if_pos hl]

/-- What the idle count leaves of a record that does not fail. -/
theorem State.idled_stays (h : s.fails i = false) :
    (s.idled i).role = (s.slot i).role ∧ (s.idled i).partner = (s.slot i).partner ∧
      (s.idled i).talker = (s.slot i).talker ∧ (s.idled i).watch = (s.slot i).watch ∧
      ((s.idled i).state = .empty ↔ (s.slot i).state = .empty) := by
  cases hs : (s.slot i).state with
  | empty => rewrite [State.idled_dead (.inl hs)]; simp [hs]
  | lost => rewrite [State.idled_dead (.inr hs)]; simp [hs]
  | active => rewrite [State.idled_active hs]; refine ⟨rfl, rfl, rfl, rfl, ?_⟩; dsimp only; split <;> simp
  | stalled => rewrite [State.idled_stalled hs]; split <;> simp [Slot.lost, Slot.flush, hs]
  | measuring =>
    have ha : (s.slot i).state.acquiring = true := by rewrite [hs]; rfl
    have hl : s.silentBy i = false := by simpa [State.fails, ha] using h
    rewrite [State.idled_acquiring ha, hl]
    simp [hs]
  | filling =>
    have ha : (s.slot i).state.acquiring = true := by rewrite [hs]; rfl
    have hl : s.silentBy i = false := by simpa [State.fails, ha] using h
    rewrite [State.idled_acquiring ha, hl]
    simp [hs]

theorem State.fails_of_live (h : (s.slot i).state.live = true) : s.fails i = false := by
  unfold State.fails
  rewrite [SlotState.acquiring_of_live h]
  rfl

/-- The slots that have gone LOST within the period. -/
theorem State.idle_lost (s : State) (i : SlotId) :
    (((s.slot i).idlePeriod s.limits.lossTimeout).2.isSome &&
      ((s.slot i).idlePeriod s.limits.lossTimeout).2 == some .lostTimeout) = s.goesLost i := by
  rewrite [State.idleReason]
  cases hg : s.goesLost i with
  | true =>
    have hs : (s.slot i).state = .stalled := by
      simpa using (Bool.and_eq_true_iff.mp (show ((s.slot i).state == .stalled && s.silentBy i) = true from hg)).1
    simp [hs]
  | false =>
    cases s.fails i with
    | true => simp; split <;> simp
    | false => simp

/-- The records after the slot table's part: the idle counts, then the pair rules. -/
theorem State.slotPeriod_slot (s : State) (i : SlotId) :
    s.slotPeriod.slot i = pairedAfter (.tabulate s.idled) s.goesLost i := by
  rewrite [State.slot_slotPeriod]
  have hp : (s.slots.map fun x => (x.idlePeriod s.limits.lossTimeout).1) = .tabulate s.idled := by
    apply PerSlot.ext_get
    intro j
    rewrite [PerSlot.get_map, PerSlot.get_tabulate]
    rfl
  have hl : (fun j => ((s.slot j).idlePeriod s.limits.lossTimeout).2.isSome &&
      ((s.slot j).idlePeriod s.limits.lossTimeout).2 == some .lostTimeout) = s.goesLost := funext s.idle_lost
  rw [hp, hl]

/-- The pair rules of the period change role, partner and primary flag at most. -/
theorem State.slotPeriod_fields (s : State) (i : SlotId) : ∃ role partner primary,
    s.slotPeriod.slot i = { s.idled i with
      role := role, partner := partner, talker := { (s.idled i).talker with primary := primary } } := by
  obtain ⟨role, partner, primary, h⟩ := pairedAfter_eq (.tabulate s.idled) s.goesLost i
  rewrite [PerSlot.get_tabulate] at h
  exact ⟨role, partner, primary, (s.slotPeriod_slot i).trans h⟩

theorem State.slotPeriod_state (s : State) (i : SlotId) : (s.slotPeriod.slot i).state = (s.idled i).state := by
  obtain ⟨role, partner, primary, h⟩ := s.slotPeriod_fields i
  rw [h]

/-! ### The pairs of the period (R31, R33) -/

/-- The pair of slot `i` ends in the period by its partner's failing. -/
def State.ends (s : State) (i : SlotId) : Bool :=
  match (s.slot i).partner with
  | some k => s.fails k && !s.fails i
  | none => false

/-- Slot `i` takes the lead in the period. -/
def State.leads (s : State) (i : SlotId) : Bool :=
  match s.leaderOf i with
  | some k => s.goesLost k && (s.slotPeriod.slot i).state.live
  | none => false

/-- Slot `i` hands the lead over in the period. -/
def State.follows (s : State) (i : SlotId) : Bool :=
  match (s.slot i).partner with
  | some k => s.goesLost i && s.leaderOf k == some i && (s.slotPeriod.slot k).state.live
  | none => false

theorem State.pairEnded_idled (hP : s.PairsLawful) (i : SlotId) : pairEnded (.tabulate s.idled) i = s.ends i := by
  unfold pairEnded State.ends
  simp only [PerSlot.get_tabulate]
  cases hf : s.fails i with
  | true =>
    rewrite [State.idled_fails hf]
    cases (s.slot i).partner <;> simp [Slot.emptied, Slot.initial]
  | false =>
    obtain ⟨-, hpart, -, -, hempty⟩ := State.idled_stays hf
    rewrite [hpart]
    cases hk : (s.slot i).partner with
    | none => rfl
    | some k =>
      obtain ⟨-, hmutual, hi, -⟩ := hP.pair hk
      obtain ⟨-, -, hk', -⟩ := hP.pair hmutual
      have hne : (s.idled i).state ≠ .empty := mt hempty.mp hi
      cases hfk : s.fails k with
      | true => simp [bne, hne, hfk, State.idled_fails hfk, Slot.emptied, Slot.initial]
      | false =>
        obtain ⟨-, -, -, -, hemptyk⟩ := State.idled_stays hfk
        have hnek : (s.idled k).state ≠ .empty := mt hemptyk.mp hk'
        simp [bne, hnek, hfk]

theorem State.leader_idled (hf : s.fails i = false) : (s.idled i).leader? = s.leaderOf i := by
  obtain ⟨hrole, hpart, -⟩ := State.idled_stays hf
  rw [State.leaderOf_eq, Slot.leader?, Slot.leader?, hrole, hpart]

theorem State.swapsUp_idled (s : State) (i : SlotId) : swapsUp (s.idled i) s.goesLost = s.leads i := by
  unfold swapsUp State.leads
  rewrite [State.slotPeriod_state]
  cases hf : s.fails i with
  | true =>
    rewrite [State.idled_fails hf]
    cases s.leaderOf i <;> simp [Slot.emptied, Slot.initial, Slot.leader?, SlotState.live]
  | false =>
    rewrite [State.leader_idled hf]
    cases s.leaderOf i with
    | none => rfl
    | some k => exact Bool.and_comm _ _

theorem State.swapsDown_idled (hP : s.PairsLawful) (hf : s.fails i = false) :
    swapsDown (.tabulate s.idled) s.goesLost i = s.follows i := by
  obtain ⟨hrole, hpart, -⟩ := State.idled_stays hf
  unfold swapsDown State.follows
  simp only [PerSlot.get_tabulate, hrole, hpart, State.swapsUp_idled]
  cases hk : (s.slot i).partner with
  | none => rfl
  | some k =>
    dsimp only
    cases hfk : s.fails k with
    | true =>
      have dead : (s.slotPeriod.slot k).state.live = false := by
        rewrite [State.slotPeriod_state, State.idled_fails hfk]
        rfl
      rewrite [State.idled_fails hfk, dead]
      simp [Slot.emptied, Slot.initial, Slot.leader?]
    | false =>
      rewrite [State.leader_idled hfk, State.leads]
      cases hl : s.leaderOf k with
      | none => simp
      | some j =>
        by_cases hj : j = i
        · subst hj
          have hlead : (s.slot j).role = .leader := by
            have hrk : (s.slot k).role = .follower := by
              unfold State.leaderOf at hl
              split at hl
              · next h => exact h
              · cases hl
            obtain ⟨-, -, -, -, hroles, -⟩ := hP.pair hk
            rcases hroles with ⟨h, -⟩ | ⟨-, h⟩
            · exact h
            · rewrite [hrk] at h
              cases h
          simp only [hlead, beq_self_eq_true, Bool.true_and, Bool.and_true]
          cases s.goesLost j <;> rfl
        · simp [beq_eq_false_iff_ne.mpr hj]

/-- Roles and partners after a period (R31, R33). -/
theorem State.slotPeriod_pairing (hP : s.PairsLawful) (i : SlotId) :
    ((s.slotPeriod.slot i).role, (s.slotPeriod.slot i).partner) =
      if s.fails i || s.ends i then (.solo, none)
      else if s.leads i then (.leader, (s.slot i).partner)
      else if s.follows i then (.follower, (s.slot i).partner)
      else ((s.slot i).role, (s.slot i).partner) := by
  rewrite [State.slotPeriod_slot]
  unfold pairedAfter
  simp only [PerSlot.get_tabulate, State.pairEnded_idled hP, State.swapsUp_idled]
  cases hf : s.fails i with
  | true =>
    have hends : s.ends i = false := by unfold State.ends; split <;> simp [hf]
    have hleads : s.leads i = false := by
      rewrite [← State.swapsUp_idled, State.idled_fails hf]
      rfl
    have hdown : swapsDown (.tabulate s.idled) s.goesLost i = false := by
      unfold swapsDown
      simp only [PerSlot.get_tabulate, State.idled_fails hf]
      rfl
    simp only [hends, hleads, hdown, State.idled_fails hf]
    rfl
  | false =>
    obtain ⟨hrole, hpart, -⟩ := State.idled_stays hf
    rewrite [State.swapsDown_idled hP hf]
    simp only [Bool.false_or]
    split
    · rfl
    split
    · rw [← hpart]
    split
    · rw [← hpart]
    · rw [hrole, hpart]

/-- A slot that has a partner after the period had it before, with the flag it has. -/
theorem State.slotPeriod_partner (hP : s.PairsLawful) (hk : (s.slotPeriod.slot i).partner = some k) :
    (s.slot i).partner = some k ∧ (s.slotPeriod.slot i).talker = (s.slot i).talker := by
  have h := State.slotPeriod_pairing hP i
  have hne : (s.fails i || s.ends i) = false := by
    by_contra hc
    rewrite [if_pos (eq_true_of_ne_false hc), hk] at h
    exact absurd (congrArg Prod.snd h) (by simp)
  rewrite [if_neg (by simpa using hne)] at h
  obtain ⟨hf, hends⟩ := Bool.or_eq_false_iff.mp hne
  refine ⟨?_, ?_⟩
  · rewrite [← hk]
    repeat' split at h
    all_goals exact ((Prod.mk.injEq ..).mp h).2.symm
  · rewrite [State.slotPeriod_slot]
    unfold pairedAfter
    simp only [PerSlot.get_tabulate, State.pairEnded_idled hP, hends, Bool.false_eq_true, if_false]
    rewrite [← (State.idled_stays hf).2.2.1]
    repeat' split
    all_goals rfl

/-- The RELEASEs of the period, in slot order (R6, R49). -/
theorem State.slotPeriod_outgoing (s : State) : s.slotPeriod.radio.outgoing =
    s.radio.outgoing ++ ((SlotId.all.filter s.fails).filterMap fun i => (s.slot i).handle).map RadioOut.release := by
  have hreason : ∀ i, ((s.slot i).idlePeriod s.limits.lossTimeout).2 = some .failSilent ↔ s.fails i = true := by
    intro i
    rewrite [State.idleReason]
    cases hf : s.fails i with
    | true =>
      have ha : (s.slot i).state.acquiring = true := (Bool.and_eq_true_iff.mp hf).1
      have hne : (s.slot i).state ≠ .active ∧ (s.slot i).state ≠ .stalled := by
        constructor <;> intro h <;> rewrite [h] at ha <;> cases ha
      simp [State.goesLost, hne]
    | false => simp; split <;> simp
  have hrel : s.releaseSilent =
      SlotId.all.foldl (fun t i => t.release (if s.fails i then (s.slot i).handle else none)) s := by
    unfold State.releaseSilent
    congr 1
    funext t i
    simp only [hreason]
    split <;> rfl
  rewrite [State.slotPeriod, State.changeSlots_radio, hrel, State.foldl_release, List.filterMap_filter]
  rfl

/-- The notices of the slot table's part, in the words of R6. -/
theorem State.slotBodies_eq (hP : s.PairsLawful) : s.slotBodies =
    (SlotId.all.filterMap fun i =>
        (if (s.slot i).state = .active ∧ 4 ≤ min 255 ((s.slot i).idle + 1) then some SlotReason.stalled
          else if s.goesLost i then some .lostTimeout
          else if s.fails i then some .failSilent
          else none).map fun r => NoticeBody.slot i (slotNotice (s.slotPeriod.slot i) r (s.slot i).handle none)) ++
      SlotId.all.filterMap fun i =>
        if s.ends i || s.leads i then
          some (.slot i (slotNotice (s.slotPeriod.slot i) .role (s.slotPeriod.slot i).handle none))
        else none := by
  have hp : (s.slots.map fun x => (x.idlePeriod s.limits.lossTimeout).1) = .tabulate s.idled := by
    apply PerSlot.ext_get
    intro j
    rewrite [PerSlot.get_map, PerSlot.get_tabulate]
    rfl
  have hl : (fun j => ((s.slot j).idlePeriod s.limits.lossTimeout).2.isSome &&
      ((s.slot j).idlePeriod s.limits.lossTimeout).2 == some .lostTimeout) = s.goesLost := funext s.idle_lost
  unfold State.slotBodies
  dsimp only
  rewrite [hl, hp]
  simp only [State.idleReason]
  unfold roleChanged
  simp only [PerSlot.get_tabulate, State.pairEnded_idled hP, State.swapsUp_idled]

end Sys2Proof.Machine
end

section
/-!
SUPPORT. The obligations on mix periods (R5, R6, R40, R61, R66, R79, R111, R122 to R146, R154).
-/
namespace Sys2Proof.Machine

variable {s t u w : State} {i k : SlotId} {pacing : Pacing} {d : List Sample} {c : Instr}
  {captures skews : List NoticeBody}

/-- What the audio stages leave of a record (R111, R134). -/
theorem AudioStages.fields (h : AudioStages s pacing d captures skews w) (hP : s.PairsLawful) (i : SlotId) :
    w.slot i = { s.slot i with
      inRing := (s.checkedSlot pacing d i).inRing, outRing := (s.checkedSlot pacing d i).outRing
      stats := (s.checkedSlot pacing d i).stats } := by
  rw [h.slots hP, ← State.checkedSlot_fields]

theorem AudioStages.pairsLawful (h : AudioStages s pacing d captures skews w) (hP : s.PairsLawful) :
    w.PairsLawful := by
  refine SamePairs.lawful (fun i => ?_) hP
  rewrite [h.fields hP]
  rfl

/-- The record after the period is the one after the slot table's part, with talker state and watch closed. -/
theorem AudioStages.slot (h : AudioStages s pacing d captures skews w) (i : SlotId) :
    (s.mixPeriod pacing d).slot i = { w.slotPeriod.slot i with
      talker := ((s.mixPeriod pacing d).slot i).talker, watch := ((s.mixPeriod pacing d).slot i).watch } := by
  rewrite [h.period]
  exact State.slot_talkerClose _ _ _ i

theorem AudioStages.state (h : AudioStages s pacing d captures skews w) (i : SlotId) :
    ((s.mixPeriod pacing d).slot i).state = (w.slotPeriod.slot i).state := by
  rw [h.slot]

/-! ### The settings and the order of the notices (R79, R148) -/

theorem State.mixPeriod_period (s : State) (pacing : Pacing) (d : List Sample) :
    (s.mixPeriod pacing d).mix.period = s.mix.period + 1 := by
  obtain ⟨captures, skews, w, h⟩ := s.audioStages pacing d
  rewrite [h.period, State.talkerClose_mix, State.slotPeriod_mix_period, h.mixPeriod]
  rfl

/-- What a period leaves alone (R79). -/
theorem State.mixPeriod_kept (s : State) (pacing : Pacing) (d : List Sample) :
    let t := s.mixPeriod pacing d
    t.mix.period = s.mix.period + 1 ∧ t.link = s.link ∧ t.profiles = s.profiles ∧ t.limits = s.limits ∧
      t.mix.targets = s.mix.targets ∧ t.talk = s.talk ∧ t.prompt.memory = s.prompt.memory ∧
      t.notices.mask = s.notices.mask ∧ t.radio.pendingLinks = s.radio.pendingLinks := by
  refine ⟨s.mixPeriod_period pacing d, ?_⟩
  simp

/-- Settles O40: the queue takes the notices of each stage behind those of the stage before. -/
theorem mixPeriodsAreRaised : Obligations.MixPeriodsAreRaised := by
  refine ⟨fun s c pacing d hr => ?_, fun s => ⟨fun due hd => ?_, fun hd => ?_, fun tick downlink w ha hn hw hc => ?_⟩⟩
  · obtain ⟨u, hu, hexec⟩ := hr.paced
    obtain ⟨captures, skews, w, h⟩ := u.audioStages pacing d
    have hq := h.queue_after
    have hn : u.notices = s.notices := by
      obtain ⟨call, rate, rfl, -⟩ := hu
      rfl
    rewrite [hn] at hq
    exact ⟨_, hexec, captures, _, _, skews, _, _, _, hq, h.captureKind, State.periodPrompts_kind,
      State.periodMixsats_kind, h.skewKind, State.slotBodies_kind, State.talkBodies_kind, State.levelBodies_kind⟩
  · let u : State :=
      { s with call := { s.call with lastMixTick := some due, localTimer := some (due + 122880) } }
    have hexec : exec .localTimerExpiry s = .next (u.mixPeriod .byLocal (List.replicate 80 0)) := by
      simp only [exec_localTimerExpiry_eq, execLocalTimerExpiry, hd]
      rfl
    refine ⟨_, hexec, u.mixPeriod_kept _ _, u.mixPeriod_rate _ _, ?_⟩
    obtain ⟨v, e, hm, -, -, -, -, play, hcall, -, hplay⟩ := u.mixPeriod_parts .byLocal (List.replicate 80 0)
    rw [hm, State.talkerClose_call, State.slotPeriod_call, hcall, hplay rfl]
  · simp only [exec_localTimerExpiry_eq, execLocalTimerExpiry, hd]
  · let u : State :=
      { s with
        call := { s.call with
          uplink := s.call.playHalf.getD 79 0, captureHalf := s.call.captureHalf.set 79 downlink, strobeCount := 0,
          strobeTimer := some (tick + 49152), lastMixTick := some tick }
        rate := { s.rate with window := some { w with counted := w.counted + 1 } } }
    have hexec : exec (.strobe tick downlink) s =
        .next (u.mixPeriod .byCall (s.call.captureHalf.set 79 downlink)) := by
      have htake : s.takeStrobe tick downlink = ((s.exchange tick downlink).windowStrobe tick).endPeriod tick := by
        unfold State.takeStrobe
        split
        · next h => exact absurd h ha
        · rfl
        · rfl
      show Host.Outcome.next (s.takeStrobe tick downlink) = _
      rewrite [htake]
      unfold State.windowStrobe State.exchange
      dsimp only
      rewrite [hw]
      dsimp only
      rewrite [if_neg (by unfold Config.callWindowStrobes; omega)]
      unfold State.endPeriod
      dsimp only
      rw [hn, if_pos (by decide)]
    obtain ⟨v, e, hm, -, -, -, -, play, hcall, hplay, -⟩ := u.mixPeriod_parts .byCall (s.call.captureHalf.set 79 downlink)
    have call : (u.mixPeriod .byCall (s.call.captureHalf.set 79 downlink)).call = { u.call with playHalf := play } := by
      rw [hm, State.talkerClose_call, State.slotPeriod_call, hcall]
    refine ⟨_, hexec, u.mixPeriod_kept _ _, u.mixPeriod_rate _ _, ?_, ?_⟩
    · rewrite [call]
      exact hplay rfl
    · rw [call]

/-! ### Prompts and saturated outputs (R133, R154) -/

/-- Settles O44: a play in closed form, and the player's part of a period. -/
theorem promptsPlayInMixPeriods : Obligations.PromptsPlayInMixPeriods := by
  refine ⟨fun memory => ⟨rfl, fun p n hn => ?_, fun p hp => ?_⟩, fun s c pacing d hr => ?_⟩
  · show (silence, if n - 1 = 0 then Player.playing p else .gap p (n - 1)) = _
    by_cases h1 : n = 1
    · rewrite [if_pos h1, if_pos (by omega)]
      rfl
    · rewrite [if_neg h1, if_neg (by omega)]
      rfl
  · obtain ⟨hlen, hafter, hout⟩ := formP_playing memory hp
    refine ⟨hlen, fun n hn => ?_, hafter⟩
    split
    · next h => exact (hout n hn).1 h
    · next h => exact (hout n hn).2 h
  · obtain ⟨u, hu, hexec⟩ := hr.paced
    obtain ⟨captures, skews, w, h⟩ := u.audioStages pacing d
    refine ⟨_, hexec, ?_⟩
    have hp : u.prompt = s.prompt ∧ u.notices = s.notices ∧ u.periodPrompts = s.periodPrompts := by
      obtain ⟨call, rate, rfl, -⟩ := hu
      exact ⟨rfl, rfl, rfl⟩
    refine ⟨?_, ?_⟩
    · rw [State.mixPeriod_prompt, hp.1]
    · rewrite [h.ofKind, hp.2.1, hp.2.2]
      simp only [reduceCtorEq, if_false, if_true, List.nil_append, List.append_nil]
      rfl

/-- Settles O49: a sample is the accumulator rounded once and saturated, and MIXSAT counts what saturates. -/
theorem outputsAreRoundedSums : Obligations.OutputsAreRoundedSums := by
  refine ⟨fun g x hg => ?_, fun s c pacing d hr => ?_⟩
  · intro acc rounded
    have hround : rounded = mixedValue g x := funext fun n => (mixedValue_eq g x n).symm
    rewrite [hround]
    exact ⟨length_mixedBlock g x, fun n hn => ⟨accumulator_le hg x n, mixedBlock_getD g x hn⟩, saturatedCount_eq g x⟩
  · obtain ⟨u, hu, hexec⟩ := hr.paced
    obtain ⟨captures, skews, w, h⟩ := u.audioStages pacing d
    refine ⟨_, hexec, ?_⟩
    have hn : u.notices = s.notices ∧ u.periodNumber = s.periodNumber := by
      obtain ⟨call, rate, rfl, -⟩ := hu
      exact ⟨rfl, rfl⟩
    rewrite [h.ofKind, hn.1]
    simp only [reduceCtorEq, if_false, if_true, List.nil_append, List.append_nil]
    unfold State.periodMixsats
    rw [hu.periodSaturations, hn.2]

/-! ### The gains (R122 to R126) -/

theorem leavesLive_any (s : State) (f : Slot → Slot × Option SlotReason) (o : Output) (j : Input) :
    (SlotId.all.any fun i => leavesLive s f i && (o == .o i || j == .e i)) =
      ((match o with
        | .u => false
        | .o i => leavesLive s f i) ||
      match j with
      | .e k => leavesLive s f k
      | _ => false) := by
  rewrite [Bool.eq_iff_iff, List.any_eq_true]
  cases o <;> cases j <;> simp [SlotId.mem_all, and_or_left, exists_or]

/-- Whether the slots of a path are live by `l`. -/
def pathLive (l : SlotId → Bool) (o : Output) (j : Input) : Bool :=
  (match o with
    | .u => true
    | .o i => l i) &&
  match j with
  | .e k => l k
  | _ => true

/-- Of the live paths, those from which no slot leaves stay live. -/
theorem pathLive_leaving (l m : SlotId → Bool) (o : Output) (j : Input) :
    pathLive (fun i => l i && m i) o j = (pathLive l o j &&
      !((match o with
        | .u => false
        | .o i => l i && !m i) ||
      match j with
      | .e k => l k && !m k
      | _ => false)) := by
  unfold pathLive
  cases o <;> cases j <;> dsimp only
  case o.e i k => cases l i <;> cases l k <;> simp
  all_goals simp
  all_goals grind

theorem ite_gone (gone live : Bool) (x : Nat) :
    (if gone = true then 0 else if live = true then x else 0) = if (live && !gone) = true then x else 0 := by
  cases gone <;> cases live <;> rfl

/-- Settles O42: the ramped gains, with the columns and rows of the slots lost in the period at 0. -/
theorem mixPeriodsRampTheGains : Obligations.MixPeriodsRampTheGains := by
  intro s c pacing d hr
  obtain ⟨u, hu, hexec⟩ := hr.paced
  refine ⟨_, hexec, fun o j => ?_⟩
  obtain ⟨w, e, hm, audio, hmix, -⟩ := u.mixPeriod_parts pacing d
  have before : ∀ i, (w.slot i).state = (s.slot i).state := fun i => (audio.state i).trans (by rw [hu.slot])
  have after : ∀ i, ((u.mixPeriod pacing d).slot i).state = (w.idled i).state := fun i => by
    rw [hm, State.slot_talkerClose, State.slotPeriod_state]
  have gain : w.mix.applied.get o j = s.periodGain o j := by
    rewrite [hmix]
    obtain ⟨call, rate, rfl, -⟩ := hu
    exact State.applied_rampGains (State.countPeriod { s with call := call, rate := rate }) o j
  have leaves : leavesLive w.releaseSilent (Slot.idlePeriod w.limits.lossTimeout) =
      fun i => (s.slot i).state.live && !((u.mixPeriod pacing d).slot i).state.live := by
    funext i
    rewrite [leavesLive, State.releaseSilent_slot, before, after]
    rfl
  intro stepped g e' a ramp
  let target := if ramp = 0 then e' else if a ≤ e' then min e' (a + ramp) else max e' (a - ramp)
  have ramped : s.periodGain o j = if pathLive (fun i => (s.slot i).state.live) o j = true then target else 0 := rfl
  rewrite [hm, State.talkerClose_mix, State.slotPeriod, State.changeSlots_applied, leavesLive_any, leaves,
    State.releaseSilent_mix, gain, ramped, ite_gone]
  dsimp only
  rewrite [← pathLive_leaving (fun i => (s.slot i).state.live) fun i => ((u.mixPeriod pacing d).slot i).state.live]
  rfl

end Sys2Proof.Machine
end

section
/-!
SUPPORT. The obligations on the slot states, the audio and the talkers of a mix period (R5, R6, R31, R33, R40, R61, R111,
R136 to R146).
-/
namespace Sys2Proof.Machine

variable {s t u w : State} {i k : SlotId} {pacing : Pacing} {d : List Sample} {c : Instr}
  {captures skews : List NoticeBody}

/-! ### What the slot table's part reads of the state that raised the period -/

/-- `w` holds the slots of `s` but for rings and counters, and its settings. -/
structure SameTable (s w : State) : Prop where
  fields : ∀ i, ∃ inRing outRing stats,
    w.slot i = { s.slot i with inRing := inRing, outRing := outRing, stats := stats }
  limits : w.limits = s.limits

theorem AudioStages.sameTable (h : AudioStages u pacing d captures skews w) (hu : Paced s u) (hP : s.PairsLawful) :
    SameTable s w := by
  refine ⟨fun i => ?_, ?_⟩
  · have hi := h.fields (hu.pairsLawful hP) i
    rewrite [hu.slot] at hi
    exact ⟨_, _, _, hi⟩
  · rewrite [h.limits]
    obtain ⟨call, rate, rfl, -⟩ := hu
    rfl

theorem SameTable.silentBy (h : SameTable s w) (i : SlotId) : w.silentBy i = s.silentBy i := by
  obtain ⟨_, _, _, hi⟩ := h.fields i
  unfold State.silentBy
  rw [hi, h.limits]

theorem SameTable.fails (h : SameTable s w) : w.fails = s.fails := by
  funext i
  obtain ⟨_, _, _, hi⟩ := h.fields i
  unfold State.fails
  rw [h.silentBy, hi]

theorem SameTable.goesLost (h : SameTable s w) : w.goesLost = s.goesLost := by
  funext i
  obtain ⟨_, _, _, hi⟩ := h.fields i
  unfold State.goesLost
  rw [h.silentBy, hi]

theorem SameTable.leaderOf (h : SameTable s w) (i : SlotId) : w.leaderOf i = s.leaderOf i := by
  obtain ⟨_, _, _, hi⟩ := h.fields i
  unfold State.leaderOf
  rw [hi]

theorem SameTable.partner (h : SameTable s w) (i : SlotId) : (w.slot i).partner = (s.slot i).partner := by
  obtain ⟨_, _, _, hi⟩ := h.fields i
  rw [hi]

/-- The audio stages leave the record of a slot that was not live alone. -/
theorem State.checkedSlot_dead (h : (s.slot i).state.live = false) : s.checkedSlot pacing d i = s.slot i := by
  have hne : (s.slot i).state ≠ .active := fun ha => by rewrite [ha] at h; cases h
  have hresync : s.resyncsTo pacing d i = none := by
    unfold State.resyncsTo
    refine Option.filter_eq_none_iff.mpr fun k _ => ?_
    simp only [beq_eq_false_iff_ne.mpr hne, Bool.false_and, Bool.false_eq_true, not_false_eq_true]
  unfold State.checkedSlot State.deliveredSlot State.readSlot
  simp [hresync, hne, h]

theorem AudioStages.dead (h : AudioStages u pacing d captures skews w) (hu : Paced s u) (hP : s.PairsLawful)
    (hi : (s.slot i).state.live = false) : w.slot i = s.slot i := by
  rw [h.slots (hu.pairsLawful hP), State.checkedSlot_dead (by rewrite [hu.slot]; exact hi), hu.slot]

/-! ### Silence (R5, R6) -/

/-- What a record is after the period, by its state before it; rings and counters as the audio stages left them. -/
theorem State.slotPeriod_record (w : State) (i : SlotId) :
    let x := w.slot i
    let y := w.slotPeriod.slot i
    let n := min 255 (x.idle + 1)
    (x.state = .empty ∨ x.state = .lost → y.state = x.state ∧ y.idle = x.idle ∧ y.handle = x.handle ∧
      y.inRing = x.inRing ∧ y.outRing = x.outRing ∧ y.stats = x.stats) ∧
    (x.state = .active → y.idle = n ∧ y.handle = x.handle ∧ y.state = (if 4 ≤ n then .stalled else .active) ∧
      y.inRing = x.inRing ∧ y.outRing = x.outRing ∧ y.stats = x.stats) ∧
    (x.state = .stalled → y.idle = n ∧ y.handle = x.handle ∧
      y.state = (if w.silentBy i then .lost else .stalled) ∧ y.stats = x.stats ∧
      (w.silentBy i = true → y.window = none ∧ y.inRing = .flushed ∧ y.outRing = .flushed) ∧
      (w.silentBy i = false → y.inRing = x.inRing ∧ y.outRing = x.outRing)) ∧
    (x.state = .measuring ∨ x.state = .filling → y.stats = x.stats ∧
      (w.silentBy i = true → y.state = .empty ∧ y.handle = none) ∧
      (w.silentBy i = false → y.state = x.state ∧ y.handle = x.handle ∧ y.idle = n ∧ y.inRing = x.inRing ∧
        y.outRing = x.outRing)) := by
  obtain ⟨role, partner, primary, hy⟩ := w.slotPeriod_fields i
  rewrite [hy]
  dsimp only
  refine ⟨fun h => ?_, fun h => ?_, fun h => ?_, fun h => ?_⟩
  · rewrite [State.idled_dead h]
    exact ⟨rfl, rfl, rfl, rfl, rfl, rfl⟩
  · rewrite [State.idled_active h]
    exact ⟨rfl, rfl, rfl, rfl, rfl, rfl⟩
  · rewrite [State.idled_stalled h]
    cases w.silentBy i with
    | true => exact ⟨rfl, rfl, rfl, rfl, fun _ => ⟨rfl, rfl, rfl⟩, nofun⟩
    | false => exact ⟨rfl, rfl, h, rfl, nofun, fun _ => ⟨rfl, rfl⟩⟩
  · rewrite [State.idled_acquiring (by rcases h with h | h <;> rewrite [h] <;> rfl)]
    cases w.silentBy i with
    | true => exact ⟨rfl, fun _ => ⟨rfl, rfl⟩, nofun⟩
    | false => exact ⟨rfl, nofun, fun _ => ⟨rfl, rfl, rfl, rfl, rfl⟩⟩

/-- Settles O43: the idle counts by state, then the pair rules, then their notices. -/
theorem mixPeriodsTimeSilence : Obligations.MixPeriodsTimeSilence := by
  intro s c pacing d hr hP
  obtain ⟨u, hu, hexec⟩ := hr.paced
  obtain ⟨captures, skews, w, h⟩ := u.audioStages pacing d
  have hw := h.sameTable hu hP
  have hwP : w.PairsLawful := h.pairsLawful (hu.pairsLawful hP)
  have hs : u.notices = s.notices ∧ u.radio = s.radio := by
    obtain ⟨call, rate, rfl, -⟩ := hu
    exact ⟨rfl, rfl⟩
  refine ⟨_, hexec, ?_⟩
  intro n late fails goesLost ends leads follows notice
  have hends : ∀ i, w.ends i = ends i := fun i => by
    unfold State.ends
    rewrite [hw.partner, hw.fails]
    rfl
  have hleads : ∀ i, w.leads i = leads i := fun i => by
    unfold State.leads
    rewrite [hw.leaderOf, hw.goesLost, ← h.state]
    rfl
  have hfollows : ∀ i, w.follows i = follows i := fun i => by
    unfold State.follows
    rewrite [hw.partner, hw.goesLost]
    simp only [hw.leaderOf, ← h.state]
    rfl
  have hfails : w.fails = fails := hw.fails
  have hgoes : w.goesLost = goesLost := hw.goesLost
  have hnotice : ∀ (i : SlotId) (r : SlotReason) (g : Option Handle),
      NoticeBody.slot i (slotNotice (w.slotPeriod.slot i) r g none) = notice i r g := fun i r g => by
    show _ = NoticeBody.slot i (slotNotice ((u.mixPeriod pacing d).slot i) r g none)
    rewrite [h.slot]
    rfl
  refine ⟨?_, fun i => ?_, ?_⟩
  · have hhandle : ∀ i, (w.slot i).handle = (s.slot i).handle := fun i => by
      obtain ⟨_, _, _, hi⟩ := hw.fields i
      rw [hi]
    rewrite [h.period, State.talkerClose_radio, State.slotPeriod_outgoing, h.radio, hs.2, hfails]
    simp only [hhandle]
  · obtain ⟨inRing, outRing, stats, hi⟩ := hw.fields i
    obtain ⟨dead, active, stalled, acquiring⟩ := w.slotPeriod_record i
    have pairing := State.slotPeriod_pairing hwP i
    rewrite [hi] at dead active stalled acquiring
    rewrite [hfails, hends, hleads, hfollows, hi] at pairing
    rewrite [hw.silentBy] at stalled acquiring
    rewrite [h.slot]
    refine ⟨fun hx => ?_, fun hx => ?_, fun hx => ?_, fun hx => ?_, pairing⟩
    · obtain ⟨hstate, hidle, -⟩ := dead hx
      exact ⟨hstate, hidle⟩
    · obtain ⟨hidle, hhandle, hstate, -⟩ := active hx
      exact ⟨hidle, hhandle, hstate⟩
    · obtain ⟨hidle, hhandle, hstate, -, hlost, -⟩ := stalled hx
      exact ⟨hidle, hhandle, hstate, hlost⟩
    · obtain ⟨hstats, hempty, hstay⟩ := acquiring hx
      have hdead := h.dead hu hP (i := i) (by rcases hx with hx | hx <;> rewrite [hx] <;> rfl)
      refine ⟨fun hl => ?_, fun hl => ?_⟩
      · obtain ⟨hstate, hhandle⟩ := hempty hl
        exact ⟨hstate, hhandle, hstats.trans (congrArg Slot.stats (hi.symm.trans hdead))⟩
      · obtain ⟨hstate, hhandle, hidle, -⟩ := hstay hl
        exact ⟨hstate, hhandle, hidle⟩
  · rewrite [h.ofKind, hs.1]
    simp only [reduceCtorEq, if_false, if_true, List.nil_append, List.append_nil]
    rewrite [State.slotBodies_eq hwP]
    congr 2
    · refine congrArg (fun f => SlotId.all.filterMap f) (funext fun i => ?_)
      obtain ⟨inRing, outRing, stats, hi⟩ := hw.fields i
      rewrite [hfails, hgoes]
      simp only [hnotice]
      rewrite [hi]
      dsimp only
      repeat' split
      all_goals rfl
    · refine congrArg (fun f => SlotId.all.filterMap f) (funext fun i => ?_)
      rw [hends, hleads, hnotice, h.slot]

/-! ### The audio (R40, R41, R61, R111) -/

theorem Paced.checkedSlot (h : Paced s u) : u.checkedSlot pacing d i = s.checkedSlot pacing d i := by
  unfold State.checkedSlot State.deliveredSlot State.readSlot
  simp only [h.resyncsTo, h.slot, h.periodPass, h.starves, h.periodOut]

theorem Paced.fillSkew (h : Paced s u) : u.fillSkew pacing d = s.fillSkew pacing d := by
  funext i
  unfold State.fillSkew
  simp only [h.resyncsTo, h.periodOut]

theorem State.resyncsTo_of_ne (h : (s.slot i).state ≠ .active) : s.resyncsTo pacing d i = none := by
  unfold State.resyncsTo
  refine Option.filter_eq_none_iff.mpr fun k _ => ?_
  simp only [beq_eq_false_iff_ne.mpr h, Bool.false_and, Bool.false_eq_true, not_false_eq_true]

/-- The counters of slot `i` after its inbound pass of the period (R111). -/
def State.starvedStats (s : State) (pacing : Pacing) (i : SlotId) : Stats :=
  { (s.slot i).stats with
    inStarve := if s.starves pacing i then min 65535 ((s.slot i).stats.inStarve + (s.periodPass pacing i).short)
      else (s.slot i).stats.inStarve }

/-- The inbound ring of slot `i` after its inbound pass of the period. -/
def State.passedRing (s : State) (pacing : Pacing) (i : SlotId) : InRing :=
  { (s.slot i).inRing with samples := (s.periodPass pacing i).left, phase := (s.periodPass pacing i).phase }

theorem State.checkedSlot_stalled (h : (s.slot i).state = .stalled) : s.checkedSlot pacing d i =
    { s.slot i with inRing := s.passedRing pacing i, stats := s.starvedStats pacing i } := by
  have hne : (s.slot i).state ≠ .active := by rewrite [h]; nofun
  have hlive : (s.slot i).state.live = true := by rewrite [h]; rfl
  unfold State.checkedSlot State.deliveredSlot State.readSlot
  rewrite [State.resyncsTo_of_ne hne]
  dsimp only
  rewrite [if_neg hne, if_pos hlive]
  rfl

theorem State.checkedSlot_active (h : (s.slot i).state = .active) : s.checkedSlot pacing d i =
    { s.slot i with
      inRing := s.passedRing pacing i
      outRing := match s.resyncsTo pacing d i with
        | none => s.periodOut pacing d i
        | some k => (s.periodOut pacing d i).resync (s.periodOut pacing d k)
      stats := { s.starvedStats pacing i with
        outOverrun := min 65535 ((s.slot i).stats.outOverrun + ((s.slot i).outRing.samples.length - 944))
        resync := if (s.resyncsTo pacing d i).isSome then min 65535 ((s.slot i).stats.resync + 1)
          else (s.slot i).stats.resync } } := by
  have hlive : (s.slot i).state.live = true := by rewrite [h]; rfl
  unfold State.checkedSlot State.deliveredSlot State.readSlot
  dsimp only
  rewrite [if_pos h, if_pos hlive]
  cases s.resyncsTo pacing d i <;> rfl

/-- Settles O41: each stage's record and notices, carried through the slot table's part. -/
theorem mixPeriodsFormTheAudio : Obligations.MixPeriodsFormTheAudio := by
  intro s c pacing d hr hP
  obtain ⟨u, hu, hexec⟩ := hr.paced
  obtain ⟨captures, skews, w, h⟩ := u.audioStages pacing d
  have hslot : ∀ i, w.slot i = s.checkedSlot pacing d i := fun i => by
    rw [h.slots (hu.pairsLawful hP), hu.checkedSlot]
  have hs : u.notices = s.notices ∧ u.capture = s.capture ∧ u.periodNumber = s.periodNumber ∧
      u.call.playHalf = s.call.playHalf := by
    obtain ⟨call, rate, rfl, hplay, -⟩ := hu
    exact ⟨rfl, rfl, rfl, hplay⟩
  obtain ⟨hnotices, hcap, hnumber, hhalf⟩ := hs
  refine ⟨_, hexec, ?_, fun i => ?_, ?_, ?_⟩
  · have hplay : u.playAfter pacing d = s.playAfter pacing d := by
      unfold State.playAfter
      rw [hu.periodRow, hu.periodInputs, hhalf]
    rewrite [h.period, State.talkerClose_call, State.slotPeriod_call, h.play]
    exact hplay
  · obtain ⟨dead, active, stalled, acquiring⟩ := w.slotPeriod_record i
    rewrite [h.slot]
    refine ⟨fun hx => ?_, fun hx => ?_, fun hx => ?_⟩
    · rewrite [h.dead hu hP hx] at dead acquiring
      have hcases : ((s.slot i).state = .empty ∨ (s.slot i).state = .lost) ∨
          ((s.slot i).state = .measuring ∨ (s.slot i).state = .filling) := by
        cases hst : (s.slot i).state <;> simp [hst, SlotState.live] at hx ⊢
      rcases hcases with hc | hc
      · obtain ⟨-, -, -, hin, hout, hstats⟩ := dead hc
        exact ⟨hstats, fun _ => ⟨hin, hout⟩⟩
      · obtain ⟨hstats, hempty, hstay⟩ := acquiring hc
        refine ⟨hstats, fun hsame => ?_⟩
        cases hl : w.silentBy i with
        | true =>
          have := (hempty hl).1.symm.trans hsame
          rcases hc with hc | hc <;> rewrite [hc] at this <;> cases this
        | false =>
          obtain ⟨-, -, -, hin, hout⟩ := hstay hl
          exact ⟨hin, hout⟩
    · rewrite [hslot, State.checkedSlot_stalled hx] at stalled
      obtain ⟨-, -, hstate, hstats, -, hstay⟩ := stalled hx
      refine ⟨hstats, fun hsame => ?_⟩
      cases hl : w.silentBy i with
      | true =>
        rewrite [hl] at hstate
        cases hstate.symm.trans hsame
      | false => exact hstay hl
    · rewrite [hslot, State.checkedSlot_active hx] at active
      obtain ⟨-, -, -, hin, hout, hstats⟩ := active hx
      refine ⟨hin, hout.trans ?_, hstats⟩
      dsimp only
      cases s.resyncsTo pacing d i <;> rfl
  · rewrite [h.ofKind, hnotices]
    simp only [reduceCtorEq, if_false, if_true, List.nil_append, List.append_nil]
    rewrite [h.skewed (hu.pairsLawful hP), hu.fillSkew]
    rfl
  · have hcapture : (u.mixPeriod pacing d).capture = w.capture := by
      rw [h.period, State.talkerClose_capture, State.slotPeriod_capture]
    have hqueue : (u.mixPeriod pacing d).notices.ofKind .capture =
        raisedInto (s.notices.ofKind .capture) captures := by
      rewrite [h.ofKind, hnotices]
      simp only [reduceCtorEq, if_false, if_true, List.append_nil]
    have quiet := h.quiet
    have full := h.full
    have fills := h.fills
    rewrite [hu.starves] at quiet full fills
    simp only [hcap, hu.slot, hnumber] at quiet full fills
    rewrite [hcapture, hqueue]
    refine ⟨fun hst => ?_, fun a hst ha => ?_, fun i rest hst hn => ?_⟩
    · obtain ⟨hc, rfl⟩ := quiet hst
      exact ⟨hc, rfl⟩
    · obtain ⟨hc, rfl⟩ := full a hst ha
      exact ⟨hc, rfl⟩
    · obtain ⟨hc, rfl⟩ := fills i rest hst hn
      exact ⟨hc, rfl⟩

/-! ### The talkers (R136 to R146) -/

theorem State.slotPeriod_level (s : State) (i : SlotId) :
    (s.slotPeriod.slot i).talker.level = if s.fails i then 0 else (s.slot i).talker.level := by
  obtain ⟨role, partner, primary, h⟩ := s.slotPeriod_fields i
  rewrite [h]
  cases hf : s.fails i with
  | true => rewrite [State.idled_fails hf]; rfl
  | false =>
    obtain ⟨-, -, htalker, -⟩ := State.idled_stays hf
    rewrite [htalker]
    rfl

theorem State.slotPeriod_watch (s : State) (i : SlotId) :
    (s.slotPeriod.slot i).watch =
      if s.fails i then { (s.slot i).watch with run := 0 } else (s.slot i).watch := by
  obtain ⟨role, partner, primary, h⟩ := s.slotPeriod_fields i
  rewrite [h]
  cases hf : s.fails i with
  | true => rewrite [State.idled_fails hf]; rfl
  | false => exact (State.idled_stays hf).2.2.2.1

/-- A slot fails exactly where it leaves its state for EMPTY. -/
theorem State.fails_iff (s : State) (i : SlotId) :
    s.fails i = true ↔ (s.slot i).state ≠ .empty ∧ (s.slotPeriod.slot i).state = .empty := by
  rewrite [State.slotPeriod_state]
  constructor
  · intro hf
    refine ⟨fun he => ?_, by rewrite [State.idled_fails hf]; rfl⟩
    unfold State.fails at hf
    rewrite [he] at hf
    cases hf
  · rintro ⟨hne, he⟩
    by_contra hf
    exact hne ((State.idled_stays (Bool.eq_false_iff.mpr hf)).2.2.2.2.mp he)

/-- A record with S moved differs in its level alone. -/
theorem State.heard_get (s : State) (states : PerSlot SlotState) (e : PerSlot (List Sample)) (i : SlotId) :
    (s.heard states e).get i = { s.slot i with
      talker := { (s.slot i).talker with
        level := if (states.get i).live then smoothLevel (s.slot i).talker.level (peakLevel (e.get i))
          else (s.slot i).talker.level } } := by
  rewrite [State.heard, PerSlot.get_tabulate]
  split <;> rfl

/-- What the close of a period reads: `v`, as the slot table's part leaves it, and the slot states of `s`, which the period
was raised in (R6, R31, R136, R145). -/
structure ClosesOver (s v : State) (states : PerSlot SlotState) : Prop where
  pairs : v.PairsLawful
  talk : v.talk = s.talk
  period : v.mix.period = s.periodNumber
  states : ∀ i, states.get i = (s.slot i).state
  watch : ∀ i, (v.slot i).watch = if s.fails i then { (s.slot i).watch with run := 0 } else (s.slot i).watch
  level : ∀ i, (v.slot i).talker.level = if s.fails i then 0 else (s.slot i).talker.level
  primary : ∀ {i k}, (v.slot i).partner = some k → (v.slot i).talker.primary = (s.slot i).talker.primary
  fails : ∀ i, s.fails i = true ↔ (s.slot i).state ≠ .empty ∧ (v.slot i).state = .empty

theorem AudioStages.closesOver (h : AudioStages u pacing d captures skews w) (hu : Paced s u) (hP : s.PairsLawful) :
    ClosesOver s w.slotPeriod u.slotStates := by
  have same := h.sameTable hu hP
  have hwP : w.PairsLawful := h.pairsLawful (hu.pairsLawful hP)
  have hs : u.talk = s.talk ∧ u.periodNumber = s.periodNumber := by
    obtain ⟨call, rate, rfl, -⟩ := hu
    exact ⟨rfl, rfl⟩
  refine ⟨State.PairsLawful.changeSlots (hwP.of_slots (State.releaseSilent_slots _)) _ (Slot.idlePeriod_pairing _),
    ?_, ?_, fun i => ?_, fun i => ?_, fun i => ?_, fun {i k} hk => ?_, fun i => ?_⟩
  · rw [State.slotPeriod_talk, h.talk, hs.1]
  · rw [State.slotPeriod_mix_period, h.mixPeriod, hs.2]
  · rw [State.slotStates_get, hu.slot]
  all_goals obtain ⟨_, _, _, hi⟩ := same.fields i
  · rw [State.slotPeriod_watch, same.fails, hi]
  · rw [State.slotPeriod_level, same.fails, hi]
  · rw [(State.slotPeriod_partner hwP hk).2, hi]
  · have left := State.fails_iff w i
    rewrite [same.fails, hi] at left
    exact left

section
variable {v : State} {states : PerSlot SlotState} {e : PerSlot (List Sample)}

theorem State.heard_partner (v : State) (i : SlotId) : ((v.heard states e).get i).partner = (v.slot i).partner := by
  rw [State.heard_get]

theorem State.heard_primary (v : State) (i : SlotId) :
    ((v.heard states e).get i).talker.primary = (v.slot i).talker.primary := by
  rw [State.heard_get]

theorem State.heard_watch (v : State) (i : SlotId) : ((v.heard states e).get i).watch = (v.slot i).watch := by
  rw [State.heard_get]

/-- S of a slot that was live moves an eighth of the way toward the peak of its samples (R139). -/
theorem ClosesOver.level_live (h : ClosesOver s v states) (hx : (s.slot i).state.live = true) :
    (((v.heard states e).get i).talker.level : Int) =
      (s.slot i).talker.level + Int.tdiv ((peakLevel (e.get i) : Int) - (s.slot i).talker.level) 8 := by
  rewrite [State.heard_get, if_pos ((congrArg SlotState.live (h.states i)).trans hx), h.level, State.fails_of_live hx]
  exact smoothLevel_eq _ _

/-- S of any other slot is kept, but for one that the period empties (R6, R139). -/
theorem ClosesOver.level_dead (h : ClosesOver s v states) (hx : (s.slot i).state.live = false) :
    ((v.heard states e).get i).talker.level =
      if (s.slot i).state ≠ .empty ∧ ((v.heard states e).get i).state = .empty then 0 else (s.slot i).talker.level := by
  rewrite [State.heard_get, h.states, hx, h.level]
  exact if_congr (h.fails i) rfl rfl

/-- The flag of a paired slot follows from the two moves, and a slot without a partner has none (R141, R142). -/
theorem ClosesOver.primaryAfter (h : ClosesOver s v states) (p : TalkParams) (i : SlotId) :
    primaryAfter (v.heard states e) states p i =
      match (v.slot i).partner with
      | some k => (receivesPrimary (v.heard states e) states p i).isSome ||
          ((s.slot i).talker.primary && !(receivesPrimary (v.heard states e) states p k).isSome)
      | none => false := by
  unfold Machine.primaryAfter
  rewrite [State.heard_partner, State.heard_primary]
  cases hk : (v.slot i).partner with
  | none =>
    have unmoved : receivesPrimary (v.heard states e) states p i = none := by
      unfold receivesPrimary
      rw [State.heard_partner, hk]
    rewrite [unmoved]
    exact (h.pairs.solo hk).2
  | some k =>
    rewrite [h.primary hk]
    dsimp only
    cases (receivesPrimary (v.heard states e) states p i).isSome <;>
      cases (receivesPrimary (v.heard states e) states p k).isSome <;> cases (s.slot i).talker.primary <;> rfl

/-- The watch after the close: only a slot that was ACTIVE counts on (R145). -/
theorem ClosesOver.closed_watch (h : ClosesOver s v states) (i : SlotId) :
    (v.closedSlot states (v.heard states e) i).watch =
      { (s.slot i).watch with
        run := if decide ((s.slot i).state = .active) &&
            watchHolds (s.slot i).watch ((v.heard states e).get i).talker.level then
          min 255 ((s.slot i).watch.run + 1) else 0 } := by
  unfold State.closedSlot runAfter
  dsimp only
  rewrite [State.heard_watch, h.watch, h.states]
  by_cases ha : (s.slot i).state = .active
  · rewrite [State.fails_of_live (i := i) (by rw [ha]; rfl), ha]
    simp only [Bool.false_eq_true, if_false, true_and, decide_true, Bool.true_and]
    rfl
  · rewrite [decide_eq_false ha]
    cases s.fails i <;>
      exact congrArg (LevelWatch.mk (s.slot i).watch.condition _ _) (if_neg fun hrun => ha hrun.1)

/-- Why slot `i` receives the primary flag of its pair in a period from `s` to `t`, if it does (R141, R142). -/
def State.flagMoves (s t : State) (i : SlotId) : Option TalkCause :=
  match (t.slot i).partner with
  | some k =>
    if (s.slot k).talker.primary = true ∧ (s.slot i).state = .active then
      if (s.slot k).state ≠ .active then some .inactive
      else if (t.slot k).talker.level + s.talk.hysteresis < (t.slot i).talker.level ∧
          s.talk.gate ≤ (t.slot i).talker.level then some .level
      else none
    else none
  | none => none

/-- The TALK notice of slot `i` in a period from `s` to `t` (R143). -/
def State.talkNotice (s t : State) (i : SlotId) : Option NoticeBody :=
  match (t.slot i).partner, s.flagMoves t i with
  | some k, some cause =>
    some (.talk i { cause := cause, partner := k, level := (t.slot i).talker.level,
                    partnerLevel := (t.slot k).talker.level, partnerState := (s.slot k).state,
                    mixPeriod := s.periodNumber })
  | _, _ => none

theorem ClosesOver.flagMoves (h : ClosesOver s v states)
    (ht : ∀ i, t.slot i = v.closedSlot states (v.heard states e) i) (i : SlotId) :
    s.flagMoves t i = receivesPrimary (v.heard states e) states v.talk i := by
  unfold State.flagMoves receivesPrimary
  rewrite [ht]
  show (match ((v.heard states e).get i).partner with | some k => _ | none => _) = _
  rewrite [State.heard_partner]
  cases hk : (v.slot i).partner with
  | none => rfl
  | some k =>
    obtain ⟨-, mutual_partner, -⟩ := h.pairs.pair hk
    dsimp only
    rewrite [State.heard_primary, h.primary mutual_partner, h.states, h.states, ht, h.talk]
    rfl

theorem ClosesOver.closeTalk (h : ClosesOver s v states)
    (ht : ∀ i, t.slot i = v.closedSlot states (v.heard states e) i) (i : SlotId) :
    v.closeTalk states (v.heard states e) i = s.talkNotice t i := by
  unfold State.closeTalk State.talkNotice
  have partner : (t.slot i).partner = ((v.heard states e).get i).partner := by
    rw [ht]
    rfl
  rewrite [← h.flagMoves ht, partner, h.period]
  cases ((v.heard states e).get i).partner with
  | none => rfl
  | some k =>
    cases s.flagMoves t i with
    | none => rfl
    | some cause =>
      dsimp only
      rewrite [h.states, ht, ht]
      rfl

/-- The LEVEL notice of slot `i` (R146). -/
theorem ClosesOver.closeLevel (h : ClosesOver s v states) (i : SlotId) :
    v.closeLevel states (v.heard states e) i =
      let x := s.slot i
      let level := ((v.heard states e).get i).talker.level
      if (decide (x.state = .active) && watchHolds x.watch level) && x.watch.run + 1 == x.watch.count then
        some (.level i { condition := x.watch.condition, threshold := x.watch.threshold, count := x.watch.count,
                         level := level, mixPeriod := s.periodNumber })
      else none := by
  unfold State.closeLevel levelReached
  dsimp only
  rewrite [State.heard_watch, h.watch, h.states, h.period]
  by_cases ha : (s.slot i).state = .active
  · rewrite [State.fails_of_live (i := i) (by rw [ha]; rfl)]
    rfl
  · rewrite [decide_eq_false ha]
    rfl

end

/-- The record of each slot after the close of a period (R140 to R142, R145). -/
theorem AudioStages.closed (h : AudioStages u pacing d captures skews w) (i : SlotId) :
    (u.mixPeriod pacing d).slot i = w.slotPeriod.closedSlot u.slotStates
      (w.slotPeriod.heard u.slotStates (u.periodInputs pacing d).e) i := by
  rewrite [h.period, State.talkerClose_eq, State.slot]
  exact PerSlot.get_tabulate _ _

theorem State.periodInputs_live (hx : (s.slot i).state.live = true) :
    (s.periodInputs pacing d).e.get i = (s.periodPass pacing i).outputs := by
  simp [State.periodInputs, hx]

/-- Settles O45: S, flag, weight and run of each slot, and the notices of the moves. -/
theorem mixPeriodsCloseTheTalkers : Obligations.MixPeriodsCloseTheTalkers := by
  intro s c pacing d hr hP
  obtain ⟨u, hu, hexec⟩ := hr.paced
  obtain ⟨captures, skews, w, h⟩ := u.audioStages pacing d
  have closes := h.closesOver hu hP
  have records := h.closed
  have hnotices : u.notices = s.notices := by
    obtain ⟨call, rate, rfl, -⟩ := hu
    rfl
  refine ⟨_, hexec, fun i => ⟨⟨fun hx => ?_, fun hx => ?_⟩, ?_, ?_, ?_⟩, ?_, ?_⟩
  · rewrite [records]
    refine (closes.level_live hx).trans ?_
    rewrite [hu.periodInputs, State.periodInputs_live hx]
    rfl
  · rewrite [records]
    exact closes.level_dead hx
  · show _ = match ((u.mixPeriod pacing d).slot i).partner with
      | some k => (s.flagMoves (u.mixPeriod pacing d) i).isSome ||
          ((s.slot i).talker.primary && !(s.flagMoves (u.mixPeriod pacing d) k).isSome)
      | none => false
    simp only [closes.flagMoves records]
    rewrite [records]
    refine (closes.primaryAfter _ i).trans ?_
    show _ = match ((w.slotPeriod.heard u.slotStates (u.periodInputs pacing d).e).get i).partner with
      | some k => _
      | none => _
    rw [State.heard_partner]
  · rewrite [records, ← closes.talk]
    rfl
  · beta_reduce
    rewrite [records]
    exact closes.closed_watch i
  · rewrite [h.ofKind, hnotices]
    simp only [reduceCtorEq, if_false, if_true, List.nil_append, List.append_nil]
    exact congrArg (fun f => raisedInto (s.notices.ofKind .talk) (SlotId.all.filterMap f))
      (funext (closes.closeTalk records))
  · rewrite [h.ofKind, hnotices]
    simp only [reduceCtorEq, if_false, if_true, List.nil_append, List.append_nil]
    refine congrArg (fun f => raisedInto (s.notices.ofKind .level) (SlotId.all.filterMap f))
      (funext fun i => (closes.closeLevel i).trans ?_)
    beta_reduce
    rewrite [records]
    rfl

end Sys2Proof.Machine
end

section
/-!
SUPPORT. The call port: a strobe by the call port's state, the close of the call window, the strobe timeout (R70 to R77,
R87, R90).
-/
namespace Sys2Proof.Machine

variable {s : State} {tick : Nat} {d : Sample} {w : CallWindow}

/-- A strobe of a call under way is exchanged, handed to the window, and may end a period (R71). -/
theorem State.takeStrobe_present (h : s.call.state ≠ .absent) (tick : Nat) (d : Sample) :
    s.takeStrobe tick d = ((s.exchange tick d).windowStrobe tick).endPeriod tick := by
  unfold State.takeStrobe
  split
  · next ha => exact absurd ha h
  · rfl
  · rfl

/-- A strobe below the 80th raises no period (R71). -/
theorem State.endPeriod_early (h : s.call.strobeCount < 80) (tick : Nat) : s.endPeriod tick = s := by
  unfold State.endPeriod
  exact if_neg (by dsimp only [Config.blockSamples]; omega)

theorem State.windowStrobe_inside (hw : s.rate.window = some w) (hc : w.counted < 5119) (tick : Nat) :
    s.windowStrobe tick = { s with rate := { s.rate with window := some { w with counted := w.counted + 1 } } } := by
  unfold State.windowStrobe
  rewrite [hw]
  exact if_neg (by dsimp only [Config.callWindowStrobes]; omega)

theorem State.windowStrobe_closing (hw : s.rate.window = some w) (hc : w.counted = 5119) (tick : Nat) :
    s.windowStrobe tick = s.completeCallWindow w tick := by
  unfold State.windowStrobe
  rewrite [hw]
  exact if_pos (by dsimp only [Config.callWindowStrobes]; omega)

/-- Settles O38: a strobe by the state of the call port, and the strobe timeout. -/
theorem strobesStartAndFeedTheCall : Obligations.StrobesStartAndFeedTheCall := by
  refine ⟨fun tick d s => ⟨fun ha => ?_, fun w ha hn hw hc => ?_⟩, fun s => ⟨fun due hd => ?_, fun hd => ?_⟩⟩
  · refine congrArg Host.Outcome.next ?_
    have htake : s.takeStrobe tick d = ((s.startCall tick).exchange tick d).endPeriod tick := by
      unfold State.takeStrobe
      rw [ha]
    rewrite [htake, State.endPeriod_early (by show 0 + 1 < 80; omega)]
    rfl
  · refine congrArg Host.Outcome.next ?_
    rewrite [State.takeStrobe_present ha, State.windowStrobe_inside (s := s.exchange tick d) hw hc,
      State.endPeriod_early (by show s.call.strobeCount + 1 < 80; omega)]
    rfl
  · have hdue : some (firstLocalDue s.call.lastMixTick due) =
        match s.call.lastMixTick with
        | some last => some (max (last + 122880) due)
        | none => some (due + 122880) := by
      cases s.call.lastMixTick <;> rfl
    simp only [exec_strobeTimeout_eq, execStrobeTimeout, hd]
    unfold State.endCall
    rewrite [hdue]
    rfl
  · simp only [exec_strobeTimeout_eq, execStrobeTimeout, hd]

/-- The measured value of a window that spans ticks (R87, R88). -/
theorem callMeasured_eq {start tick : Nat} (h : start < tick) :
    callMeasured start tick = roundHalfAway ((7864320 - ((tick - start : Nat) : Int)) * 8000000) (tick - start) := by
  unfold callMeasured
  rewrite [if_pos h]
  rfl

theorem reportedValue_eq (m : Int) : reportedValue m = max (-32767) (min 32767 m) := clampInt_eq (by omega)

/-- The call port after a window with measured value `m`, by whether `m` is within the limit (R74). -/
theorem State.callResult_within {m : Int} (h : m.natAbs ≤ s.limits.callLimit) : s.callResult m =
    if s.call.state = .locking then
      ({ s with call := { s.call with state := .running, rateFailures := 0 } } : State).raiseCall .locked
        (some (reportedValue m))
    else { s with call := { s.call with state := .running, rateFailures := 0 } } := by
  unfold State.callResult withinLimit
  rw [if_pos (decide_eq_true h)]

theorem State.callResult_outside {m : Int} (h : s.limits.callLimit < m.natAbs) : s.callResult m =
    ({ s with call := { s.call with rateFailures := satSucc8 s.call.rateFailures } } : State).raiseCall .rate
      (some (reportedValue m)) := by
  unfold State.callResult withinLimit
  rw [if_neg (by simpa using h)]

/-- Settles O39: the closing strobe's window, by where its measured value lies. -/
theorem strobeClosesCallWindow : Obligations.StrobeClosesCallWindow := by
  intro tick d s w ha hn hw hc htick hlo hhi n m limit c estimate after notice failures
  let u := s.exchange tick d
  have hm : callMeasured w.startTick tick = m := callMeasured_eq htick
  have hclamp : clampedValue m s.limits.callLimit = c := clampedValue_eq m hhi
  let v : State := { u with rate := { estimate := estimate, window := some { startTick := tick, counted := 0 } } }
  have hestimate : (if u.call.state = .running then quarterStep u.rate.estimate (clampedValue m u.limits.callLimit)
      else clampedValue m u.limits.callLimit) = estimate := by
    show (if s.call.state = .running then quarterStep s.rate.estimate (clampedValue m s.limits.callLimit)
      else clampedValue m s.limits.callLimit) = _
    rewrite [hclamp]
    rfl
  have hwindow : u.windowStrobe tick = v.callResult m := by
    rewrite [State.windowStrobe_closing (s := u) hw hc]
    unfold State.completeCallWindow
    dsimp only
    rw [hm, hestimate]
  have hrun : ∀ t : State, v.callResult m = t → t.call.strobeCount = s.call.strobeCount + 1 →
      exec (.strobe tick d) s = .next t := by
    intro t ht hcount
    show Host.Outcome.next (s.takeStrobe tick d) = _
    rw [State.takeStrobe_present ha, hwindow, ht, State.endPeriod_early (by omega)]
  refine ⟨fun hin hstate => ?_, fun hin hstate => ?_, fun hout => ?_⟩
  · refine hrun _ ?_ rfl
    rewrite [State.callResult_within (s := v) hin, if_pos (show v.call.state = .locking from hstate), reportedValue_eq]
    rfl
  · refine hrun _ ?_ rfl
    rewrite [State.callResult_within (s := v) hin, if_neg (show v.call.state ≠ .locking from fun h => by cases hstate.symm.trans h)]
    rfl
  · refine hrun _ ?_ rfl
    rewrite [State.callResult_outside (s := v) hout, reportedValue_eq]
    rfl

end Sys2Proof.Machine
end

section
/-!
SUPPORT. The requests that set gains and the prompt: GAIN.SET, PROMPT.LOAD, PROMPT.PLAY, PROMPT.MORE and PROMPT.STOP (R119,
R152, R153, R156 to R158).
-/
namespace Sys2Proof.Machine

variable {s : State}

/-! ### Gain entries (R119) -/

theorem Output.index_lt (o : Output) : o.index < 5 := by
  rcases o with - | i
  · decide
  · cases i <;> decide

theorem Input.index_lt (j : Input) : j.index < 6 := by
  cases j with
  | e i => cases i <;> decide
  | _ => decide

theorem Output.exists_index {n : Nat} (h : n < 5) : ∃ o : Output, n = o.index := by
  interval_cases n
  · exact ⟨.u, rfl⟩
  · exact ⟨.o .s0, rfl⟩
  · exact ⟨.o .s1, rfl⟩
  · exact ⟨.o .s2, rfl⟩
  · exact ⟨.o .s3, rfl⟩

theorem Input.exists_index {n : Nat} (h : n < 6) : ∃ j : Input, n = j.index := by
  interval_cases n
  · exact ⟨.d, rfl⟩
  · exact ⟨.e .s0, rfl⟩
  · exact ⟨.e .s1, rfl⟩
  · exact ⟨.e .s2, rfl⟩
  · exact ⟨.e .s3, rfl⟩
  · exact ⟨.p, rfl⟩

/-- Whether an entry names a path. -/
def entryNames (e : GainEntry) (o : Output) (j : Input) : Bool :=
  e.output.toNat == o.index && e.input.toNat == j.index

theorem entryNames_iff {e : GainEntry} {o : Output} {j : Input} :
    entryNames e o j = true ↔ outputOfByte e.output = some o ∧ inputOfByte e.input = some j := by
  simp [entryNames, outputOfByte_some, inputOfByte_some]

theorem entryPath_eq_some {e : GainEntry} {o : Output} {j : Input} {g : Nat} :
    entryPath e = some (o, j, g) ↔ entryNames e o j = true ∧ g = min 8191 e.gain.toNat := by
  rewrite [entryNames_iff]
  unfold entryPath
  constructor
  · intro h
    split at h
    · next ho hj =>
      cases h
      exact ⟨⟨ho, hj⟩, rfl⟩
    · cases h
  · rintro ⟨⟨ho, hj⟩, rfl⟩
    rewrite [ho, hj]
    rfl

/-- An entry out of range names no path (R119). -/
theorem entryPath_none {e : GainEntry} (h : 5 ≤ e.output.toNat ∨ 6 ≤ e.input.toNat) : entryPath e = none := by
  cases hp : entryPath e with
  | none => rfl
  | some p =>
    obtain ⟨o, j, g⟩ := p
    have hnames := (entryPath_eq_some.mp hp).1
    have ho := o.index_lt
    have hj := j.index_lt
    simp only [entryNames, Bool.and_eq_true, beq_iff_eq] at hnames
    omega

theorem entryPath_some {e : GainEntry} (h : e.output.toNat < 5 ∧ e.input.toNat < 6) : ∃ o j,
    entryPath e = some (o, j, min 8191 e.gain.toNat) := by
  obtain ⟨o, ho⟩ := Output.exists_index h.1
  obtain ⟨j, hj⟩ := Input.exists_index h.2
  exact ⟨o, j, entryPath_eq_some.mpr ⟨by simp [entryNames, ho, hj], rfl⟩⟩

/-- One entry out of range refuses them all. -/
theorem entryPaths_none : ∀ {entries : List GainEntry} {e : GainEntry}, e ∈ entries → entryPath e = none →
    entryPaths entries = none
  | q :: rest, e, he, hn => by
    rewrite [entryPaths]
    rcases List.mem_cons.mp he with rfl | he
    · rw [hn]
    · rewrite [entryPaths_none he hn]
      split
      · next h => cases h
      · rfl

/-- The gains after entries in range: each path takes the last entry that names it. -/
theorem entryPaths_write : ∀ {entries : List GainEntry} (m : GainMatrix),
    (∀ e ∈ entries, e.output.toNat < 5 ∧ e.input.toNat < 6) →
    ∃ paths, entryPaths entries = some paths ∧ ∀ o j, (writeGains m paths).get o j =
      ((entries.reverse.find? fun e => entryNames e o j).map fun e => min 8191 e.gain.toNat).getD (m.get o j)
  | [], m, _ => ⟨[], rfl, fun _ _ => rfl⟩
  | e :: rest, m, h => by
    obtain ⟨o', j', he⟩ := entryPath_some (h e List.mem_cons_self)
    obtain ⟨paths, hp, hget⟩ := entryPaths_write (m.set o' j' (min 8191 e.gain.toNat)) fun q hq =>
      h q (List.mem_cons_of_mem _ hq)
    refine ⟨(o', j', min 8191 e.gain.toNat) :: paths, by rw [entryPaths, he, hp], fun o j => ?_⟩
    rewrite [writeGains, hget, List.reverse_cons, List.find?_append]
    cases rest.reverse.find? fun e => entryNames e o j with
    | some q => rfl
    | none =>
      obtain ⟨ho', hj'⟩ := entryNames_iff.mp (entryPath_eq_some.mp he).1
      rewrite [GainMatrix.get_set]
      cases hn : entryNames e o j with
      | true =>
        obtain ⟨ho, hj⟩ := entryNames_iff.mp hn
        have hoo : o = o' := by simpa [ho'] using ho.symm
        have hjj : j = j' := by simpa [hj'] using hj.symm
        subst hoo hjj
        simp [hn]
      | false =>
        have hne : ¬(o = o' ∧ j = j') := by
          rintro ⟨rfl, rfl⟩
          rewrite [(entryPath_eq_some.mp he).1] at hn
          cases hn
        simp [hn, hne]

/-- Settles O19: one entry out of range refuses all, else the last entry for a path stands. -/
theorem gainSetAnswers : Obligations.GainSetAnswers := by
  intro tag entries s hs hlo hhi
  have hcount : gainCountOk entries = true := by simp [gainCountOk, hlo, hhi]
  refine ⟨fun ⟨e, he, hout⟩ => ?_, fun hin => ?_⟩
  · refine congrArg Host.Outcome.next (State.request_error hs ?_)
    rw [performGainSet, if_pos hcount, entryPaths_none he (entryPath_none hout)]
  · obtain ⟨paths, hp, hget⟩ := entryPaths_write s.mix.targets hin
    refine ⟨writeGains s.mix.targets paths, congrArg Host.Outcome.next (State.request_answeredDone hs ?_), fun o j => ?_⟩
    · rewrite [performGainSet, if_pos hcount, hp]
      rfl
    · rewrite [hget]
      show ((entries.reverse.find? fun e => entryNames e o j).map _).getD _ =
        match entries.reverse.find? fun e => entryNames e o j with
        | some e => min 8191 e.gain.toNat
        | none => s.mix.targets.get o j
      cases entries.reverse.find? fun e => entryNames e o j <;> rfl

/-! ### PROMPT.LOAD (R152) -/

/-- Two spans share an address exactly where the larger start lies below the smaller end. -/
theorem overlaps_iff {p : Play} {offset n : Nat} : overlaps p offset n = true ↔
    ∃ a, p.start ≤ a ∧ a < p.start + p.length ∧ offset ≤ a ∧ a < offset + n := by
  unfold overlaps
  rewrite [decide_eq_true_iff]
  constructor
  · intro h
    obtain ⟨hregion, hspan⟩ := lt_min_iff.mp h
    exact ⟨max p.start offset, le_max_left .., hregion, le_max_right .., hspan⟩
  · rintro ⟨a, hs, he, ho, hn⟩
    exact lt_min ((max_le hs ho).trans_lt he) ((max_le hs ho).trans_lt hn)

theorem Player.holds_iff {p : Player} {offset n : Nat} :
    p.holds offset n = true ↔ ∃ q, p.play? = some q ∧ overlaps q offset n = true := by
  unfold Player.holds
  cases p.play? <;> simp

theorem length_clipSpan (offset : Nat) (samples : List Sample) :
    (clipSpan offset samples).length = min samples.length (16384 - offset) := by
  rw [clipSpan, List.length_take, Nat.min_comm]

theorem clipSpan_getD {offset a : Nat} {samples : List Sample} (h : a < min samples.length (16384 - offset)) :
    (clipSpan offset samples).getD a 0 = samples.getD a 0 := by
  have hlen : a < (clipSpan offset samples).length := by rewrite [length_clipSpan]; exact h
  rewrite [List.getD_eq_getElem _ _ hlen, List.getD_eq_getElem _ _ (by omega)]
  exact List.getElem_take

/-- Settles O21: the checks in their order, and the read after the clipped span is written. -/
theorem promptLoadAnswers : Obligations.PromptLoadAnswers := by
  intro tag offset samples s hs hlo hhi hwf n shares
  have hcount : loadCountOk samples = true := by simp [loadCountOk, hlo, hhi]
  have hlen : (clipSpan offset.toNat samples).length = n := length_clipSpan _ _
  have hholds : s.prompt.player.holds offset.toNat n = true ↔
      ∃ p, s.prompt.player.play? = some p ∧ shares p := by
    rewrite [Player.holds_iff]
    simp only [overlaps_iff]
    rfl
  have hperform : offset.toNat < 16384 → performPromptLoad offset samples s.hunt =
      if s.prompt.player.holds offset.toNat n then .error .busy
      else .ok (({ s with prompt := { s.prompt with
          memory := writeSpan s.prompt.memory offset.toNat (clipSpan offset.toNat samples) } } : State).hunt,
        .promptLoad offset.toNat n) := by
    intro ho
    have ho' : ¬Config.promptSamples ≤ offset.toNat := by dsimp only [Config.promptSamples]; omega
    rewrite [performPromptLoad, if_pos hcount, if_neg ho']
    dsimp only
    rewrite [hlen]
    rfl
  refine ⟨fun ho => ?_, fun ho hp => ?_, fun ho hp => ?_⟩
  · refine congrArg Host.Outcome.next (State.request_error hs ?_)
    rw [performPromptLoad, if_pos hcount, if_pos ho]
  · refine congrArg Host.Outcome.next (State.request_error hs ?_)
    rw [hperform ho, if_pos (hholds.mpr hp)]
  · refine ⟨writeSpan s.prompt.memory offset.toNat (clipSpan offset.toNat samples),
      congrArg Host.Outcome.next (State.request_answeredDone hs ?_), fun a => ?_⟩
    · rw [hperform ho, if_neg fun h => by obtain ⟨p, hplay, hsh⟩ := hholds.mp h; exact hp p hplay hsh]
    · have hfits : offset.toNat + (clipSpan offset.toNat samples).length ≤ Config.promptSamples := clipSpan_fits ho samples
      rewrite [readPrompt_writeSpan _ _ hwf hfits, hlen]
      split
      · next h => exact clipSpan_getD (by omega)
      · rfl

/-! ### Plays (R153, R156, R157) -/

/-- Settles O22: each request by the state of the player. -/
theorem promptPlayRequestsAnswer : Obligations.PromptPlayRequestsAnswer := by
  refine ⟨fun tag start length r gap s hs => ⟨fun h => ?_, fun hl hst hp => ?_, fun hl hst hp => ?_⟩,
    fun tag n s hs => ⟨fun hn => ?_, fun hn hp => ?_, fun hp => ?_, fun p => ?_⟩⟩
  · refine congrArg Host.Outcome.next (State.request_error hs ?_)
    unfold performPromptPlay
    by_cases hl : length = 0
    · rw [if_pos hl]
    · rw [if_neg hl, if_pos (h.resolve_left hl)]
  · refine congrArg Host.Outcome.next (State.request_error hs ?_)
    unfold performPromptPlay
    rewrite [if_neg hl, if_neg (by dsimp only [Config.promptSamples]; omega)]
    split
    · next h => exact absurd h hp
    · rfl
  · refine congrArg Host.Outcome.next (State.request_answeredDone hs ?_)
    unfold performPromptPlay
    rewrite [if_neg hl, if_neg (by dsimp only [Config.promptSamples]; omega), State.hunt_prompt, hp]
    rfl
  · exact congrArg Host.Outcome.next (State.request_error hs (if_pos hn))
  · refine congrArg Host.Outcome.next (State.request_error hs ?_)
    rw [performPromptMore, if_neg hn, State.hunt_prompt, hp]
  · refine congrArg Host.Outcome.next (State.request_answeredDone hs ?_)
    unfold performPromptStop
    rewrite [State.hunt_prompt, hp]
    rfl
  · have more : n ≠ 0 → ∀ q : Player, q.play? = some p → s.prompt.player = q →
        exec (.promptMore tag n) s = .next ({ s with prompt := { s.prompt with
          player := q.withRemaining (min 65535 (p.remaining + n.toNat)) } }.answeredDone tag .promptMore
            (.promptMore (min 65535 (p.remaining + n.toNat)))) := by
      intro hn q hq hp
      refine congrArg Host.Outcome.next (State.request_answeredDone hs ?_)
      rewrite [performPromptMore, if_neg hn, State.hunt_prompt, hp]
      cases q <;> cases hq <;> rfl
    have stopped : ∀ q : Player, q.play? = some p → s.prompt.player = q →
        exec (.promptStop tag) s =
          .next (({ s with prompt := { s.prompt with player := .idle } }.withNotice (.prompt
            { reason := .stopped, start := p.start, length := p.length, stateLeft := q.state, remaining := p.remaining,
              mixPeriod := s.mix.period })).answeredDone tag .promptStop (.promptStop q.state p.remaining)) := by
      intro q hq hp
      refine congrArg Host.Outcome.next (State.request_answeredDone hs ?_)
      unfold performPromptStop
      rewrite [State.hunt_prompt, hp]
      cases q <;> cases hq <;> rfl
    exact ⟨fun hp => ⟨fun hn => more hn (.playing p) rfl hp, stopped (.playing p) rfl hp⟩,
      fun c hp => ⟨fun hn => more hn (.gap p c) rfl hp, stopped (.gap p c) rfl hp⟩⟩

end Sys2Proof.Machine
end

section
/-!
SUPPORT. The profile requests, DECLINE and REMOVE, and ADMIT (R19 to R27).
-/
namespace Sys2Proof.Machine

variable {s : State} {i k : SlotId}

/-! ### Sides (R28, 11.2) -/

theorem sideOfByte_none {b : Byte} (h : 3 ≤ b.toNat) : sideOfByte b = none := by
  have ne : ∀ k : Byte, k.toNat < 3 → b ≠ k := by
    rintro k hk rfl
    omega
  rw [sideOfByte, if_neg (ne 0 (by decide)), if_neg (ne 1 (by decide)), if_neg (ne 2 (by decide))]

theorem sideOfByte_some {b : Byte} (h : b.toNat < 3) : ∃ side, sideOfByte b = some side := by
  have hb : b = BitVec.ofNat 8 b.toNat := (byte_eq_of_toNat (by omega)).mp rfl
  generalize b.toNat = n at h hb
  subst hb
  interval_cases n
  · exact ⟨.mono, rfl⟩
  · exact ⟨.left, rfl⟩
  · exact ⟨.right, rfl⟩

theorem sideOfByte_mono {b : Byte} {side : Side} (h : sideOfByte b = some side) : side = .mono ↔ b = 0 := by
  unfold sideOfByte at h
  split at h
  · next h0 =>
    cases h
    simp [h0]
  · next h0 =>
    split at h
    · cases h
      exact ⟨nofun, fun h => absurd h h0⟩
    · split at h <;> cases h
      exact ⟨nofun, fun h => absurd h h0⟩

/-! ### The profile table (R18 to R20) -/

theorem State.profileOf_isSome (s : State) (d : Identity) :
    (s.profileOf d).isSome = true ↔ ∃ p ∈ s.profiles, p.identity = d := by
  simp [State.profileOf]

theorem State.profileOf_none {d : Identity} (h : ∀ p ∈ s.profiles, p.identity ≠ d) : s.profileOf d = none := by
  simpa [State.profileOf] using h

/-- The record for an identity, where the table holds one and no other. -/
theorem State.profileOf_only {d : Identity} {l r : List Profile} {p : Profile} (h : s.profiles = l ++ p :: r)
    (hp : p.identity = d) (hl : ∀ q ∈ l, q.identity ≠ d) : s.profileOf d = some p := by
  have hnone : l.find? (fun q => q.identity == d) = none := by simpa using hl
  rewrite [State.profileOf, h, List.find?_append, hnone]
  simp [hp]

theorem filter_identity_ne {d : Identity} {l : List Profile} (h : ∀ q ∈ l, q.identity ≠ d) :
    l.filter (fun q => q.identity != d) = l := List.filter_eq_self.mpr fun q hq => by simpa using h q hq

/-- The table after a PROFILE.PUT (R19). -/
theorem mem_putProfile_iff {table : List Profile} {p q : Profile} :
    q ∈ putProfile table p ↔ q = p ∨ (q ∈ table ∧ q.identity ≠ p.identity) := by
  unfold putProfile
  split
  · next h =>
    obtain ⟨r, hr, hri⟩ := List.any_eq_true.mp h
    rewrite [List.mem_map]
    constructor
    · rintro ⟨x, hx, rfl⟩
      split
      · exact .inl rfl
      · next hne => exact .inr ⟨hx, by simpa using hne⟩
    · rintro (rfl | ⟨hq, hne⟩)
      · exact ⟨r, hr, by rw [if_pos hri]⟩
      · exact ⟨q, hq, by rw [if_neg (by simpa using hne)]⟩
  · next h =>
    have hno : q ∈ table → q.identity ≠ p.identity := fun hq he => h (List.any_eq_true.mpr ⟨q, hq, by simp [he]⟩)
    rewrite [List.mem_append, List.mem_singleton]
    constructor
    · rintro (hq | rfl)
      · exact .inr ⟨hq, hno hq⟩
      · exact .inl rfl
    · rintro (rfl | ⟨hq, -⟩)
      · exact .inr rfl
      · exact .inl hq

theorem length_putProfile (table : List Profile) (p : Profile) : (putProfile table p).length =
    if table.any (fun q => q.identity == p.identity) then table.length else table.length + 1 := by
  unfold putProfile
  split <;> simp

/-- Settles O16: the checks in their order, and the table by its records. -/
theorem profileRequestsAnswer : Obligations.ProfileRequestsAnswer := by
  refine ⟨fun tag f s hs => ?_, fun tag d s hs => ⟨fun hno => ⟨?_, ?_⟩, fun l p r h hp hl hr => ⟨?_, ?_⟩⟩⟩
  · intro known odd
    have hknown : (s.hunt.profileOf f.identity).isSome = true ↔ known := State.profileOf_isSome s.hunt f.identity
    refine ⟨fun hside => ?_, fun hside hodd => ?_, fun hside hodd hk hfull => ?_, fun side hside hodd hroom => ?_⟩
    · refine congrArg Host.Outcome.next (State.request_error hs ?_)
      rw [performProfilePut, sideOfByte_none hside]
    · obtain ⟨side, hb⟩ := sideOfByte_some hside
      refine congrArg Host.Outcome.next (State.request_error hs ?_)
      rewrite [performProfilePut, hb]
      dsimp only
      by_cases hown : f.partnerIdentity = some f.identity
      · rw [if_pos hown]
      · obtain ⟨h0, hpartner⟩ := hodd.resolve_left hown
        rw [if_neg hown, if_pos ⟨(sideOfByte_mono hb).mpr h0, hpartner⟩]
    · obtain ⟨side, hb⟩ := sideOfByte_some hside
      refine congrArg Host.Outcome.next (State.request_error hs ?_)
      have hnone : (s.hunt.profileOf f.identity).isNone = true := by
        rewrite [← Option.not_isSome, Bool.not_eq_true', ← Bool.not_eq_true, hknown]
        exact hk
      rewrite [performProfilePut, hb]
      dsimp only
      rw [if_neg fun h => hodd (.inl h), if_neg fun h => hodd (.inr ⟨(sideOfByte_mono hb).mp h.1, h.2⟩),
        if_pos ⟨hnone, hfull⟩]
    · intro p
      have hp : profileStored f side = p := by
        unfold profileStored
        simp only [clampSeed_eq, clampTarget_eq]
        rfl
      have hany : (s.profiles.any fun q => q.identity == p.identity) = (s.hunt.profileOf f.identity).isSome := by
        rewrite [Bool.eq_iff_iff, hknown, List.any_eq_true]
        simp [known, p]
      refine ⟨putProfile s.profiles p, (s.hunt.profileOf f.identity).isSome, hknown,
        congrArg Host.Outcome.next (State.request_answeredDone hs ?_), fun q => mem_putProfile_iff, ?_⟩
      · have hfree : ¬((s.hunt.profileOf f.identity).isNone = true ∧ Config.profileCapacity ≤ s.hunt.profiles.length) := by
          rintro ⟨hn, hfull⟩
          rewrite [Option.isNone_iff_eq_none] at hn
          rcases hroom with hk | hlt
          · rewrite [← hknown, hn] at hk
            cases hk
          · exact absurd hfull (Nat.not_le.mpr hlt)
        rewrite [performProfilePut, hside]
        dsimp only
        rewrite [if_neg fun h => hodd (.inl h), if_neg fun h => hodd (.inr ⟨(sideOfByte_mono hside).mp h.1, h.2⟩),
          if_neg hfree, hp]
        rfl
      · rw [length_putProfile, hany]
  · refine congrArg Host.Outcome.next (State.request_error hs ?_)
    rw [State.profileOf_none (s := s.hunt) hno]
  · refine congrArg Host.Outcome.next (State.request_error hs ?_)
    rw [State.profileOf_none (s := s.hunt) hno]
  · refine congrArg Host.Outcome.next (State.request_answeredDone hs ?_)
    rewrite [State.profileOf_only (s := s.hunt) h hp hl]
    dsimp only
    rewrite [State.hunt_profiles, h, List.filter_append, List.filter_cons, if_neg (by simp [hp]), filter_identity_ne hl,
      filter_identity_ne hr]
    rfl
  · refine congrArg Host.Outcome.next (State.request_answeredDone hs ?_)
    rw [State.profileOf_only (s := s.hunt) h hp hl]

/-! ### DECLINE and REMOVE (R26, R27) -/

theorem State.pendingEntry_none {h : Handle} (hn : s.NotPending h) : s.pendingEntry h = none := by
  simpa [State.pendingEntry, State.NotPending] using hn

theorem State.pendingEntry_only {h : Handle} {l r : List PendingLink} {e : PendingLink}
    (hs : s.radio.pendingLinks = l ++ e :: r) (he : e.handle = h) (hl : ∀ q ∈ l, q.handle ≠ h) :
    s.pendingEntry h = some e := by
  have hnone : l.find? (fun q => q.handle == h) = none := by simpa using hl
  rewrite [State.pendingEntry, hs, List.find?_append, hnone]
  simp [he]

theorem filter_handle_ne {h : Handle} {l : List PendingLink} (hl : ∀ q ∈ l, q.handle ≠ h) :
    l.filter (fun q => q.handle != h) = l := List.filter_eq_self.mpr fun q hq => by simpa using hl q hq

/-- REMOVE of a slot in no pair (R27). -/
theorem State.removeSlot_solo (hP : s.PairsLawful) (hi : (s.slot i).partner = none) : s.removeSlot i =
    ((s.withOutgoing ((s.slot i).handle.toList.map RadioOut.release)).withSlot i (s.slot i).leftEmpty).silencedWhen
      ((s.slot i).state == .active || (s.slot i).state == .stalled) i := by
  have hP' : (s.withOutgoing ((s.slot i).handle.toList.map RadioOut.release)).PairsLawful := hP
  rewrite [State.removeSlot, State.release_eq, State.settlePairs_vacate_solo hP' hi, State.vacate_eq]
  rfl

/-- REMOVE of a member of a pair (R27, R33). -/
theorem State.removeSlot_pair (hP : s.PairsLawful) (hi : (s.slot i).partner = some k) : s.removeSlot i =
    ((((s.withOutgoing ((s.slot i).handle.toList.map RadioOut.release)).withSlot i (s.slot i).leftEmpty).silencedWhen
      ((s.slot i).state == .active || (s.slot i).state == .stalled) i).withSlot k
        { s.slot k with role := .solo, partner := none, talker := { (s.slot k).talker with primary := false } }
      ).withNotice (.slot k
        { reason := .role, state := (s.slot k).state, role := .solo, partner := none, handle := (s.slot k).handle,
          identity := (s.slot k).identity, linkReason := none }) := by
  have hP' : (s.withOutgoing ((s.slot i).handle.toList.map RadioOut.release)).PairsLawful := hP
  rewrite [State.removeSlot, State.release_eq, State.settlePairs_vacate_pair hP' hi id fun _ => rfl, State.vacate_eq,
    State.raiseSlot_eq, id_eq, State.slot_setSlot_self]
  rfl

/-- Settles O18: DECLINE by the pending entry, REMOVE by the slot and its pair. -/
theorem declineAndRemoveAnswer : Obligations.DeclineAndRemoveAnswer := by
  refine ⟨fun tag h s hs => ⟨fun hn => ?_, fun l e r hl he hln hrn => ?_⟩,
    fun tag slot s hs hP => ⟨fun hslot => ?_, fun i hi => ⟨fun hempty => ?_, fun hne => ⟨fun hk => ?_, fun k hk => ?_⟩⟩⟩⟩
  · refine congrArg Host.Outcome.next (State.request_error hs ?_)
    rw [State.pendingEntry_none (s := s.hunt) hn]
  · refine congrArg Host.Outcome.next (State.request_answeredDone hs ?_)
    rewrite [State.pendingEntry_only (s := s.hunt) hl he hln]
    have hfilter : s.hunt.radio.pendingLinks.filter (fun q => q.handle != h) = l ++ r := by
      rw [State.hunt_radio, hl, List.filter_append, List.filter_cons, if_neg (by simp [he]), filter_handle_ne hln,
        filter_handle_ne hrn]
    dsimp only
    rewrite [State.release_eq, State.dropPending, hfilter]
    rfl
  · refine congrArg Host.Outcome.next (State.request_error hs ?_)
    rw [slotOfByte_none.mpr hslot]
  · refine congrArg Host.Outcome.next (State.request_error hs ?_)
    rewrite [slotOfByte_some.mpr hi]
    exact if_pos hempty
  · refine congrArg Host.Outcome.next (State.request_answeredDone hs ?_)
    rewrite [slotOfByte_some.mpr hi]
    dsimp only
    rewrite [if_neg (show ¬(s.hunt.slot i).state = .empty from hne), State.removeSlot_solo (s := s.hunt) hP hk]
    rfl
  · refine congrArg Host.Outcome.next (State.request_answeredDone hs ?_)
    rewrite [slotOfByte_some.mpr hi]
    dsimp only
    rewrite [if_neg (show ¬(s.hunt.slot i).state = .empty from hne), State.removeSlot_pair (s := s.hunt) hP hk]
    rfl

/-! ### ADMIT (R21 to R25, R29, R30) -/

theorem partnerOfByte_eq (b : Byte) : partnerOfByte b =
    if (b != 0xFF && 4 ≤ b.toNat) = true then none else some (SlotId.all.find? fun k => k.num == b.toNat) := by
  rewrite [find_num]
  unfold partnerOfByte
  by_cases hb : b = 0xFF
  · subst hb
    rfl
  · rewrite [if_neg hb]
    by_cases h4 : 4 ≤ b.toNat
    · rewrite [slotOfByte_none.mpr h4, if_pos (Bool.and_eq_true_iff.mpr ⟨bne_iff_ne.mpr hb, decide_eq_true h4⟩)]
      rfl
    · rewrite [if_neg (by simp [h4])]
      show (slotOfNum b.toNat).map some = some (slotOfNum b.toNat)
      cases hn : slotOfNum b.toNat with
      | none => exact absurd (slotOfNum_none.mp hn) h4
      | some k => rfl

theorem State.partnerRefusal_eq (s : State) (i k : SlotId) (side : Side) : s.partnerRefusal i k side =
    if k == i then some .range
    else if (s.slot k).state == .empty then some .busy
    else if (s.slot k).partner.isSome then some .conflict
    else if side == .mono || (s.slot k).side == .mono || side == (s.slot k).side then some .conflict
    else none := by
  unfold State.partnerRefusal
  simp only [beq_iff_eq, Bool.or_eq_true, or_assoc]

theorem State.admitRefusal_eq (s : State) (e : PendingLink) (i : SlotId) (side : Side) (named : Option SlotId) :
    s.admitRefusal (some e) i side named =
      if (s.slot i).state != .empty then some .busy
      else if s.notices.queue.any fun n => n.body.subject == .slot i then some .pending
      else if SlotId.all.any fun j => (s.slot j).state != .empty && (s.slot j).identity == some e.identity then
        some .conflict
      else
        match named with
        | none => none
        | some k => s.partnerRefusal i k side := by
  have hid : (s.slotOfIdentity e.identity).isSome =
      SlotId.all.any fun j => (s.slot j).state != .empty && (s.slot j).identity == some e.identity := by
    unfold State.slotOfIdentity
    rw [Bool.eq_iff_iff, List.find?_isSome, List.any_eq_true]
  unfold State.admitRefusal
  dsimp only
  rewrite [hid]
  simp only [bne_iff_ne, ne_eq]
  rfl

/-- The first check that an ADMIT fails, by what its bytes name. -/
def State.namedVerdict (s : State) (handle : Handle) (slot : Option SlotId) (side : Option Side)
    (partner : Option (Option SlotId)) : Option RefusalCode :=
  match slot, side, partner with
  | some i, some sd, some named => s.admitRefusal (s.pendingEntry handle) i sd named
  | _, _, _ => some .range

/-- The verdict of Safety is the model's, check by check. -/
theorem State.admitVerdict_eq (s : State) (handle : Handle) (slot side partner : Byte) :
    s.admitVerdict handle slot side partner =
      s.namedVerdict handle (slotOfByte slot) (sideOfByte side) (partnerOfByte partner) := by
  unfold State.admitVerdict State.namedVerdict
  rewrite [find_num, partnerOfByte_eq]
  show (match slotOfByte slot, sideOfByte side with
    | some i, some sd => _
    | _, _ => _) = _
  cases slotOfByte slot with
  | none => rfl
  | some i =>
    cases sideOfByte side with
    | none => rfl
    | some sd =>
      dsimp only
      split
      · rfl
      · show (match s.pendingEntry handle with
          | none => some RefusalCode.noLink
          | some e => _) = _
        cases s.pendingEntry handle with
        | none => rfl
        | some e =>
          dsimp only
          rewrite [State.admitRefusal_eq]
          simp only [State.partnerRefusal_eq] <;> rfl

/-- ADMIT by the verdict. -/
theorem performAdmit_refused {handle : Handle} {slot side partner : Byte} {code : RefusalCode}
    (h : s.admitVerdict handle slot side partner = some code) (inT outT : Option (BitVec 16)) (seed : Option Byte) :
    performAdmit handle slot side partner inT outT seed s = .error code := by
  rewrite [State.admitVerdict_eq] at h
  unfold performAdmit
  cases hi : slotOfByte slot with
  | none => rewrite [hi] at h; cases h; rfl
  | some i =>
    cases hside : sideOfByte side with
    | none => rewrite [hi, hside] at h; cases h; rfl
    | some sd =>
      cases hp : partnerOfByte partner with
      | none => rewrite [hi, hside, hp] at h; cases h; rfl
      | some named =>
        have hr : s.admitRefusal (s.pendingEntry handle) i sd named = some code := by rewrite [hi, hside, hp] at h; exact h
        dsimp only
        rw [hr]

/-- What a verdict of none says of the request. -/
theorem State.admitVerdict_none {handle : Handle} {slot side partner : Byte}
    (h : s.admitVerdict handle slot side partner = none) : ∃ i sd e,
    slotOfByte slot = some i ∧ sideOfByte side = some sd ∧ s.pendingEntry handle = some e ∧
      partnerOfByte partner = some (SlotId.all.find? fun k => k.num == partner.toNat) ∧
      s.admitRefusal (some e) i sd (SlotId.all.find? fun k => k.num == partner.toNat) = none := by
  rewrite [State.admitVerdict_eq] at h
  cases hi : slotOfByte slot with
  | none => rewrite [hi] at h; cases h
  | some i =>
    cases hside : sideOfByte side with
    | none => rewrite [hi, hside] at h; cases h
    | some sd =>
      cases hp : partnerOfByte partner with
      | none => rewrite [hi, hside, hp] at h; cases h
      | some named =>
        have hr : s.admitRefusal (s.pendingEntry handle) i sd named = none := by rewrite [hi, hside, hp] at h; exact h
        have hnamed : named = SlotId.all.find? fun k => k.num == partner.toNat := by
          rewrite [partnerOfByte_eq] at hp
          split at hp
          · cases hp
          · exact (Option.some.inj hp).symm
        subst hnamed
        cases he : s.pendingEntry handle with
        | none => rewrite [he] at hr; cases hr
        | some e => exact ⟨i, sd, e, rfl, rfl, rfl, rfl, he ▸ hr⟩

theorem resolveTarget_eq (requested : Option (BitVec 16)) (held : Option Nat) (default : Nat) :
    resolveTarget requested held default =
      max 160 (min 800 ((requested.map BitVec.toNat).getD (held.getD default))) := by
  unfold resolveTarget
  rewrite [clampTarget_eq]
  cases requested <;> rfl

theorem resolveSeed_eq (requested : Option Byte) (profile : Option Profile) : resolveSeed requested profile =
    max (-15) (min 15 ((requested.map BitVec.toInt).getD ((profile.map Profile.seed).getD 0))) := by
  unfold resolveSeed
  rewrite [clampSeed_eq]
  cases requested <;> cases profile <;> rfl

theorem seedEstimate_eq (seed : Int) (limit : Nat) :
    seedEstimate seed limit = max (-(limit : Int)) (min (limit : Int) (seed * 500)) := clampSym_eq _ _

/-- The partner of an accepted ADMIT, named or of the profile, is another slot. -/
theorem State.admitted_partner_ne {e : PendingLink} {side : Side} {named : Option SlotId} {profile : Option Profile}
    (h : s.admitRefusal (some e) i side named = none) (hk : named.or (s.profilePartner profile side) = some k) :
    k ≠ i := by
  obtain ⟨hempty, -, hpair⟩ := State.admitRefusal_none h
  cases named with
  | some j =>
    obtain rfl : j = k := by simpa using hk
    exact (hpair j rfl).1
  | none =>
    rintro rfl
    exact (State.profilePartner_some hk).1 hempty

/-- Settles O17: the verdict's code, or the admission alone or beside the partner. -/
theorem admitAnswers : Obligations.AdmitAnswers := by
  refine ⟨fun tag handle slot side partner inT outT seed s code hs hv => ?_,
    fun tag handle slot side partner inT outT seed s i sd e hs hv hi hside he => ?_⟩
  · exact congrArg Host.Outcome.next (State.request_error hs (performAdmit_refused (s := s.hunt) hv inT outT seed))
  intro profile inTarget outTarget applied limit estimate record t result
  obtain ⟨i', sd', e', hi', hside', he', hpartner, hrefusal⟩ := State.admitVerdict_none hv
  obtain rfl : i' = i := by
    rewrite [slotOfByte_some.mpr hi] at hi'
    exact (Option.some.inj hi').symm
  obtain rfl : sd' = sd := Option.some.inj (hside'.symm.trans hside)
  obtain rfl : e' = e := Option.some.inj (he'.symm.trans he)
  have hhandle : e'.handle = handle := by simpa using List.find?_some he
  generalize (SlotId.all.find? fun k => k.num == partner.toNat) = named at *
  let v : AdmissionValues := { side := sd', inTarget := inTarget, outTarget := outTarget, seed := applied }
  have hrecord : admittedRecord (s.slot i') e' v s.limits.slotLimit = record := by
    unfold admittedRecord
    rewrite [seedEstimate_eq, Slot.measuring_eq, hhandle]
    rfl
  let w := (s.hunt.dropPending handle).admitInto i' e' v (named.or (s.namedPartner profile sd'))
  have haccept : performAdmit handle slot side partner inT outT seed s.hunt =
      .ok (w, .admitLink
        { slot := i', handle := handle, identity := e'.identity, side := (w.slot i').side, role := (w.slot i').role,
          partner := (w.slot i').partner, inTarget := (w.slot i').inTarget, outTarget := (w.slot i').outTarget,
          seed := applied, estimate := (w.slot i').estimate }) := by
    have hp : s.hunt.pendingEntry handle = some e' := he'
    have hr : s.hunt.admitRefusal (some e') i' sd' named = none := hrefusal
    unfold performAdmit
    rewrite [hi', hside', hpartner]
    dsimp only
    rewrite [hp, hr]
    dsimp only
    unfold State.accept
    dsimp only
    rewrite [resolveTarget_eq, resolveTarget_eq, resolveSeed_eq, State.profilePartner_eq, hhandle]
    rfl
  have run : ∀ u : State, w = u.hunt → (u.slot i').side = sd' → (u.slot i').inTarget = inTarget →
      (u.slot i').outTarget = outTarget → (u.slot i').estimate = estimate →
      exec (.admitLink tag handle slot side partner inT outT seed) s =
        .next (u.answeredDone tag .admitLink (result (u.slot i'))) := by
    intro u hw h1 h2 h3 h4
    refine congrArg Host.Outcome.next (State.request_answeredDone hs ?_)
    rewrite [haccept, hw]
    show Except.ok (u.hunt, Result.admitLink
      { slot := i', handle := handle, identity := e'.identity, side := (u.slot i').side, role := (u.slot i').role,
        partner := (u.slot i').partner, inTarget := (u.slot i').inTarget, outTarget := (u.slot i').outTarget,
        seed := applied, estimate := (u.slot i').estimate }) = _
    rw [h2, h3, h4]
  have hwself : ∀ (u : State) (x : Slot), (u.withSlot i' x).slot i' = x := fun u x => State.slot_setSlot_self _ _ _
  cases hk : named.or (s.namedPartner profile sd') with
  | none =>
    have hw : w = (t.withSlot i' record).hunt := by
      show (s.hunt.dropPending handle).admitInto i' e' v (named.or (s.namedPartner profile sd')) = _
      rewrite [hk, State.admitInto_none, ← hrecord]
      rfl
    have := run _ hw (by rw [hwself]) (by rw [hwself]) (by rw [hwself]) (by rw [hwself])
    rewrite [hwself] at this
    exact this
  | some k =>
    have hne : k ≠ i' := State.admitted_partner_ne hrefusal (by rewrite [State.profilePartner_eq]; exact hk)
    let leads := (s.slot k).state = .lost
    let mine : Slot :=
      { record with
        role := if leads then .leader else .follower, partner := some k,
        talker := { record.talker with primary := decide leads } }
    let theirs : Slot :=
      { s.slot k with
        role := if leads then .follower else .leader, partner := some i',
        talker := { (s.slot k).talker with primary := !decide leads } }
    have hwmine : (((t.withSlot i' mine).withSlot k theirs).slot i') = mine := by
      show (((t.setSlot i' mine).setSlot k theirs).slot i') = mine
      rw [State.slot_setSlot_ne _ hne.symm, State.slot_setSlot_self]
    have hw : w = ((t.withSlot i' mine).withSlot k theirs).hunt := by
      show (s.hunt.dropPending handle).admitInto i' e' v (named.or (s.namedPartner profile sd')) = _
      rewrite [hk, State.admitInto_some hne]
      show (State.setSlot _ i' { admittedRecord (s.slot i') e' v s.limits.slotLimit with
        role := _, partner := _, talker := _ }).setSlot k _ = _
      rewrite [hrecord]
      rfl
    have := run _ hw (by rw [hwmine]) (by rw [hwmine]) (by rw [hwmine]) (by rw [hwmine])
    rewrite [hwmine] at this
    exact this

end Sys2Proof.Machine
end

section
/-!
SUPPORT. LINK.DOWN by the class of its handle and by the state of its slot, and LINK.UP in its three steps (R11, R14 to
R17, R31, R33).
-/
namespace Sys2Proof.Machine

variable {s : State} {i k : SlotId} {h : Handle}

/-! ### LINK.DOWN by the class of its handle (R45, R46) -/

theorem exec_badFrame (s : State) : exec (.radioFrame []) s = .next s.badRadioFrame := rfl

theorem exec_linkDown_eq (h0 : h ≠ 0) (r : Byte) : exec (.linkDown h r) s = .next (s.linkDown h (some r)) := by
  simp only [exec_linkDown, execLinkDown, isHandle_of_ne h0, if_true]

theorem State.linkDown_unheld (hn : s.Unheld h) (r : Option Byte) : s.linkDown h r = s.dropPending h := by
  unfold State.linkDown
  rw [State.boundSlot_unheld hn]

theorem State.linkDown_bound (hi : s.Holds i h) (r : Option Byte) : s.linkDown h r = s.linkDownSlot i r := by
  unfold State.linkDown
  rw [State.boundSlot_holds hi]

/-- What LINK.DOWN does with each link reason, LINK.DOWN does as a command and as the first step of R14. -/
theorem State.linkDown_ends (h0 : h ≠ 0) {t : Option Byte → State} (ht : ∀ r, s.linkDown h r = t r) (r : Byte) :
    exec (.linkDown h r) s = .next (t (some r)) ∧ s.linkDown h none = t none :=
  ⟨by rw [exec_linkDown_eq h0, ht], ht none⟩

/-! ### LINK.DOWN by the state of its slot (R11) -/

theorem State.linkDownSlot_acquiring (hs : (s.slot i).state = .measuring ∨ (s.slot i).state = .filling)
    (r : Option Byte) : s.linkDownSlot i r = s.failSlot i .failDown r := by
  unfold State.linkDownSlot
  rcases hs with hs | hs <;> rw [hs]

theorem State.linkDownSlot_live (hs : (s.slot i).state = .active ∨ (s.slot i).state = .stalled) (r : Option Byte) :
    s.linkDownSlot i r = (s.lose i none).settlePairs (fun j => j == i) fun t =>
      t.raiseSlot i .lostDown (s.slot i).handle r := by
  unfold State.linkDownSlot
  rcases hs with hs | hs <;> rw [hs]

theorem State.linkDownSlot_lost (hs : (s.slot i).state = .lost) (r : Option Byte) :
    s.linkDownSlot i r = s.setSlot i { s.slot i with handle := none } := by
  unfold State.linkDownSlot
  rewrite [hs]
  rfl

/-- An acquiring slot leaves for EMPTY with no gain to zero. -/
theorem State.vacate_acquiring (hs : (s.slot i).state = .measuring ∨ (s.slot i).state = .filling) :
    s.vacate i = s.withSlot i (s.slot i).leftEmpty := by
  rewrite [State.vacate_eq]
  rcases hs with hs | hs <;> rewrite [hs] <;> exact State.silencedWhen_false

/-- A live slot leaves for LOST with its column and row at 0. -/
theorem State.lose_live (hs : (s.slot i).state = .active ∨ (s.slot i).state = .stalled) (handle : Option Handle) :
    s.lose i handle =
      (s.withSlot i { (s.slot i).flushedRecord with state := .lost, handle := handle }).silencedWhen true i := by
  rewrite [State.lose_eq]
  rcases hs with hs | hs <;> rewrite [hs] <;> rfl

theorem State.failSlot_solo (hP : s.PairsLawful) (hs : (s.slot i).state = .measuring ∨ (s.slot i).state = .filling)
    (hk : (s.slot i).partner = none) (reason : SlotReason) (r : Option Byte) :
    s.failSlot i reason r = (s.withSlot i (s.slot i).leftEmpty).withNotice
      (.slot i { reason := reason, state := .empty, role := .solo, partner := none, handle := (s.slot i).handle,
                 identity := none, linkReason := r }) := by
  rewrite [State.failSlot, State.settlePairs_vacate_solo hP hk, State.vacate_acquiring hs, State.raiseSlot_eq]
  congr 1
  show NoticeBody.slot i (slotNotice ((s.setSlot i (s.slot i).leftEmpty).slot i) _ _ _) = _
  rewrite [State.slot_setSlot_self]
  rfl

theorem State.failSlot_pair (hP : s.PairsLawful) (hs : (s.slot i).state = .measuring ∨ (s.slot i).state = .filling)
    (hk : (s.slot i).partner = some k) (reason : SlotReason) (r : Option Byte) :
    s.failSlot i reason r =
      ((s.withSlot i (s.slot i).leftEmpty).withSlot k
          { s.slot k with
            role := .solo, partner := none, talker := { (s.slot k).talker with primary := false } }).withNotices
        [.slot i { reason := reason, state := .empty, role := .solo, partner := none, handle := (s.slot i).handle,
                   identity := none, linkReason := r },
          .slot k { reason := .role, state := (s.slot k).state, role := .solo, partner := none,
                    handle := (s.slot k).handle, identity := (s.slot k).identity, linkReason := none }] := by
  have hne : k ≠ i := (hP.pair hk).1
  let own : State → State := fun t => t.raiseSlot i reason (s.slot i).handle r
  rewrite [State.failSlot, State.settlePairs_vacate_pair hP hk own fun _ => State.raiseSlot_slots .., State.vacate_acquiring hs]
  let y : Slot := { s.slot k with role := .solo, partner := none, talker := { (s.slot k).talker with primary := false } }
  let u : State := (s.setSlot i (s.slot i).leftEmpty).setSlot k y
  show (u.raiseSlot i reason (s.slot i).handle r).raiseSlot k .role (s.slot k).handle none = _
  have hui : u.slot i = (s.slot i).leftEmpty := by rw [State.slot_setSlot_ne _ hne.symm, State.slot_setSlot_self]
  have huk : u.slot k = y := State.slot_setSlot_self _ _ _
  rewrite [State.raiseSlot_eq (i := k), State.raiseSlot_slot, huk, State.raiseSlot_eq, hui]
  rfl

/-! ### A live member of a pair is lost (R31) -/

/-- No record but its own changes by a slot's loss, and its own keeps its pair. -/
theorem State.slot_lose (s : State) (i j : SlotId) (handle : Option Handle) :
    (s.lose i handle).slot j = if j = i then (s.slot i).lost handle else s.slot j := by
  split
  · next hj => rw [hj, State.slot_lose_self]
  · next hj => rw [State.slot_lose_ne hj]

theorem State.pairEnded_lose (hP : s.PairsLawful) (handle : Option Handle) (j : SlotId) :
    pairEnded (s.lose i handle).slots j = false := by
  have hpart : ((s.lose i handle).slot j).partner = (s.slot j).partner := by
    rewrite [State.slot_lose]
    split
    · next hj => rewrite [hj]; rfl
    · rfl
  unfold pairEnded
  rewrite [State.slot_def, hpart]
  cases hk : (s.slot j).partner with
  | none => rfl
  | some k =>
    have alive : ((s.lose i handle).slot k).state ≠ .empty := by
      rewrite [State.slot_lose]
      split
      · nofun
      · exact (hP.partner hk).2.2.2.1
    simp [State.slot_def, alive]

/-- The loss of slot `i` makes a LEADER of its FOLLOWER where that is live, and of no other slot. -/
theorem State.swapsUp_lose (hP : s.PairsLawful) (hk : (s.slot i).partner = some k) (handle : Option Handle)
    (j : SlotId) : swapsUp ((s.lose i handle).slot j) (fun j => j == i) =
      (j == k && (s.slot i).role == Role.leader && (s.slot k).state.live) := by
  obtain ⟨hne, hki, -, -, hroles, -⟩ := hP.pair hk
  unfold swapsUp
  rewrite [State.slot_lose]
  by_cases hji : j = i
  · subst hji
    have dead : ((s.slot j).lost handle).state.live = false := rfl
    rewrite [if_pos rfl, beq_eq_false_iff_ne.mpr hne.symm]
    cases ((s.slot j).lost handle).leader? <;> simp [dead]
  rewrite [if_neg hji]
  by_cases hjk : j = k
  · subst hjk
    rcases hroles with ⟨hl, hf⟩ | ⟨hf, hl⟩
    · simp [Slot.leader?, hl, hf, hki]
    · simp [Slot.leader?, hl, hf]
  · rewrite [beq_eq_false_iff_ne.mpr hjk]
    have other : (s.slot j).leader? ≠ some i := by
      intro hlead
      have hj : (s.slot j).partner = some i := by
        unfold Slot.leader? at hlead
        split at hlead
        · exact hlead
        · cases hlead
      have := (hP.pair hj).2.1
      rewrite [hk] at this
      exact hjk (Option.some.inj this).symm
    cases hlead : (s.slot j).leader? with
    | none => rfl
    | some m =>
      have : m ≠ i := fun hm => other (hm ▸ hlead)
      simp [this]

/-- The slot that hands the lead over is the lost one. -/
theorem State.swapsDown_lose (hP : s.PairsLawful) (hk : (s.slot i).partner = some k) (handle : Option Handle)
    (j : SlotId) : swapsDown (s.lose i handle).slots (fun j => j == i) j =
      (j == i && (s.slot i).role == Role.leader && (s.slot k).state.live) := by
  obtain ⟨hne, hki, -, -, hroles, -⟩ := hP.pair hk
  unfold swapsDown
  simp only [State.slot_def, State.swapsUp_lose hP hk]
  rewrite [State.slot_lose]
  by_cases hji : j = i
  · subst hji
    rewrite [if_pos rfl]
    show (match (s.slot j).partner with
      | some k' => ((s.slot j).role == Role.leader && j == j && ((s.lose j handle).slot k').leader? == some j &&
          (k' == k && (s.slot j).role == Role.leader && (s.slot k).state.live))
      | none => false) = _
    rewrite [hk]
    dsimp only
    rewrite [State.slot_lose_ne hne]
    rcases hroles with ⟨hl, hf⟩ | ⟨hf, hl⟩
    · simp [Slot.leader?, hl, hf, hki]
    · simp [hf]
  · rewrite [if_neg hji, beq_eq_false_iff_ne.mpr hji]
    cases (s.slot j).partner <;> simp

/-- Where the lost slot is no LEADER of a live FOLLOWER, the pair rules have nothing to do (R31). -/
theorem State.settlePairs_lose_kept (hP : s.PairsLawful) (hk : (s.slot i).partner = some k)
    (hkept : ((s.slot i).role == Role.leader && (s.slot k).state.live) = false) (handle : Option Handle)
    (own : State → State) : (s.lose i handle).settlePairs (fun j => j == i) own = own (s.lose i handle) := by
  apply State.settlePairs_quiet
  intro j
  refine ⟨State.pairEnded_lose hP handle j, ?_, ?_⟩
  · rw [State.swapsUp_lose hP hk, Bool.and_assoc, hkept, Bool.and_false]
  · rw [State.swapsDown_lose hP hk, Bool.and_assoc, hkept, Bool.and_false]

/-- Where the lost slot is the LEADER of a live FOLLOWER, the roles swap and ROLE is raised on the new LEADER (R31). -/
theorem State.settlePairs_lose_swap (hP : s.PairsLawful) (hk : (s.slot i).partner = some k)
    (hl : (s.slot i).role = .leader) (hlive : (s.slot k).state.live = true) (handle : Option Handle)
    (own : State → State) (hown : ∀ t : State, (own t).slots = t.slots) :
    (s.lose i handle).settlePairs (fun j => j == i) own =
      (own (((s.lose i handle).setSlot i { (s.slot i).lost handle with role := .follower }).setSlot k
        { s.slot k with role := .leader })).raiseSlot k .role (s.slot k).handle none := by
  have hne : k ≠ i := (hP.pair hk).1
  have up : ∀ j, swapsUp ((s.lose i handle).slot j) (fun j => j == i) = (j == k) := fun j => by
    rewrite [State.swapsUp_lose hP hk, hl, hlive]; simp
  have down : ∀ j, swapsDown (s.lose i handle).slots (fun j => j == i) j = (j == i) := fun j => by
    rewrite [State.swapsDown_lose hP hk, hl, hlive]; simp
  let u := ((s.lose i handle).setSlot i { (s.slot i).lost handle with role := .follower }).setSlot k
    { s.slot k with role := .leader }
  have hslots : PerSlot.tabulate (pairedAfter (s.lose i handle).slots fun j => j == i) = u.slots := by
    apply PerSlot.ext_get
    intro j
    rewrite [PerSlot.get_tabulate, pairedAfter]
    simp only [State.slot_def, State.pairEnded_lose hP, up, down, Bool.false_eq_true, if_false, beq_iff_eq]
    show _ = u.slot j
    by_cases hjk : j = k
    · subst hjk
      rw [if_pos rfl, State.slot_lose_ne hne, State.slot_setSlot_self]
    · rewrite [if_neg hjk, State.slot_setSlot_ne _ hjk, State.slot_setSlot]
      split
      · next hji => rw [hji, State.slot_lose_self]
      · rfl
  have hkslot : (own u).slot k = { s.slot k with role := .leader } := by
    rewrite [State.slot, hown]
    exact State.slot_setSlot_self _ _ _
  unfold State.settlePairs
  rewrite [hslots, State.raiseRoles_one (i := k)]
  · show (own u).raiseSlot k .role ((own u).slot k).handle none = _
    rw [hkslot]
  · intro j
    rw [roleChanged, State.pairEnded_lose hP, State.slot_def, up, Bool.false_or]

theorem notLeader_or_notLive {r : Role} {live : Bool} (h : r = .follower ∨ live = false) :
    (r == .leader && live) = false := by
  rcases h with rfl | rfl <;> simp

theorem SlotState.live_iff (st : SlotState) : st.live = true ↔ st = .active ∨ st = .stalled := by
  simp [SlotState.live]

/-- Settles O27: the handle unheld or 0, then the slot by its state, alone or in a pair. -/
theorem linkDownEndsTheLink : Obligations.LinkDownEndsTheLink := by
  intro h reason s ends
  have settle : h ≠ 0 → ∀ t, (∀ r, s.linkDown h r = t r) → ends t := fun h0 _ ht => State.linkDown_ends h0 ht reason
  clear_value ends
  refine ⟨?_, fun h0 hn => settle h0 _ fun r => State.linkDown_unheld hn r,
    fun h0 hP i hi => ⟨fun hs => ⟨fun hk => ?_, fun k hk => ?_⟩, fun hs hk => ?_, fun hs => ?_⟩⟩
  · rintro rfl
    rfl
  all_goals
    refine settle h0 _ fun r => ?_
    rewrite [State.linkDown_bound hi]
  · rw [State.linkDownSlot_acquiring hs, State.failSlot_solo hP hs hk, hi.1]
  · rw [State.linkDownSlot_acquiring hs, State.failSlot_pair hP hs hk, hi.1]
  · obtain ⟨hrole, -⟩ := hP.solo hk
    rewrite [State.linkDownSlot_live hs, State.settlePairs_lose_solo hP hk, State.raiseSlot_eq, State.slot_lose_self,
      State.lose_live hs, hi.1]
    show State.withNotice _ (.slot i
      { reason := _, state := .lost, role := (s.slot i).role, partner := (s.slot i).partner, handle := _,
        identity := _, linkReason := _ }) = _
    rewrite [hrole, hk]
    rfl
  · exact State.linkDownSlot_lost hs r

/-- Settles O28: the roles swap exactly where the LEADER is lost and its FOLLOWER live. -/
theorem leaderLossSwapsRoles : Obligations.LeaderLossSwapsRoles := by
  intro h reason s i k h0 hP hi hk hs x y ends down told
  have hne : k ≠ i := (hP.pair hk).1
  have settle : ∀ t, (∀ r, s.linkDown h r = t r) → ends t := fun _ ht => State.linkDown_ends h0 ht reason
  clear_value ends
  refine ⟨fun hl hlive => settle _ fun r => ?_, fun hkept => settle _ fun r => ?_⟩ <;>
    rewrite [State.linkDown_bound hi, State.linkDownSlot_live hs]
  · let own : State → State := fun t => t.raiseSlot i .lostDown (s.slot i).handle r
    rewrite [State.settlePairs_lose_swap hP hk hl ((SlotState.live_iff _).mpr hlive) none own fun _ => State.raiseSlot_slots ..]
    let lost : Slot := { (s.slot i).lost none with role := .follower }
    let u : State := ((s.lose i none).setSlot i lost).setSlot k { s.slot k with role := .leader }
    show (u.raiseSlot i .lostDown (s.slot i).handle r).raiseSlot k .role (s.slot k).handle none = _
    have hui : u.slot i = lost := by rw [State.slot_setSlot_ne _ hne.symm, State.slot_setSlot_self]
    have huk : u.slot k = { s.slot k with role := .leader } := State.slot_setSlot_self _ _ _
    have hu : u = (down .follower).withSlot k { y with role := .leader } := by
      show ((s.lose i none).setSlot i lost).setSlot k _ = _
      rewrite [State.lose_live hs]
      let first : Slot := { (s.slot i).flushedRecord with state := .lost, handle := none }
      show (((s.setSlot i first).setSlot i lost).silencedWhen true i).setSlot k _ = _
      rewrite [State.setSlot_setSlot]
      rfl
    rewrite [State.raiseSlot_eq (i := k), State.raiseSlot_slot, huk, State.raiseSlot_eq, hui, hu, hi.1]
    show State.withNotice (State.withNotice _ (.slot i
      { reason := _, state := .lost, role := .follower, partner := (s.slot i).partner, handle := _,
        identity := _, linkReason := _ })) (.slot k
      { reason := _, state := _, role := .leader, partner := (s.slot k).partner, handle := _,
        identity := _, linkReason := _ }) = _
    rewrite [hk, (hP.pair hk).2.1]
    rfl
  · have quiet := notLeader_or_notLive (r := x.role) (live := y.state.live) (hkept.imp_right fun hd => by
      rewrite [← Bool.not_eq_true, SlotState.live_iff]
      exact not_or.mpr hd)
    rewrite [State.settlePairs_lose_kept hP hk quiet, State.raiseSlot_eq, State.slot_lose_self, State.lose_live hs, hi.1]
    show State.withNotice _ (.slot i
      { reason := _, state := .lost, role := (s.slot i).role, partner := (s.slot i).partner, handle := _,
        identity := _, linkReason := _ }) = _
    rewrite [hk]
    rfl

end Sys2Proof.Machine
end

section
/-!
SUPPORT. LINK.UP in its three steps (R14 to R17, R24, R25).
-/
namespace Sys2Proof.Machine

variable {s : State} {i k : SlotId} {h : Handle} {d : Identity}

/-! ### The first step (R14) -/

/-- A handle that is neither bound nor pending: the first step of R14 has nothing to do. -/
theorem State.linkUp_fresh {link : PendingLink} (hn : s.Unheld link.handle) (hp : s.NotPending link.handle) :
    s.linkUp link = s.placeLink link := by
  rw [State.linkUp, State.linkDown_unheld hn, State.dropPending_unpending hp]

/-- After LINK.DOWN no slot holds the handle that slot `i` alone held. -/
theorem State.linkDown_unheld_after (hi : s.Holds i h) (hne : (s.slot i).state ≠ .empty) (r : Option Byte) :
    (s.linkDown h r).Unheld h := by
  intro j hj
  obtain rfl : j = i := hi.2 j ((State.linkDown_letsGo h r).handle hj)
  rewrite [State.linkDown_bound hi, State.linkDownSlot_handle hne] at hj
  cases hj

theorem State.linkDown_pendingLinks (hi : s.Holds i h) (r : Option Byte) :
    (s.linkDown h r).radio.pendingLinks = s.radio.pendingLinks := by
  rw [State.linkDown_bound hi, State.linkDownSlot_radio]

/-! ### The second step: the slot that holds the identity (R14) -/

theorem State.slotOfIdentity_only (he : (s.slot i).state ≠ .empty) (hd : (s.slot i).identity = some d)
    (honly : ∀ j, (s.slot j).state ≠ .empty → (s.slot j).identity = some d → j = i) : s.slotOfIdentity d = some i := by
  cases hf : s.slotOfIdentity d with
  | none => exact absurd hd (State.slotOfIdentity_none.mp hf i he)
  | some j =>
    obtain ⟨hej, hdj⟩ := State.slotOfIdentity_some hf
    rw [honly j hej hdj]

/-- The slot re-enters MEASURING, by recovery or by relink (R8, R14). -/
theorem State.rebind_eq (s : State) (i : SlotId) (link : PendingLink) : s.rebind i link =
    (((s.withOutgoing ((s.slot i).handle.toList.map RadioOut.release)).withSlot i
        { (s.slot i).acquiringRecord with handle := some link.handle, mic := link.mic }).silencedWhen
        ((s.slot i).state == .active || (s.slot i).state == .stalled) i).withNotice
      (.slot i { reason := if (s.slot i).state = .lost then .recovering else .relinked, state := .measuring,
                 role := (s.slot i).role, partner := (s.slot i).partner, handle := some link.handle,
                 identity := (s.slot i).identity, linkReason := none }) := by
  let x : Slot := { (s.slot i).acquiringRecord with handle := some link.handle, mic := link.mic }
  let u := (s.withOutgoing ((s.slot i).handle.toList.map RadioOut.release)).setSlot i x
  have hu : u.slot i = x := State.slot_setSlot_self _ _ _
  unfold State.rebind
  dsimp only
  rewrite [State.release_eq]
  show (if (s.slot i).state = .lost then u.raiseSlot i .recovering (some link.handle) none
    else (u.zeroIfLive i (s.slot i).state).raiseSlot i .relinked (some link.handle) none) = State.withNotice (u.silencedWhen _ i) _
  by_cases hl : (s.slot i).state = .lost
  · rewrite [if_pos hl, if_pos hl, hl, State.raiseSlot_eq, hu]
    show _ = State.withNotice (u.silencedWhen false i) _
    rewrite [State.silencedWhen_false]
    rfl
  · rewrite [if_neg hl, if_neg hl, State.raiseSlot_eq, State.zeroIfLive_slot, hu, State.zeroIfLive_eq]
    rfl

/-- Settles O26: the slot that holds the identity, then the first step for a pending and for a bound handle. -/
theorem linkUpReturnsToItsSlot : Obligations.LinkUpReturnsToItsSlot := by
  intro h d mic s
  refine ⟨?_, fun h0 hn hp i he hd honly => ?_, fun h0 hn => ?_, fun i h0 hi he hp => ?_⟩
  · rintro rfl
    rfl
  · rewrite [exec_linkUp_eq h0, State.linkUp_fresh hn hp, State.placeLink, State.slotOfIdentity_only he hd honly]
    dsimp only
    rw [State.rebind_eq, hd]
  · have hn' : (s.dropPending h).Unheld h := hn
    have hp' : (s.dropPending h).NotPending h := fun e he => by simpa using (List.mem_filter.mp he).2
    show _ = exec (.linkUp h d mic) (s.dropPending h)
    rw [exec_linkUp_eq h0, exec_linkUp_eq h0, State.linkUp_fresh (s := s.dropPending h) hn' hp', State.linkUp,
      State.linkDown_unheld hn]
  · have hn' := State.linkDown_unheld_after hi he none
    have hp' : (s.linkDown h none).NotPending h := by
      unfold State.NotPending
      rewrite [State.linkDown_pendingLinks hi]
      exact hp
    refine ⟨hn', ?_⟩
    rewrite [exec_linkUp_eq h0, exec_linkUp_eq h0, State.linkUp_fresh (s := s.linkDown h none) hn' hp']
    rfl

/-! ### The third step: auto-admission or the pending list (R16, R17) -/

theorem State.autoSlot_some {p : Profile} (hauto : p.autoAdmit = true) (hi : s.lowestEmpty = some i)
    (hq : ∀ n ∈ s.notices.queue, n.body.subject ≠ .slot i) : s.autoSlot (some p) = some i := by
  have hno : s.notices.holdsAbout i = false := by
    rewrite [NoticeQueue.holdsAbout, List.any_eq_false]
    exact fun n hn => by simpa using hq n hn
  unfold State.autoSlot
  rewrite [hi]
  simp [hauto, hno]

/-- Where no flagged profile finds a slot, a link joins the pending list. -/
theorem State.placeLink_append {link : PendingLink} (hid : s.slotOfIdentity link.identity = none)
    (hauto : s.autoSlot (s.profileOf link.identity) = none) : s.placeLink link = s.appendPending link := by
  unfold State.placeLink
  rewrite [hid]
  dsimp only
  rw [hauto]

/-- The three ways in which no slot takes a link. -/
theorem State.autoSlot_none
    (h : (∀ p ∈ s.profiles, p.identity = d → p.autoAdmit = false) ∨ (∀ i, (s.slot i).state ≠ .empty) ∨
      ∃ i, s.lowestEmpty = some i ∧ ∃ n ∈ s.notices.queue, n.body.subject = .slot i) :
    s.autoSlot (s.profileOf d) = none := by
  unfold State.autoSlot
  cases hp : s.profileOf d with
  | none => rfl
  | some p =>
    cases hi : s.lowestEmpty with
    | none => rfl
    | some i =>
      dsimp only
      rw [if_neg]
      rintro ⟨hauto, hno⟩
      rcases h with h | h | ⟨j, hj, n, hn, hsub⟩
      · have hid : p.identity = d := by simpa using List.find?_some hp
        rewrite [h p (List.mem_of_find?_eq_some hp) hid] at hauto
        cases hauto
      · exact h i (State.lowestEmpty_some hi)
      · obtain rfl : j = i := by rewrite [hj] at hi; exact Option.some.inj hi
        have : s.notices.holdsAbout j = true := List.any_eq_true.mpr ⟨n, hn, by simp [hsub]⟩
        simp [this] at hno

/-- Settles O24: a link that nothing takes, on a list with room and on a full one. -/
theorem linkUpJoinsPendingList : Obligations.LinkUpJoinsPendingList := by
  intro h d mic s h0 hn hp hid hauto old kept entry joined
  have run : exec (.linkUp h d mic) s = .next (s.appendPending entry) := by
    rw [exec_linkUp_eq h0, State.linkUp_fresh hn hp,
      State.placeLink_append (link := entry) (State.slotOfIdentity_none.mpr hid) (State.autoSlot_none hauto)]
  refine ⟨fun hroom => ?_, fun e rest hkept hfull => ?_⟩
  · show exec _ s = _
    rewrite [run]
    unfold State.appendPending
    rewrite [State.supersede_eq]
    dsimp only
    have : ¬Config.pendingCapacity ≤ (s.radio.pendingLinks.filter fun e => e.identity != d).length := Nat.not_le.mpr hroom
    rewrite [if_neg this, if_neg this]
    simp [State.release, State.setPendingLinks, State.raise, State.withNotice, entry, kept, old]
  · show exec _ s = _
    rewrite [run]
    unfold State.appendPending
    rewrite [State.supersede_eq]
    dsimp only
    have hk : (s.radio.pendingLinks.filter fun e => e.identity != d) = e :: rest := hkept
    rewrite [hkept] at hfull
    rewrite [hk, if_pos hfull, if_pos hfull]
    simp [State.release, State.send, State.setPendingLinks, State.raise, State.withNotice, entry, old]

/-- Settles O25: the admission by profile, alone or beside the profile's partner. -/
theorem linkUpAutoAdmits : Obligations.LinkUpAutoAdmits := by
  intro h d mic s p i h0 hn hp hid hprofile hauto hi hq old t limit record notice
  let link : PendingLink := { handle := h, identity := d, mic := mic }
  let v : AdmissionValues :=
    { side := p.side, inTarget := max 160 (min 800 (p.inTarget.getD 320)),
      outTarget := max 160 (min 800 (p.outTarget.getD 240)), seed := max (-15) (min 15 p.seed) }
  have hrecord : admittedRecord (s.slot i) link v s.limits.slotLimit = record := by
    unfold admittedRecord
    rewrite [seedEstimate_eq, Slot.measuring_eq]
    rfl
  have run : exec (.linkUp h d mic) s =
      .next ((t.admitInto i link v (s.namedPartner (some p) p.side)).raiseSlot i .admitted (some h) none) := by
    have hprof : s.profileOf d = some p := hprofile
    rewrite [exec_linkUp_eq h0, State.linkUp_fresh hn hp, State.placeLink]
    dsimp only
    rewrite [State.slotOfIdentity_none.mpr hid, hprof]
    dsimp only
    rewrite [State.autoSlot_some hauto hi hq]
    dsimp only
    unfold State.autoAdmit
    rewrite [State.supersede_eq]
    dsimp only
    rewrite [resolveTarget_eq, resolveTarget_eq, resolveSeed_eq, State.profilePartner_eq]
    rfl
  cases hk : s.namedPartner (some p) p.side with
  | none =>
    rewrite [run, hk, State.admitInto_none, State.raiseSlot_eq, State.slot_setSlot_self]
    show Host.Outcome.next (State.withNotice (t.setSlot i (admittedRecord (s.slot i) link v s.limits.slotLimit))
      (.slot i (slotNotice (admittedRecord (s.slot i) link v s.limits.slotLimit) _ _ _))) = _
    rewrite [hrecord]
    rfl
  | some k =>
    let leads := (s.slot k).state = .lost
    let mine : Slot :=
      { record with
        role := if leads then .leader else .follower, partner := some k,
        talker := { record.talker with primary := decide leads } }
    let theirs : Slot :=
      { s.slot k with
        role := if leads then .follower else .leader, partner := some i,
        talker := { (s.slot k).talker with primary := !decide leads } }
    show k ≠ i → exec (.linkUp h d mic) s =
      .next (((t.withSlot i mine).withSlot k theirs).withNotice (notice mine))
    intro hne
    let u := (t.setSlot i mine).setSlot k theirs
    have hadmit : t.admitInto i link v (some k) = u := by
      rewrite [State.admitInto_some hne]
      show (State.setSlot _ i { admittedRecord (s.slot i) link v s.limits.slotLimit with
        role := _, partner := _, talker := _ }).setSlot k _ = _
      rewrite [hrecord]
      rfl
    have hu : u.slot i = mine := by rw [State.slot_setSlot_ne _ hne.symm, State.slot_setSlot_self]
    rewrite [run, hk, hadmit, State.raiseSlot_eq, hu]
    rfl

end Sys2Proof.Machine
end

section
/-!
SUPPORT. PORT.RESET in the words of R12 and R35: which slots fail, which pairs end, what is left of the rest.
-/
namespace Sys2Proof.Machine

variable {s : State} {i k : SlotId}

/-- A change made to every slot touches the records, the queue and the applied gains alone. -/
theorem State.changeSlots_eq (s : State) (f : Slot → Slot × Option SlotReason) (b : Option SlotReason) :
    s.changeSlots f b = { s with
      slots := (s.changeSlots f b).slots
      notices := { s.notices with queue := (s.changeSlots f b).notices.queue }
      mix := { s.mix with applied := (s.changeSlots f b).mix.applied } } := by
  let u := s.changeSlots f b
  show (⟨u.link, u.notices, u.radio, u.profiles, u.slots, u.call, u.rate, u.limits, u.mix, u.talk, u.prompt, u.capture,
    u.resetHeld, u.pending⟩ : State) = _
  rewrite [State.mk.injEq]
  refine ⟨State.changeSlots_link .., ?_, State.changeSlots_radio .., State.changeSlots_profiles .., rfl,
    State.changeSlots_call .., State.changeSlots_rate .., State.changeSlots_limits .., ?_, State.changeSlots_talk ..,
    State.changeSlots_prompt .., State.changeSlots_capture .., State.changeSlots_resetHeld ..,
    State.changeSlots_pending ..⟩
  · dsimp only
    rw [← State.changeSlots_notices_mask s f b]
  · dsimp only
    rw [← State.changeSlots_mix_targets s f b, ← State.changeSlots_mix_period s f b]

/-- The pending list emptied. -/
def State.portReset (s : State) : State := (s.changeSlots Slot.portReset none).setPendingLinks []

theorem exec_portReset_eq (s : State) : exec .portReset s = .next s.portReset := rfl

/-! ### One record (R12) -/

/-- Slot `i` empties in a PORT.RESET. -/
def State.dropped (s : State) (i : SlotId) : Bool := (s.slot i).state.acquiring

/-- The pair of slot `i` ends in a PORT.RESET by its partner's failing (R33). -/
def State.abandoned (s : State) (i : SlotId) : Bool :=
  match (s.slot i).partner with
  | some k => s.dropped k && !s.dropped i
  | none => false

theorem Slot.portReset_handle (x : Slot) (h : x.state = .empty → x.handle = none) : x.portReset.1.handle = none := by
  unfold Slot.portReset
  split
  · next he => exact h he
  all_goals rfl

theorem Slot.portReset_stats (x : Slot) : x.portReset.1.stats = x.stats := by
  unfold Slot.portReset
  split <;> rfl

theorem Slot.portReset_live (x : Slot) : x.portReset.1.state.live = false := by
  unfold Slot.portReset
  split <;> simp_all [SlotState.live, Slot.emptied, Slot.initial, Slot.lost]

theorem Slot.portReset_reason (x : Slot) : x.portReset.2 =
    if x.state.acquiring then some .failDown
    else if x.state == .active || x.state == .stalled then some .portReset
    else none := by
  unfold Slot.portReset
  cases hs : x.state <;> rfl

/-- A slot that fails is EMPTY, and no other slot becomes so. -/
theorem Slot.portReset_empty (x : Slot) : (x.portReset.1.state = .empty) ↔ x.state = .empty ∨ x.state.acquiring = true := by
  unfold Slot.portReset
  cases hs : x.state <;> simp [hs, SlotState.acquiring, Slot.emptied, Slot.initial, Slot.lost, Slot.flush]

theorem Slot.portReset_partner (x : Slot) :
    x.portReset.1.partner = if x.state.acquiring then none else x.partner := by
  unfold Slot.portReset
  cases hs : x.state <;> rfl

/-! ### The pairs (R33, R35) -/

theorem State.pairEnded_portReset (hP : s.PairsLawful) (i : SlotId) :
    pairEnded (s.slots.map fun x => x.portReset.1) i = s.abandoned i := by
  unfold pairEnded State.abandoned
  simp only [PerSlot.get_map, State.slot_def, Slot.portReset_partner]
  unfold State.dropped
  cases hf : (s.slot i).state.acquiring with
  | true => cases (s.slot i).partner <;> simp
  | false =>
    rewrite [if_neg (by simp)]
    cases hk : (s.slot i).partner with
    | none => rfl
    | some k =>
      obtain ⟨-, -, hi, hk', -⟩ := hP.partner hk
      have stays : ((s.slot i).portReset.1.state != .empty) = true := by
        rewrite [bne_iff_ne, Ne, Slot.portReset_empty, hf]
        simpa using hi
      have goes : ((s.slot k).portReset.1.state == .empty) = (s.slot k).state.acquiring := by
        rewrite [Bool.eq_iff_iff, beq_iff_eq, Slot.portReset_empty]
        simp [hk']
      dsimp only
      rewrite [stays, goes]
      simp

/-- No slot of a PORT.RESET is one that R31 concerns. -/
theorem State.portReset_lost (s : State) :
    (fun i => (s.slot i).portReset.2.isSome && (s.slot i).portReset.2 == none) = fun _ : SlotId => false := by
  funext j
  cases (s.slot j).portReset.2 <;> rfl

theorem State.slot_portReset (s : State) (i : SlotId) :
    s.portReset.slot i = pairedAfter (s.slots.map fun x => x.portReset.1) (fun _ => false) i := by
  have := State.slot_changeSlots (s := s) Slot.portReset none i
  rewrite [State.portReset_lost] at this
  exact this

theorem State.slot_portReset_lawful (hP : s.PairsLawful) (i : SlotId) : s.portReset.slot i =
    if s.abandoned i then
      { (s.slot i).portReset.1 with
        role := .solo, partner := none, talker := { (s.slot i).portReset.1.talker with primary := false } }
    else (s.slot i).portReset.1 := by
  rewrite [State.slot_portReset, pairedAfter]
  simp only [State.pairEnded_portReset hP, swapsUp_none, swapsDown_none, Bool.false_eq_true, if_false, PerSlot.get_map]
  rfl

theorem State.applied_portReset (s : State) : (s.changeSlots Slot.portReset none).mix.applied =
    .tabulate fun o j =>
      if SlotId.all.any fun i =>
          ((s.slot i).state == .active || (s.slot i).state == .stalled) && (o == .o i || j == .e i) then 0
      else s.mix.applied.get o j := by
  apply GainMatrix.ext_get
  intro o j
  have hleaves : ∀ i, leavesLive s Slot.portReset i = ((s.slot i).state == .active || (s.slot i).state == .stalled) :=
    fun i => by rewrite [leavesLive, Slot.portReset_live, Bool.not_false, Bool.and_true]; rfl
  rewrite [State.changeSlots_applied, GainMatrix.get_tabulate]
  simp only [hleaves]

/-- Settles O29: the records one by one, then the pairs that end, then the notices in their order. -/
theorem portResetEndsEveryLink : Obligations.PortResetEndsEveryLink := by
  intro s hempty ended
  have hended : ∀ i, (s.slot i).portReset.1 = ended i := by
    intro i
    dsimp only [ended]
    unfold Slot.portReset
    cases (s.slot i).state <;> rfl
  have hrecord : ∀ i, ∃ role partner primary, s.portReset.slot i =
      { (s.slot i).portReset.1 with
        role := role, partner := partner, talker := { (s.slot i).portReset.1.talker with primary := primary } } := by
    intro i
    rewrite [State.slot_portReset]
    have := pairedAfter_eq (s.slots.map fun x => x.portReset.1) (fun _ => false) i
    rewrite [PerSlot.get_map] at this
    exact this
  refine ⟨s.portReset, exec_portReset_eq s, ?_, fun i => ?_, fun i => ?_, fun hP => ?_⟩
  · show (s.changeSlots Slot.portReset none).setPendingLinks [] = _
    rewrite [State.changeSlots_eq, State.applied_portReset]
    rfl
  · obtain ⟨role, partner, primary, hi⟩ := hrecord i
    rewrite [hi]
    exact ⟨Slot.portReset_handle _ (hempty i), Slot.portReset_stats _⟩
  · obtain ⟨role, partner, primary, hi⟩ := hrecord i
    rw [hi, hended]
  · intro fails ends notice
    have hslot : ∀ i, s.portReset.slot i = if ends i then
        { ended i with role := .solo, partner := none, talker := { (ended i).talker with primary := false } }
        else ended i := fun i => by
      rewrite [← hended]
      exact State.slot_portReset_lawful hP i
    refine ⟨hslot, (State.changeSlots_queue (s := s) Slot.portReset none).trans ?_⟩
    congr 2
    · congr 1
      funext i
      show Option.map _ (s.slot i).portReset.2 = _
      rewrite [Slot.portReset_reason]
      by_cases hf : (s.slot i).state.acquiring = true
      · rewrite [if_pos hf]
        exact (if_pos hf).symm
      · rewrite [if_neg hf]
        refine Eq.trans ?_ (if_neg hf).symm
        by_cases hl : ((s.slot i).state == .active || (s.slot i).state == .stalled) = true
        · rewrite [if_pos hl, if_pos hl]
          rfl
        · rewrite [if_neg hl, if_neg hl]
          rfl
    · congr 1
      funext i
      have hnone : (s.portReset.slot i).handle = none := by
        obtain ⟨role, partner, primary, hi⟩ := hrecord i
        rewrite [hi]
        exact Slot.portReset_handle _ (hempty i)
      rewrite [State.portReset_lost, roleChanged, State.pairEnded_portReset hP, swapsUp_none, Bool.or_false]
      show (if ends i = true then some (NoticeBody.slot i
        (slotNotice (s.portReset.slot i) .role (s.portReset.slot i).handle none)) else none) = _
      rewrite [hnone]
      rfl

end Sys2Proof.Machine
end

section
/-!
SUPPORT. Microphone blocks: what a block that is taken does to its slot (R53 to R59), the anomalies of its arrival (R66),
the entry into ACTIVE (R9), and what traffic does to a slot that is STALLED or LOST (R7, R10).
-/
namespace Sys2Proof.Machine

variable {s : State} {i : SlotId} {x : Slot} {g : Nat} {seq : SeqNum} {stamp : Stamp} {bad : Bool} {samples : List Sample}

/-! ### The effect of a block (R55 to R59) -/

theorem Slot.gapBlocks_zero (x : Slot) : x.gapBlocks 0 = 0 := Nat.zero_min _

theorem Slot.blockAppended_inOrder (x : Slot) (samples : List Sample) :
    x.blockAppended 0 false samples = x.inRing.samples ++ samples := by
  unfold Slot.blockAppended
  rewrite [x.gapBlocks_zero]
  exact congrArg (· ++ samples) (List.append_nil _)

/-- What a good block in order passes 1024 by, on an ACTIVE slot (R59). -/
theorem Slot.blockOverrun_inOrder (hs : x.state = .active) (hl : samples.length = 80) :
    x.blockOverrun 0 false samples = x.inRing.samples.length + 80 - 1024 := by
  unfold Slot.blockOverrun
  rw [if_neg (by rewrite [hs]; decide), x.blockAppended_inOrder, List.length_append, hl]

theorem overrunDiscard_eq (n : Nat) : overrunDiscard n = n + 80 - 1024 := by
  unfold overrunDiscard
  split
  · exact (Nat.add_sub_add_right n 80 944).symm
  · next room => exact (Nat.sub_eq_zero_of_le (Nat.le_of_not_lt room)).symm

/-- The overrun rule of a ring's append is that of the block, on a live slot and on an acquiring one (R58, R59). -/
theorem Slot.appendDiscard_eq (hl : samples.length = 80)
    (hs : x.state = .active ∨ x.state = .measuring ∨ x.state = .filling) :
    (if x.state.live then overrunDiscard x.inRing.samples.length else 0) = x.blockOverrun 0 false samples := by
  obtain hs | hs := hs
  · rw [Slot.blockOverrun_inOrder hs hl, if_pos (by rewrite [hs]; decide), overrunDiscard_eq]
  · rw [Slot.blockOverrun, if_pos hs, if_neg (by obtain hs | hs := hs <;> rewrite [hs] <;> decide)]

/-- A good block with no gap before it inserts no concealment: its append is all of its effect. -/
theorem micEffect_noGap (r : InRing) (live : Bool) (target : Nat) (samples : List Sample) :
    micEffect r live target 0 false samples =
      { ring := (r.appendReal live samples).1, concealed := 0, skipped := 0, discarded := (r.appendReal live samples).2 } := by
  have none_inserted : min 0 (min 8 (concealCap target r.samples.length)) = 0 := Nat.zero_min _
  unfold micEffect
  rewrite [none_inserted]
  exact congrArg (MicEffect.mk (r.appendReal live samples).1 0 0) (Nat.zero_add _)

/-- A good block in order, on any ring: the block is appended, and a live slot's overrun discarded (R59). -/
theorem micEffect_inOrder (x : Slot) (hl : samples.length = 80)
    (hs : x.state = .active ∨ x.state = .measuring ∨ x.state = .filling) :
    micEffect x.inRing x.state.live x.inTarget 0 false samples =
      { ring := { x.inRing with
          samples := (x.blockAppended 0 false samples).drop (x.blockOverrun 0 false samples)
          phase := if x.blockOverrun 0 false samples = 0 then x.inRing.phase else 0
          history := some samples, run := 0 }
        concealed := 0, skipped := 0, discarded := x.blockOverrun 0 false samples } := by
  have within : (if x.state.live then overrunDiscard x.inRing.samples.length else 0) ≤ x.inRing.samples.length := by
    split
    · rewrite [overrunDiscard_eq]
      exact Nat.sub_le_of_le_add (Nat.add_le_add_left (by decide) _)
    · exact Nat.zero_le _
  rewrite [micEffect_noGap, x.blockAppended_inOrder, ← Slot.appendDiscard_eq hl hs, List.drop_append_of_le_length within]
  rfl

/-- What a block that is not late does to the ring, where the ring is lawful or the block is good and in order. -/
theorem micEffect_taken (hx : x.ringsLawful ∨ (g = 0 ∧ bad = false)) (hl : samples.length = 80)
    (hs : x.state = .active ∨ x.state = .measuring ∨ x.state = .filling) :
    micEffect x.inRing x.state.live x.inTarget g bad samples =
      { ring := { x.inRing with
          samples := (x.blockAppended g bad samples).drop (x.blockOverrun g bad samples)
          phase := if x.blockOverrun g bad samples = 0 then x.inRing.phase else 0
          history := if bad then x.inRing.history else some samples
          run := if bad then min 255 (x.inRing.run + (x.gapBlocks g + x.badBlocks g)) else 0 }
        concealed := x.gapBlocks g + if bad then x.badBlocks g else 0
        skipped := g - x.gapBlocks g
        discarded := x.blockOverrun g bad samples } := by
  rcases hx with hx | ⟨rfl, rfl⟩
  · exact micEffect_eq hx g bad hl hs
  · rewrite [micEffect_inOrder x hl hs, x.gapBlocks_zero]
    rfl

/-- The ring after its trim where the slot is acquiring (R58): all that stands beyond the overrun or the target. -/
theorem Slot.withBlock_eq (hx : x.ringsLawful ∨ (g = 0 ∧ bad = false)) (hl : samples.length = 80)
    (hs : x.state = .active ∨ x.state = .measuring ∨ x.state = .filling) :
    let e := micEffect x.inRing x.state.live x.inTarget g bad samples
    { x with
      idle := 0
      inRing :=
        if x.state.acquiring then ({ e.ring with expected := some (seq + 1) } : InRing).trim x.inTarget
        else { e.ring with expected := some (seq + 1) }
      stats := { x.stats with micIn := satAdd16 x.stats.micIn 1 }.afterMic e bad } = x.withBlock g seq bad samples := by
  intro e
  have he : e = _ := micEffect_taken hx hl hs
  clear_value e
  subst he
  have acquiring : x.state.acquiring = true ↔ x.state = .measuring ∨ x.state = .filling := by
    cases x.state <;> decide
  unfold Slot.withBlock
  dsimp only
  by_cases ha : x.state = .measuring ∨ x.state = .filling
  · have h0 : x.blockOverrun g bad samples = 0 := if_pos ha
    rewrite [if_pos (acquiring.mpr ha), if_pos ha, h0, if_pos rfl]
    cases bad <;> rfl
  · rewrite [if_neg (mt acquiring.mp ha), if_neg ha]
    cases bad <;> rfl

/-! ### The entry into ACTIVE (R9, R32, R127) -/

theorem State.activate_eq (s : State) (i : SlotId) : s.activate i = s.activated i := by
  unfold State.activate State.activated
  rewrite [State.takeLead_eq (by
    rewrite [State.raiseSlot_slot, State.zeroGains_slot, State.slot_modSlot_self]
    exact fun h => SlotState.noConfusion h), State.raiseSlot_eq, State.zeroGains_slot, State.slot_modSlot_self,
    ← State.silencedWhen_true]
  rfl

theorem State.fillTest_stays (h : (s.slot i).state ≠ .filling ∨
    ((s.slot i).mic = true ∧ (s.slot i).inRing.samples.length < (s.slot i).inTarget)) : s.fillTest i = s := by
  unfold State.fillTest
  refine if_neg fun ⟨hf, hfull⟩ => ?_
  obtain hne | ⟨hmic, hfill⟩ := h
  · exact hne hf
  · rewrite [hmic] at hfull
    exact hfull.elim (fun h => Bool.noConfusion h) (Nat.not_le.mpr hfill)

theorem State.fillTest_fills (hf : (s.slot i).state = .filling)
    (h : (s.slot i).mic = false ∨ (s.slot i).inTarget ≤ (s.slot i).inRing.samples.length) :
    s.fillTest i = s.activated i := by
  unfold State.fillTest
  rw [if_pos ⟨hf, h.imp_left fun hm => by rewrite [hm]; rfl⟩, State.activate_eq]

/-! ### A block that is taken (R53, R66) -/

theorem State.slotAnomaly_recorded {h : Option Handle} (hh : (s.slot i).handle = h) (occurred : Bool)
    (kind : AnomalyKind) (message : Option (SeqNum × Stamp)) :
    s.slotAnomaly occurred kind i message =
      (if occurred then [kind] else []).foldl (fun t kind => t.recorded kind (some i) h message) s := by
  cases occurred with
  | false => rfl
  | true => exact hh ▸ State.anomaly_eq ..

theorem State.foldl_recorded_slot (h : Option Handle) (message : Option (SeqNum × Stamp)) (j : SlotId) :
    ∀ (l : List AnomalyKind) (s : State),
      (l.foldl (fun t kind => t.recorded kind (some i) h message) s).slot j = s.slot j
  | [], _ => rfl
  | _ :: l, _ => (State.foldl_recorded_slot h message j l _).trans (State.recorded_slot ..)

/-- The three anomalies of an arrival, in their order. -/
theorem State.anomalies_recorded {h : Option Handle} (hh : (s.slot i).handle = h) (skip bad overrun : Bool)
    (message : Option (SeqNum × Stamp)) :
    ((s.slotAnomaly skip .skip i message).slotAnomaly bad .bad i message).slotAnomaly overrun .inOverrun i message =
      ((if skip then [AnomalyKind.skip] else []) ++ (if bad then [AnomalyKind.bad] else []) ++
        if overrun then [AnomalyKind.inOverrun] else []).foldl (fun t kind => t.recorded kind (some i) h message) s := by
  rw [List.foldl_append, List.foldl_append, State.slotAnomaly_recorded hh skip, State.slotAnomaly_recorded (h := h) _ bad,
    State.slotAnomaly_recorded (h := h)]
  · rewrite [State.foldl_recorded_slot, State.foldl_recorded_slot]
    exact hh
  · rewrite [State.foldl_recorded_slot]
    exact hh

/-- The slot as the arrival of a MIC leaves it before the block is taken (R5, R65). -/
def Slot.arrived (x : Slot) : Slot :=
  { x with idle := 0, stats := { x.stats with micIn := satAdd16 x.stats.micIn 1 } }

theorem State.takeBlock_eq (hx : (s.slot i).ringsLawful ∨ (g = 0 ∧ bad = false)) (hl : samples.length = 80)
    (hs : (s.slot i).state = .active ∨ (s.slot i).state = .measuring ∨ (s.slot i).state = .filling) :
    (s.setSlot i (s.slot i).arrived).takeBlock i g seq stamp bad samples =
      (s.blockTaken i g seq stamp bad samples).fillTest i := by
  have record := Slot.withBlock_eq (seq := seq) hx hl hs
  unfold State.takeBlock
  dsimp only
  rewrite [State.slot_setSlot_self, State.modSlot, State.slot_setSlot_self, State.setSlot_setSlot]
  refine congrArg (fun t => State.fillTest t i) ?_
  refine (congrArg (fun y => (((s.setSlot i y).slotAnomaly _ .skip i _).slotAnomaly bad .bad i _).slotAnomaly _
    .inOverrun i _) record).trans ?_
  refine (State.anomalies_recorded (h := (s.slot i).handle) (by rewrite [State.slot_setSlot_self]; rfl) ..).trans ?_
  have effect := micEffect_taken hx hl hs
  unfold State.blockTaken Slot.arrived
  dsimp only
  rewrite [effect]
  simp only [decide_eq_true_eq, Nat.sub_pos_iff_lt]
  rfl

/-! ### A MIC on a slot that binds its handle (R53, R54) -/

theorem Slot.plain (hs : x.state = .active ∨ x.state = .measuring ∨ x.state = .filling) :
    x.state ≠ .stalled ∧ x.state ≠ .lost := by
  rcases hs with h | h | h <;> rewrite [h] <;> decide

theorem State.arrived_eq (hs : (s.slot i).state = .active ∨ (s.slot i).state = .measuring ∨ (s.slot i).state = .filling) :
    (s.activity i).count i (fun c => { c with micIn := satAdd16 c.micIn 1 }) = s.setSlot i (s.slot i).arrived := by
  obtain ⟨hstalled, hlost⟩ := Slot.plain hs
  rewrite [State.activity_plain hstalled hlost, State.count, State.modSlot, State.slot_setSlot_self, State.setSlot_setSlot]
  rfl

theorem State.micOnSlot_taken (hx : (s.slot i).ringsLawful ∨ (g = 0 ∧ bad = false)) (hl : samples.length = 80)
    (hs : (s.slot i).state = .active ∨ (s.slot i).state = .measuring ∨ (s.slot i).state = .filling)
    (hg : (s.slot i).gapBefore seq = some g) :
    s.micOnSlot i seq stamp bad samples = (s.blockTaken i g seq stamp bad samples).fillTest i := by
  unfold State.micOnSlot
  dsimp only
  rewrite [State.arrived_eq hs, State.slot_setSlot_self, show (s.slot i).arrived.inRing = (s.slot i).inRing from rfl,
    classifyMic_of_gapBefore hg]
  exact State.takeBlock_eq hx hl hs

theorem classifyMic_late {expected : SeqNum} (h : 32768 ≤ (seq - expected).toNat) :
    classifyMic (some expected) seq = .late := if_neg (Nat.not_lt.mpr h)

theorem State.micOnSlot_late {expected : SeqNum}
    (hs : (s.slot i).state = .active ∨ (s.slot i).state = .measuring ∨ (s.slot i).state = .filling)
    (he : (s.slot i).inRing.expected = some expected) (hlate : 32768 ≤ (seq - expected).toNat) :
    s.micOnSlot i seq stamp bad samples =
      (s.setSlot i { (s.slot i).arrived with stats :=
        { (s.slot i).arrived.stats with late := satAdd16 (s.slot i).stats.late 1 } }).slotAnomaly true .late i
          (some (seq, stamp)) := by
  unfold State.micOnSlot
  dsimp only
  rewrite [State.arrived_eq hs, State.slot_setSlot_self, show (s.slot i).arrived.inRing = (s.slot i).inRing from rfl,
    he, classifyMic_late hlate]
  dsimp only
  rewrite [State.count, State.modSlot, State.slot_setSlot_self, State.setSlot_setSlot]
  rfl

/-- The record after the block, but for the ring and what counts it, is the slot's. -/
theorem Slot.withBlock_kept (x : Slot) (g : Nat) (seq : SeqNum) (bad : Bool) (samples : List Sample) :
    (x.withBlock g seq bad samples).state = x.state ∧ (x.withBlock g seq bad samples).mic = x.mic ∧
      (x.withBlock g seq bad samples).inTarget = x.inTarget := ⟨rfl, rfl, rfl⟩

/-- Settles O31: the block is taken, and the fill test leaves an ACTIVE slot alone. -/
theorem micGapsAreConcealed : Obligations.MicGapsAreConcealed := by
  intro handle seq stamp bad samples s i g h0 hl hi hs hx hg
  rw [exec_mic_bound h0 hl seq stamp bad hi, State.micOnSlot_taken (.inl hx) hl (.inl hs) hg, State.fillTest_stays]
  left
  rewrite [State.slot_blockTaken]
  show (s.slot i).state ≠ .filling
  rewrite [hs]
  decide

/-- Settles O32: the block is taken, and the fill test of R9 decides. -/
theorem micWhileAcquiring : Obligations.MicWhileAcquiring := by
  intro handle seq stamp bad samples s i g h0 hl hi hs hx hg x fill
  rewrite [exec_mic_bound h0 hl seq stamp bad hi, State.micOnSlot_taken hx hl (.inr hs) hg]
  have record := State.slot_blockTaken (s := s) i g seq stamp bad samples
  refine ⟨fun h => congrArg Host.Outcome.next (State.fillTest_stays ?_), fun hf h =>
    congrArg Host.Outcome.next (State.fillTest_fills ?_ ?_)⟩
  · rewrite [record]
    exact h.imp_left fun hm => show x.state ≠ .filling by rewrite [hm]; decide
  · rewrite [record]
    exact hf
  · rewrite [record]
    exact h

theorem Slot.gapBefore_inOrder (he : x.inRing.expected = none ∨ x.inRing.expected = some seq) :
    x.gapBefore seq = some 0 := by
  unfold Slot.gapBefore
  obtain he | he := he <;> rw [he]
  dsimp only
  rewrite [BitVec.sub_self]
  rfl

theorem Slot.withBlock_inOrder {d : Nat} (hs : x.state = .active) (hl : samples.length = 80) (hb : x.stats.Bounded)
    (hd : x.inRing.samples.length + 80 - 1024 = d) :
    x.withBlock 0 seq false samples = { x with
      idle := 0
      inRing :=
        { samples := x.inRing.samples.drop d ++ samples, phase := if d = 0 then x.inRing.phase else 0,
          expected := some (seq + 1), history := some samples, run := 0 }
      stats := { x.stats with
        micIn := min 65535 (x.stats.micIn + 1), inOverrun := min 65535 (x.stats.inOverrun + d) } } := by
  obtain ⟨_, hconcealed, hskipped, _⟩ := hb
  have live : ¬(x.state = .measuring ∨ x.state = .filling) := by rewrite [hs]; decide
  have within : d ≤ x.inRing.samples.length := by omega
  unfold Slot.withBlock
  dsimp only
  rewrite [x.gapBlocks_zero, Slot.blockOverrun_inOrder hs hl, hd, x.blockAppended_inOrder, if_neg live,
    List.drop_append_of_le_length within]
  simp only [Bool.false_eq_true, if_false, Nat.add_zero, Nat.sub_self, Nat.min_eq_right hconcealed,
    Nat.min_eq_right hskipped]

/-- The one anomaly that a good block in order can record is its overrun (R66). -/
theorem State.blockTaken_inOrder {d : Nat} (hs : (s.slot i).state = .active) (hl : samples.length = 80)
    (hd : (s.slot i).inRing.samples.length + 80 - 1024 = d) {h : Handle} (hh : (s.slot i).handle = some h) :
    s.blockTaken i 0 seq stamp false samples =
      if d = 0 then s.withSlot i ((s.slot i).withBlock 0 seq false samples)
      else (s.withSlot i ((s.slot i).withBlock 0 seq false samples)).recorded .inOverrun (some i) (some h)
        (some (seq, stamp)) := by
  unfold State.blockTaken
  dsimp only
  rewrite [Slot.blockOverrun_inOrder hs hl, hd, Slot.gapBlocks_zero, hh]
  cases d with
  | zero => rfl
  | succ d => rewrite [if_neg (Nat.succ_ne_zero d), if_pos (Nat.succ_pos d)]; rfl

/-- Settles O30: a block in order is taken with no gap before it. -/
theorem micBlockInOrder : Obligations.MicBlockInOrder := by
  intro handle seq stamp samples s i h0 hl hi hs hb he x d t
  rewrite [exec_mic_bound h0 hl seq stamp false hi, State.micOnSlot_taken (.inr ⟨rfl, rfl⟩) hl (.inl hs)
    (Slot.gapBefore_inOrder he), State.fillTest_stays]
  · rw [State.blockTaken_inOrder hs hl rfl hi.1, Slot.withBlock_inOrder hs hl hb rfl]
  · left
    rewrite [State.slot_blockTaken]
    show (s.slot i).state ≠ .filling
    rewrite [hs]
    decide

theorem exec_mic_unbound {h : Handle} (h0 : h ≠ 0) (hl : samples.length = 80) (hn : s.Unheld h) :
    exec (.mic h seq stamp bad samples) s =
      .next (if s.isPending h then s else s.anomaly .unbound none (some h) (some (seq, stamp))) := by
  have good : (isHandle h && isBlock samples) = true := Bool.and_eq_true_iff.mpr ⟨isHandle_of_ne h0, beq_iff_eq.mpr hl⟩
  show Host.Outcome.next (if isHandle h && isBlock samples then s.takeMic h seq stamp bad samples else _) = _
  rewrite [if_pos good]
  unfold State.takeMic
  rw [State.boundSlot_unheld hn]

/-- Settles O33: late blocks, and blocks for handles that no slot binds. -/
theorem micNotTaken : Obligations.MicNotTaken := by
  intro handle seq stamp bad samples s
  refine ⟨fun h0 hl => ⟨fun i expected hi hs he hlate => ?_, fun hn hp => ?_, fun hn hp => ?_⟩, fun hbad => ?_⟩
  · rewrite [exec_mic_bound h0 hl seq stamp bad hi, State.micOnSlot_late hs he hlate, State.slotAnomaly_recorded (h := some handle)]
    · rfl
    · rewrite [State.slot_setSlot_self]
      exact hi.1
  · rw [exec_mic_unbound h0 hl hn, if_pos (State.isPending_iff.mpr hp)]
  · rw [exec_mic_unbound h0 hl hn, if_neg (mt State.isPending_iff.mp (not_not.mpr hp)), State.anomaly_eq]
  · have malformed : (isHandle handle && isBlock samples) = false := by
      rewrite [Bool.and_eq_false_iff]
      exact hbad.imp (fun h => by rewrite [h]; rfl) beq_false_of_ne
    show Host.Outcome.next (if isHandle handle && isBlock samples then _ else _) = _
    rewrite [malformed]
    rfl

/-! ### Traffic on a slot that is STALLED or LOST (R7, R10) -/

theorem State.activity_stalled (h : (s.slot i).state = .stalled) :
    s.activity i = ((s.withSlot i { s.slot i with state := .active, idle := 0 }).withNotice
      (.slot i (slotNotice { s.slot i with state := .active } .resumed (s.slot i).handle none))).leadTaken i := by
  unfold State.activity
  dsimp only
  rewrite [State.slot_modSlot_self]
  dsimp only
  rewrite [h]
  dsimp only
  rewrite [State.takeLead_eq (by
    rewrite [State.raiseSlot_slot, State.slot_modSlot_self]
    exact fun h => SlotState.noConfusion h), State.raiseSlot_eq]
  simp only [State.modSlot, State.slot_setSlot_self, State.setSlot_setSlot]
  rfl

theorem State.activity_lost (h : (s.slot i).state = .lost) :
    s.activity i = (s.withSlot i (s.slot i).acquiringRecord).withNotice
      (.slot i (slotNotice (s.slot i).acquiringRecord .recovering (s.slot i).handle none)) := by
  unfold State.activity
  dsimp only
  rewrite [State.slot_modSlot_self]
  dsimp only
  rewrite [h]
  dsimp only
  rewrite [State.raiseSlot_eq]
  simp only [State.modSlot, State.slot_setSlot_self, State.setSlot_setSlot]
  rfl

/-- What a message does to the slot that binds its handle starts with the slot's activity (R5). -/
theorem exec_of_activity {t : State} {c : Instr} {h : Handle} (h0 : h ≠ 0) (hi : s.Holds i h) (ht : t.Holds i h)
    (hc : (∃ seq stamp, c = .pull h seq stamp) ∨
      ∃ seq stamp bad samples, samples.length = 80 ∧ c = .mic h seq stamp bad samples)
    (ha : s.activity i = t.activity i) : exec c s = exec c t := by
  obtain ⟨seq, stamp, rfl⟩ | ⟨seq, stamp, bad, samples, hl, rfl⟩ := hc
  · rw [exec_pull_bound h0 seq stamp hi, exec_pull_bound h0 seq stamp ht, State.pullOnSlot, State.pullOnSlot, ha]
  · rw [exec_mic_bound h0 hl seq stamp bad hi, exec_mic_bound h0 hl seq stamp bad ht, State.micOnSlot, State.micOnSlot, ha]

theorem State.Holds.of_handles {t : State} {h : Handle} (hi : s.Holds i h)
    (ht : ∀ j, (t.slot j).handle = (s.slot j).handle) : t.Holds i h :=
  ⟨(ht i).trans hi.1, fun j hj => hi.2 j ((ht j).symm.trans hj)⟩

/-- A slot at idle count 0 that is neither STALLED nor LOST is left alone by its activity (R5). -/
theorem State.activity_idle0 (hidle : (s.slot i).idle = 0) (hstalled : (s.slot i).state ≠ .stalled)
    (hlost : (s.slot i).state ≠ .lost) : s.activity i = s := by
  rewrite [State.activity_plain hstalled hlost]
  have : ({ s.slot i with idle := 0 } : Slot) = s.slot i := by rw [← hidle]
  rewrite [this]
  exact State.setSlot_self

/-- The handles after slot `i`'s record is replaced by one with the handle it had. -/
theorem State.handle_withSlot {y : Slot} (b : NoticeBody) (hy : y.handle = (s.slot i).handle) (j : SlotId) :
    (((s.withSlot i y).withNotice b).slot j).handle = (s.slot j).handle := by
  have slots : ((s.withSlot i y).withNotice b).slot j = if j = i then y else s.slot j := State.slot_setSlot s i j y
  rewrite [slots]
  split
  · next h => rw [h, hy]
  · rfl

/-- Settles O34: the activity of the message's slot comes first, and is done when it comes again. -/
theorem trafficRevivesSlots : Obligations.TrafficRevivesSlots := by
  intro c h s i h0 hi hc x notice
  constructor
  · intro hs
    let y : Slot := { x with state := .active, idle := 0 }
    let t := (s.withSlot i y).withNotice (notice .resumed .active)
    have revived : s.activity i = t.leadTaken i := by
      rewrite [State.activity_stalled hs, hi.1]
      rfl
    have hself : t.slot i = y := State.slot_setSlot_self s i y
    obtain ⟨r, hr⟩ := State.slot_leadTaken t i i
    rewrite [hself] at hr
    refine exec_of_activity h0 hi (hi.of_handles fun j => ?_) hc (revived.trans (State.activity_idle0 ?_ ?_ ?_).symm)
    · obtain ⟨r, hr⟩ := State.slot_leadTaken t i j
      rewrite [hr]
      exact State.handle_withSlot (y := y) _ rfl j
    · rw [hr]
    · rewrite [hr]
      exact fun h => SlotState.noConfusion h
    · rewrite [hr]
      exact fun h => SlotState.noConfusion h
  · intro hs
    let t := (s.withSlot i x.acquiringRecord).withNotice (notice .recovering .measuring)
    have revived : s.activity i = t := by
      rewrite [State.activity_lost hs, hi.1]
      rfl
    have hself : t.slot i = x.acquiringRecord := State.slot_setSlot_self s i _
    refine exec_of_activity h0 hi (hi.of_handles fun j => State.handle_withSlot (y := x.acquiringRecord) _ rfl j) hc
      (revived.trans (State.activity_idle0 ?_ ?_ ?_).symm)
    · rewrite [hself]
      rfl
    · rewrite [hself]
      exact fun h => SlotState.noConfusion h
    · rewrite [hself]
      exact fun h => SlotState.noConfusion h

end Sys2Proof.Machine
end

section
/-!
SUPPORT. Pulls: how a PULL stands to its slot's rate window (R84 to R86), the answers (R62, R63, R113), and the PULL that
completes a window (R92).
-/
namespace Sys2Proof.Machine

variable {s u : State} {i k : SlotId} {h : Handle} {seq : SeqNum} {stamp : Stamp} {w : RateWindow} {v x y : Slot}

/-! ### The rate window at a PULL (R84, R85, R86) -/

theorem State.openWindow_eq (s : State) (i : SlotId) (seq : SeqNum) (stamp : Stamp) :
    s.openWindow i seq stamp = s.setSlot i { s.slot i with window := some { startSeq := seq, startStamp := stamp } } := rfl

/-- A discarded window, and the one opened in its place: the anomaly leaves the slots alone. -/
theorem State.discardWindow_eq (s : State) (i : SlotId) (seq : SeqNum) (stamp : Stamp) :
    s.discardWindow i seq stamp =
      (s.openWindow i seq stamp).recorded .window (some i) (s.slot i).handle (some (seq, stamp)) := by
  unfold State.discardWindow
  rw [State.openWindow_eq, State.openWindow_eq, State.anomaly_eq, State.recorded_slot, ← State.anomaly_eq,
    State.anomaly_setSlot, State.anomaly_eq]

theorem classifyPull_inside {d : Nat} (h : d ≤ 63) : classifyPull d = .inside := if_pos h

theorem classifyPull_closing {d : Nat} (h : 64 ≤ d) (h' : d ≤ 127) : classifyPull d = .closing := by
  unfold classifyPull
  rw [if_neg (Nat.not_le.mpr h), if_pos h']

theorem classifyPull_overshot {d : Nat} (h : 128 ≤ d) (h' : d ≤ 32767) : classifyPull d = .overshot := by
  unfold classifyPull
  rw [if_neg (by omega), if_neg (by omega), if_pos h']

theorem classifyPull_behind {d : Nat} (h : 32768 ≤ d) : classifyPull d = .behind := by
  unfold classifyPull
  rw [if_neg (by omega), if_neg (by omega), if_neg (by omega)]

theorem State.windowPull_opens (h : (s.slot i).window = none) : s.windowPull i seq stamp = s.openWindow i seq stamp := by
  unfold State.windowPull
  rw [h]

theorem State.windowPull_keeps (hw : (s.slot i).window = some w)
    (hd : (seq - w.startSeq).toNat ≤ 63 ∨ 32768 ≤ (seq - w.startSeq).toNat) : s.windowPull i seq stamp = s := by
  unfold State.windowPull
  rewrite [hw]
  dsimp only
  obtain hd | hd := hd
  · rw [classifyPull_inside hd]
  · rw [classifyPull_behind hd]

theorem State.windowPull_discards (hw : (s.slot i).window = some w)
    (hd : (128 ≤ (seq - w.startSeq).toNat ∧ (seq - w.startSeq).toNat ≤ 32767) ∨
      (64 ≤ (seq - w.startSeq).toNat ∧ (seq - w.startSeq).toNat ≤ 127 ∧ stamp = w.startStamp)) :
    s.windowPull i seq stamp = s.discardWindow i seq stamp := by
  unfold State.windowPull
  rewrite [hw]
  dsimp only
  obtain ⟨hd, hd'⟩ | ⟨hd, hd', rfl⟩ := hd
  · rw [classifyPull_overshot hd hd']
  · rewrite [classifyPull_closing hd hd']
    exact if_pos (BitVec.sub_self _)

theorem State.windowPull_completes (hw : (s.slot i).window = some w) (hd : 64 ≤ (seq - w.startSeq).toNat)
    (hd' : (seq - w.startSeq).toNat ≤ 127) (hn : stamp ≠ w.startStamp) : s.windowPull i seq stamp =
      s.completeWindow i (seq - w.startSeq).toNat (stamp - w.startStamp) seq stamp := by
  unfold State.windowPull
  rewrite [hw]
  dsimp only
  rewrite [classifyPull_closing hd hd']
  exact if_neg fun h => hn (sub_eq_zero.mp h)

/-! ### Pulls answered SILENT (R46, R63) -/

theorem exec_pull_unbound (h0 : h ≠ 0) (hn : s.Unheld h) : exec (.pull h seq stamp) s =
    .next (if s.isPending h then s.send (silentSpk h seq)
      else (s.anomaly .unbound none (some h) (some (seq, stamp))).send (silentSpk h seq)) := by
  show Host.Outcome.next (if isHandle h then s.takePull h seq stamp else _) = _
  rewrite [if_pos (isHandle_of_ne h0)]
  unfold State.takePull
  rw [State.boundSlot_unheld hn]

/-- A window opened where the record has just been replaced. -/
theorem State.openWindow_setSlot (s : State) (i : SlotId) (y : Slot) (seq : SeqNum) (stamp : Stamp) :
    (s.setSlot i y).openWindow i seq stamp =
      s.withSlot i { y with window := some { startSeq := seq, startStamp := stamp } } := by
  rewrite [State.openWindow_eq, State.slot_setSlot_self, State.setSlot_setSlot]
  rfl

/-- Settles O35: an unbound handle by its pending entry, an acquiring slot by its window. -/
theorem pullAnsweredSilent : Obligations.PullAnsweredSilent := by
  intro handle seq stamp s spk
  refine ⟨fun h0 => ?_, fun h0 => ⟨fun hn hp => ?_, fun hn hp => ?_, fun i hi hs => ?_⟩⟩
  · rewrite [h0]
    rfl
  · rewrite [exec_pull_unbound h0 hn, if_pos (State.isPending_iff.mpr hp)]
    rfl
  · rewrite [exec_pull_unbound h0 hn, if_neg (mt State.isPending_iff.mp (not_not.mpr hp)), State.anomaly_eq]
    rfl
  · intro x y opened
    have hexec : exec (.pull handle seq stamp) s = .next (((s.setSlot i y).windowPull i seq stamp).withOutgoing spk) := by
      rw [exec_pull_bound h0 seq stamp hi, State.pullOnSlot_acquiring hs]
    have hself : (s.setSlot i y).slot i = y := State.slot_setSlot_self ..
    have window : ((s.setSlot i y).slot i).window = x.window := by rw [hself]
    refine ⟨fun hw => ?_, fun w hw => ⟨fun hd => ?_, fun hd => ?_⟩⟩
    · rw [hexec, State.windowPull_opens (window.trans hw), State.openWindow_setSlot]
    · rewrite [hexec, State.windowPull_keeps (window.trans hw) hd]
      rfl
    · rewrite [hexec, State.windowPull_discards (window.trans hw) hd, State.discardWindow_eq, State.openWindow_setSlot, hself]
      exact hi.1 ▸ rfl

/-! ### Pulls answered with data (R113) -/

/-- Slot `i`'s record replaced, and the anomaly OUT_SHORT of its pass recorded where outputs were short (R66, R113). -/
def State.served (s : State) (i : SlotId) (h : Handle) (short : Bool) (seq : SeqNum) (stamp : Stamp) (v : Slot) : State :=
  if short then (s.withSlot i v).recorded .outShort (some i) (some h) (some (seq, stamp)) else s.withSlot i v

theorem State.served_of_slotAnomaly (short : Bool) (hv : v.handle = some h) :
    (s.setSlot i v).slotAnomaly short .outShort i (some (seq, stamp)) = s.served i h short seq stamp v := by
  rewrite [State.slotAnomaly_recorded (h := some h) ((congrArg Slot.handle (State.slot_setSlot_self ..)).trans hv)]
  cases short <;> rfl

theorem State.recorded_setSlot (kind : AnomalyKind) (slot : Option SlotId) (handle : Option Handle)
    (message : Option (SeqNum × Stamp)) (y : Slot) :
    (s.recorded kind slot handle message).setSlot i y = (s.setSlot i y).recorded kind slot handle message := by
  rw [← State.anomaly_eq, State.anomaly_setSlot, State.anomaly_eq]

theorem State.slot_served (s : State) (i j : SlotId) (h : Handle) (short : Bool) (seq : SeqNum) (stamp : Stamp)
    (v : Slot) : (s.served i h short seq stamp v).slot j = if j = i then v else s.slot j := by
  cases short with
  | true => exact (State.recorded_slot ..).trans (State.slot_setSlot ..)
  | false => exact State.slot_setSlot ..

theorem State.served_setSlot (s : State) (i : SlotId) (h : Handle) (short : Bool) (seq : SeqNum) (stamp : Stamp)
    (v y : Slot) : (s.served i h short seq stamp v).setSlot i y = s.served i h short seq stamp y := by
  cases short with
  | true => exact (State.recorded_setSlot ..).trans (congrArg (fun t => State.recorded t _ _ _ _) (State.setSlot_setSlot v y))
  | false => exact State.setSlot_setSlot v y

theorem State.openWindow_served (s : State) (i : SlotId) (h : Handle) (short : Bool) (v : Slot) :
    (s.served i h short seq stamp v).openWindow i seq stamp =
      s.served i h short seq stamp { v with window := some { startSeq := seq, startStamp := stamp } } := by
  rw [State.openWindow_eq, State.slot_served, if_pos rfl, State.served_setSlot]

/-- Settles O36: the pass is made, then the window takes the PULL. -/
theorem pullAnsweredWithData : Obligations.PullAnsweredWithData := by
  intro handle seq stamp s i h0 hi hs x r opened served spk
  let z : Slot := { x with
    idle := 0
    outRing := { samples := r.left, phase := r.phase, lastStep := some (s.stepOut i), lastServed := some seq }
    stats := { x.stats with
      pulls := min 65535 (x.stats.pulls + 1), outShort := min 65535 (x.stats.outShort + r.short) } }
  let u := s.served i handle (decide (0 < r.short)) seq stamp z
  have hexec : exec (.pull handle seq stamp) s = .next ((u.windowPull i seq stamp).withOutgoing spk) := by
    rewrite [exec_pull_bound h0 seq stamp hi, State.pullOnSlot_active hs]
    exact congrArg (fun t => Host.Outcome.next ((State.windowPull t i seq stamp).withOutgoing spk))
      (State.served_of_slotAnomaly (v := z) _ hi.1)
  have hserved : ∀ w, served w = s.served i handle (decide (0 < r.short)) seq stamp { z with window := some w } := by
    intro w
    unfold State.served
    by_cases hz : r.short = 0
    · exact (if_pos hz).trans (if_neg fun h => (of_decide_eq_true h).ne' hz).symm
    · exact (if_neg hz).trans (if_pos (decide_eq_true (Nat.pos_of_ne_zero hz))).symm
  have hself : u.slot i = z := (State.slot_served ..).trans (if_pos rfl)
  have window : (u.slot i).window = x.window := by rw [hself]
  refine ⟨fun hd => ?_, fun w hw => ?_⟩
  · rewrite [hexec, hserved]
    cases hw : x.window with
    | none => rewrite [State.windowPull_opens (window.trans hw), State.openWindow_served]; rfl
    | some w =>
      have hz : ({ z with window := some w } : Slot) = z := by rw [← hw]
      rw [State.windowPull_keeps (window.trans hw) (hd w hw), Option.getD_some, hz]
  · intro d hd
    rewrite [hexec, hserved, State.windowPull_discards (window.trans hw) hd, State.discardWindow_eq, State.openWindow_served,
      hself]
    exact hi.1 ▸ rfl

/-! ### The PULL that completes a window (R92) -/

/-- The SKEW notice of a FOLLOWER's clamped value, where it leaves its live LEADER's estimate (R39, R93). -/
def State.rateSkew (s : State) (i : SlotId) (c : Int) : List NoticeBody :=
  match s.leaderOf i with
  | some k =>
    let lead := (s.slot k).estimate
    if ((s.slot k).state = .active ∨ (s.slot k).state = .stalled) ∧ s.limits.pairTolerance < (c - lead).natAbs then
      [.skew i { reason := .rate, leader := k, followerValue := c, leaderValue := lead, difference := c - lead }]
    else []
  | none => []

/-- The notices of a completed window whose record is `v` (R39, R93). -/
def State.windowNotices (s : State) (i : SlotId) (v : Slot) (m : Int) (d : Nat) (n : BitVec 32) : List NoticeBody :=
  (if m.natAbs ≤ s.limits.slotLimit then []
  else
    [.rate i
      { state := v.state, measured := max (-32767) (min 32767 m), estimate := v.estimate,
        slotLimit := s.limits.slotLimit, failCount := v.failCount, blocks := d, ticks := n }]) ++
    s.rateSkew i (clampedValue m s.limits.slotLimit)

/-- What the comparison of rates reads of a state. -/
theorem State.rateSkew_congr (hrole : (u.slot i).role = (s.slot i).role) (hpart : (u.slot i).partner = (s.slot i).partner)
    (hlimits : u.limits = s.limits) (hother : ∀ k, s.leaderOf i = some k → u.slot k = s.slot k) (c : Int) :
    u.rateSkew i c = s.rateSkew i c := by
  have hl : u.leaderOf i = s.leaderOf i := by
    unfold State.leaderOf
    rw [hrole, hpart]
  unfold State.rateSkew
  rewrite [hl]
  cases hk : s.leaderOf i with
  | none => rfl
  | some k =>
    dsimp only
    rw [hother k hk, hlimits]

theorem State.compareRates_rateSkew (s : State) (i : SlotId) (m : Int) :
    s.compareRates i m = s.withNotices (s.rateSkew i (clampedValue m s.limits.slotLimit)) := by
  rewrite [State.compareRates_eq]
  unfold State.rateSkew
  cases s.leaderOf i <;> rfl

theorem State.limits_served (s : State) (i : SlotId) (h : Handle) (short : Bool) (v : Slot) :
    (s.served i h short seq stamp v).limits = s.limits := by
  cases short with
  | true => exact (congrArg State.limits (State.anomaly_eq ..)).symm.trans (State.anomaly_limits ..)
  | false => rfl

/-- RATE and SKEW of a completed window (R92). -/
theorem State.raises_window (h : Handle) (short : Bool) (hrole : v.role = (s.slot i).role)
    (hpart : v.partner = (s.slot i).partner) (hlead : ∀ k, s.leaderOf i = some k → k ≠ i) (m : Int) (d : Nat)
    (n : BitVec 32) :
    ((s.served i h short seq stamp v).raiseRate i m d n).compareRates i m =
      (s.served i h short seq stamp v).withNotices (s.windowNotices i v m d n) := by
  have hself : (s.served i h short seq stamp v).slot i = v := (State.slot_served ..).trans (if_pos rfl)
  have hlimits : (s.served i h short seq stamp v).limits = s.limits := State.limits_served ..
  have skew := fun c => State.rateSkew_congr (u := s.served i h short seq stamp v) (by rw [hself, hrole])
    (by rw [hself, hpart]) hlimits (fun k hk => (State.slot_served ..).trans (if_neg (hlead k hk))) c
  rewrite [State.raiseRate_eq, hself, hlimits, State.compareRates_rateSkew]
  unfold State.windowNotices
  rewrite [State.withNotices_append, ← skew]
  exact congrArg (fun l => State.withNotices _ (State.rateSkew _ i (clampedValue m (Limits.slotLimit l)))) hlimits

/-- Slot `i`'s record replaced at the close of its window, OUT_SHORT recorded and the notices raised. -/
def State.closed (s : State) (i : SlotId) (h : Handle) (short : Bool) (seq : SeqNum) (stamp : Stamp)
    (l : List NoticeBody) (v : Slot) : State :=
  (s.served i h short seq stamp v).withNotices l

section
variable {short : Bool} {l : List NoticeBody} {m : Int} {d : Nat} {n : BitVec 32}

theorem State.closed_slot (j : SlotId) :
    (s.closed i h short seq stamp l v).slot j = if j = i then v else s.slot j := State.slot_served ..

theorem State.closed_self : (s.closed i h short seq stamp l v).slot i = v := (State.closed_slot i).trans (if_pos rfl)

theorem State.closed_setSlot : (s.closed i h short seq stamp l v).setSlot i y = s.closed i h short seq stamp l y :=
  congrArg (fun t => State.withNotices t l) (State.served_setSlot ..)

theorem State.closed_openWindow : (s.closed i h short seq stamp l v).openWindow i seq stamp =
    s.closed i h short seq stamp l { v with window := some { startSeq := seq, startStamp := stamp } } := by
  rw [State.openWindow_eq, State.closed_self, State.closed_setSlot]

/-- The window closes: estimate and fail count, then RATE and SKEW, then the result of a MEASURING slot (R92). -/
theorem State.completeWindow_served (hrole : v.role = (s.slot i).role) (hpart : v.partner = (s.slot i).partner)
    (hlead : ∀ k, s.leaderOf i = some k → k ≠ i) (hm : measuredValue (Config.mixPeriodTicks * d) n.toNat = m)
    (hy : v.afterWindow m s.limits.slotLimit = y) {t : State}
    (ht : (s.closed i h short seq stamp (s.windowNotices i y m d n) y).measuringResult i m = t) :
    (s.served i h short seq stamp v).completeWindow i d n seq stamp =
      if (t.slot i).state = .empty then t else t.openWindow i seq stamp := by
  have after : (s.served i h short seq stamp v).modSlot i
      (fun x => x.afterWindow m (s.served i h short seq stamp v).limits.slotLimit) = s.served i h short seq stamp y := by
    rw [State.modSlot, State.slot_served, if_pos rfl, State.limits_served, hy, State.served_setSlot]
  have raised := State.raises_window (s := s) (v := y) (seq := seq) (stamp := stamp) h short
    (by rewrite [← hy]; exact hrole) (by rewrite [← hy]; exact hpart) hlead m d n
  unfold State.completeWindow
  dsimp only
  rewrite [hm, after, raised, ← ht]
  rfl

theorem State.closed_stays (hv : v.state ≠ .empty) :
    (if ((s.closed i h short seq stamp l v).slot i).state = .empty then s.closed i h short seq stamp l v
      else (s.closed i h short seq stamp l v).openWindow i seq stamp) =
      s.closed i h short seq stamp l { v with window := some { startSeq := seq, startStamp := stamp } } := by
  rw [State.closed_self, if_neg hv, State.closed_openWindow]

/-- The SLOT notice with which the record enters ACTIVE (R9). -/
def activeNotice (i : SlotId) (v : Slot) : NoticeBody :=
  .slot i { reason := .active, state := .active, role := v.role, partner := v.partner, handle := v.handle,
            identity := v.identity, linkReason := none }

theorem State.closed_limits : (s.closed i h short seq stamp l v).limits = s.limits := State.limits_served ..

/-- Within the limit, with its ring at the target or no microphone, a MEASURING slot enters ACTIVE (R8, R9). -/
theorem State.measuringResult_active (hs : v.state = .measuring) (hb : withinLimit m s.limits.slotLimit = true)
    (hfull : v.mic = false ∨ v.inTarget ≤ v.inRing.samples.length) :
    (s.closed i h short seq stamp l v).measuringResult i m =
      (((s.closed i h short seq stamp l { v with state := .active }).silencedWhen true i).withNotice
        (activeNotice i v)).leadTaken i := by
  have filled : (s.closed i h short seq stamp l v).modSlot i (fun x => { x with state := .filling }) =
      s.closed i h short seq stamp l { v with state := .filling } := by
    rw [State.modSlot, State.closed_self, State.closed_setSlot]
  unfold State.measuringResult
  rewrite [State.closed_self, if_pos hs, State.closed_limits, if_pos hb, filled,
    State.fillTest_fills (by rw [State.closed_self]) (by rewrite [State.closed_self]; exact hfull)]
  unfold State.activated
  rewrite [State.closed_self]
  exact congrArg (fun t => (State.withNotice (State.silencedWhen t true i) (activeNotice i v)).leadTaken i)
    State.closed_setSlot

/-- The window that opens on the slot that has entered ACTIVE. -/
theorem State.activated_opens {b : NoticeBody} :
    let t := (((s.closed i h short seq stamp l { v with state := .active }).silencedWhen true i).withNotice b).leadTaken i
    (if (t.slot i).state = .empty then t else t.openWindow i seq stamp) =
      (((s.closed i h short seq stamp l
        { v with state := .active, window := some { startSeq := seq, startStamp := stamp } }).silencedWhen true
          i).withNotice b).leadTaken i := by
  intro t
  let u := ((s.closed i h short seq stamp l { v with state := .active }).silencedWhen true i).withNotice b
  have hself : u.slot i = { v with state := .active } := State.closed_self (l := l)
  obtain ⟨r, hr⟩ := State.slot_leadTaken u i i
  have hstate : (t.slot i).state ≠ .empty := by
    show ((u.leadTaken i).slot i).state ≠ .empty
    rewrite [hr, hself]
    exact fun h => SlotState.noConfusion h
  rewrite [if_neg hstate]
  refine (State.openWindow_leadTaken (by rewrite [hself]; exact fun h => SlotState.noConfusion h) seq stamp).trans ?_
  rewrite [State.openWindow_eq, hself]
  exact congrArg (fun t => (State.withNotice (State.silencedWhen t true i) b).leadTaken i) State.closed_setSlot

/-- The part from which a third window outside the limit empties slot `i` (R8). -/
def State.failing (s : State) (i : SlotId) (h : Handle) (short : Bool) (seq : SeqNum) (stamp : Stamp)
    (l : List NoticeBody) (v : Slot) : State :=
  (s.closed i h short seq stamp l v).withOutgoing [.release h]

theorem State.measuringResult_fails (hs : v.state = .measuring) (hb : withinLimit m s.limits.slotLimit = false)
    (hf : 3 ≤ v.failCount) (hh : v.handle = some h) : (s.closed i h short seq stamp l v).measuringResult i m =
      (s.failing i h short seq stamp l v).failSlot i .failRate none := by
  rewrite [State.measuringResult_fail (by rewrite [State.closed_self]; exact hs) (by rewrite [State.closed_limits]; exact hb)
    (by rewrite [State.closed_self]; exact hf), State.closed_self, hh]
  rfl

theorem State.failing_slot (j : SlotId) :
    (s.failing i h short seq stamp l v).slot j = if j = i then v else s.slot j := State.closed_slot (l := l) j

theorem State.failing_pairs (hP : s.PairsLawful) (hv : v.pairing = (s.slot i).pairing) :
    (s.failing i h short seq stamp l v).PairsLawful := by
  refine SamePairs.lawful (fun j => ?_) hP
  rewrite [State.failing_slot]
  split
  · next hj => rw [hj, hv]
  · rfl

theorem State.failing_solo (hP : s.PairsLawful) (hv : v.pairing = (s.slot i).pairing) (hs : v.state = .measuring)
    (hh : v.handle = some h) (hk : v.partner = none) :
    (s.failing i h short seq stamp l v).failSlot i .failRate none =
      ((s.closed i h short seq stamp l v.leftEmpty).withOutgoing [.release h]).withNotice
        (.slot i { reason := .failRate, state := .empty, role := .solo, partner := none, handle := some h,
                   identity := none, linkReason := none }) := by
  have hself : (s.failing i h short seq stamp l v).slot i = v := (State.failing_slot i).trans (if_pos rfl)
  rewrite [State.failSlot_solo (State.failing_pairs hP hv) (by rewrite [hself]; exact .inl hs) (by rewrite [hself]; exact hk), hself, hh]
  exact congrArg (fun t => (State.withOutgoing t [.release h]).withNotice _) State.closed_setSlot

theorem State.failing_pair (hP : s.PairsLawful) (hv : v.pairing = (s.slot i).pairing) (hs : v.state = .measuring)
    (hh : v.handle = some h) (hk : v.partner = some k) (hne : k ≠ i) :
    (s.failing i h short seq stamp l v).failSlot i .failRate none =
      (((s.closed i h short seq stamp l v.leftEmpty).withOutgoing [.release h]).withSlot k
        { s.slot k with role := .solo, partner := none, talker := { (s.slot k).talker with primary := false } }).withNotices
        [.slot i { reason := .failRate, state := .empty, role := .solo, partner := none, handle := some h,
                   identity := none, linkReason := none },
          .slot k { reason := .role, state := (s.slot k).state, role := .solo, partner := none,
                    handle := (s.slot k).handle, identity := (s.slot k).identity, linkReason := none }] := by
  have hself : (s.failing i h short seq stamp l v).slot i = v := (State.failing_slot i).trans (if_pos rfl)
  have hother : (s.failing i h short seq stamp l v).slot k = s.slot k := (State.failing_slot k).trans (if_neg hne)
  rewrite [State.failSlot_pair (State.failing_pairs hP hv) (by rewrite [hself]; exact .inl hs) (by rewrite [hself]; exact hk), hself,
    hother, hh]
  exact congrArg (fun t => State.withNotices (State.withSlot (State.withOutgoing t [.release h]) k _) _)
    State.closed_setSlot

end

end Sys2Proof.Machine
end

section
/-!
SUPPORT. The PULL that completes a window, answer by answer (R8, R9, R39, R92, R93).
-/
namespace Sys2Proof.Machine

variable {s : State} {i k : SlotId} {h : Handle} {seq : SeqNum} {stamp : Stamp} {w : RateWindow} {x : Slot}

/-- The record of a slot whose PULL has been counted and answered, the window not yet asked: an ACTIVE slot's pass is made
(R62, R113). -/
def Slot.answered (x : Slot) (step : Nat) (seq : SeqNum) : Slot :=
  let pass := runPass step 80 x.outRing.samples x.outRing.phase
  { x with
    idle := 0
    outRing :=
      if x.state == .active then
        { samples := pass.left, phase := pass.phase, lastStep := some step, lastServed := some seq }
      else x.outRing
    stats := { x.stats with
      pulls := min 65535 (x.stats.pulls + 1),
      outShort := if x.state == .active then min 65535 (x.stats.outShort + pass.short) else x.stats.outShort } }

/-- The SPK that answers a PULL on a slot (R63, R113). -/
def Slot.answer (x : Slot) (step : Nat) (h : Handle) (seq : SeqNum) : RadioOut :=
  let pass := runPass step 80 x.outRing.samples x.outRing.phase
  if x.state == .active then .spk h seq false (decide (0 < pass.short)) pass.outputs
  else .spk h seq true false (List.replicate 80 0)

/-- Whether the answer's pass is short. -/
def Slot.answerShort (x : Slot) (step : Nat) : Bool :=
  x.state == .active && decide (0 < (runPass step 80 x.outRing.samples x.outRing.phase).short)

/-- A PULL on an acquiring or ACTIVE slot: the answer is formed, the window asked, the answer sent (R62). -/
theorem State.pullOnSlot_answers (hs : (s.slot i).state = .active ∨ (s.slot i).state = .measuring ∨
    (s.slot i).state = .filling) (hh : (s.slot i).handle = some h) :
    s.pullOnSlot i h seq stamp =
      ((s.served i h ((s.slot i).answerShort (s.stepOut i)) seq stamp ((s.slot i).answered (s.stepOut i) seq)).windowPull i
        seq stamp).withOutgoing [(s.slot i).answer (s.stepOut i) h seq] := by
  obtain ⟨v, hv⟩ : ∃ v, (s.slot i).answered (s.stepOut i) seq = v := ⟨_, rfl⟩
  obtain ⟨spk, hspk⟩ : ∃ spk, (s.slot i).answer (s.stepOut i) h seq = spk := ⟨_, rfl⟩
  obtain ⟨short, hshort⟩ : ∃ short, (s.slot i).answerShort (s.stepOut i) = short := ⟨_, rfl⟩
  have hvh : v.handle = some h := hv ▸ hh
  rewrite [hv, hspk, hshort, ← State.served_of_slotAnomaly _ hvh]
  unfold Slot.answered at hv
  unfold Slot.answer at hspk
  unfold Slot.answerShort at hshort
  obtain hs | hs := hs
  · have active : ((s.slot i).state == .active) = true := by rewrite [hs]; rfl
    rewrite [State.pullOnSlot_active hs, ← hv, ← hspk, ← hshort, active]
    rfl
  · have idle : ((s.slot i).state == .active) = false := by obtain hs | hs := hs <;> rewrite [hs] <;> rfl
    rewrite [State.pullOnSlot_acquiring hs, ← hv, ← hspk, ← hshort, idle]
    rfl

/-- The record after the window has been measured, its new window open (R8, R89). -/
theorem Slot.afterWindow_eq (v : Slot) (m : Int) {limit : Nat} (hl : limit ≤ 8000) :
    let c := max (-(limit : Int)) (min (limit : Int) m)
    v.afterWindow m limit = { v with
      estimate := if v.state = .measuring ∨ v.firstWindow = false then c else v.estimate + Int.tdiv (c - v.estimate) 4
      firstWindow := true
      failCount :=
        if v.state = .measuring then (if decide (m.natAbs ≤ limit) then 0 else v.failCount + 1) else v.failCount } := by
  intro c
  unfold Slot.afterWindow
  rewrite [clampedValue_eq m hl]
  simp only [Bool.not_eq_true']
  rfl

/-- A slot of a lawful part does not lead itself. -/
theorem State.PairsLawful.leaderOf_ne (hP : s.PairsLawful) (h : s.leaderOf i = some k) : k ≠ i := by
  unfold State.leaderOf at h
  cases hr : (s.slot i).role <;> rewrite [hr] at h
  case follower => exact (hP.pair h).1
  all_goals cases h

/-- Messages sent before and after notices are raised. -/
theorem State.withOutgoing_withNotices (s : State) (a b : List RadioOut) (l : List NoticeBody) :
    ((s.withOutgoing a).withNotices l).withOutgoing b = (s.withNotices l).withOutgoing (a ++ b) := by
  unfold State.withOutgoing State.withNotices
  dsimp only
  rw [List.append_assoc]

/-- Settles O37: the answer, the estimate and the notices of the window, then the result of a MEASURING slot. -/
theorem pullClosesTheWindow : Obligations.PullClosesTheWindow := by
  intro handle seq stamp s i w h0 hi hP hw hd hd' hn hlo hhi x d n m limit c within active pass estimate failCount y spk
    rate skew after
  let v := x.answered (s.stepOut i) seq
  let z := v.afterWindow m s.limits.slotLimit
  let l := s.windowNotices i z m d n
  have hy : ({ z with window := some { startSeq := seq, startStamp := stamp } } : Slot) = y := by
    show ({ v.afterWindow m s.limits.slotLimit with window := _ } : Slot) = y
    rewrite [Slot.afterWindow_eq v m hhi]
    rfl
  have hestimate : z.estimate = estimate := congrArg Slot.estimate hy
  have hfail : z.failCount = failCount := congrArg Slot.failCount hy
  have hskew : s.rateSkew i c = skew := by
    unfold State.rateSkew
    cases hk : s.leaderOf i <;> simp only [skew, hk]
  have hl : rate ++ skew = l := by
    show _ = (if m.natAbs ≤ s.limits.slotLimit then [] else _) ++ s.rateSkew i (clampedValue m s.limits.slotLimit)
    rewrite [clampedValue_eq m hhi, hestimate, hfail]
    exact congrArg₂ (· ++ ·) (if_congr decide_eq_true_iff rfl rfl) hskew.symm
  have hafter : ∀ u, after u = s.closed i handle (x.answerShort (s.stepOut i)) seq stamp l u :=
    fun u => congrArg (State.withNotices _) hl
  have hexec : (x.state = .active ∨ x.state = .measuring ∨ x.state = .filling) → ∀ t,
      (s.closed i handle (x.answerShort (s.stepOut i)) seq stamp l z).measuringResult i m = t →
      exec (.pull handle seq stamp) s =
        .next ((if (t.slot i).state = .empty then t else t.openWindow i seq stamp).withOutgoing [spk]) := by
    intro hs t ht
    have hself : (s.served i handle (x.answerShort (s.stepOut i)) seq stamp v).slot i = v :=
      (State.slot_served ..).trans (if_pos rfl)
    rewrite [exec_pull_bound h0 seq stamp hi, State.pullOnSlot_answers hs hi.1,
      State.windowPull_completes (w := w) (by rewrite [hself]; exact hw) hd hd' hn,
      State.completeWindow_served (v := v) rfl rfl (fun _ => hP.leaderOf_ne) rfl rfl ht]
    rfl
  have hbound : withinLimit m s.limits.slotLimit = within := rfl
  have hcount : x.state = .measuring → within = false → z.failCount = x.failCount + 1 := by
    intro hs hout
    rewrite [hfail]
    show (if x.state = .measuring then (if within then 0 else x.failCount + 1) else x.failCount) = x.failCount + 1
    rewrite [if_pos hs, hout]
    rfl
  refine ⟨fun hs => ?_, fun hs hin hmic hfill => ?_, fun hs hin hfull => ?_, fun hs hout hfails => ?_⟩
  · have stays : (s.closed i handle (x.answerShort (s.stepOut i)) seq stamp l z).measuringResult i m =
        s.closed i handle (x.answerShort (s.stepOut i)) seq stamp l z := by
      obtain hs | hs | ⟨hs, hout, hfew⟩ := hs
      · exact State.measuringResult_other fun h => by rewrite [State.closed_self] at h; exact absurd (hs.symm.trans h) (by decide)
      · exact State.measuringResult_other fun h => by rewrite [State.closed_self] at h; exact absurd (hs.symm.trans h) (by decide)
      · refine State.measuringResult_stay (by rewrite [State.closed_self]; exact hs) ?_ ?_
        · rewrite [State.closed_limits]
          exact hbound.trans hout
        · rewrite [State.closed_self, hcount hs hout]
          exact Nat.succ_lt_succ hfew
    have hanswers : x.state = .active ∨ x.state = .measuring ∨ x.state = .filling :=
      hs.imp_right fun h => h.elim .inr fun h => .inl h.1
    have hstate : z.state ≠ .empty := fun h => by obtain hs | hs | hs := hanswers <;> cases hs.symm.trans h
    rw [hexec hanswers _ stays, State.closed_stays hstate, hy, ← hafter]
  · have fills : (s.closed i handle (x.answerShort (s.stepOut i)) seq stamp l z).measuringResult i m =
        s.closed i handle (x.answerShort (s.stepOut i)) seq stamp l { z with state := .filling } := by
      rw [State.measuringResult_filling (by rewrite [State.closed_self]; exact hs)
        (by rewrite [State.closed_limits]; exact hbound.trans hin) (by rewrite [State.closed_self]; exact hmic)
        (by rewrite [State.closed_self]; exact hfill), State.closed_self, State.closed_setSlot]
    rw [hexec (.inr (.inl hs)) _ fills, State.closed_stays (fun h => SlotState.noConfusion h), hafter, ← hy]
  · rewrite [hexec (.inr (.inl hs)) _ (State.measuringResult_active hs (hbound.trans hin) hfull), State.activated_opens,
      hafter, ← hy, activeNotice, show z.handle = some handle from hi.1]
    rfl
  · intro failed
    have fails := State.measuringResult_fails (s := s) (i := i) (h := handle) (v := z)
      (short := x.answerShort (s.stepOut i)) (seq := seq) (stamp := stamp) (l := l) hs (hbound.trans hout)
      (by rewrite [hcount hs hout]; exact Nat.succ_le_succ hfails) hi.1
    have hempty : y.leftEmpty = z.leftEmpty := rfl
    have hself : (s.closed i handle (x.answerShort (s.stepOut i)) seq stamp l z.leftEmpty).slot i = z.leftEmpty :=
      State.closed_self
    refine ⟨fun hk => ?_, fun k hk => ?_⟩
    · rewrite [State.failing_solo (v := z) hP rfl hs hi.1 hk] at fails
      rewrite [hexec (.inr (.inl hs)) _ fails, hafter, hempty]
      exact congrArg Host.Outcome.next ((congrArg (fun t => State.withOutgoing t [spk])
        (if_pos (congrArg Slot.state hself))).trans (State.withOutgoing_withNotices _ [.release handle] [spk] [failed]))
    · have hne : k ≠ i := (hP.pair hk).1
      rewrite [State.failing_pair (v := z) hP rfl hs hi.1 hk hne] at fails
      intro u
      rewrite [hexec (.inr (.inl hs)) _ fails, hafter, hempty]
      exact congrArg Host.Outcome.next ((congrArg (fun t => State.withOutgoing t [spk])
        (if_pos (congrArg Slot.state ((State.slot_setSlot_ne _ hne.symm _).trans hself)))).trans
          (State.withOutgoing_withNotices (State.withSlot _ k _) [.release handle] [spk] _))

end Sys2Proof.Machine
end
